-- ==== Sys2Proof/Word.lean ====
section
/-! DEFINITION. The words of the part: bytes on its wires, 16-bit fields and sets, and the stamps of its 32-bit
microsecond timebase (00_scope.md section 5; R165). -/

namespace Sys2Proof

/-- One byte on the report link or on a sensor port (R165). -/
abbrev Byte := BitVec 8

/-- A 16-bit field: a cause set or a table set, bit n naming cause n or table n (R165). -/
abbrev Half := BitVec 16

/-- A value of the free-running 32-bit microsecond timebase (00_scope.md section 5, Times). -/
abbrev Stamp := BitVec 32

end Sys2Proof
end

