-- ==== Sys2Proof/Config.lean ====
section
/-! DEFINITION. What the part fixes for itself (its part code and revision), and the one free value of the model: the order
in which ports with waiting records begin them when one event releases several (R143 and R145 name no order). -/

namespace Sys2Proof

/-- The part code that READ_STATUS reports (R151). -/
def Config.partCode : Nat := 0x34

/-- The revision that READ_STATUS reports (R151). -/
def Config.revision : Nat := 1

/-- FREE VALUE (DESIGN CHOICE, safe: log entry 3). When one event lets several ports begin their waiting records, R143 and
R145 say that each begins, and no rule says which first. The order is taken from this constant, which has no body, applied to
the State's counter of free choices; every order is one of its values (`Machine.arrange`). -/
opaque Config.beginOrder : Nat → Nat

end Sys2Proof
end

