-- ==== Sys2Proof/Syntax.lean ====
section
/-! DEFINITION. The commands of the part, one constructor per row of spec/opcode_table.json, with the operands each row needs.
Every command carries `t`, the value of the timebase at the moment it happens (DESIGN CHOICE, log entry 1). -/

namespace Sys2Proof

/-- A character on the line of a sensor port: its 8 data bits in the order in which they come, and whether its stop bit stands
(section 1, R9, R165). -/
structure Character where
  bits : List Bool
  /-- the stop bit stands: without it the character has a framing error -/
  stop : Bool
deriving DecidableEq, Repr

/-- A directive cell as it comes on SDI, without its kind byte, which the constructor names or carries (DESIGN CHOICE, log entry
13): the payload length byte and the bytes that follow it (R166). -/
structure DirectiveCell where
  /-- byte 1 of the cell -/
  length : Byte
  /-- bytes 2..63 of the cell, as received -/
  payload : List Byte
deriving DecidableEq, Repr

/-- An edge of CLICKn (R17): the line is low while the switch is pressed. -/
inductive ClickEdge where
  /-- the line goes low: the switch is pressed -/
  | falling
  /-- the line goes high: the switch is released -/
  | rising
deriving DecidableEq, Repr

/-- The commands. `port` is one of the four sensor ports, and `line` the characters that come on its line up to the event (R168;
DESIGN CHOICE, log entry 14). `c` is the directive cell on SDI (R166) and `kind` the kind byte of a cell that names no directive
(R149). `bits` are the bits that come on SDI before SELn rises, as they come (R146; DESIGN CHOICE, log entry 14). -/
inductive Instr where
  | powerOnReset (t : Stamp)
  | hardReset (t : Stamp)
  | resetnRelease (t : Stamp)
  | scanRecordArrival (t : Stamp) (port : Fin 4) (line : List Character)
  | framingError (t : Stamp) (port : Fin 4) (line : List Character)
  | interByteGap (t : Stamp) (port : Fin 4) (line : List Character)
  | deadlineExpiry (t : Stamp) (port : Fin 4)
  | frameCompletion (t : Stamp) (port : Fin 4)
  | clicknEdge (t : Stamp) (edge : ClickEdge)
  | clickDebounceExpiry (t : Stamp)
  | keystrokeQuietExpiry (t : Stamp)
  | tapGapExpiry (t : Stamp)
  | coastExpiry (t : Stamp)
  | shadowHoldExpiry (t : Stamp)
  | deferralExpiry (t : Stamp)
  | exchangeBegin (t : Stamp)
  | exchangeTruncated (t : Stamp) (bits : List Bool)
  | poll (t : Stamp) (c : DirectiveCell)
  | readStatus (t : Stamp) (c : DirectiveCell)
  | clearCauses (t : Stamp) (c : DirectiveCell)
  | setMask (t : Stamp) (c : DirectiveCell)
  | setCeiling (t : Stamp) (c : DirectiveCell)
  | writeTable (t : Stamp) (c : DirectiveCell)
  | readTable (t : Stamp) (c : DirectiveCell)
  | commitTables (t : Stamp) (c : DirectiveCell)
  | discardShadow (t : Stamp) (c : DirectiveCell)
  | setPort (t : Stamp) (c : DirectiveCell)
  | setPosture (t : Stamp) (c : DirectiveCell)
  | flushSurface (t : Stamp) (c : DirectiveCell)
  | restart (t : Stamp) (c : DirectiveCell)
  | unknown (t : Stamp) (kind : Byte) (c : DirectiveCell)
  | selnRelease (t : Stamp) (bits : List Bool)
deriving DecidableEq, Repr

end Sys2Proof
end

