-- ==== Sys2Proof/WellFormed.lean ====
section
/-! DEFINITION. What makes a command one that the wires can bring as the table tells its rows apart: a character has 8 data bits
(section 1), and its stop bit is missing in the last one of FRAMING_ERROR alone (R9); a directive cell has 64 bytes (R166);
UNKNOWN carries a kind byte that names no directive (R149); and EXCHANGE_TRUNCATED comes before the 64th byte (R146). -/

namespace Sys2Proof

/-- The kind bytes of the directives, in the order of the table of R166. -/
def directiveKinds : List Byte :=
  [0x00, 0x01, 0x02, 0x03, 0x04, 0x10, 0x11, 0x12, 0x13, 0x20, 0x21, 0x22, 0x30]

/-- A directive cell of 64 bytes: the kind, the length and 62 more (R166). -/
def DirectiveCell.wellFormed (c : DirectiveCell) : Bool := c.payload.length == 62

/-- A character of 8 data bits. -/
def Character.wellFormed (ch : Character) : Bool := ch.bits.length == 8

/-- Characters of 8 data bits, each with its stop bit. -/
def lineWellFormed (line : List Character) : Bool := line.all fun ch => ch.wellFormed && ch.stop

/-- Characters of 8 data bits, of which the last one alone lacks its stop bit (R9). -/
def brokenLineWellFormed (line : List Character) : Bool :=
  match line.getLast? with
  | none => false
  | some ch => lineWellFormed line.dropLast && ch.wellFormed && !ch.stop

/-- A kind byte that names no directive (R149). -/
def kindUnknown (k : Byte) : Bool := !directiveKinds.contains k

/-- The commands that the wires can bring. -/
def Instr.wellFormed : Instr → Bool
  | .powerOnReset _ => true
  | .hardReset _ => true
  | .resetnRelease _ => true
  | .scanRecordArrival _ _ line => !line.isEmpty && lineWellFormed line
  | .framingError _ _ line => brokenLineWellFormed line
  | .interByteGap _ _ line => lineWellFormed line
  | .deadlineExpiry _ _ => true
  | .frameCompletion _ _ => true
  | .clicknEdge _ _ => true
  | .clickDebounceExpiry _ => true
  | .keystrokeQuietExpiry _ => true
  | .tapGapExpiry _ => true
  | .coastExpiry _ => true
  | .shadowHoldExpiry _ => true
  | .deferralExpiry _ => true
  | .exchangeBegin _ => true
  | .exchangeTruncated _ bits => bits.length < 512
  | .poll _ c => c.wellFormed
  | .readStatus _ c => c.wellFormed
  | .clearCauses _ c => c.wellFormed
  | .setMask _ c => c.wellFormed
  | .setCeiling _ c => c.wellFormed
  | .writeTable _ c => c.wellFormed
  | .readTable _ c => c.wellFormed
  | .commitTables _ c => c.wellFormed
  | .discardShadow _ c => c.wellFormed
  | .setPort _ c => c.wellFormed
  | .setPosture _ c => c.wellFormed
  | .flushSurface _ c => c.wellFormed
  | .restart _ c => c.wellFormed
  | .unknown _ kind c => kindUnknown kind && c.wellFormed
  | .selnRelease _ _ => true

end Sys2Proof
end

