-- ==== Sys2Proof/Machine/Tables.lean ====
section
/-! DEFINITION. The eight tables: the form of their entries, their sizes, field ranges and defaults (R136, R138, R169),
the commit validation (R140 to R142), and the curve that three of them hold (R67, R111). -/

namespace Sys2Proof.Machine

/-- The surfaces a rule applies to (R44). -/
inductive Scope where
  | pad | screen | both
deriving DecidableEq, Repr

/-- The relation of a condition (R45). -/
inductive Relation where
  | eq | ne | lt | ge | anyOf
deriving DecidableEq, Repr

/-- The verdict of a rule (R47). -/
inductive Verdict where
  | finger | palm | resting | ignore | mark
deriving DecidableEq, Repr

/-- The function of a pad zone (R136). -/
inductive ZoneFunction where
  | pointer | secondary | middle | rest | dead
deriving DecidableEq, Repr

/-- One condition of a rule: a test on one feature (R45). -/
structure Condition where
  feature : Nat
  relation : Relation
  operand : Nat
deriving DecidableEq, Repr

/-- One rule of the RULES table (section 3.4, R136). -/
structure Rule where
  enabled : Bool
  scope : Scope
  count : Nat
  c1 : Condition
  c2 : Condition
  c3 : Condition
  /-- absent, or a rule index -/
  prereq : Option Nat
  verdict : Verdict
deriving DecidableEq, Repr

/-- One zone of the ZONES table; the bounds include both ends (R136). -/
structure Zone where
  enabled : Bool
  function : ZoneFunction
  x0 : Nat
  y0 : Nat
  x1 : Nat
  y1 : Nat
deriving DecidableEq, Repr

/-- One knot of a motion curve (speed, gain) or of the pressure curve (input, output) (R136). -/
structure Knot where
  input : Nat
  output : Nat
deriving DecidableEq, Repr

/-- One boundary of POSTURE_BANDS, in degrees (R136). -/
structure Boundary where
  rise : Nat
  fall : Nat
deriving DecidableEq, Repr

/-- One bank of the eight tables (R136). -/
structure Tables where
  rules : List Rule
  zones : List Zone
  pointerCurve : List Knot
  scrollCurve : List Knot
  pressureCurve : List Knot
  bands : List Boundary
  params : List Nat
  calibration : List Int
deriving DecidableEq, Repr

/-- The names of the tables, in the order of their numbers 0..7 (section 8 head table). -/
inductive TableId where
  | rules | zones | pointerCurve | scrollCurve | pressureCurve | bands | params | calibration
deriving DecidableEq, Repr

/-- The tables in ascending number. -/
def allTables : List TableId :=
  [.rules, .zones, .pointerCurve, .scrollCurve, .pressureCurve, .bands, .params, .calibration]

/-- The number of a table. -/
def tableCode : TableId → Nat
  | .rules => 0 | .zones => 1 | .pointerCurve => 2 | .scrollCurve => 3
  | .pressureCurve => 4 | .bands => 5 | .params => 6 | .calibration => 7

/-- The table a number names; none above 7 (R137, R139). -/
def tableOfCode (n : Nat) : Option TableId := allTables[n]?

/-- The number of entries of a table. -/
def tableSize : TableId → Nat
  | .rules => 32 | .zones => 8 | .pointerCurve => 8 | .scrollCurve => 8
  | .pressureCurve => 6 | .bands => 3 | .params => 28 | .calibration => 4

/-- The most entries of a table that one WRITE_TABLE or READ_TABLE carries. -/
def tableMax : TableId → Nat
  | .rules => 3 | .zones => 5 | .pointerCurve => 8 | .scrollCurve => 8
  | .pressureCurve => 6 | .bands => 3 | .params => 14 | .calibration => 4

/-- The bytes of one entry of a table (R169). -/
def entrySize : TableId → Nat
  | .rules => 17 | .zones => 10 | .pointerCurve => 4 | .scrollCurve => 4
  | .pressureCurve => 4 | .bands => 4 | .params => 2 | .calibration => 4

/-! ## Defaults (R136) -/

/-- A condition as the default rules hold it. -/
def defaultCondition : Condition := ⟨0, .eq, 0⟩

/-- The default of every rule. -/
def defaultRule : Rule :=
  ⟨false, .both, 0, defaultCondition, defaultCondition, defaultCondition, none, .finger⟩

/-- The default of zone 0: the whole pad as POINTER. -/
def defaultZone0 : Zone := ⟨true, .pointer, 0, 0, 8191, 5119⟩

/-- The default of zones 1..7. -/
def defaultZone : Zone := ⟨false, .pointer, 0, 0, 0, 0⟩

/-- The default knots of a motion curve with one gain at every knot. -/
def defaultMotionCurve (gain : Nat) : List Knot :=
  [⟨0, gain⟩, ⟨32, gain⟩, ⟨64, gain⟩, ⟨96, gain⟩, ⟨128, gain⟩, ⟨160, gain⟩, ⟨192, gain⟩, ⟨224, gain⟩]

/-- A parameter slot's field range and default (R136). -/
structure ParamSpec where
  lo : Nat
  hi : Nat
  dflt : Nat
deriving DecidableEq, Repr

/-- The parameter slots 0..27 in order (R136). -/
def paramSpecs : List ParamSpec :=
  [⟨40, 600, 180⟩, ⟨100, 3000, 700⟩, ⟨60, 500, 220⟩, ⟨16, 640, 96⟩,
   ⟨32, 1280, 160⟩, ⟨32, 1280, 192⟩, ⟨64, 2560, 640⟩, ⟨0, 3, 1⟩,
   ⟨1, 15, 3⟩, ⟨256, 8191, 1280⟩, ⟨256, 16383, 2048⟩, ⟨1, 2047, 64⟩,
   ⟨1, 2047, 8⟩, ⟨128, 254, 232⟩, ⟨1, 15, 5⟩, ⟨0, 2000, 600⟩,
   ⟨0, 1, 0⟩, ⟨0, 16383, 4000⟩, ⟨0, 10239, 3000⟩, ⟨0, 4095, 600⟩,
   ⟨0, 4095, 400⟩, ⟨1, 4095, 60⟩, ⟨0, 4095, 40⟩, ⟨100, 5000, 1500⟩,
   ⟨4, 250, 40⟩, ⟨4, 250, 40⟩, ⟨4, 250, 40⟩, ⟨4, 250, 40⟩]

/-- The range of each CALIBRATION value: two scales, two offsets (R136). -/
def calibrationRange (i : Nat) : Int × Int :=
  if i < 2 then (1, 131071) else (-16384, 16383)

/-- Every table at its default contents (R136). -/
def defaultTables : Tables where
  rules := List.replicate 32 defaultRule
  zones := defaultZone0 :: List.replicate 7 defaultZone
  pointerCurve := defaultMotionCurve 64
  scrollCurve := defaultMotionCurve 32
  pressureCurve := [⟨0, 0⟩, ⟨819, 819⟩, ⟨1638, 1638⟩, ⟨2457, 2457⟩, ⟨3276, 3276⟩, ⟨4095, 4095⟩]
  bands := [⟨12, 6⟩, ⟨195, 185⟩, ⟨350, 340⟩]
  params := paramSpecs.map (·.dflt)
  calibration := [32768, 20480, 0, 0]

/-! ## Reading a bank -/

/-- The value of a parameter slot. -/
def Tables.param (t : Tables) (slot : Nat) : Nat := t.params.getD slot 0

def Tables.tapMax (t : Tables) : Nat := t.param 0
def Tables.holdMin (t : Tables) : Nat := t.param 1
def Tables.tapGap (t : Tables) : Nat := t.param 2
def Tables.tapSlop (t : Tables) : Nat := t.param 3
def Tables.scrollStart (t : Tables) : Nat := t.param 4
def Tables.pinchStart (t : Tables) : Nat := t.param 5
def Tables.swipeStart (t : Tables) : Nat := t.param 6
def Tables.liftGrace (t : Tables) : Nat := t.param 7
def Tables.persistPalm (t : Tables) : Nat := t.param 8
def Tables.padJump (t : Tables) : Nat := t.param 9
def Tables.screenJump (t : Tables) : Nat := t.param 10
def Tables.coastStart (t : Tables) : Nat := t.param 11
def Tables.coastStop (t : Tables) : Nat := t.param 12
def Tables.coastDecay (t : Tables) : Nat := t.param 13
def Tables.clickDebounce (t : Tables) : Nat := t.param 14
def Tables.penShadowHold (t : Tables) : Nat := t.param 15
/-- Handedness LEFT (code 1) against RIGHT (code 0). -/
def Tables.leftHanded (t : Tables) : Bool := t.param 16 == 1
def Tables.shadowW (t : Tables) : Nat := t.param 17
def Tables.shadowH (t : Tables) : Nat := t.param 18
def Tables.shadowBack (t : Tables) : Nat := t.param 19
def Tables.shadowUp (t : Tables) : Nat := t.param 20
def Tables.tipOn (t : Tables) : Nat := t.param 21
def Tables.tipOff (t : Tables) : Nat := t.param 22
def Tables.postureWait (t : Tables) : Nat := t.param 23
def Tables.lateAfter (t : Tables) (port : Fin 4) : Nat := t.param (24 + port.val)

/-- The function of a landing zone, NONE counting as POINTER (R29). The function is the one the zone has now, whether or
not the zone is enabled (R48). -/
def Tables.zoneFunction (t : Tables) (zone : Option Nat) : ZoneFunction :=
  match zone with
  | none => .pointer
  | some i => ((t.zones[i]?).map (·.function)).getD .pointer

/-- One segment of a curve: the product is exact and the division truncates toward zero (R67, R111). -/
def segment (a b : Knot) (v : Nat) : Int :=
  (a.output : Int) +
    Int.tdiv (((b.output : Int) - a.output) * ((v : Int) - a.input)) ((b.input : Int) - a.input)

/-- The value of a curve at `v`: the first output at or below the first knot, the last output at or above the last knot,
and the segment's value between (R67, R111). -/
def curveValue : List Knot → Nat → Int
  | [], _ => 0
  | [k], _ => k.output
  | a :: b :: rest, v =>
    if v ≤ a.input then a.output
    else if v < b.input then segment a b v
    else curveValue (b :: rest) v

/-! ## Moving tables between banks -/

/-- One table of `src` put into `dst`. -/
def copyTable (src dst : Tables) : TableId → Tables
  | .rules => { dst with rules := src.rules }
  | .zones => { dst with zones := src.zones }
  | .pointerCurve => { dst with pointerCurve := src.pointerCurve }
  | .scrollCurve => { dst with scrollCurve := src.scrollCurve }
  | .pressureCurve => { dst with pressureCurve := src.pressureCurve }
  | .bands => { dst with bands := src.bands }
  | .params => { dst with params := src.params }
  | .calibration => { dst with calibration := src.calibration }

/-- Whether a table set names a table. -/
def inSet (set : Half) (t : TableId) : Bool := set.getLsbD (tableCode t)

/-- Every table of a set put from `src` into `dst` (R143, R145). -/
def copySet (set : Half) (src dst : Tables) : Tables :=
  allTables.foldl (fun d t => if inSet set t then copyTable src d t else d) dst

/-- A set that names a number above 7 (R140, R145). -/
def setOutOfRange (set : Half) : Bool := set >>> 8 != 0

/-! ## Commit validation -/

/-- Why a shadow fails its commit, in the order of the reason codes 1..9 (section 10.3). -/
inductive Reason where
  | featureUnknown | anyOfNumeric | prereqOrder | restingScope | zoneOrder
  | knotOrder | bandOrder | tipOrder | coastOrder
deriving DecidableEq, Repr

/-- The reason codes of INVALID (section 10.3). -/
def reasonCode : Reason → Nat
  | .featureUnknown => 1 | .anyOfNumeric => 2 | .prereqOrder => 3 | .restingScope => 4
  | .zoneOrder => 5 | .knotOrder => 6 | .bandOrder => 7 | .tipOrder => 8 | .coastOrder => 9

/-- The conditions that a rule's condition count uses. -/
def Rule.used (r : Rule) : List Condition := [r.c1, r.c2, r.c3].take r.count

/-- An enumeration feature: ZONE, PENSTATE, POSTURE or SURFACE (R141). -/
def enumFeature (f : Nat) : Bool := 10 ≤ f && f ≤ 13

/-- The first check of R141 that the rule at `index` fails. -/
def checkRule (index : Nat) (r : Rule) : Option Reason :=
  if r.used.any (fun c => 13 < c.feature) then some .featureUnknown
  else if r.used.any (fun c => c.relation == .anyOf && !enumFeature c.feature) then some .anyOfNumeric
  else if (match r.prereq with | none => false | some p => index ≤ p) then some .prereqOrder
  else if r.verdict == .resting && r.scope != .pad then some .restingScope
  else none

/-- The zone check of R142. -/
def checkZone (z : Zone) : Option Reason :=
  if z.x0 ≤ z.x1 && z.y0 ≤ z.y1 then none else some .zoneOrder

/-- The first failure of a check made entry by entry, from an index on. -/
def firstFailure (check : Nat → α → Option Reason) : Nat → List α → Option (Nat × Reason)
  | _, [] => none
  | i, a :: as =>
    match check i a with
    | some r => some (i, r)
    | none => firstFailure check (i + 1) as

/-- The knot check of R142: each input is above its predecessor's; the index is the later knot's. -/
def checkKnots : Nat → List Knot → Option (Nat × Reason)
  | i, a :: b :: rest =>
    if a.input < b.input then checkKnots (i + 1) (b :: rest) else some (i + 1, .knotOrder)
  | _, _ => none

/-- The band check of R142: the pair of k before the step from k to k + 1. -/
def checkBands : Nat → List Boundary → Option (Nat × Reason)
  | _, [] => none
  | k, [a] => if a.fall ≤ a.rise then none else some (k, .bandOrder)
  | k, a :: b :: rest =>
    if a.fall ≤ a.rise && a.rise < b.fall then checkBands (k + 1) (b :: rest) else some (k, .bandOrder)

/-- The parameter checks of R142, in the order of their slots. -/
def checkParams (t : Tables) : Option (Nat × Reason) :=
  if t.coastStart < t.coastStop then some (12, .coastOrder)
  else if t.tipOn < t.tipOff then some (22, .tipOrder)
  else none

/-- The commit validation of one table of a bank: the first failing index and its reason (R141, R142). -/
def validate (t : Tables) : TableId → Option (Nat × Reason)
  | .rules => firstFailure checkRule 0 t.rules
  | .zones => firstFailure (fun _ => checkZone) 0 t.zones
  | .pointerCurve => checkKnots 0 t.pointerCurve
  | .scrollCurve => checkKnots 0 t.scrollCurve
  | .pressureCurve => checkKnots 0 t.pressureCurve
  | .bands => checkBands 0 t.bands
  | .params => checkParams t
  | .calibration => none

/-- The first failing table of a set, in ascending number, with its index and reason (R140). -/
def validateSet (t : Tables) (set : Half) : Option (TableId × Nat × Reason) :=
  allTables.findSome? fun id =>
    if inSet set id then (validate t id).map fun f => (id, f.1, f.2) else none

end Sys2Proof.Machine
end

