-- ==== Sys2Proof/Machine/Blocks.lean ====
section
/-! DEFINITION. The state of each block of the part, field by field as the head table of its chapter names it, and the
records that pass between blocks and to the system processor. Plain data only. -/

namespace Sys2Proof.Machine

/-- A position in surface units, or in pen raw units before R19 maps it. -/
structure Point where
  x : Nat
  y : Nat
deriving DecidableEq, Repr

/-- The two surfaces. -/
inductive Surface where
  | pad | screen
deriving DecidableEq, Repr

/-- The five postures (section 7). -/
inductive Posture where
  | closed | laptop | stand | tent | tablet
deriving DecidableEq, Repr

/-- The deck orientation reported by an aux record (section 1.5). -/
inductive Deck where
  | up | down | edge
deriving DecidableEq, Repr

/-- The level of the click switch: PRESSED is CLICKn low (section 1.6). -/
inductive ClickLevel where
  | pressed | released
deriving DecidableEq, Repr

/-! ## Sensor Ports (section 1) -/

/-- The role of a port. -/
inductive Role where
  | pad | screen | pen | aux | unused
deriving DecidableEq, Repr

/-- The five states of a port. A port is enabled exactly when it is not DISABLED
(log entry 20). -/
inductive PortState where
  | disabled | waiting | live | late | down
deriving DecidableEq, Repr

/-- One contact of a CONTACTS record, in range after R10. -/
structure Contact where
  slot : Nat
  pos : Point
  major : Nat
  minor : Nat
  strength : Nat
deriving DecidableEq, Repr

/-- A PEN record, in range after R11; the position is in pen raw units. -/
structure PenRecord where
  inRange : Bool
  pos : Point
  raw : Nat
  tiltX : Int
  tiltY : Int
  eraser : Bool
  barrel : Bool
deriving DecidableEq, Repr

/-- An AUX record, in range after R11. -/
structure AuxRecord where
  hinge : Nat
  deck : Deck
  keys : Nat
deriving DecidableEq, Repr

/-- A checked and clamped scan record. -/
inductive ScanRecord where
  | contacts (cs : List Contact)
  | pen (r : PenRecord)
  | aux (r : AuxRecord)
deriving DecidableEq, Repr

/-- A checked record with its arrival stamp, as the waiting buffer holds it. -/
structure Stamped where
  record : ScanRecord
  stamp : Stamp
deriving DecidableEq, Repr

/-- A frame in processing: the record, the role whose owner took it, its stamp and its frame interval (R13). The role stays
with the frame when the port is disabled under it (R2; log entry 21). -/
structure Frame where
  role : Role
  record : ScanRecord
  stamp : Stamp
  dt : Nat
deriving DecidableEq, Repr

/-- What a port has of the record that comes on its line: it hunts for a start byte (R3), or has taken the start byte, or the
length byte and the body bytes so far (R168). -/
inductive Reception where
  | hunting
  | length
  | body (length : Nat) (bytes : List Byte)
deriving DecidableEq, Repr

/-- One sensor port (section 1). -/
structure Port where
  role : Role
  state : PortState
  lastStamp : Option Stamp
  deadline : Option Stamp
  waiting : Option Stamped
  lossMark : Bool
  frame : Option Frame
  rx : Reception
deriving DecidableEq, Repr

/-- The four sensor ports. -/
structure Ports where
  p0 : Port
  p1 : Port
  p2 : Port
  p3 : Port
deriving DecidableEq, Repr

/-! ## Aux Intake (section 1.5) -/

/-- Aux Intake. -/
structure Aux where
  hinge : Option Nat
  deck : Option Deck
  keyTime : Option Stamp
  accepted : ClickLevel
  debounce : Option Stamp
deriving DecidableEq, Repr

/-! ## Contact Table (sections 2 and 3) -/

/-- Presence of an entry. -/
inductive Presence where
  | present | lifting
deriving DecidableEq, Repr

/-- Class of an entry (section 3). -/
inductive Class where
  | undecided | finger | resting | suspect | rejected
deriving DecidableEq, Repr

/-- Reporting of a screen entry (section 3.7). -/
inductive Reported where
  | none | opened | closed
deriving DecidableEq, Repr

/-- One entry of the Contact Table. Its surface is the list of `Contacts` it stands in. -/
structure Entry where
  track : Nat
  slot : Nat
  presence : Presence
  held : Bool
  liftFrames : Nat
  pos : Point
  landing : Point
  zone : Option Nat
  touchDown : Stamp
  age : Nat
  travel : Nat
  major : Nat
  minor : Nat
  strength : Nat
  cls : Class
  palmRun : Nat
  reported : Reported
deriving DecidableEq, Repr

/-- The Contact Table, each surface's entries in ascending slot, and the track id counter (section 2). -/
structure Contacts where
  pad : List Entry
  screen : List Entry
  nextId : Nat
deriving DecidableEq, Repr

/-! ## Pen Unit (section 4) -/

/-- The pen state. -/
inductive PenState where
  | out | hover | contact
deriving DecidableEq, Repr

/-- The tip kind. -/
inductive Tip where
  | pen | eraser
deriving DecidableEq, Repr

/-- The Pen Unit (section 4.1). -/
structure Pen where
  state : PenState
  tip : Tip
  lastPos : Option Point
  tiltX : Int
  tiltY : Int
  barrel : Bool
  prevState : PenState
  prevTip : Tip
  lossMark : Bool
  held : Bool
  shadowLive : Bool
  shadowTimer : Option Stamp
deriving DecidableEq, Repr

/-! ## Pad Gesture Engine (section 5) -/

/-- The thirteen gesture states. -/
inductive GestureState where
  | idle | touch | pointing | holdDrag | tapWait | tapDrag | multi
  | scrolling | pinching | swiping | clicked | residual | coasting
deriving DecidableEq, Repr

/-- The button state. -/
inductive Button where
  | none | primary | secondary | middle
deriving DecidableEq, Repr

/-- The direction of a swipe. -/
inductive Direction where
  | left | right | up | down
deriving DecidableEq, Repr

/-- The Pad Gesture Engine (section 5.1). -/
structure Engine where
  state : GestureState
  button : Button
  pointer : Option Nat
  /-- track ids, in ascending slot of their entries -/
  landingSet : List Nat
  landingCentroid : Option Point
  landingSeparation : Option Nat
  peakCount : Nat
  tapCandidate : Bool
  swipeDirection : Option Direction
  swipeCount : Option Nat
  lastCentroid : Option Point
  lastSeparation : Option Nat
  tapGapTimer : Option Stamp
  coastTimer : Option Stamp
  vcx : Int
  vcy : Int
deriving DecidableEq, Repr

/-! ## Motion Transfer (section 6.1) -/

/-- Motion Transfer. -/
structure Motion where
  pointerX : Nat
  pointerY : Nat
  scrollX : Nat
  scrollY : Nat
  lastOutX : Int
  lastOutY : Int
  lastInterval : Nat
deriving DecidableEq, Repr

/-! ## Posture Controller (section 7.1) -/

/-- The Posture Controller. -/
structure PostureControl where
  band : Nat
  actual : Posture
  requested : Posture
  override : Option Posture
  pending : Bool
  deferral : Option Stamp
deriving DecidableEq, Repr

/-! ## Table Store (section 8.1) -/

/-- The Table Store. -/
structure Store where
  active : Tables
  shadow : Tables
  /-- bit n: table n is in the pending-commit set -/
  pendingCommit : Half
deriving DecidableEq, Repr

/-! ## Report Link (section 9) -/

/-- A queued pen sample (section 4.4) with its edge and in-flight marks. -/
structure PenSample where
  state : PenState
  tip : Tip
  pos : Point
  pressure : Nat
  tiltX : Int
  tiltY : Int
  barrel : Bool
  gap : Bool
  edge : Bool
  inFlight : Bool
deriving DecidableEq, Repr

/-- The kind of a screen record (section 3.7). -/
inductive TouchKind where
  | down | move | up | cancel
deriving DecidableEq, Repr

/-- A queued screen record. -/
structure TouchRecord where
  kind : TouchKind
  track : Nat
  pos : Point
  major : Nat
  minor : Nat
  inFlight : Bool
deriving DecidableEq, Repr

/-- The motion fields of a pointer record (R158). -/
structure Delta where
  dx : Int
  dy : Int
  h : Int
  v : Int
  zoom : Int
deriving DecidableEq, Repr

/-- A queued pointer record: `isOpen` marks the open tail (R158). -/
structure PointerRecord where
  button : Button
  motion : Delta
  change : Bool
  isOpen : Bool
  inFlight : Bool
deriving DecidableEq, Repr

/-- A gesture record (R107, R131). -/
inductive Gesture where
  | swipeBegin (direction : Direction) (count : Nat)
  | swipeEnd (direction : Direction) (count : Nat)
  | pinchEnd
  | scrollEnd
  | posture (new previous : Posture) (forced : Bool)
deriving DecidableEq, Repr

/-- A queued gesture record. -/
structure GestureRecord where
  gesture : Gesture
  inFlight : Bool
deriving DecidableEq, Repr

/-- The four overrun flags (section 9). -/
structure Overrun where
  pen : Bool
  screen : Bool
  pointer : Bool
  gesture : Bool
deriving DecidableEq, Repr

/-- The values that READ_STATUS reports (R151). -/
structure StatusReport where
  causes : Half
  masks : Half
  overrun : Overrun
  ceiling : Nat
  ports : List (Role × PortState)
  actual : Posture
  requested : Posture
  override : Option Posture
  pendingCommit : Half
  partCode : Nat
  revision : Nat
deriving DecidableEq, Repr

/-- The outcome of a directive with its data (R150, section 10.3). -/
inductive ReplyBody where
  | done
  | pending
  | clamped (index : Nat)
  | stillActive (causes : Half)
  | refusedBusy
  | refusedRange
  | refusedState
  | invalid (table index : Nat) (reason : Reason)
  | unknown
  /-- DONE with the entries of READ_TABLE: bank code, table number, first index, and each entry's bytes -/
  | entries (bank table first : Nat) (entries : List (List Byte))
  /-- DONE with the status of READ_STATUS -/
  | status (report : StatusReport)
deriving DecidableEq, Repr

/-- The reply in the reply slot: the kind byte it answers, the outcome, and its in-flight mark. -/
structure Reply where
  kind : Byte
  body : ReplyBody
  inFlight : Bool
deriving DecidableEq, Repr

/-- The exchange on the wires: the whole bytes counted, the report cell that its beginning fixed, and the bytes of the directive
cell received so far; these go with the completion, which takes them (R146, R147). -/
structure Exchange where
  count : Nat
  cell : List Byte
  received : List Byte
deriving DecidableEq, Repr

/-- The Report Link (section 9). -/
structure Link where
  reply : Option Reply
  pen : List PenSample
  screen : List TouchRecord
  pointer : List PointerRecord
  gesture : List GestureRecord
  /-- bit n: event cause n is pending; the bits of the level causes stay 0 -/
  latched : Half
  /-- bit n: cause n is masked -/
  masks : Half
  ceiling : Nat
  overrun : Overrun
  exchange : Option Exchange
  restartWaiting : Bool
  /-- SELn has been seen high since power-on or the release of RESETn (R164) -/
  selnSeenHigh : Bool
  /-- the MODEL's own record of SDO: the bits shifted out since an exchange last began, in order (log entry 15) -/
  sdo : List Bool
deriving DecidableEq, Repr

/-! ## Pins and waiting requests -/

/-- The levels the outside drives on the input lines. -/
structure Pins where
  click : ClickLevel
  selnLow : Bool
  resetnLow : Bool
deriving DecidableEq, Repr

/-- A teardown request for the pen: from its port (R74) or from a switch into CLOSED (R75). -/
inductive PenTeardown where
  | port | closed
deriving DecidableEq, Repr

/-- The teardown requests that wait for the completion of a frame (R32, R74, R75). A second waiting request for one surface
changes nothing when it is taken (R32; DEDUCED, log entry 16), so a surface keeps a mark; the pen keeps its requests in order.
-/
structure Waits where
  pad : Bool
  screen : Bool
  pen : List PenTeardown
deriving DecidableEq, Repr

end Sys2Proof.Machine
end

