-- ==== Sys2Proof/Machine/Initial.lean ====
section
/-! DEFINITION. The value of each block after power-on reset, as the head table of its chapter gives it (R1, R21, R61, R78,
R108, R122, R134, R164). -/

namespace Sys2Proof.Machine

/-- A port after reset: DISABLED with its default role (R1). -/
def initialPort (r : Role) : Port := ⟨r, .disabled, none, none, none, false, none, .hunting⟩

/-- The four ports after reset (R1). -/
def initialPorts : Ports := ⟨initialPort .pad, initialPort .screen, initialPort .pen, initialPort .aux⟩

/-- Aux Intake after reset, with the click level its sampling takes (section 1.5). -/
def initialAux (level : ClickLevel) : Aux := ⟨none, none, none, level, none⟩

/-- The Contact Table after reset and after a warm restart (R21). -/
def initialContacts : Contacts := ⟨[], [], 1⟩

/-- The Pen Unit after reset (R61). -/
def initialPen : Pen :=
  ⟨.out, .pen, none, 0, 0, false, .out, .pen, false, false, false, none⟩

/-- The Pad Gesture Engine after reset and after a warm restart (R78). -/
def initialEngine : Engine :=
  ⟨.idle, .none, none, [], none, none, 0, false, none, none, none, none, none, none, 0, 0⟩

/-- Motion Transfer after reset and after a warm restart (R108). -/
def initialMotion : Motion := ⟨0, 0, 0, 0, 0, 0, 32000⟩

/-- The Posture Controller after reset (R122). -/
def initialPosture : PostureControl := ⟨1, .laptop, .laptop, none, false, none⟩

/-- The Table Store after power-on reset (R134). -/
def initialStore : Store := ⟨defaultTables, defaultTables, 0⟩

/-- No overrun flag set. -/
def clearOverrun : Overrun := ⟨false, false, false, false⟩

/-- The Report Link after reset: RESTARTED (cause 0) is the one pending cause (R164). SELn counts as seen high when the line
is high at the end of the reset. -/
def initialLink (selnHigh : Bool) : Link :=
  ⟨none, [], [], [], [], 1, 0, 5, clearOverrun, none, false, selnHigh, []⟩

/-- No request waits. -/
def initialWaits : Waits := ⟨false, false, []⟩

end Sys2Proof.Machine
end

