-- ==== Sys2Proof/Machine/State.lean ====
section
/-! DEFINITION. The state of the part, the reasons a step could stop, and the state right after power-on reset. -/

namespace Sys2Proof.Machine

/-- The faults of the model: none. The spec gives every command its effect in every state, so no meaning stops with a fault. -/
inductive Fault where
deriving DecidableEq, Repr

/-- The refusals of the model. -/
inductive Refusal where
  /-- raised by exec alone, for a command that has no meaning yet (no arm is left so); safe, since the machine stops -/
  | notModelled (mnemonic : String)
deriving DecidableEq, Repr

/-- The whole state of the part (00_scope.md section 3), the lines the outside drives, and the model's own queue of waiting
commands. Plain data. -/
structure State where
  /-- the free-running 32-bit microsecond timebase (00_scope.md section 5) -/
  timebase : Stamp
  /-- the levels on CLICKn, SELn and RESETn (log entry 5) -/
  pins : Pins
  /-- the four sensor ports (section 1) -/
  ports : Ports
  /-- Aux Intake (section 1.5) -/
  aux : Aux
  /-- the Contact Table and the track id counter (section 2) -/
  contacts : Contacts
  /-- the keystroke quiet timer (R36) -/
  keyQuiet : Option Stamp
  /-- the Pen Unit (section 4.1) -/
  pen : Pen
  /-- the Pad Gesture Engine (section 5.1) -/
  engine : Engine
  /-- Motion Transfer (section 6.1) -/
  motion : Motion
  /-- the Posture Controller (section 7.1) -/
  posture : PostureControl
  /-- the Table Store (section 8.1) -/
  store : Store
  /-- the Report Link (section 9) -/
  link : Link
  /-- teardown requests waiting for a frame's completion (R32, R74, R75) -/
  waits : Waits
  /-- the MODEL's own counter of free choices taken (log entry 3) -/
  freeCount : Nat
  /-- the MODEL's own queue of the commands that wait, first in, first out -/
  pending : List Instr
deriving DecidableEq, Repr

/-- The part right after power-on reset, with the outside's lines at rest: CLICKn high, SELn high, RESETn
high, and the timebase at 0 (DESIGN CHOICE, unsafe: log entry 2). -/
def State.reset : State where
  timebase := 0
  pins := ⟨.released, false, false⟩
  ports := initialPorts
  aux := initialAux .released
  contacts := initialContacts
  keyQuiet := none
  pen := initialPen
  engine := initialEngine
  motion := initialMotion
  posture := initialPosture
  store := initialStore
  link := initialLink true
  waits := initialWaits
  freeCount := 0
  pending := []

end Sys2Proof.Machine
end

