-- ==== Sys2Proof/Machine/Ops.lean ====
section
/-! DEFINITION. The named operations that every block shares: the timebase and its timers, the ports, the surfaces in use,
latching a cause, and the arithmetic of section 5 of 00_scope.md. -/

namespace Sys2Proof.Machine

/-! ## Arithmetic (00_scope.md section 5) -/

/-- A value clamped to a range. -/
def clampInt (lo hi x : Int) : Int := if x < lo then lo else if hi < x then hi else x

/-- The Chebyshev distance of two points. -/
def chebyshev (p q : Point) : Nat :=
  max ((p.x : Int) - q.x).natAbs ((p.y : Int) - q.y).natAbs

/-- The largest x and y of a surface (00_scope.md section 6). -/
def surfaceRange : Surface → Point
  | .pad => ⟨8191, 5119⟩
  | .screen => ⟨16383, 10239⟩

/-! ## Time -/

/-- The state at the moment `t` of the timebase (DESIGN CHOICE, log entry 1). -/
def State.atTime (s : State) (t : Stamp) : State := { s with timebase := t }

/-- The stamp `ms` milliseconds after another. -/
def afterMs (from' : Stamp) (ms : Nat) : Stamp := from' + BitVec.ofNat 32 (ms * 1000)

/-- The interval between two stamps in microseconds, modulo 2^32. -/
def elapsed (earlier later : Stamp) : Nat := (later - earlier).toNat

/-- A timer whose expiry time has come: it runs, and its expiry lies at the moment `now` or in the half of the timebase before
it. A timer that is stopped, or was started afresh for a later moment, does not expire (DESIGN CHOICE, safe:
log entry 1). -/
def due (timer : Option Stamp) (now : Stamp) : Bool :=
  match timer with
  | none => false
  | some e => elapsed e now < 2 ^ 31

/-- The frame interval of R13: clamped to 2000..32000, and 32000 when no frame has begun before. -/
def frameInterval (last : Option Stamp) (stamp : Stamp) : Nat :=
  match last with
  | none => 32000
  | some l => max 2000 (min 32000 (elapsed l stamp))

/-! ## Ports -/

/-- One of the four ports. -/
def Ports.get (ps : Ports) : Fin 4 → Port
  | 0 => ps.p0
  | 1 => ps.p1
  | 2 => ps.p2
  | 3 => ps.p3

/-- One of the four ports replaced. -/
def Ports.set (ps : Ports) (i : Fin 4) (p : Port) : Ports :=
  match i with
  | 0 => { ps with p0 := p }
  | 1 => { ps with p1 := p }
  | 2 => { ps with p2 := p }
  | 3 => { ps with p3 := p }

/-- The four ports in ascending number. -/
def Ports.toList (ps : Ports) : List Port := [ps.p0, ps.p1, ps.p2, ps.p3]

/-- The same change made to every port. -/
def Ports.map (f : Port → Port) (ps : Ports) : Ports := ⟨f ps.p0, f ps.p1, f ps.p2, f ps.p3⟩

/-- A port is enabled exactly when its state is not DISABLED (section 1). -/
def Port.enabled (p : Port) : Bool := p.state != .disabled

/-- A port holds a role while it is enabled with it, and until the completion of a frame it has in processing for the
role's owner (R2). -/
def Port.holds (p : Port) (r : Role) : Bool :=
  (p.enabled && p.role == r) ||
    (match p.frame with | none => false | some f => f.role == r)

/-- Some port has a frame in processing. -/
def Ports.anyFrame (ps : Ports) : Bool := ps.toList.any (·.frame.isSome)

/-- Some port has a frame of this role's owner in processing. -/
def Ports.frameOf (ps : Ports) (r : Role) : Bool :=
  ps.toList.any fun p => match p.frame with | none => false | some f => f.role == r

/-- A port of the state. -/
def State.port (s : State) (i : Fin 4) : Port := s.ports.get i

/-- A port of the state replaced. -/
def State.setPort (s : State) (i : Fin 4) (p : Port) : State := { s with ports := s.ports.set i p }

/-! ## Surfaces in use -/

/-- The pad is live in LAPTOP alone (section 7). -/
def padLive (p : Posture) : Bool := p == .laptop

/-- The screen and the pen are live in every posture but CLOSED (section 7). -/
def screenLive (p : Posture) : Bool := p != .closed

/-- Whether the records of a role are in use in a posture (R12). AUX records are always live. -/
def roleLive (p : Posture) : Role → Bool
  | .pad => padLive p
  | .screen => screenLive p
  | .pen => screenLive p
  | .aux => true
  | .unused => true

/-! ## Causes -/

/-- The numbers of the causes (section 9.5). -/
inductive Cause where
  | restarted | streamDown | streamLate | overrun | frameBad
  | linkError | tableSwapped | postureChanged | posturePending
deriving DecidableEq, Repr

/-- The number of a cause. -/
def causeCode : Cause → Nat
  | .restarted => 0 | .streamDown => 1 | .streamLate => 2 | .overrun => 3 | .frameBad => 4
  | .linkError => 5 | .tableSwapped => 6 | .postureChanged => 7 | .posturePending => 8

/-- The set of one cause. -/
def causeBit (c : Cause) : Half := 1#16 <<< causeCode c

/-- An event cause latched; a cause already pending stays pending (R161). -/
def Link.latch (l : Link) (c : Cause) : Link := { l with latched := l.latched ||| causeBit c }

/-- An event cause latched in the state. -/
def State.latch (s : State) (c : Cause) : State := { s with link := s.link.latch c }

/-! ## A free choice of order -/

/-- The arrangement of a list that a number names; every arrangement has a number (log entry 3). -/
def arrange : Nat → List α → List α
  | _, [] => []
  | n, a :: as => (arrange (n / (as.length + 1)) as).insertIdx (n % (as.length + 1)) a

end Sys2Proof.Machine
end

