-- ==== Sys2Proof/Machine/Operands.lean ====
section
/-! DEFINITION. The operand forms: the bits of a byte on either wire (R165), the bytes of a scan record checked and brought
into range (R9 to R11, R168), the kind and payload of a directive (R149, R166), and the entries of a table as WRITE_TABLE and READ_TABLE carry them (R138, R165, R169). -/

namespace Sys2Proof.Machine

/-! ## The bits of a byte (R146, R165) -/

/-- A bit as a number. -/
def bitValue (b : Bool) : Nat := if b then 1 else 0

/-- A byte from the data bits on a sensor port's line: least significant bit first (R165). -/
def lineByte (bits : List Bool) : Byte := BitVec.ofNat 8 (bits.foldr (fun b n => bitValue b + 2 * n) 0)

/-- A byte from the bits on the report link: most significant bit first (R146, R165). -/
def linkByte (bits : List Bool) : Byte := BitVec.ofNat 8 (bits.foldl (fun n b => 2 * n + bitValue b) 0)

/-- The whole bytes among the bits on the report link; fewer than eight bits at the end are none (R146). -/
def linkBytes : List Bool → List Byte
  | a :: b :: c :: d :: e :: f :: g :: h :: rest => linkByte [a, b, c, d, e, f, g, h] :: linkBytes rest
  | _ => []

/-- The bits of a byte as the report link shifts them: most significant bit first (R146, R165). -/
def linkBits (b : Byte) : List Bool := (List.range 8).map b.getMsbD

/-! ## Reading bytes (R165) -/

/-- The byte at an offset; bytes that were not received count 0. -/
def byteAt (b : List Byte) (i : Nat) : Nat := (b.getD i 0).toNat

/-- A 16-bit field, least significant byte first. -/
def halfAt (b : List Byte) (i : Nat) : Nat := byteAt b i + 256 * byteAt b (i + 1)

/-- A signed byte, two's complement. -/
def signedByteAt (b : List Byte) (i : Nat) : Int := (b.getD i 0).toInt

/-- A signed 32-bit field, least significant byte first. -/
def signedWordAt (b : List Byte) (i : Nat) : Int :=
  (BitVec.ofNat 32 (halfAt b i + 65536 * halfAt b (i + 2))).toInt

/-- A 16-bit set (R165). -/
def setAt (b : List Byte) (i : Nat) : Half := BitVec.ofNat 16 (halfAt b i)

/-! ## Scan records -/

/-- A position moved to the nearest border; the x coordinate is moved when both are equally near (R10). -/
def toBorder (range p : Point) : Point :=
  let left := p.x
  let right := range.x - p.x
  let top := p.y
  let bottom := range.y - p.y
  if min left right ≤ min top bottom then ⟨if left ≤ right then 0 else range.x, p.y⟩
  else ⟨p.x, if top ≤ bottom then 0 else range.y⟩

/-- The contact entry at an offset of a CONTACTS body, in range (R10, R168). -/
def contactAt (range : Point) (b : List Byte) (i : Nat) : Contact :=
  let p : Point := ⟨min range.x (halfAt b (i + 1)), min range.y (halfAt b (i + 3))⟩
  { slot := byteAt b i
    pos := if byteAt b (i + 9) = 0 then p else toBorder range p
    major := byteAt b (i + 5)
    minor := byteAt b (i + 6)
    strength := min 1023 (halfAt b (i + 7)) }

/-- The entries kept of a record: none with a slot above 15, none whose slot an earlier kept entry has (R10). -/
def keepContacts : List Contact → List Contact → List Contact
  | kept, [] => kept
  | kept, c :: cs =>
    if 15 < c.slot || kept.any (·.slot == c.slot) then keepContacts kept cs
    else keepContacts (kept ++ [c]) cs

/-- The contacts of a CONTACTS body with `n` entries (R10, R168). -/
def contactsOf (range : Point) (b : List Byte) (n : Nat) : List Contact :=
  keepContacts [] ((List.range n).map fun k => contactAt range b (2 + 10 * k))

/-- A PEN body brought into range (R11, R168). -/
def penOf (b : List Byte) : PenRecord where
  inRange := byteAt b 1 != 0
  pos := ⟨min 32767 (halfAt b 2), min 32767 (halfAt b 4)⟩
  raw := min 4095 (halfAt b 6)
  tiltX := clampInt (-60) 60 (signedByteAt b 8)
  tiltY := clampInt (-60) 60 (signedByteAt b 9)
  eraser := byteAt b 10 != 0
  barrel := byteAt b 11 != 0

/-- A deck code; any code but UP and DOWN is taken as EDGE (R11, R168). -/
def deckOf : Nat → Deck
  | 0 => .up
  | 1 => .down
  | _ => .edge

/-- An AUX body brought into range (R11, R168). -/
def auxOf (b : List Byte) : AuxRecord where
  hinge := min 359 (halfAt b 1)
  deck := deckOf (byteAt b 3)
  keys := byteAt b 4

/-- The body of a record of the kind that a role takes, checked by kind, length and role and brought into range; none is a
record that R9 discards. No kind fits UNUSED (R3). -/
def parseBody (role : Role) (b : List Byte) : Option ScanRecord :=
  let n := byteAt b 1
  match role with
  | .pad =>
    if byteAt b 0 = 1 ∧ n ≤ 10 ∧ b.length = 2 + 10 * n then
      some (.contacts (contactsOf (surfaceRange .pad) b n)) else none
  | .screen =>
    if byteAt b 0 = 1 ∧ n ≤ 10 ∧ b.length = 2 + 10 * n then
      some (.contacts (contactsOf (surfaceRange .screen) b n)) else none
  | .pen => if byteAt b 0 = 2 ∧ b.length = 12 then some (.pen (penOf b)) else none
  | .aux => if byteAt b 0 = 3 ∧ b.length = 5 then some (.aux (auxOf b)) else none
  | .unused => none

/-! ## Directive operands (R166) -/

/-- The directives (section 9.2). -/
inductive Directive where
  | poll | readStatus | clearCauses | setMask | setCeiling | writeTable | readTable | commitTables | discardShadow
  | setPort | setPosture | flushSurface | restart
deriving DecidableEq, Repr

/-- The directives in the order of the table of R166. -/
def allDirectives : List Directive :=
  [.poll, .readStatus, .clearCauses, .setMask, .setCeiling, .writeTable, .readTable, .commitTables, .discardShadow,
    .setPort, .setPosture, .flushSurface, .restart]

/-- The kind code of a directive (R166). -/
def directiveCode : Directive → Byte
  | .poll => 0x00 | .readStatus => 0x01 | .clearCauses => 0x02 | .setMask => 0x03 | .setCeiling => 0x04
  | .writeTable => 0x10 | .readTable => 0x11 | .commitTables => 0x12 | .discardShadow => 0x13
  | .setPort => 0x20 | .setPosture => 0x21 | .flushSurface => 0x22 | .restart => 0x30

/-- The directive that a kind byte names (R149, R166). -/
def directiveOfCode (kind : Byte) : Option Directive := allDirectives.find? fun d => directiveCode d == kind

/-- The payload length that a directive requires; WRITE_TABLE's follows from its count and is checked with it (R137, R149, R166).
-/
def requiredLength : Directive → Option Nat
  | .poll => some 0 | .readStatus => some 0 | .clearCauses => some 2 | .setMask => some 2 | .setCeiling => some 1
  | .writeTable => none | .readTable => some 4 | .commitTables => some 2 | .discardShadow => some 2
  | .setPort => some 3 | .setPosture => some 1 | .flushSurface => some 1 | .restart => some 0

/-- The payload length byte fits the directive (R149). -/
def lengthFits (d : Directive) (length : Byte) : Bool :=
  match requiredLength d with
  | some n => length.toNat == n
  | none => true

/-- A role code. -/
def roleOfCode : Nat → Option Role
  | 0 => some .pad
  | 1 => some .screen
  | 2 => some .pen
  | 3 => some .aux
  | 4 => some .unused
  | _ => none

/-- A posture code. -/
def postureOfCode : Nat → Option Posture
  | 0 => some .closed
  | 1 => some .laptop
  | 2 => some .stand
  | 3 => some .tent
  | 4 => some .tablet
  | _ => none

/-- A surface code. -/
def surfaceOfCode : Nat → Option Surface
  | 0 => some .pad
  | 1 => some .screen
  | _ => none

/-- A port number. -/
def portOfCode : Nat → Option (Fin 4)
  | 0 => some 0
  | 1 => some 1
  | 2 => some 2
  | 3 => some 3
  | _ => none

/-! ## Table entries: from bytes, clamped (R138, R169)

Each reader answers the entry and whether some field of it was clamped. -/

/-- A value clamped to a range, and whether it was. -/
def clampNat (lo hi v : Nat) : Nat × Bool :=
  if v < lo then (lo, true) else if hi < v then (hi, true) else (v, false)

/-- A no/yes field. -/
def flagOf (v : Nat) : Bool × Bool := (v != 0, 1 < v)

/-- A scope code; an unknown one becomes BOTH. -/
def scopeOf : Nat → Scope × Bool
  | 0 => (.pad, false)
  | 1 => (.screen, false)
  | 2 => (.both, false)
  | _ => (.both, true)

/-- A relation code; an unknown one becomes ANYOF. -/
def relationOf : Nat → Relation × Bool
  | 0 => (.eq, false)
  | 1 => (.ne, false)
  | 2 => (.lt, false)
  | 3 => (.ge, false)
  | 4 => (.anyOf, false)
  | _ => (.anyOf, true)

/-- A verdict code; an unknown one becomes MARK. -/
def verdictOf : Nat → Verdict × Bool
  | 0 => (.finger, false)
  | 1 => (.palm, false)
  | 2 => (.resting, false)
  | 3 => (.ignore, false)
  | 4 => (.mark, false)
  | _ => (.mark, true)

/-- A zone function code; an unknown one becomes DEAD. -/
def zoneFunctionOf : Nat → ZoneFunction × Bool
  | 0 => (.pointer, false)
  | 1 => (.secondary, false)
  | 2 => (.middle, false)
  | 3 => (.rest, false)
  | 4 => (.dead, false)
  | _ => (.dead, true)

/-- A prerequisite byte: 0xFF is absent, 32..254 becomes 31. -/
def prereqOf (v : Nat) : Option Nat × Bool :=
  if v = 255 then (none, false) else if v ≤ 31 then (some v, false) else (some 31, true)

/-- A condition at an offset of a rule's bytes. -/
def conditionOf (b : List Byte) (i : Nat) : Condition × Bool :=
  let r := relationOf (byteAt b (i + 1))
  (⟨byteAt b i, r.1, halfAt b (i + 2)⟩, r.2)

/-- A rule from its 17 bytes. -/
def ruleOf (b : List Byte) : Rule × Bool :=
  let e := flagOf (byteAt b 0)
  let sc := scopeOf (byteAt b 1)
  let n := clampNat 0 3 (byteAt b 2)
  let p := prereqOf (byteAt b 3)
  let v := verdictOf (byteAt b 4)
  let c1 := conditionOf b 5
  let c2 := conditionOf b 9
  let c3 := conditionOf b 13
  (⟨e.1, sc.1, n.1, c1.1, c2.1, c3.1, p.1, v.1⟩,
    e.2 || sc.2 || n.2 || p.2 || v.2 || c1.2 || c2.2 || c3.2)

/-- A zone from its 10 bytes. -/
def zoneOf (b : List Byte) : Zone × Bool :=
  let e := flagOf (byteAt b 0)
  let f := zoneFunctionOf (byteAt b 1)
  let x0 := clampNat 0 8191 (halfAt b 2)
  let y0 := clampNat 0 5119 (halfAt b 4)
  let x1 := clampNat 0 8191 (halfAt b 6)
  let y1 := clampNat 0 5119 (halfAt b 8)
  (⟨e.1, f.1, x0.1, y0.1, x1.1, y1.1⟩, e.2 || f.2 || x0.2 || y0.2 || x1.2 || y1.2)

/-- A knot from its 4 bytes, with the largest output of its curve. -/
def knotOf (maxOutput : Nat) (b : List Byte) : Knot × Bool :=
  let i := clampNat 0 4095 (halfAt b 0)
  let o := clampNat 0 maxOutput (halfAt b 2)
  (⟨i.1, o.1⟩, i.2 || o.2)

/-- A boundary from its 4 bytes. -/
def boundaryOf (b : List Byte) : Boundary × Bool :=
  let r := clampNat 0 359 (halfAt b 0)
  let f := clampNat 0 359 (halfAt b 2)
  (⟨r.1, f.1⟩, r.2 || f.2)

/-- A parameter slot from its 2 bytes. -/
def paramOf (slot : Nat) (b : List Byte) : Nat × Bool :=
  match paramSpecs[slot]? with
  | none => (halfAt b 0, false)
  | some r => clampNat r.lo r.hi (halfAt b 0)

/-- A calibration value from its 4 bytes. -/
def calibrationOf (i : Nat) (b : List Byte) : Int × Bool :=
  let v := signedWordAt b 0
  let c := clampInt (calibrationRange i).1 (calibrationRange i).2 v
  (c, c != v)

/-- One entry written into a bank, and whether a field of it was clamped (R137, R138). -/
def writeEntry (t : Tables) (id : TableId) (i : Nat) (b : List Byte) : Tables × Bool :=
  match id with
  | .rules => let e := ruleOf b; ({ t with rules := t.rules.set i e.1 }, e.2)
  | .zones => let e := zoneOf b; ({ t with zones := t.zones.set i e.1 }, e.2)
  | .pointerCurve => let e := knotOf 2047 b; ({ t with pointerCurve := t.pointerCurve.set i e.1 }, e.2)
  | .scrollCurve => let e := knotOf 2047 b; ({ t with scrollCurve := t.scrollCurve.set i e.1 }, e.2)
  | .pressureCurve => let e := knotOf 4095 b; ({ t with pressureCurve := t.pressureCurve.set i e.1 }, e.2)
  | .bands => let e := boundaryOf b; ({ t with bands := t.bands.set i e.1 }, e.2)
  | .params => let e := paramOf i b; ({ t with params := t.params.set i e.1 }, e.2)
  | .calibration => let e := calibrationOf i b; ({ t with calibration := t.calibration.set i e.1 }, e.2)

/-- `n` entries written one after another from a byte offset on, and the lowest index that held a clamped field. -/
def writeEntries (id : TableId) (b : List Byte) : Nat → Nat → Nat → Tables → Tables × Option Nat
  | 0, _, _, t => (t, none)
  | n + 1, i, off, t =>
    let w := writeEntry t id i (b.drop off)
    let r := writeEntries id b n (i + 1) (off + entrySize id) w.1
    (r.1, if w.2 then some i else r.2)

end Sys2Proof.Machine
end

