-- ==== Sys2Proof/Machine/Queues.lean ====
section
/-! DEFINITION. The four output queues of the Report Link and their overflow rules (R155 to R160), and the open pointer record
that Motion Transfer adds to (R114). Records in flight are never replaced, removed or merged (R155). -/

namespace Sys2Proof.Machine

/-- Capacity of the pen queue (section 9). -/
def penCapacity : Nat := 32
/-- Capacity of the screen queue. -/
def screenCapacity : Nat := 40
/-- Capacity of the pointer queue. -/
def pointerCapacity : Nat := 12
/-- Capacity of the gesture queue. -/
def gestureCapacity : Nat := 16

/-! ## The pen queue (R156) -/

/-- The index of the sample that a full pen queue gives up: the oldest not in flight without an edge mark, else the oldest
not in flight. -/
def penVictim (q : List PenSample) : Option Nat :=
  match q.findIdx? (fun s => !s.inFlight && !s.edge) with
  | some i => some i
  | none => q.findIdx? (fun s => !s.inFlight)

/-- GAP given to the first sample of a list. -/
def markGap : List PenSample → List PenSample
  | [] => []
  | s :: ss => { s with gap := true } :: ss

/-- A sample appended to a full pen queue after one is removed; the sample after the hole gets GAP. Where R156 shows that
there is always a sample to remove, a queue without one takes no sample (DESIGN CHOICE, log entry 9). -/
def penMakeRoom (q : List PenSample) (s : PenSample) : List PenSample :=
  match penVictim q with
  | some i => q.take i ++ markGap (q.drop (i + 1) ++ [s])
  | none => q

/-- A pen sample appended at the tail (R156). -/
def Link.appendPen (l : Link) (s : PenSample) : Link :=
  if l.pen.length < penCapacity then { l with pen := l.pen ++ [s] }
  else { (l.latch .overrun) with
          pen := penMakeRoom l.pen s, overrun := { l.overrun with pen := true } }

/-! ## The screen queue (R157) -/

/-- The closing records of a track: UP and CANCEL. -/
def TouchKind.closes (k : TouchKind) : Bool := k == .up || k == .cancel

/-- An arriving MOVE put in place of its track's newest queued record, when that is a MOVE not in flight. The queue is
given newest first. -/
def replaceMove (r : TouchRecord) : List TouchRecord → Option (List TouchRecord)
  | [] => none
  | q :: qs =>
    if q.track = r.track then
      if q.kind == .move && !q.inFlight then
        some ({ q with pos := r.pos, major := r.major, minor := r.minor } :: qs)
      else none
    else (replaceMove r qs).map (q :: ·)

/-- The oldest complete pair removed: a DOWN and the closing record of its track after it, neither in flight. Of several pairs the
oldest is the one whose DOWN is oldest (DESIGN CHOICE, log entry 26: R157 says only "the oldest complete pair"). -/
def removePair : List TouchRecord → Option (List TouchRecord)
  | [] => none
  | q :: qs =>
    let here : Option (List TouchRecord) :=
      if q.kind == .down && !q.inFlight then
        match qs.findIdx? (fun r => r.track == q.track && r.kind.closes) with
        | some j =>
          if (qs[j]?).any (fun r => !r.inFlight) then some (qs.eraseIdx j) else none
        | none => none
      else none
    match here with
    | some rest => some rest
    | none => (removePair qs).map (q :: ·)

/-- What a full screen queue gives up: the oldest MOVE not in flight, else the oldest complete pair. -/
def screenGiveUp (q : List TouchRecord) : Option (List TouchRecord) :=
  match q.findIdx? (fun r => r.kind == .move && !r.inFlight) with
  | some i => some (q.eraseIdx i)
  | none => removePair q

/-- A record appended at the tail of the screen queue; a full queue first gives a record or a pair up. Where R157 shows that
there is always something to give up, a queue without it takes no record (DESIGN CHOICE, log entry 9). -/
def Link.pushScreen (l : Link) (r : TouchRecord) : Link :=
  if l.screen.length < screenCapacity then { l with screen := l.screen ++ [r] }
  else { (l.latch .overrun) with
          screen := (match screenGiveUp l.screen with | some q => q ++ [r] | none => l.screen)
          overrun := { l.overrun with screen := true } }

/-- A screen record that arrives (R157). -/
def Link.appendScreen (l : Link) (r : TouchRecord) : Link :=
  if r.kind == .move then
    match replaceMove r l.screen.reverse with
    | some q => { l with screen := q.reverse }
    | none => l.pushScreen r
  else l.pushScreen r

/-! ## The pointer queue (R114, R158, R159) -/

/-- No motion. -/
def zeroDelta : Delta := ⟨0, 0, 0, 0, 0⟩

/-- Motion added field by field, each sum saturating at its range (R114, R159). -/
def addDelta (a b : Delta) : Delta where
  dx := clampInt (-127) 127 (a.dx + b.dx)
  dy := clampInt (-127) 127 (a.dy + b.dy)
  h := clampInt (-2047) 2047 (a.h + b.h)
  v := clampInt (-2047) 2047 (a.v + b.v)
  zoom := clampInt (-2047) 2047 (a.zoom + b.zoom)

/-- A pointer record that the arbiter may send: every closed one, and an open tail with motion or the change mark (R158). -/
def PointerRecord.sendable (r : PointerRecord) : Bool :=
  !r.isOpen || r.change || r.motion != zeroDelta

/-- Two closed records made one: the newer button, the summed motion, either change mark (R159). -/
def mergePointer (a b : PointerRecord) : PointerRecord where
  button := b.button
  motion := addDelta a.motion b.motion
  change := a.change || b.change
  isOpen := false
  inFlight := false

/-- The two oldest records outside the in-flight head, both closed, merged in their place (R159); none where there are no
two, which R159 shows cannot be in a full queue. -/
def mergeOldest : List PointerRecord → Option (List PointerRecord)
  | a :: b :: rest =>
    if a.inFlight then (mergeOldest (b :: rest)).map (a :: ·)
    else if !b.inFlight && !a.isOpen && !b.isOpen then some (mergePointer a b :: rest)
    else none
  | _ => none

/-- A new open tail; a queue of 12 records is merged first (R158, R159). Where R159 shows that two records to merge are
always found, a queue without them opens no tail (DESIGN CHOICE, log entry 9). -/
def Link.openTail (l : Link) (b : Button) (change : Bool) : Link :=
  let tail : PointerRecord := ⟨b, zeroDelta, change, true, false⟩
  if l.pointer.length < pointerCapacity then { l with pointer := l.pointer ++ [tail] }
  else { (l.latch .overrun) with
          pointer := (match mergeOldest l.pointer with | some q => q ++ [tail] | none => l.pointer)
          overrun := { l.overrun with pointer := true } }

/-- The newest record changed, when it is the open tail. -/
def changeTail (f : PointerRecord → PointerRecord) : List PointerRecord → List PointerRecord
  | [] => []
  | [r] => [if r.isOpen then f r else r]
  | r :: rs => r :: changeTail f rs

/-- The open tail, when there is one: the newest record. -/
def Link.tail (l : Link) : Option PointerRecord :=
  match l.pointer.getLast? with
  | some r => if r.isOpen then some r else none
  | none => none

/-- Motion added into the open tail, one being opened first under the engine's button state when there is none (R114, R158). -/
def Link.addMotion (l : Link) (b : Button) (d : Delta) : Link :=
  let l := if l.tail.isSome then l else l.openTail b false
  { l with pointer := changeTail (fun r => { r with motion := addDelta r.motion d }) l.pointer }

/-- A button change: an open tail without motion and without the mark takes the new state and the mark; otherwise an open
tail is closed and a new one opened with the new state and the mark (R158). -/
def Link.buttonChange (l : Link) (b : Button) : Link :=
  match l.tail with
  | some r =>
    if r.motion == zeroDelta && !r.change then
      { l with pointer := changeTail (fun r => { r with button := b, change := true }) l.pointer }
    else
      Link.openTail { l with pointer := changeTail (fun r => { r with isOpen := false }) l.pointer } b true
  | none => l.openTail b true

/-! ## The gesture queue (R160) -/

/-- A gesture record that arrives: dropped when the queue holds 16 (R160). -/
def Link.appendGesture (l : Link) (g : Gesture) : Link :=
  if l.gesture.length < gestureCapacity then { l with gesture := l.gesture ++ [⟨g, false⟩] }
  else { (l.latch .overrun) with overrun := { l.overrun with gesture := true } }

/-! ## What the pad's blocks hand to the link -/

/-- What the Pad Gesture Engine and Motion Transfer hand to the Report Link, in the order they hand it (R82, R107, R114). -/
inductive Out where
  | button (b : Button)
  | motion (b : Button) (d : Delta)
  | gesture (g : Gesture)
deriving DecidableEq, Repr

/-- One hand-over taken by the link. -/
def Link.take (l : Link) : Out → Link
  | .button b => l.buttonChange b
  | .motion b d => l.addMotion b d
  | .gesture g => l.appendGesture g

/-- Every hand-over taken, in order. -/
def Link.takeAll (l : Link) (outs : List Out) : Link := outs.foldl Link.take l

end Sys2Proof.Machine
end

