-- ==== Sys2Proof/Machine/Flags.lean ====
section
/-! DEFINITION. The status causes, the top cause and the two outputs of the part: ATTNn and whether SDO is driven
(R8, R129, R161, R162, section 9.1). -/

namespace Sys2Proof.Machine

/-- STREAM_LATE holds while an enabled port is LATE (R8). -/
def State.streamLate (s : State) : Bool := s.ports.toList.any (·.state == .late)

/-- The level causes whose condition holds: STREAM_LATE and POSTURE_PENDING (R8, R129). -/
def State.levelCauses (s : State) : Half :=
  (if s.streamLate then causeBit .streamLate else 0) |||
    (if s.posture.pending then causeBit .posturePending else 0)

/-- The pending causes: latched event causes and current level causes (R161). -/
def State.causes (s : State) : Half := s.link.latched ||| s.levelCauses

/-- The lowest-numbered cause of a set, or 15. -/
def lowestCause (set : Half) : Nat :=
  ((List.range 9).find? fun n => set.getLsbD n).getD 15

/-- The top cause: the lowest-numbered pending, unmasked cause, or 15 (R161). -/
def State.topCause (s : State) : Nat := lowestCause (s.causes &&& ~~~s.link.masks)

/-- A class below the ceiling holds a sendable record that is not in flight (R162). -/
def Link.waitingRecord (l : Link) : Bool :=
  (1 < l.ceiling && l.pen.any (fun r => !r.inFlight)) ||
  (2 < l.ceiling && l.screen.any (fun r => !r.inFlight)) ||
  (3 < l.ceiling && l.pointer.any (fun r => r.sendable && !r.inFlight)) ||
  (4 < l.ceiling && l.gesture.any (fun r => !r.inFlight))

/-- The reply slot holds a reply that is not in flight (R162). -/
def Link.waitingReply (l : Link) : Bool :=
  match l.reply with
  | none => false
  | some r => !r.inFlight

/-- ATTNn is asserted (R162). -/
def State.attention (s : State) : Bool :=
  s.link.waitingReply || s.link.waitingRecord || s.topCause != 15

/-- SDO is driven: during a served exchange alone, never while SELn is high or RESETn is low (section 9.1, R164). -/
def State.sdoDriven (s : State) : Bool := s.link.exchange.isSome && !s.pins.resetnLow

end Sys2Proof.Machine
end

