-- ==== Sys2Proof/Machine/Layout.lean ====
section
/-! DEFINITION. The bytes the part sends: the records of the report cell, its header and filler (R165, R167), and the entries
of a table as READ_TABLE returns them (R169). -/

namespace Sys2Proof.Machine

/-- One byte of a number. -/
def byteOf (n : Nat) : Byte := BitVec.ofNat 8 n

/-- A 16-bit field, least significant byte first (R165). -/
def halfBytes (n : Nat) : List Byte := [byteOf n, byteOf (n / 256)]

/-- A signed 16-bit field in two's complement (R165). -/
def signedHalfBytes (i : Int) : List Byte := halfBytes (BitVec.ofInt 16 i).toNat

/-- A signed 32-bit field in two's complement (R165). -/
def signedWordBytes (i : Int) : List Byte :=
  let n := (BitVec.ofInt 32 i).toNat
  halfBytes n ++ halfBytes (n / 65536)

/-- A flag as a bit weight. -/
def flagBit (b : Bool) (weight : Nat) : Nat := if b then weight else 0

/-! ## Codes -/

def roleCode : Role → Nat
  | .pad => 0 | .screen => 1 | .pen => 2 | .aux => 3 | .unused => 4

def portStateCode : PortState → Nat
  | .disabled => 0 | .waiting => 1 | .live => 2 | .late => 3 | .down => 4

def postureCode : Posture → Nat
  | .closed => 0 | .laptop => 1 | .stand => 2 | .tent => 3 | .tablet => 4

def penStateCode : PenState → Nat
  | .out => 0 | .hover => 1 | .contact => 2

def tipCode : Tip → Nat
  | .pen => 0 | .eraser => 1

def touchKindCode : TouchKind → Nat
  | .down => 0 | .move => 1 | .up => 2 | .cancel => 3

def buttonCode : Button → Nat
  | .none => 0 | .primary => 1 | .secondary => 2 | .middle => 3

def directionCode : Direction → Nat
  | .left => 0 | .right => 1 | .up => 2 | .down => 3

def scopeCode : Scope → Nat
  | .pad => 0 | .screen => 1 | .both => 2

def relationCode : Relation → Nat
  | .eq => 0 | .ne => 1 | .lt => 2 | .ge => 3 | .anyOf => 4

def verdictCode : Verdict → Nat
  | .finger => 0 | .palm => 1 | .resting => 2 | .ignore => 3 | .mark => 4

def zoneFunctionCode : ZoneFunction → Nat
  | .pointer => 0 | .secondary => 1 | .middle => 2 | .rest => 3 | .dead => 4

/-! ## Queued records (R167) -/

/-- A pen sample: 12 bytes (R167, note 1). -/
def penSampleBytes (s : PenSample) : List Byte :=
  [0x20, byteOf (penStateCode s.state + 4 * tipCode s.tip + flagBit s.barrel 8 + flagBit s.gap 16 + flagBit s.edge 32)] ++
    halfBytes s.pos.x ++ halfBytes s.pos.y ++ halfBytes s.pressure ++
    signedHalfBytes s.tiltX ++ signedHalfBytes s.tiltY

/-- A screen record: 8 bytes (R167). -/
def touchRecordBytes (r : TouchRecord) : List Byte :=
  [byteOf (0x30 + touchKindCode r.kind), byteOf r.track] ++ halfBytes r.pos.x ++ halfBytes r.pos.y ++
    [byteOf r.major, byteOf r.minor]

/-- A pointer record: 8 bytes; scroll h and scroll v share a 24-bit field (R167, note 2). -/
def pointerRecordBytes (r : PointerRecord) : List Byte :=
  let scroll := (BitVec.ofInt 12 r.motion.h).toNat + 4096 * (BitVec.ofInt 12 r.motion.v).toNat
  [byteOf (0x40 + buttonCode r.button + flagBit r.change 4),
    BitVec.ofInt 8 r.motion.dx, BitVec.ofInt 8 r.motion.dy,
    byteOf scroll, byteOf (scroll / 256), byteOf (scroll / 65536)] ++ signedHalfBytes r.motion.zoom

/-- A gesture record: 4 bytes (R167). -/
def gestureBytes : Gesture → List Byte
  | .swipeBegin d n => [0x50, byteOf (directionCode d), byteOf n, 0]
  | .swipeEnd d n => [0x51, byteOf (directionCode d), byteOf n, 0]
  | .pinchEnd => [0x52, 0, 0, 0]
  | .scrollEnd => [0x53, 0, 0, 0]
  | .posture new previous forced =>
    [0x54, byteOf (postureCode new), byteOf (postureCode previous), byteOf (flagBit forced 1)]

/-! ## The reply (section 10.3) -/

/-- The byte of one port in a READ_STATUS reply. -/
def portByte (p : Role × PortState) : Byte := byteOf (roleCode p.1 + 16 * portStateCode p.2)

/-- The data of a READ_STATUS reply: bytes 4..19 (section 10.3). -/
def statusBytes (r : StatusReport) : List Byte :=
  halfBytes r.causes.toNat ++ halfBytes r.masks.toNat ++
    [byteOf (flagBit r.overrun.pen 1 + flagBit r.overrun.screen 2 + flagBit r.overrun.pointer 4 +
        flagBit r.overrun.gesture 8), byteOf r.ceiling] ++
    r.ports.map portByte ++
    [byteOf (postureCode r.actual), byteOf (postureCode r.requested),
      (match r.override with | none => 0xFF | some p => byteOf (postureCode p)),
      byteOf r.pendingCommit.toNat, byteOf r.partCode, byteOf r.revision]

/-- The outcome code of a reply (section 10.3). -/
def outcomeCode : ReplyBody → Nat
  | .done => 0
  | .pending => 1
  | .clamped _ => 2
  | .stillActive _ => 3
  | .refusedBusy => 4
  | .refusedRange => 5
  | .refusedState => 6
  | .invalid _ _ _ => 7
  | .unknown => 8
  | .entries _ _ _ _ => 0
  | .status _ => 0

/-- The outcome data of a reply, from byte 4 on (section 10.3). -/
def outcomeData : ReplyBody → List Byte
  | .done => []
  | .pending => []
  | .clamped i => [byteOf i]
  | .stillActive set => halfBytes set.toNat
  | .refusedBusy => []
  | .refusedRange => []
  | .refusedState => []
  | .invalid t i r => [byteOf t, byteOf i, byteOf (reasonCode r)]
  | .unknown => []
  | .entries bank t first es =>
    [byteOf bank, byteOf t, byteOf first, byteOf es.length] ++ es.flatten
  | .status r => statusBytes r

/-- A reply: its tag, its length, the kind it answers, the outcome and the outcome's data (R150, R167). -/
def replyBytes (r : Reply) : List Byte :=
  let data := outcomeData r.body
  [0x10, byteOf (4 + data.length), r.kind, byteOf (outcomeCode r.body)] ++ data

/-! ## Table entries (R169) -/

/-- A condition's 4 bytes. -/
def conditionBytes (c : Condition) : List Byte :=
  [byteOf c.feature, byteOf (relationCode c.relation)] ++ halfBytes c.operand

/-- A rule's 17 bytes. -/
def ruleBytes (r : Rule) : List Byte :=
  [byteOf (flagBit r.enabled 1), byteOf (scopeCode r.scope), byteOf r.count,
    (match r.prereq with | none => 0xFF | some p => byteOf p), byteOf (verdictCode r.verdict)] ++
    conditionBytes r.c1 ++ conditionBytes r.c2 ++ conditionBytes r.c3

/-- A zone's 10 bytes. -/
def zoneBytes (z : Zone) : List Byte :=
  [byteOf (flagBit z.enabled 1), byteOf (zoneFunctionCode z.function)] ++
    halfBytes z.x0 ++ halfBytes z.y0 ++ halfBytes z.x1 ++ halfBytes z.y1

/-- A knot's 4 bytes. -/
def knotBytes (k : Knot) : List Byte := halfBytes k.input ++ halfBytes k.output

/-- A boundary's 4 bytes. -/
def boundaryBytes (b : Boundary) : List Byte := halfBytes b.rise ++ halfBytes b.fall

/-- Every entry of a table as its bytes. -/
def tableBytes (t : Tables) : TableId → List (List Byte)
  | .rules => t.rules.map ruleBytes
  | .zones => t.zones.map zoneBytes
  | .pointerCurve => t.pointerCurve.map knotBytes
  | .scrollCurve => t.scrollCurve.map knotBytes
  | .pressureCurve => t.pressureCurve.map knotBytes
  | .bands => t.bands.map boundaryBytes
  | .params => t.params.map halfBytes
  | .calibration => t.calibration.map signedWordBytes

/-! ## The report cell (R154, R167) -/

/-- The report cell: 4 header bytes, the records, and 0x00 to byte 63 (R167). -/
def cellBytes (top : Nat) (more : Bool) (posture : Posture) (records : List Byte) : List Byte :=
  [byteOf (if records.isEmpty then 0 else 1), byteOf records.length, byteOf top,
    byteOf (flagBit more 1 + 16 * postureCode posture)] ++
    records ++ List.replicate (60 - records.length) 0

end Sys2Proof.Machine
end

