-- ==== Sys2Proof/Machine/Tracker.lean ====
section
/-! DEFINITION. The Contact Tracker: one frame tracked in three stages, review, admission and hand-off (R22 to R30). -/

namespace Sys2Proof.Machine

/-- An entry as the Tracker hands it on: with its position before this frame's update, and whether it is new (R30). -/
structure Tracked where
  entry : Entry
  prev : Point
  isNew : Bool
deriving DecidableEq, Repr

/-- The outcome of the review of one entry (R22, stage 1). -/
inductive Reviewed where
  | kept (t : Tracked)
  | lifted (e : Entry)
  | split (e : Entry)
deriving DecidableEq, Repr

/-- The age of an entry at a stamp, in ms; once 65535 it stays 65535 (R28). -/
def ageAt (e : Entry) (stamp : Stamp) : Nat :=
  if e.age = 65535 then 65535 else min 65535 (elapsed e.touchDown stamp / 1000)

/-- The contact of a frame with a slot. -/
def contactWithSlot (cs : List Contact) (slot : Nat) : Option Contact := cs.find? (·.slot == slot)

/-- An entry whose slot is in the frame, within the jump distance (R23). -/
def updateEntry (stamp : Stamp) (e : Entry) (c : Contact) : Entry :=
  { e with
    presence := .present, liftFrames := 0
    pos := c.pos, major := c.major, minor := c.minor, strength := c.strength
    age := ageAt e stamp, travel := min 65535 (chebyshev e.landing c.pos) }

/-- One entry reviewed: updated (R23), split (R25) or counted missing (R24). -/
def reviewEntry (grace jump : Nat) (cs : List Contact) (stamp : Stamp) (e : Entry) : Reviewed :=
  match contactWithSlot cs e.slot with
  | some c =>
    if jump < chebyshev e.pos c.pos then .split e
    else .kept ⟨updateEntry stamp e c, e.pos, false⟩
  | none =>
    if e.liftFrames + 1 ≤ grace then
      .kept ⟨{ e with presence := .lifting, liftFrames := e.liftFrames + 1 }, e.pos, false⟩
    else .lifted e

/-- The entries that stay after the review. -/
def keptOf (rs : List Reviewed) : List Tracked :=
  rs.filterMap fun r => match r with | .kept t => some t | .lifted _ => none | .split _ => none

/-- The entries that the review removed, in its order: the lifts (R24, R25). -/
def liftedOf (rs : List Reviewed) : List Entry :=
  rs.filterMap fun r => match r with | .kept _ => none | .lifted e => some e | .split e => some e

/-- The slots that the review marked for re-admission (R25). -/
def splitSlots (rs : List Reviewed) : List Nat :=
  rs.filterMap fun r => match r with | .kept _ => none | .lifted _ => none | .split e => some e.slot

/-- The track id after another: 255 is followed by 1 (R27). -/
def nextTrack (id : Nat) : Nat := if id < 255 then id + 1 else 1

/-- The first id from `id` on that no entry holds; 20 entries hold at most 20 ids (R27). -/
def freeTrack (used : List Nat) : Nat → Nat → Nat
  | 0, id => id
  | fuel + 1, id => if used.contains id then freeTrack used fuel (nextTrack id) else id

/-- A zone that contains a point, bounds included (R29). -/
def Zone.contains (z : Zone) (p : Point) : Bool :=
  z.enabled && z.x0 ≤ p.x && p.x ≤ z.x1 && z.y0 ≤ p.y && p.y ≤ z.y1

/-- The landing zone of a pad entry: the lowest-index enabled zone that contains the landing point (R29). -/
def landingZone (zones : List Zone) (p : Point) : Option Nat := zones.findIdx? (·.contains p)

/-- An entry at its admission (R26). -/
def admitted (id : Nat) (zone : Option Nat) (stamp : Stamp) (c : Contact) : Entry where
  track := id
  slot := c.slot
  presence := .present
  held := false
  liftFrames := 0
  pos := c.pos
  landing := c.pos
  zone := zone
  touchDown := stamp
  age := 0
  travel := 0
  major := c.major
  minor := c.minor
  strength := c.strength
  cls := .undecided
  palmRun := 0
  reported := .none

/-- An entry put in its place in ascending slot. -/
def insertTracked (t : Tracked) : List Tracked → List Tracked
  | [] => [t]
  | u :: us => if t.entry.slot < u.entry.slot then t :: u :: us else u :: insertTracked t us

/-- The most entries one surface holds (R20). -/
def surfaceCapacity : Nat := 10

/-- The table of the surface during stage 2, with the track id counter. -/
structure Admission where
  entries : List Tracked
  nextId : Nat
deriving DecidableEq, Repr

/-- One contact admitted while the surface holds fewer than 10 entries (R26, R27). `others` are the ids of the other
surface's entries. -/
def admitOne (others : List Nat) (zoneOf : Point → Option Nat) (stamp : Stamp) (a : Admission) (c : Contact) : Admission :=
  if a.entries.length < surfaceCapacity then
    let id := freeTrack (others ++ a.entries.map (·.entry.track)) 255 a.nextId
    ⟨insertTracked ⟨admitted id (zoneOf c.pos) stamp c, c.pos, true⟩ a.entries, nextTrack id⟩
  else a

/-- The contacts of a frame in ascending slot. -/
def bySlot (cs : List Contact) : List Contact :=
  (List.range 16).filterMap (contactWithSlot cs)

/-- The contacts that stage 2 takes, in its order: the slots marked for re-admission, then every other slot of the frame that
has no entry, each in ascending slot (R26). -/
def admissionOrder (cs : List Contact) (splits : List Nat) (kept : List Tracked) : List Contact :=
  (bySlot cs).filter (fun c => splits.contains c.slot) ++
    (bySlot cs).filter (fun c => !splits.contains c.slot && !kept.any (·.entry.slot == c.slot))

/-- What the Tracker hands to the Classifier (R30). -/
structure HandOff where
  entries : List Tracked
  lifted : List Entry
  nextId : Nat
deriving DecidableEq, Repr

/-- One frame tracked on a surface that holds `es` (R22). -/
def trackFrame (grace jump : Nat) (zoneOf : Point → Option Nat) (others : List Nat) (nextId : Nat)
    (cs : List Contact) (stamp : Stamp) (es : List Entry) : HandOff :=
  let rs := es.map (reviewEntry grace jump cs stamp)
  let kept := keptOf rs
  let a := (admissionOrder cs (splitSlots rs) kept).foldl (admitOne others zoneOf stamp) ⟨kept, nextId⟩
  ⟨a.entries, liftedOf rs, a.nextId⟩

end Sys2Proof.Machine
end

