-- ==== Sys2Proof/Machine/Classifier.lean ====
section
/-! DEFINITION. The Classifier: the snapshot and the features (R37 to R43), the Rule Table (R44 to R48), persistence (R49 to
R51) and the screen records (R54 to R59). -/

namespace Sys2Proof.Machine

/-- A rectangle in signed screen units, bounds included (R72). -/
structure Rect where
  x0 : Int
  x1 : Int
  y0 : Int
  y1 : Int
deriving DecidableEq, Repr

/-- A point lies within a rectangle, bounds included. -/
def Rect.contains (r : Rect) (p : Point) : Bool :=
  r.x0 ≤ (p.x : Int) && (p.x : Int) ≤ r.x1 && r.y0 ≤ (p.y : Int) && (p.y : Int) ≤ r.y1

/-- The pen shadow at an anchor, with the shadow parameters of a bank (R72). -/
def shadowRect (t : Tables) (p : Point) : Rect :=
  let right : Rect :=
    ⟨p.x - t.shadowBack, p.x + t.shadowW, p.y - t.shadowUp, p.y + t.shadowH⟩
  let left : Rect :=
    ⟨p.x - t.shadowW, p.x + t.shadowBack, p.y - t.shadowUp, p.y + t.shadowH⟩
  if t.leftHanded then left else right

/-- What the Classifier reads of other blocks at the beginning of its work on a frame (R37). `shadow` is the anchor and the
rectangle of a live pen shadow. -/
structure Snapshot where
  now : Stamp
  keyTime : Option Stamp
  quietRunning : Bool
  penState : PenState
  shadow : Option (Point × Rect)
  posture : Posture
deriving DecidableEq, Repr

/-! ## Features (R39 to R43) -/

/-- AREA, ELONG and EDGE (R39). -/
def areaOf (e : Entry) : Nat := e.major * e.minor

def elongOf (e : Entry) : Nat := min 255 (e.major * 16 / max e.minor 1)

def edgeOf (sf : Surface) (e : Entry) : Nat :=
  let r := surfaceRange sf
  min (min e.pos.x (r.x - e.pos.x)) (min e.pos.y (r.y - e.pos.y))

/-- KEYQUIET (R41). -/
def keyQuietOf (sn : Snapshot) : Nat :=
  match sn.keyTime with
  | none => 65535
  | some k => if sn.quietRunning then min 65535 (elapsed k sn.now / 1000) else 65535

/-- PENDIST (R42). -/
def penDistOf (sf : Surface) (sn : Snapshot) (e : Entry) : Nat :=
  match sf, sn.shadow with
  | .screen, some (anchor, _) => chebyshev e.pos anchor
  | .screen, none => 65535
  | .pad, _ => 65535

/-- SHADOW (R42). -/
def shadowOf (sf : Surface) (sn : Snapshot) (e : Entry) : Nat :=
  match sf, sn.shadow with
  | .screen, some (_, r) => if r.contains e.pos then 1 else 0
  | .screen, none => 0
  | .pad, _ => 0

/-- ZONE (R43). -/
def zoneOfEntry (sf : Surface) (e : Entry) : Nat :=
  match sf with
  | .pad => e.zone.getD 15
  | .screen => 15

/-- The code of a surface (R43). -/
def surfaceCode : Surface → Nat
  | .pad => 0
  | .screen => 1

/-- The feature that an identifier names (section 3.3); an identifier above 13 names none. -/
def feature (sf : Surface) (count : Nat) (sn : Snapshot) (e : Entry) : Nat → Nat
  | 0 => areaOf e
  | 1 => elongOf e
  | 2 => e.strength
  | 3 => edgeOf sf e
  | 4 => e.age
  | 5 => e.travel
  | 6 => count
  | 7 => keyQuietOf sn
  | 8 => penDistOf sf sn e
  | 9 => shadowOf sf sn e
  | 10 => zoneOfEntry sf e
  | 11 => penStateCode sn.penState
  | 12 => postureCode sn.posture
  | 13 => surfaceCode sf
  | _ => 0

/-! ## The Rule Table (R44 to R48) -/

/-- A rule applies to the entries of a surface (R44). -/
def Rule.applies (r : Rule) (sf : Surface) : Bool :=
  r.enabled &&
    match r.scope, sf with
    | .both, _ => true
    | .pad, .pad => true
    | .screen, .screen => true
    | .pad, .screen => false
    | .screen, .pad => false

/-- A condition holds of a feature assignment (R45). -/
def Condition.holds (c : Condition) (f : Nat → Nat) : Bool :=
  let v := f c.feature
  match c.relation with
  | .eq => v == c.operand
  | .ne => v != c.operand
  | .lt => v < c.operand
  | .ge => c.operand ≤ v
  | .anyOf => c.operand.testBit v

/-- A rule matches, given the rules that have matched the entry before it (R46). -/
def Rule.matchesEntry (r : Rule) (sf : Surface) (f : Nat → Nat) (matched : List Nat) : Bool :=
  r.applies sf && r.used.all (·.holds f) &&
    match r.prereq with
    | none => true
    | some p => matched.contains p

/-- The rules evaluated in ascending index: the first terminal match, or none (R47). -/
def evalRules (sf : Surface) (f : Nat → Nat) : List Rule → Nat → List Nat → Option Verdict
  | [], _, _ => none
  | r :: rs, i, matched =>
    if r.matchesEntry sf f matched then
      if r.verdict = .mark then evalRules sf f rs (i + 1) (i :: matched) else some r.verdict
    else evalRules sf f rs (i + 1) matched

/-- The function of an entry's landing zone: a screen entry has none (R29). -/
def entryZoneFunction (t : Tables) (sf : Surface) (e : Entry) : ZoneFunction :=
  match sf with
  | .pad => t.zoneFunction e.zone
  | .screen => .pointer

/-- The verdict on an entry: the DEAD bypass (R48), the rules, or the default (R47). -/
def verdictOn (t : Tables) (sf : Surface) (count : Nat) (sn : Snapshot) (e : Entry) : Verdict :=
  if entryZoneFunction t sf e = .dead then .ignore
  else
    match evalRules sf (feature sf count sn e) t.rules 0 [] with
    | some v => v
    | none => if entryZoneFunction t sf e = .rest then .resting else .finger

/-! ## Persistence (R49 to R51) -/

/-- A verdict applied to an entry. MARK is no verdict of an evaluation (R47). -/
def applyVerdict (persist : Nat) (e : Entry) : Verdict → Entry
  | .finger => { e with palmRun := 0, cls := .finger }
  | .resting => { e with palmRun := 0, cls := .resting }
  | .palm =>
    let run := min 15 (e.palmRun + 1)
    { e with palmRun := run, cls := if persist ≤ run then .rejected else .suspect }
  | .ignore => { e with cls := .rejected }
  | .mark => e

/-- An entry is judged in a frame of its surface: PRESENT and not REJECTED (R38). -/
def Entry.judged (e : Entry) : Bool := e.presence == .present && e.cls != .rejected

/-- An entry after its classification, with what the hand-off tells of it (R53). -/
structure Classified where
  entry : Entry
  prev : Point
  isNew : Bool
  /-- the class before this frame's verdict -/
  before : Class
  /-- judged in this frame (R38) -/
  judged : Bool
deriving DecidableEq, Repr

/-- A SUSPECT entry that a verdict of FINGER or RESTING restores (R49). -/
def Classified.restored (c : Classified) : Bool :=
  c.before == .suspect && (c.entry.cls == .finger || c.entry.cls == .resting)

/-- One tracked entry classified (R38, R47 to R51). -/
def classify (t : Tables) (sf : Surface) (count : Nat) (sn : Snapshot) (k : Tracked) : Classified :=
  if k.entry.judged then
    ⟨applyVerdict t.persistPalm k.entry (verdictOn t sf count sn k.entry), k.prev, k.isNew, k.entry.cls, true⟩
  else ⟨k.entry, k.prev, k.isNew, k.entry.cls, false⟩

/-- Every tracked entry of a surface classified; COUNT is the number of entries after admission (R40). -/
def classifyAll (t : Tables) (sf : Surface) (sn : Snapshot) (ks : List Tracked) : List Classified :=
  ks.map (classify t sf ks.length sn)

/-! ## Screen reporting (R54 to R59) -/

/-- A screen record of an entry. -/
def touchOf (kind : TouchKind) (e : Entry) : TouchRecord := ⟨kind, e.track, e.pos, e.major, e.minor, false⟩

/-- The record that a classified screen entry is given, if any, and its reported state after (R54, R55, R56). -/
def reportEntry (c : Classified) : Option TouchKind × Reported :=
  if c.judged then
    match c.entry.reported, c.entry.cls with
    | .none, .finger => (some .down, .opened)
    | .opened, .finger =>
      if c.entry.pos ≠ c.prev ∨ c.restored then (some .move, .opened) else (none, .opened)
    | .opened, .rejected => (some .cancel, .closed)
    | r, _ => (none, r)
  else (none, c.entry.reported)

/-- A classified screen entry with its reported state after the frame. -/
def reportedEntry (c : Classified) : Entry := { c.entry with reported := (reportEntry c).2 }

/-- The records of one screen frame: the UP records of the lifted entries that were OPEN, then the record of each classified
entry, in ascending slot (R57, R59). -/
def screenRecords (lifted : List Entry) (cs : List Classified) : List TouchRecord :=
  (lifted.filter (·.reported == .opened)).map (touchOf .up) ++
    cs.filterMap fun c => (reportEntry c).1.map fun k => touchOf k c.entry

/-- The CANCEL records of a screen teardown, in ascending slot (R32, R58). -/
def cancelRecords (es : List Entry) : List TouchRecord :=
  (es.filter (·.reported == .opened)).map (touchOf .cancel)

end Sys2Proof.Machine
end

