-- ==== Sys2Proof/Machine/PenUnit.lean ====
section
/-! DEFINITION. The Pen Unit: the calibration mapping of a pen frame (R19), the frame's rule (R62 to R66), pressure (R67),
samples (R68, R69), the shadow (R70, R71), and its teardowns (R74, R75). -/

namespace Sys2Proof.Machine

/-- One axis mapped by the active CALIBRATION table and clamped (R19). -/
def mapAxis (raw : Nat) (scale offset : Int) (hi : Int) : Nat :=
  (clampInt 0 hi ((raw * scale) / 65536 + offset)).toNat

/-- A raw pen position mapped into screen units (R19). -/
def mapPen (t : Tables) (p : Point) : Point :=
  ⟨mapAxis p.x (t.calibration.getD 0 1) (t.calibration.getD 2 0) 16383,
   mapAxis p.y (t.calibration.getD 1 1) (t.calibration.getD 3 0) 10239⟩

/-- The tip kind that an eraser flag names. -/
def tipOf (eraser : Bool) : Tip := if eraser then .eraser else .pen

/-- The reported pressure of a sample: in CONTACT the larger of 1 and the curve value, else 0 (R67). -/
def reportedPressure (t : Tables) (state : PenState) (raw : Nat) : Nat :=
  if state = .contact then max 1 (curveValue t.pressureCurve raw).toNat else 0

/-- The tip hysteresis (R65). -/
def tipTest (t : Tables) (state : PenState) (raw : Nat) : PenState :=
  match state with
  | .contact => if raw < t.tipOff then .hover else .contact
  | _ => if t.tipOn ≤ raw then .contact else .hover

/-- The samples that a step of the Pen Unit appends, with the Pen Unit after it. -/
structure PenWork where
  pen : Pen
  out : List PenSample
deriving DecidableEq, Repr

/-- One sample produced: the edge mark against the previous sample, and GAP from the loss mark (R68, R69). -/
def PenWork.sample (w : PenWork) (state : PenState) (tip : Tip) (pos : Point) (pressure : Nat)
    (tiltX tiltY : Int) (barrel : Bool) : PenWork where
  pen := { w.pen with prevState := state, prevTip := tip, lossMark := false }
  out := w.out ++ [{
    state := state, tip := tip, pos := pos, pressure := pressure
    tiltX := tiltX, tiltY := tiltY, barrel := barrel
    gap := w.pen.lossMark
    edge := state != w.pen.prevState || tip != w.pen.prevTip
    inFlight := false }]

/-- The last position; a pen in range always has one (R70). -/
def Pen.position (p : Pen) : Point := p.lastPos.getD ⟨0, 0⟩

/-- The shadow when the pen goes OUT under R63 or R74: it ends at once with a PenShadowHold of 0, and otherwise stays live
until its hold timer expires (R71). -/
def Pen.startHold (p : Pen) (hold : Nat) (now : Stamp) : Pen :=
  if hold = 0 then { p with shadowLive := false, shadowTimer := none }
  else { p with shadowTimer := some (afterMs now hold) }

/-- An entry into range (R64). -/
def penEntry (p : Pen) (r : PenRecord) : PenWork :=
  let p := { p with
    state := .hover, tip := tipOf r.eraser, lastPos := some r.pos
    tiltX := r.tiltX, tiltY := r.tiltY, barrel := r.barrel
    shadowLive := true, shadowTimer := none }
  PenWork.sample ⟨p, []⟩ .hover p.tip r.pos 0 r.tiltX r.tiltY r.barrel

/-- Leaving range from HOVER or CONTACT (R63). -/
def penLeave (t : Tables) (now : Stamp) (p : Pen) (r : PenRecord) : PenWork :=
  let p := { p with state := .out, tiltX := r.tiltX, tiltY := r.tiltY, barrel := r.barrel }
  let w := PenWork.sample ⟨p, []⟩ .out p.tip p.position 0 r.tiltX r.tiltY r.barrel
  { w with pen := w.pen.startHold t.penShadowHold now }

/-- A frame in range whose end agrees with the tip kind (R65). -/
def penTip (t : Tables) (p : Pen) (r : PenRecord) : PenWork :=
  let state := tipTest t p.state r.raw
  let p := { p with
    state := state, lastPos := some r.pos, tiltX := r.tiltX, tiltY := r.tiltY, barrel := r.barrel }
  PenWork.sample ⟨p, []⟩ state p.tip r.pos (reportedPressure t state r.raw) r.tiltX r.tiltY r.barrel

/-- An end change: an OUT sample of the old tip kind, then a HOVER sample of the new (R66). -/
def penEndChange (p : Pen) (r : PenRecord) : PenWork :=
  let w := PenWork.sample ⟨p, []⟩ .out p.tip p.position 0 p.tiltX p.tiltY p.barrel
  let w := w.sample .hover (tipOf r.eraser) r.pos 0 r.tiltX r.tiltY r.barrel
  { w with pen := { w.pen with
      state := .hover, tip := tipOf r.eraser, lastPos := some r.pos
      tiltX := r.tiltX, tiltY := r.tiltY, barrel := r.barrel } }

/-- One pen frame, its position already mapped; `loss` is the port's loss mark that the frame carries (R62). -/
def penFrame (t : Tables) (now : Stamp) (loss : Bool) (p : Pen) (r : PenRecord) : PenWork :=
  let p := { p with lossMark := p.lossMark || loss }
  if p.state = .out then
    if r.inRange then penEntry p r else ⟨p, []⟩
  else if r.inRange then
    if tipOf r.eraser = p.tip then penTip t p r else penEndChange p r
  else penLeave t now p r

/-- A teardown of the pen asked for by its port (R74). -/
def penTeardownPort (t : Tables) (now : Stamp) (p : Pen) : PenWork :=
  if p.state = .out then ⟨{ p with lossMark := false, held := false }, []⟩
  else
    let w := PenWork.sample ⟨{ p with state := .out, held := false }, []⟩ .out p.tip p.position 0 p.tiltX p.tiltY p.barrel
    { w with pen := w.pen.startHold t.penShadowHold now }

/-- A teardown of the pen at a switch into CLOSED: the shadow ends at once (R75). -/
def penTeardownClosed (p : Pen) : PenWork :=
  if p.state = .out then
    ⟨{ p with lossMark := false, held := false, shadowLive := false, shadowTimer := none }, []⟩
  else
    let w := PenWork.sample ⟨{ p with state := .out, held := false }, []⟩ .out p.tip p.position 0 p.tiltX p.tiltY p.barrel
    { w with pen := { w.pen with shadowLive := false, shadowTimer := none } }

/-- The Pen Unit after a warm restart: the tip kind, the last tilt and the last barrel are kept (R61). -/
def Pen.restarted (p : Pen) : Pen :=
  { initialPen with tip := p.tip, tiltX := p.tiltX, tiltY := p.tiltY, barrel := p.barrel, prevTip := p.prevTip }

/-- The pen's shadow as the snapshot reads it: the anchor and the rectangle, while it is live (R37, R72). -/
def Pen.shadow (p : Pen) (t : Tables) : Option (Point × Rect) :=
  if p.shadowLive then p.lastPos.map fun a => (a, shadowRect t a) else none

end Sys2Proof.Machine
end

