-- ==== Sys2Proof/Machine/MotionTransfer.lean ====
section
/-! DEFINITION. Motion Transfer: the four stages of pointer and scroll input (R110 to R116), the pinch step (R118), and the
coast velocity and its decay (R119, R120). -/

namespace Sys2Proof.Machine

/-- The norm of a delta: the larger component plus half the smaller (R110, stage 1). -/
def normOf (dx dy : Int) : Nat := max dx.natAbs dy.natAbs + min dx.natAbs dy.natAbs / 2

/-- The speed of a delta over a frame interval (R110, stage 1). -/
def speedOf (dx dy : Int) (dt : Nat) : Nat := min 4095 (normOf dx dy * 8000 / dt)

/-- One axis through stages 3 and 4: the floor of the exact value over 256, its remainder as the new residue, and the
clamp that takes the residue to 0 (R112, R113). -/
def axisStep (limit : Int) (d gain : Int) (residue : Nat) : Int × Nat :=
  let v := d * gain + residue
  let out := v / 256
  if limit < out then (limit, 0)
  else if out < -limit then (-limit, 0)
  else (out, (v % 256).toNat)

/-- The limit of pointer output (R113). -/
def pointerLimit : Int := 127
/-- The limit of scroll output (R113). -/
def scrollLimit : Int := 2047

/-- Pointer input: the new residues and the motion for the open record (R115). -/
def pointerInput (t : Tables) (m : Motion) (dx dy : Int) (dt : Nat) : Motion × Delta :=
  let g := curveValue t.pointerCurve (speedOf dx dy dt)
  let x := axisStep pointerLimit dx g m.pointerX
  let y := axisStep pointerLimit dy g m.pointerY
  ({ m with pointerX := x.2, pointerY := y.2 }, { zeroDelta with dx := x.1, dy := y.1 })

/-- Scroll input: the new residues, the last scroll output and interval, and the motion for the open record (R116). -/
def scrollInput (t : Tables) (m : Motion) (dx dy : Int) (dt : Nat) : Motion × Delta :=
  let g := curveValue t.scrollCurve (speedOf dx dy dt)
  let x := axisStep scrollLimit dx g m.scrollX
  let y := axisStep scrollLimit dy g m.scrollY
  ({ m with scrollX := x.2, scrollY := y.2, lastOutX := x.1, lastOutY := y.1, lastInterval := dt },
    { zeroDelta with h := x.1, v := y.1 })

/-- The pinch step: the relative change of the separation in 1/1024, truncated toward zero (R118). -/
def pinchStep (before now : Nat) : Int := Int.tdiv (((now : Int) - before) * 1024) before

/-- Pointer residues cleared (R117). -/
def Motion.clearPointer (m : Motion) : Motion := { m with pointerX := 0, pointerY := 0 }

/-- What entry to SCROLLING clears (R117). -/
def Motion.clearScroll (m : Motion) : Motion :=
  { m with scrollX := 0, scrollY := 0, lastOutX := 0, lastOutY := 0, lastInterval := 32000 }

/-- One component of the coast velocity (R119). -/
def coastVelocity (out : Int) (interval : Nat) : Int := Int.tdiv (out * 8000) interval

/-- One component decayed by CoastDecay (R120). -/
def decayed (t : Tables) (v : Int) : Int := Int.tdiv (v * t.coastDecay) 256

/-- The larger magnitude of a velocity. -/
def velocitySize (vx vy : Int) : Nat := max vx.natAbs vy.natAbs

end Sys2Proof.Machine
end

