-- ==== Sys2Proof/Machine/GestureEngine.lean ====
section
/-! DEFINITION. The Pad Gesture Engine: a pad frame in its four stages (R79 to R99), the timer expiries (R89, R100), the click
line (R102 to R104) and surface loss (R105). -/

namespace Sys2Proof.Machine

/-- The engine and Motion Transfer at work on one event, with what they have handed to the Report Link so far, in order. -/
structure Work where
  e : Engine
  m : Motion
  out : List Out
deriving DecidableEq, Repr

/-- A gesture state whose pointer contact moves the pointer (section 5 head table). -/
def GestureState.moves : GestureState → Bool
  | .pointing => true
  | .holdDrag => true
  | .tapDrag => true
  | .clicked => true
  | .idle => false
  | .touch => false
  | .tapWait => false
  | .multi => false
  | .scrolling => false
  | .pinching => false
  | .swiping => false
  | .residual => false
  | .coasting => false

/-- A change of the button state, handed over once; a button already held is not changed (R82). -/
def Work.setButton (w : Work) (b : Button) : Work :=
  if w.e.button = b then w else { w with e := { w.e with button := b }, out := w.out ++ [.button b] }

/-- A gesture record handed over (R107). -/
def Work.record (w : Work) (g : Gesture) : Work := { w with out := w.out ++ [.gesture g] }

/-- A change of gesture state, with the residues it clears: the pointer's on entering or leaving a state that moves the
pointer, the scroll's on entering SCROLLING (R83, R117). -/
def Work.goto (w : Work) (st : GestureState) : Work where
  e := { w.e with state := st }
  m :=
    let m := if w.e.state ≠ st ∧ (w.e.state.moves || st.moves) = true then w.m.clearPointer else w.m
    if st = .scrolling then m.clearScroll else m
  out := w.out

/-- A change of the pointer contact, which clears the pointer residues (R83, R117). -/
def Work.setPointer (w : Work) (p : Option Nat) : Work :=
  if w.e.pointer = p then w else { w with e := { w.e with pointer := p }, m := w.m.clearPointer }

/-- The fields of the landing set and of a MULTI episode cleared (DESIGN CHOICE, log entry 8). -/
def Engine.clearLanding (e : Engine) : Engine :=
  { e with landingSet := [], landingCentroid := none, landingSeparation := none,
           peakCount := 0, tapCandidate := false }

/-- An engine field change within a work. -/
def Work.onEngine (w : Work) (f : Engine → Engine) : Work := { w with e := f w.e }

/-! ## The engine's view of a pad frame (R53, R79) -/

/-- What the Classifier hands to the engine (R53): the pad entries and the lifted ones. -/
structure PadView where
  entries : List Classified
  lifted : List Entry
deriving DecidableEq, Repr

/-- The finger set after the frame's verdicts (R79). -/
def PadView.fingers (v : PadView) : List Classified := v.entries.filter (·.entry.cls == .finger)

/-- A landing: FINGER after the verdict and not before it: admitted, restored, or RESTING before (R79). -/
def PadView.landings (v : PadView) : List Classified := v.fingers.filter (·.before != .finger)

/-- The finger set as the departures of the frame leave it, before its landings (R81, stage 1). -/
def PadView.staying (v : PadView) : List Classified := v.fingers.filter (·.before == .finger)

/-- A lift of the frame: an entry lifted while FINGER (R79). -/
def PadView.lifts (v : PadView) : List Entry := v.lifted.filter (·.cls == .finger)

/-- A withdrawal: still in the table, FINGER before the verdict and not after it (R79). -/
def PadView.withdrawals (v : PadView) : List Classified :=
  v.entries.filter fun c => c.before == .finger && c.entry.cls != .finger

/-- The track of the more recently landed of two entries: the later touch-down, judged from `now`, and the higher slot when
the stamps are the same (R79; DEDUCED, log entry 18). -/
def laterLanded (now : Stamp) (a b : Entry) : Entry :=
  let ea := elapsed a.touchDown now
  let eb := elapsed b.touchDown now
  if ea < eb then a else if eb < ea then b else if a.slot ≤ b.slot then b else a

/-- The most recently landed of several entries (R79). -/
def mostRecent (now : Stamp) : List Entry → Option Entry
  | [] => none
  | e :: es => some (es.foldl (laterLanded now) e)

/-- The centroid: the floor of the sum over the number, per axis (R83). -/
def centroid (ps : List Point) : Point :=
  ⟨(ps.map (·.x)).sum / ps.length, (ps.map (·.y)).sum / ps.length⟩

/-- The separation of two contacts: the Chebyshev distance of the first two positions (R83). -/
def separation : List Point → Nat
  | a :: b :: _ => chebyshev a b
  | _ => 0

/-- The positions of a set of fingers. -/
def positions (cs : List Classified) : List Point := cs.map (·.entry.pos)

/-- The track ids of a set of fingers. -/
def tracks (cs : List Classified) : List Nat := cs.map (·.entry.track)

/-- The fingers of a pair or set named by track ids, in ascending slot. -/
def ofTracks (ids : List Nat) (cs : List Classified) : List Classified :=
  cs.filter fun c => ids.contains c.entry.track

/-- Within the tap limits: age below TapMax and travel at or below TapSlop (R86, R90, R92). -/
def tapLimits (t : Tables) (e : Entry) : Bool := e.age < t.tapMax && e.travel ≤ t.tapSlop

/-! ## Stage 1: departures -/

/-- The state a drag ends in: IDLE when no finger is left, RESIDUAL otherwise (R88, R90). -/
def restState (count : Nat) : GestureState := if count = 0 then .idle else .residual

/-- The pointer contact has departed by a lift: the lifted entry. -/
def liftOfPointer (v : PadView) (e : Engine) : Option Entry :=
  v.lifts.find? fun l => e.pointer == some l.track

/-- The pointer contact has departed by a withdrawal. -/
def pointerWithdrawn (v : PadView) (e : Engine) : Bool :=
  v.withdrawals.any fun c => e.pointer == some c.entry.track

/-- Stage 1 in TOUCH (R86). -/
def departTouch (t : Tables) (now : Stamp) (v : PadView) (w : Work) : Work :=
  match liftOfPointer v w.e with
  | some l =>
    if tapLimits t l then
      (((w.setButton .primary).onEngine fun e => { e with tapGapTimer := some (afterMs now t.tapGap) }).setPointer
        none).goto .tapWait
    else (w.setPointer none).goto .idle
  | none => if pointerWithdrawn v w.e then (w.setPointer none).goto .idle else w

/-- Stage 1 in POINTING (R87). -/
def departPointing (v : PadView) (w : Work) : Work :=
  if (liftOfPointer v w.e).isSome || pointerWithdrawn v w.e then (w.setPointer none).goto .idle else w

/-- Stage 1 in HOLD_DRAG (R88). -/
def departHoldDrag (v : PadView) (w : Work) : Work :=
  if (liftOfPointer v w.e).isSome || pointerWithdrawn v w.e then
    ((w.setButton .none).setPointer none).goto (restState v.staying.length)
  else w

/-- Stage 1 in TAP_DRAG: a lift within the limits is a double tap, three changes (R90). -/
def departTapDrag (t : Tables) (v : PadView) (w : Work) : Work :=
  match liftOfPointer v w.e with
  | some l =>
    let w := if tapLimits t l then ((w.setButton .none).setButton .primary).setButton .none else w.setButton .none
    (w.setPointer none).goto (restState v.staying.length)
  | none =>
    if pointerWithdrawn v w.e then
      ((w.setButton .none).setPointer none).goto (restState v.staying.length)
    else w

/-- The button changes of a multi-finger tap with a peak count (R92). -/
def multiTap (peak : Nat) (w : Work) : Work :=
  if peak = 2 then (w.setButton .secondary).setButton .none
  else if peak = 3 then (w.setButton .middle).setButton .none
  else w

/-- Stage 1 in MULTI: the tap candidate, and the end of the episode (R92). -/
def departMulti (t : Tables) (v : PadView) (w : Work) : Work :=
  let spoiled := v.lifts.any (fun l => !tapLimits t l) || !v.withdrawals.isEmpty
  let w := if spoiled then w.onEngine fun e => { e with tapCandidate := false } else w
  if v.staying.isEmpty then
    let w := if w.e.tapCandidate then multiTap w.e.peakCount w else w
    (w.onEngine Engine.clearLanding).goto .idle
  else w

/-- Either contact of the scroll or pinch pair has departed (R96, R97). -/
def pairDeparted (v : PadView) (e : Engine) : Bool :=
  e.landingSet.any fun id => !(tracks v.staying).contains id

/-- Coasting, or its refusal, at the end of a scroll with no finger left (R99, R119). -/
def endScroll (t : Tables) (now : Stamp) (w : Work) : Work :=
  let vx := coastVelocity w.m.lastOutX w.m.lastInterval
  let vy := coastVelocity w.m.lastOutY w.m.lastInterval
  if t.coastStart ≤ velocitySize vx vy then
    (w.onEngine fun e => { e with vcx := vx, vcy := vy, coastTimer := some (afterMs now 8) }).goto .coasting
  else ((w.record .scrollEnd).onEngine fun e => { e with vcx := 0, vcy := 0 }).goto .idle

/-- Stage 1 in SCROLLING (R96). -/
def departScrolling (t : Tables) (now : Stamp) (v : PadView) (w : Work) : Work :=
  if pairDeparted v w.e then
    let w := w.onEngine fun e => { e.clearLanding with lastCentroid := none }
    if v.staying.isEmpty then endScroll t now w
    else (w.record .scrollEnd).goto .residual
  else w

/-- Stage 1 in PINCHING (R97). -/
def departPinching (v : PadView) (w : Work) : Work :=
  if pairDeparted v w.e then
    ((w.onEngine fun e => { e.clearLanding with lastSeparation := none }).record .pinchEnd).goto
      (restState v.staying.length)
  else w

/-- The direction of the recognized swipe; SWIPING always has one (R95; log entry 17). -/
def Engine.direction (e : Engine) : Direction := e.swipeDirection.getD .left

/-- A SWIPE_END record and the swipe fields cleared (R95, R103). -/
def endSwipe (w : Work) : Work :=
  (w.record (.swipeEnd w.e.direction (w.e.swipeCount.getD 0))).onEngine fun e =>
    { e with swipeDirection := none, swipeCount := none }

/-- Stage 1 in SWIPING (R95). -/
def departSwiping (v : PadView) (w : Work) : Work :=
  if v.staying.length < w.e.swipeCount.getD 0 then (endSwipe w).goto (restState v.staying.length) else w

/-- Stage 1 in CLICKED: the pointer contact passes on (R104). -/
def departClicked (now : Stamp) (v : PadView) (w : Work) : Work :=
  if (liftOfPointer v w.e).isSome || pointerWithdrawn v w.e then
    w.setPointer ((mostRecent now (v.staying.map (·.entry))).map (·.track))
  else w

/-- Stage 1 in RESIDUAL (R98). -/
def departResidual (v : PadView) (w : Work) : Work :=
  if v.staying.isEmpty then w.goto .idle else w

/-- Stage 1: the departure rule of the current state, applied once (R81). In IDLE, TAP_WAIT and COASTING no finger can
depart. -/
def stage1 (t : Tables) (now : Stamp) (v : PadView) (w : Work) : Work :=
  match w.e.state with
  | .idle => w
  | .touch => departTouch t now v w
  | .pointing => departPointing v w
  | .holdDrag => departHoldDrag v w
  | .tapWait => w
  | .tapDrag => departTapDrag t v w
  | .multi => departMulti t v w
  | .scrolling => departScrolling t now v w
  | .pinching => departPinching v w
  | .swiping => departSwiping v w
  | .clicked => departClicked now v w
  | .residual => departResidual v w
  | .coasting => w

/-! ## Stage 2: landings -/

/-- Entry to MULTI (R91). -/
def enterMulti (candidate : Bool) (w : Work) : Work :=
  (((w.setPointer none).onEngine Engine.clearLanding).onEngine fun e => { e with tapCandidate := candidate }).goto .multi

/-- Landings in IDLE: one finger touches, two or more enter MULTI (R84). -/
def landIdle (v : PadView) (w : Work) : Work :=
  match v.landings with
  | [] => w
  | [c] => (w.setPointer (some c.entry.track)).goto .touch
  | _ :: _ :: _ => enterMulti true w

/-- Coasting ended with SCROLL_END (R101). -/
def endCoast (w : Work) : Work :=
  ((w.onEngine fun e => { e with coastTimer := none, vcx := 0, vcy := 0 }).record .scrollEnd).goto .idle

/-- A landing in TAP_WAIT: the second touch drags (R89). -/
def landTapWait (now : Stamp) (v : PadView) (w : Work) : Work :=
  ((w.onEngine fun e => { e with tapGapTimer := none }).setPointer
    ((mostRecent now (v.landings.map (·.entry))).map (·.track))).goto .tapDrag

/-- A landing in CLICKED: the pointer contact becomes the most recently landed FINGER entry (R104). -/
def landClicked (now : Stamp) (v : PadView) (w : Work) : Work :=
  w.setPointer ((mostRecent now (v.fingers.map (·.entry))).map (·.track))

/-- The landing rule of the state that stage 1 left, for a frame with landings (R81). -/
def landings (now : Stamp) (v : PadView) (w : Work) : Work :=
  match w.e.state with
  | .idle => landIdle v w
  | .touch => enterMulti true w
  | .pointing => enterMulti false w
  | .holdDrag => w
  | .tapWait => landTapWait now v w
  | .tapDrag => w
  | .multi => w
  | .scrolling => w
  | .pinching => w
  | .swiping => w
  | .clicked => landClicked now v w
  | .residual => w
  | .coasting => landIdle v (endCoast w)

/-- The landing values taken afresh at the end of stage 2 in MULTI, when the finger set differs from the landing set and
counts 2 to 4 (R91). -/
def retake (v : PadView) (w : Work) : Work :=
  let n := v.fingers.length
  if w.e.state = .multi ∧ tracks v.fingers ≠ w.e.landingSet ∧ 2 ≤ n ∧ n ≤ 4 then
    w.onEngine fun e => { e with
      landingSet := tracks v.fingers
      landingCentroid := some (centroid (positions v.fingers))
      landingSeparation := if n = 2 then some (separation (positions v.fingers)) else none
      peakCount := max e.peakCount n }
  else w

/-- Stage 2 (R81). -/
def stage2 (now : Stamp) (v : PadView) (w : Work) : Work :=
  retake v (if v.landings.isEmpty then w else landings now v w)

/-! ## Stage 3: evaluation -/

/-- The pointer contact's entry, PRESENT or LIFTING. -/
def pointerEntry (v : PadView) (e : Engine) : Option Classified :=
  v.entries.find? fun c => e.pointer == some c.entry.track

/-- TOUCH evaluated: travel first, then age (R85). -/
def evalTouch (t : Tables) (v : PadView) (w : Work) : Work :=
  match pointerEntry v w.e with
  | none => w
  | some c =>
    if t.tapSlop < c.entry.travel then w.goto .pointing
    else if t.holdMin ≤ c.entry.age then (w.setButton .primary).goto .holdDrag
    else w

/-- The tap candidate cleared by a finger outside the tap limits (R92, stage 3). -/
def spoilCandidate (t : Tables) (v : PadView) (w : Work) : Work :=
  if v.fingers.any (fun c => !tapLimits t c.entry) then w.onEngine fun e => { e with tapCandidate := false } else w

/-- MULTI left for RESIDUAL (R93). -/
def abandonMulti (w : Work) : Work := (w.onEngine Engine.clearLanding).goto .residual

/-- The landing set kept as the pair of a scroll or pinch (R94). -/
def keepPair (e : Engine) : Engine :=
  { e.clearLanding with landingSet := e.landingSet }

/-- The centroid travel from the landing centroid (R94, R95). -/
def centroidTravel (v : PadView) (e : Engine) : Nat :=
  match e.landingCentroid with
  | none => 0
  | some c => chebyshev c (centroid (positions v.fingers))

/-- The separation change from the landing separation (R94). -/
def separationChange (v : PadView) (e : Engine) : Nat :=
  match e.landingSeparation with
  | none => 0
  | some d => ((separation (positions v.fingers) : Int) - d).natAbs

/-- Two fingers: pinch, scroll, or still undecided (R94). -/
def evalTwo (t : Tables) (v : PadView) (w : Work) : Work :=
  let tc := centroidTravel v w.e
  let ds := separationChange v w.e
  if t.pinchStart ≤ ds ∧ tc < ds then
    ((w.onEngine keepPair).onEngine fun e =>
      { e with lastSeparation := some (max 1 (separation (positions v.fingers))) }).goto .pinching
  else if t.scrollStart ≤ tc then
    ((w.onEngine keepPair).onEngine fun e =>
      { e with lastCentroid := some (centroid (positions v.fingers)) }).goto .scrolling
  else spoilCandidate t v w

/-- The direction of a centroid displacement; equal magnitudes go to the horizontal (R95). -/
def swipeDirectionOf (dx dy : Int) : Direction :=
  if dy.natAbs ≤ dx.natAbs then (if 0 < dx then .right else .left)
  else (if 0 < dy then .down else .up)

/-- The displacement of the centroid from the landing centroid (R95). -/
def displacement (v : PadView) (e : Engine) : Int × Int :=
  let c := centroid (positions v.fingers)
  let l := e.landingCentroid.getD c
  ((c.x : Int) - l.x, (c.y : Int) - l.y)

/-- Three or four fingers: a swipe, or still undecided (R95). -/
def evalSwipe (t : Tables) (v : PadView) (w : Work) : Work :=
  if t.swipeStart ≤ centroidTravel v w.e then
    let d := displacement v w.e
    let dir := swipeDirectionOf d.1 d.2
    let n := v.fingers.length
    (((w.onEngine Engine.clearLanding).onEngine fun e =>
      { e with swipeDirection := some dir, swipeCount := some n }).record (.swipeBegin dir n)).goto .swiping
  else spoilCandidate t v w

/-- MULTI evaluated: the finger count first (R93); the candidate is cleared for the frames after (R92). -/
def evalMulti (t : Tables) (v : PadView) (w : Work) : Work :=
  let n := v.fingers.length
  if 5 ≤ n then abandonMulti w
  else if n = 1 then (if w.e.tapCandidate then spoilCandidate t v w else abandonMulti w)
  else if n = 2 then evalTwo t v w
  else if n = 0 then w
  else evalSwipe t v w

/-- Stage 3: the thresholds of the state that stage 2 left (R81). -/
def stage3 (t : Tables) (v : PadView) (w : Work) : Work :=
  match w.e.state with
  | .idle => w
  | .touch => evalTouch t v w
  | .pointing => w
  | .holdDrag => w
  | .tapWait => w
  | .tapDrag => w
  | .multi => evalMulti t v w
  | .scrolling => w
  | .pinching => w
  | .swiping => w
  | .clicked => w
  | .residual => w
  | .coasting => w

/-! ## Stage 4: motion (R83) -/

/-- Motion handed over, to be added into the open pointer record (R114). -/
def Work.addMotion (w : Work) (d : Delta) : Work := { w with out := w.out ++ [.motion w.e.button d] }

/-- The pointer delta of a pointer contact that was present, not admitted and not restored in this frame (R83, R115). -/
def movePointer (t : Tables) (dt : Nat) (v : PadView) (w : Work) : Work :=
  match pointerEntry v w.e with
  | none => w
  | some c =>
    if c.isNew || c.restored || c.entry.presence == .lifting then w
    else
      let r := pointerInput t w.m ((c.entry.pos.x : Int) - c.prev.x) ((c.entry.pos.y : Int) - c.prev.y) dt
      { w with m := r.1 }.addMotion r.2

/-- A contact of a pair is LIFTING. -/
def someLifting (cs : List Classified) : Bool := cs.any (·.entry.presence == .lifting)

/-- The scroll delta of the pair's centroid; the centroid now is the base of the next frame (R83, R116). -/
def moveScroll (t : Tables) (dt : Nat) (v : PadView) (w : Work) : Work :=
  let pair := ofTracks w.e.landingSet v.fingers
  let now := centroid (positions pair)
  let last := w.e.lastCentroid.getD now
  let w' := w.onEngine fun e => { e with lastCentroid := some now }
  if someLifting pair then w'
  else
    let r := scrollInput t w.m ((now.x : Int) - last.x) ((now.y : Int) - last.y) dt
    { w' with m := r.1 }.addMotion r.2

/-- The pinch step of the pair's separation; the separation now is the base of the next frame (R83, R118). -/
def movePinch (v : PadView) (w : Work) : Work :=
  let pair := ofTracks w.e.landingSet v.fingers
  let now := max 1 (separation (positions pair))
  let last := w.e.lastSeparation.getD now
  let w' := w.onEngine fun e => { e with lastSeparation := some now }
  if someLifting pair then w'
  else w'.addMotion { zeroDelta with zoom := pinchStep last now }

/-- Stage 4: no input is handed when the frame changed the gesture state, or set or changed the pointer contact (R83). -/
def stage4 (t : Tables) (dt : Nat) (v : PadView) (before : Engine) (w : Work) : Work :=
  if w.e.state ≠ before.state then w
  else if w.e.state.moves then
    (if w.e.pointer ≠ before.pointer then w else movePointer t dt v w)
  else if w.e.state = .scrolling then moveScroll t dt v w
  else if w.e.state = .pinching then movePinch v w
  else w

/-- A pad frame's work in the engine and in Motion Transfer, in its four stages (R81). -/
def padFrame (t : Tables) (now : Stamp) (dt : Nat) (v : PadView) (e : Engine) (m : Motion) : Work :=
  stage4 t dt v e (stage3 t v (stage2 now v (stage1 t now v ⟨e, m, []⟩)))

/-! ## Timers (R89, R100) -/

/-- The TapGap expiry in TAP_WAIT (R89). -/
def tapGapExpired (w : Work) : Work :=
  let w := w.onEngine fun e => { e with tapGapTimer := none }
  if w.e.state = .tapWait then (w.setButton .none).goto .idle else w

/-- A coast expiry: the velocity is added, then decayed, then compared with CoastStop (R100, R120). -/
def coastExpired (t : Tables) (w : Work) : Work :=
  let w := w.addMotion { zeroDelta with h := w.e.vcx, v := w.e.vcy }
  let vx := decayed t w.e.vcx
  let vy := decayed t w.e.vcy
  if velocitySize vx vy < t.coastStop then endCoast w
  else w.onEngine fun e =>
    { e with vcx := vx, vcy := vy, coastTimer := e.coastTimer.map fun x => afterMs x 8 }

/-! ## The click line (R102 to R104) -/

/-- The FINGER entries of a pad table, PRESENT or LIFTING. -/
def fingerEntries (es : List Entry) : List Entry := es.filter (·.cls == .finger)

/-- The button that a click press chooses (R102). -/
def clickButton (t : Tables) (now : Stamp) (es : List Entry) : Button :=
  if 2 ≤ (fingerEntries es).length then .secondary
  else
    match mostRecent now (es.filter fun e => e.cls == .finger || e.cls == .resting) with
    | none => .primary
    | some e =>
      match t.zoneFunction e.zone with
      | .secondary => .secondary
      | .middle => .middle
      | .pointer => .primary
      | .rest => .primary
      | .dead => .primary

/-- What a click press does before CLICKED, by gesture state (R103). -/
def beforeClick (w : Work) : Work :=
  match w.e.state with
  | .coasting => endCoast w
  | .tapWait => (w.onEngine fun e => { e with tapGapTimer := none }).setButton .none
  | .scrolling => w.record .scrollEnd
  | .pinching => w.record .pinchEnd
  | .swiping => endSwipe w
  | .idle => w
  | .touch => w
  | .pointing => w
  | .holdDrag => w
  | .tapDrag => w
  | .multi => w
  | .clicked => w
  | .residual => w

/-- The fields of the state left, which a click press clears (R103). -/
def clearForClick (e : Engine) : Engine :=
  { e.clearLanding with
    swipeDirection := none, swipeCount := none, lastCentroid := none, lastSeparation := none
    vcx := 0, vcy := 0 }

/-- A click press (R102, R103); in CLICKED it is ignored. -/
def clickPress (t : Tables) (now : Stamp) (es : List Entry) (w : Work) : Work :=
  if w.e.state = .clicked then w
  else
    let w := ((beforeClick w).setButton (clickButton t now es)).onEngine clearForClick
    (w.goto .clicked).setPointer ((mostRecent now (fingerEntries es)).map (·.track))

/-- A click release (R104); in any state but CLICKED it changes nothing. -/
def clickRelease (es : List Entry) (w : Work) : Work :=
  if w.e.state = .clicked then
    ((w.setButton .none).setPointer none).goto (restState (fingerEntries es).length)
  else w

/-! ## Surface loss (R105) -/

/-- Surface loss: a pressed button is released with one change, every field takes its reset value, and no record is made. -/
def surfaceLoss (w : Work) : Work :=
  let w := ((w.setButton .none).setPointer none).goto .idle
  { w with e := initialEngine }

end Sys2Proof.Machine
end

