-- ==== Sys2Proof/Machine/PostureRules.lean ====
section
/-! DEFINITION. The Posture Controller's own rules: the bands (R123, R124) and the judgement of a request (R125), without the
switch, which other blocks take part in (Machine/Switch.lean). -/

namespace Sys2Proof.Machine

/-- The band index moved by one boundary, or left (R123). Boundary k stands at index k - 1 of the table. -/
def bandStep (bands : List Boundary) (angle band : Nat) : Nat :=
  if band < 3 && (bands[band]?).any (fun b => b.rise ≤ angle) then band + 1
  else if 0 < band && (bands[band - 1]?).any (fun b => angle < b.fall) then band - 1
  else band

/-- The band index moved until no step holds: three boundaries allow at most three steps in one direction (R123). -/
def bandMove (bands : List Boundary) (angle band : Nat) : Nat :=
  bandStep bands angle (bandStep bands angle (bandStep bands angle band))

/-- The posture of a band (R124). Band 2 is reached by an AUX frame alone, which stores a deck orientation (R126; log entry
17). -/
def bandPosture (band : Nat) (deck : Option Deck) : Posture :=
  match band with
  | 0 => .closed
  | 1 => .laptop
  | 2 => if deck = some .down then .stand else .tent
  | _ => .tablet

/-- What a request leads to (R125). -/
inductive Judged where
  /-- the controller's fields take these values and no switch is made -/
  | wait (p : PostureControl)
  /-- the requested posture takes the request, and the switch is made at once -/
  | switch (p : PostureControl)
deriving DecidableEq, Repr

/-- A request judged against the actual posture and the pad's quiet (R125). -/
def judgeRequest (wait : Nat) (now : Stamp) (quiet : Bool) (p : PostureControl) (r : Posture) : Judged :=
  if r = p.actual then .wait { p with requested := p.actual, pending := false, deferral := none }
  else if quiet then .switch { p with requested := r }
  else if p.pending then .wait { p with requested := r }
  else .wait { p with requested := r, pending := true, deferral := some (afterMs now wait) }

/-- Step 1 of a switch: the actual posture becomes the requested one, nothing is pending and the timer is stopped (R130). -/
def PostureControl.switched (p : PostureControl) : PostureControl :=
  { p with actual := p.requested, pending := false, deferral := none }

/-- The controller after a warm restart: a pending request is dropped (R122). -/
def PostureControl.restarted (p : PostureControl) : PostureControl :=
  { p with requested := p.actual, pending := false, deferral := none }

end Sys2Proof.Machine
end

