-- ==== Sys2Proof/Machine/Switch.lean ====
section
/-! DEFINITION. What several blocks do together: holds and teardowns of the role owners (R31, R32, R58, R73 to R75), surface
loss (R105), the judgement of quiet (R127), the posture switch (R130) and posture requests (R125). -/

namespace Sys2Proof.Machine

/-- The engine and Motion Transfer put to work, and what they hand over taken by the link in order. -/
def State.pads (s : State) (f : Work → Work) : State :=
  let w := f ⟨s.engine, s.motion, []⟩
  { s with engine := w.e, motion := w.m, link := s.link.takeAll w.out }

/-- The Pen Unit put to work, and its samples appended. -/
def State.pens (s : State) (f : Pen → PenWork) : State :=
  let w := f s.pen
  { s with pen := w.pen, link := w.out.foldl Link.appendPen s.link }

/-- Screen records appended in order (R157). -/
def State.appendScreens (s : State) (rs : List TouchRecord) : State :=
  { s with link := rs.foldl Link.appendScreen s.link }

/-! ## Teardowns -/

/-- A teardown of the pad taken: every entry is removed, then the engine takes surface loss (R32, R105). -/
def State.tearPad (s : State) : State :=
  State.pads { s with contacts := { s.contacts with pad := [] } } surfaceLoss

/-- A teardown of the screen taken: every entry is removed, each OPEN one with a CANCEL in ascending slot (R32, R58). -/
def State.tearScreen (s : State) : State :=
  State.appendScreens { s with contacts := { s.contacts with screen := [] } } (cancelRecords s.contacts.screen)

/-- A teardown of the pen taken (R74, R75). -/
def State.tearPen (s : State) (k : PenTeardown) : State :=
  match k with
  | .port => s.pens (penTeardownPort s.store.active s.timebase)
  | .closed => s.pens penTeardownClosed

/-- A teardown of the pad requested: taken at once, or at the completion of a pad frame in processing (R32). -/
def State.requestPad (s : State) : State :=
  if s.ports.frameOf .pad then { s with waits := { s.waits with pad := true } } else s.tearPad

/-- A teardown of the screen requested (R32). -/
def State.requestScreen (s : State) : State :=
  if s.ports.frameOf .screen then { s with waits := { s.waits with screen := true } } else s.tearScreen

/-- A teardown of the pen requested (R74, R75). -/
def State.requestPen (s : State) (k : PenTeardown) : State :=
  if s.ports.frameOf .pen then { s with waits := { s.waits with pen := s.waits.pen ++ [k] } } else s.tearPen k

/-- The teardown that a port asks the owner of a role for, at DOWN and at disable (R4, R7). -/
def State.requestRole (s : State) : Role → State
  | .pad => s.requestPad
  | .screen => s.requestScreen
  | .pen => s.requestPen .port
  | .aux => s
  | .unused => s

/-- The teardown requests that wait for the completion of a frame of a role, taken in turn (R32, R74, R75). -/
def State.takeWaits (s : State) : Role → State
  | .pad => if s.waits.pad then State.tearPad { s with waits := { s.waits with pad := false } } else s
  | .screen => if s.waits.screen then State.tearScreen { s with waits := { s.waits with screen := false } } else s
  | .pen => s.waits.pen.foldl State.tearPen { s with waits := { s.waits with pen := [] } }
  | .aux => s
  | .unused => s

/-! ## Holds -/

/-- Every entry of a list with its held mark set or cleared. -/
def setHeld (held : Bool) (es : List Entry) : List Entry := es.map fun e => { e with held := held }

/-- The hold of a role's owner taken or released (R5, R6, R31, R73). -/
def State.hold (s : State) (held : Bool) : Role → State
  | .pad => { s with contacts := { s.contacts with pad := setHeld held s.contacts.pad } }
  | .screen => { s with contacts := { s.contacts with screen := setHeld held s.contacts.screen } }
  | .pen => { s with pen := { s.pen with held := held } }
  | .aux => s
  | .unused => s

/-! ## Quiet and the switch -/

/-- The pad is quiet: no pad entry, the engine IDLE, the pen not in CONTACT (R127). -/
def State.quiet (s : State) : Bool :=
  s.contacts.pad.isEmpty && s.engine.state == .idle && s.pen.state != .contact

/-- The teardowns that a switch requests, by the surfaces live before and not after (R130, R132). -/
def State.leaveUse (s : State) (old new : Posture) : State :=
  let s := if padLive old && !padLive new then s.requestPad else s
  let s := if screenLive old && !screenLive new then s.requestScreen else s
  if screenLive old && !screenLive new then s.requestPen .closed else s

/-- The accepted click level takes the line level, with no press or release (R18). -/
def State.sampleClick (s : State) : State := { s with aux := { s.aux with accepted := s.pins.click } }

/-- The switch to the requested posture (R130, R131). -/
def State.switch (s : State) (forced : Bool) : State :=
  let old := s.posture.actual
  let s : State := { s with posture := s.posture.switched }
  let new := s.posture.actual
  let s := s.leaveUse old new
  let s := if padLive new && !padLive old then s.sampleClick else s
  { s with link := (s.link.appendGesture (.posture new old forced)).latch .postureChanged }

/-- Quiet judged at the end of an event that can change it, while a request is pending (R127). -/
def State.judgeQuiet (s : State) : State :=
  if s.posture.pending && s.quiet then s.switch false else s

/-- A teardown that a port or FLUSH_SURFACE asks of the owner of a role. Quiet is judged when a teardown of the pad or of the
pen is taken by it; one that waits is judged at the completion it waits for (R127; DEDUCED, log entry 24). -/
def State.askTeardown (s : State) (r : Role) : State :=
  if (r = .pad ∨ r = .pen) ∧ s.ports.frameOf r = false then (s.requestRole r).judgeQuiet else s.requestRole r

/-- A posture requested (R125). -/
def State.request (s : State) (r : Posture) : State :=
  match judgeRequest s.store.active.postureWait s.timebase s.quiet s.posture r with
  | .wait p => { s with posture := p }
  | .switch p => State.switch { s with posture := p } false

end Sys2Proof.Machine
end

