-- ==== Sys2Proof/Machine/Frames.lean ====
section
/-! DEFINITION. The life of a frame on a sensor port (DEDUCED, log entry 4: a frame's whole work is done when it begins): the
work of its role's owner (R13, R16, R19, R22, R53, R62), the arrival of a record (R5, R9, R12, R14), its reception
byte by byte (R3, R9, R168), the hold of new frames
(R15), the swap (R143), the effect of a warm restart (R1, R163), and the completion (R13). -/

namespace Sys2Proof.Machine

/-! ## The work of one frame -/

/-- What the Classifier reads of other blocks at the beginning of its work (R37). -/
def State.snapshot (s : State) : Snapshot where
  now := s.timebase
  keyTime := s.aux.keyTime
  quietRunning := s.keyQuiet.isSome
  penState := s.pen.state
  shadow := s.pen.shadow s.store.active
  posture := s.posture.actual

/-- The work of a pad frame: Tracker, Classifier, Pad Gesture Engine, Motion Transfer (R22, R47, R53, R81). -/
def State.padFrameWork (s : State) (stamp : Stamp) (dt : Nat) (cs : List Contact) : State :=
  let t := s.store.active
  let h := trackFrame t.liftGrace t.padJump (landingZone t.zones) (s.contacts.screen.map (·.track))
    s.contacts.nextId cs stamp s.contacts.pad
  let ks := classifyAll t .pad s.snapshot h.entries
  State.pads { s with contacts := { s.contacts with pad := ks.map (·.entry), nextId := h.nextId } }
    fun w => padFrame t s.timebase dt ⟨ks, h.lifted⟩ w.e w.m

/-- The work of a screen frame: Tracker, Classifier and the screen records (R22, R47, R59). -/
def State.screenFrameWork (s : State) (stamp : Stamp) (cs : List Contact) : State :=
  let t := s.store.active
  let h := trackFrame t.liftGrace t.screenJump (fun _ => none) (s.contacts.pad.map (·.track))
    s.contacts.nextId cs stamp s.contacts.screen
  let ks := classifyAll t .screen s.snapshot h.entries
  State.appendScreens { s with contacts := { s.contacts with screen := ks.map reportedEntry, nextId := h.nextId } }
    (screenRecords h.lifted ks)

/-- The work of a pen frame: the position mapped (R19), then the Pen Unit's rule (R62). -/
def State.penFrameWork (s : State) (loss : Bool) (r : PenRecord) : State :=
  let t := s.store.active
  s.pens fun p => penFrame t s.timebase loss p { r with pos := mapPen t r.pos }

/-- The keystroke time set, and the keystroke quiet timer started afresh for 65535 ms (R16, R36). -/
def State.noteKeys (s : State) (stamp : Stamp) (keys : Nat) : State :=
  if 0 < keys then
    { s with aux := { s.aux with keyTime := some stamp }, keyQuiet := some (afterMs s.timebase 65535) }
  else s

/-- The work of an aux frame: Aux Intake, then the Posture Controller (R16, R36, R123, R124). -/
def State.auxFrameWork (s : State) (stamp : Stamp) (r : AuxRecord) : State :=
  let s : State := { s with aux := { s.aux with hinge := some r.hinge, deck := some r.deck } }
  let s := s.noteKeys stamp r.keys
  let band := bandMove s.store.active.bands r.hinge s.posture.band
  let s : State := { s with posture := { s.posture with band := band } }
  match s.posture.override with
  | none => s.request (bandPosture band (some r.deck))
  | some _ => s

/-- The frame's work handed to the owner of its role (R13). A record fits its port's role (R9). -/
def State.frameWork (s : State) (role : Role) (loss : Bool) (stamp : Stamp) (dt : Nat) (r : ScanRecord) : State :=
  match role, r with
  | .pad, .contacts cs => s.padFrameWork stamp dt cs
  | .screen, .contacts cs => s.screenFrameWork stamp cs
  | .pen, .pen p => s.penFrameWork loss p
  | .aux, .aux a => s.auxFrameWork stamp a
  | _, _ => s

/-- A frame begins on a port: the frame interval, the last frame stamp, and for a pen the port's loss mark, which the frame
carries (R13, R14, R62). -/
def State.beginFrame (s : State) (i : Fin 4) (r : Stamped) : State :=
  let p := s.port i
  let dt := frameInterval p.lastStamp r.stamp
  let s := s.setPort i { p with
    lastStamp := some r.stamp, waiting := none
    lossMark := if p.role = .pen then false else p.lossMark
    frame := some ⟨p.role, r.record, r.stamp, dt⟩ }
  s.frameWork p.role p.lossMark r.stamp dt r.record

/-! ## Arrival -/

/-- The deadline timer of a port started afresh at this moment (R5, R6). -/
def State.deadlineFrom (s : State) (i : Fin 4) : Stamp := afterMs s.timebase (s.store.active.lateAfter i)

/-- A port made LIVE with its deadline started afresh; a port that leaves LATE releases the hold (R5). -/
def State.revive (s : State) (i : Fin 4) : State :=
  let p := s.port i
  let s := s.setPort i { p with state := .live, deadline := some (s.deadlineFrom i) }
  if p.state = .late then s.hold false p.role else s

/-- No port begins a new frame: a commit is pending, or a RESTART waits (R15). -/
def State.heldBack (s : State) : Bool := s.store.pendingCommit != 0 || s.link.restartWaiting

/-- A record put into the waiting buffer; a replacement on a PEN port sets the loss mark (R14). -/
def State.buffer (s : State) (i : Fin 4) (r : Stamped) : State :=
  let p := s.port i
  s.setPort i { p with
    waiting := some r
    lossMark := p.lossMark || (p.waiting.isSome && p.role == .pen) }

/-- An accepted record: R5, then R12, then a frame begins or the record waits (R13, R14). -/
def State.accept (s : State) (i : Fin 4) (r : ScanRecord) : State :=
  let role := (s.port i).role
  let s := s.revive i
  if !roleLive s.posture.actual role then s
  else if (s.port i).frame.isNone && !s.heldBack then s.beginFrame i ⟨r, s.timebase⟩
  else s.buffer i ⟨r, s.timebase⟩

/-- The body of a record is complete: it is checked, and discarded with FRAME_BAD or accepted (R9). -/
def State.arrival (s : State) (i : Fin 4) (body : List Byte) : State :=
  match parseBody (s.port i).role body with
  | none => s.latch .frameBad
  | some r => s.accept i r

/-! ## Reception (R3, R9, R168) -/

/-- The byte that starts a scan record (R168). -/
def startByte : Byte := 0xA5

/-- What a port has of the record on its line, replaced. -/
def State.setRx (s : State) (i : Fin 4) (rx : Reception) : State := s.setPort i { s.port i with rx := rx }

/-- A byte without a framing error on an enabled port: while the port hunts, a start byte begins a record and any other byte is
passed over; then the length byte, 0 of which ends an empty body, and then the body, counted (R3, R9, R168). -/
def State.receiveByte (s : State) (i : Fin 4) (b : Byte) : State :=
  match (s.port i).rx with
  | .hunting => if b = startByte then s.setRx i .length else s
  | .length => if b = 0 then (s.setRx i .hunting).arrival i [] else s.setRx i (.body b.toNat [])
  | .body n bs =>
    if n ≤ bs.length + 1 then (s.setRx i .hunting).arrival i (bs ++ [b]) else s.setRx i (.body n (bs ++ [b]))

/-- A framing error or a gap on an enabled port: a record under way is discarded with FRAME_BAD and the port hunts again; while it
hunts there is no record to discard (R9; DEDUCED, log entry 25). -/
def State.breakRecord (s : State) (i : Fin 4) : State :=
  match (s.port i).rx with
  | .hunting => s
  | .length => (s.setRx i .hunting).latch .frameBad
  | .body _ _ => (s.setRx i .hunting).latch .frameBad

/-- A character on a port's line; a DISABLED port does not receive it (R9). -/
def State.receive (s : State) (i : Fin 4) (ch : Character) : State :=
  if (s.port i).enabled then
    if ch.stop then s.receiveByte i (lineByte ch.bits) else s.breakRecord i
  else s

/-- The characters on a port's line, one after another. -/
def State.receiveLine (s : State) (i : Fin 4) (line : List Character) : State :=
  line.foldl (fun s ch => s.receive i ch) s

/-- More than 100 us after the last character (R9). -/
def State.gap (s : State) (i : Fin 4) : State := if (s.port i).enabled then s.breakRecord i else s

/-! ## Waiting records -/

/-- A port LATE or DOWN again takes R5's change to LIVE at the beginning of its waiting record (R13; DEDUCED, unsafe: log
entry 6). -/
def State.reviveIfStalled (s : State) (i : Fin 4) : State :=
  if (s.port i).state = .late ∨ (s.port i).state = .down then s.revive i else s

/-- A port with a waiting record and no frame in processing begins it, or discards it when its surface or the pen is no
longer live (R13, R14; log entry 19). -/
def State.beginWaiting (s : State) (i : Fin 4) : State :=
  let p := s.port i
  match p.waiting with
  | none => s
  | some r =>
    if p.frame.isSome then s
    else if !roleLive s.posture.actual p.role then s.setPort i { p with waiting := none, lossMark := false }
    else (s.reviveIfStalled i).beginFrame i r

/-- The ports that have a waiting record and no frame in processing, in ascending number. -/
def State.readyPorts (s : State) : List (Fin 4) :=
  ([0, 1, 2, 3] : List (Fin 4)).filter fun i => (s.port i).waiting.isSome && (s.port i).frame.isNone

/-- Every port that can begin its waiting record begins it. Where several can, the order is a free choice (DESIGN CHOICE,
safe: log entry 3). -/
def State.beginAll (s : State) : State :=
  match s.readyPorts with
  | [] => s
  | [i] => s.beginWaiting i
  | i :: j :: rest =>
    (arrange (Config.beginOrder s.freeCount) (i :: j :: rest)).foldl State.beginWaiting
      { s with freeCount := s.freeCount + 1 }

/-! ## Swap and restart -/

/-- The swap (R143): the pending tables become active together, the set empties, TABLE_SWAPPED is latched, and each port with a
waiting record begins it. -/
def State.swap (s : State) : State :=
  let s : State := { s with store := { s.store with
    active := copySet s.store.pendingCommit s.store.shadow s.store.active, pendingCommit := 0 } }
  (s.latch .tableSwapped).beginAll

/-- A port when a warm restart takes effect (R1): an enabled port is WAITING. -/
def Port.restarted (p : Port) : Port :=
  { p with
    state := if p.state = .disabled then .disabled else .waiting
    lastStamp := none, deadline := none, waiting := none, lossMark := false }

/-- The Report Link when a warm restart takes effect: RESTARTED is the one latched cause; the reply slot, the masks and the
ceiling are kept, and an exchange in progress goes on (R163). -/
def Link.restarted (l : Link) : Link :=
  { l with
    pen := [], screen := [], pointer := [], gesture := []
    latched := causeBit .restarted, overrun := clearOverrun, restartWaiting := false }

/-- A warm restart takes effect in every block (R1, R18, R21, R61, R78, R108, R122, R134, R163). -/
def State.restartEffect (s : State) : State :=
  { s with
    ports := s.ports.map Port.restarted
    aux := { s.aux with accepted := s.pins.click, debounce := none }
    contacts := initialContacts
    pen := s.pen.restarted
    engine := initialEngine
    motion := initialMotion
    posture := s.posture.restarted
    store := { s.store with shadow := s.store.active, pendingCommit := 0 }
    link := s.link.restarted
    waits := initialWaits }

/-- The swap or the restart's effect, when one waits and no port has a frame in processing; otherwise, when nothing holds
frames back, the port begins its waiting record (R13, R15, R143, R163). -/
def State.settle (s : State) (i : Fin 4) : State :=
  if s.link.restartWaiting then (if s.ports.anyFrame then s else s.restartEffect)
  else if s.store.pendingCommit != 0 then (if s.ports.anyFrame then s else s.swap)
  else s.beginWaiting i

/-- What waits for the completion of a frame of a role on a port: teardowns in turn, then the hold, provided that the port is
still LATE (R6, R32, R74, R75). -/
def State.takeWaiting (s : State) (i : Fin 4) (role : Role) : State :=
  let s := s.takeWaits role
  if (s.port i).state = .late ∧ (s.port i).role = role then s.hold true role else s

/-- The completion of the frame that a port has in processing (R13), in this order: what waits for it, then quiet, then a
restart, a swap or the waiting record (DESIGN CHOICE, unsafe: log entry 7). -/
def State.complete (s : State) (i : Fin 4) : State :=
  match (s.port i).frame with
  | none => s
  | some f =>
    let s := s.setPort i { s.port i with frame := none }
    let s := s.takeWaiting i f.role
    let s := if f.role = .pad ∨ f.role = .pen then s.judgeQuiet else s
    s.settle i

/-! ## The deadline (R6, R7) -/

/-- A port goes LATE: the deadline runs again, and the owner holds, at once or at the completion of its frame (R6). -/
def State.goLate (s : State) (i : Fin 4) : State :=
  let p := s.port i
  let s := s.setPort i { p with state := .late, deadline := some (s.deadlineFrom i) }
  if s.ports.frameOf p.role then s else s.hold true p.role

/-- A port goes DOWN: STREAM_DOWN is latched, and the owner is asked for a teardown (R7). -/
def State.goDown (s : State) (i : Fin 4) : State :=
  let p := s.port i
  let s := s.setPort i { p with state := .down, deadline := none }
  (s.latch .streamDown).askTeardown p.role

/-- The deadline timer of a port expires (R6, R7). -/
def State.deadline (s : State) (i : Fin 4) : State :=
  let p := s.port i
  if due p.deadline s.timebase then
    match p.state with
    | .live => s.goLate i
    | .late => s.goDown i
    | .disabled => s
    | .waiting => s
    | .down => s
  else s

end Sys2Proof.Machine
end

