-- ==== Sys2Proof/Machine/Exchange.lean ====
section
/-! DEFINITION. The exchanges of the report link: the fill (R154), completion (R147), truncation (R148), the release of SELn
(R146), what SDO carries (R146), and the placing of a reply (R150). -/

namespace Sys2Proof.Machine

/-! ## The fill (R154) -/

/-- How many records from the head of a queue are sendable and fit in the bytes that remain (R154). -/
def fitCount (size : Nat) (sendable : α → Bool) : Nat → List α → Nat
  | _, [] => 0
  | space, a :: as =>
    if sendable a && size ≤ space then fitCount size sendable (space - size) as + 1 else 0

/-- A function applied to the first `n` elements of a list. -/
def onHead (n : Nat) (f : α → α) (l : List α) : List α := (l.take n).map f ++ l.drop n

/-- A fill under way: the link with its marks so far, the record bytes placed, and the bytes left of 60. -/
structure Fill where
  link : Link
  bytes : List Byte
  left : Nat
deriving DecidableEq, Repr

/-- The reply placed, when the slot holds one (R150, R154 step 1). -/
def fillReply (l : Link) : Fill :=
  match l.reply with
  | none => ⟨l, [], 60⟩
  | some r => ⟨{ l with reply := some { r with inFlight := true } }, replyBytes r, 60 - (replyBytes r).length⟩

/-- Class 1 placed (R154 step 2). -/
def fillPen (f : Fill) : Fill :=
  if 1 < f.link.ceiling then
    let n := fitCount 12 (fun _ => true) f.left f.link.pen
    ⟨{ f.link with pen := onHead n (fun r => { r with inFlight := true }) f.link.pen },
      f.bytes ++ (f.link.pen.take n).flatMap penSampleBytes, f.left - 12 * n⟩
  else f

/-- Class 2 placed. -/
def fillScreen (f : Fill) : Fill :=
  if 2 < f.link.ceiling then
    let n := fitCount 8 (fun _ => true) f.left f.link.screen
    ⟨{ f.link with screen := onHead n (fun r => { r with inFlight := true }) f.link.screen },
      f.bytes ++ (f.link.screen.take n).flatMap touchRecordBytes, f.left - 8 * n⟩
  else f

/-- Class 3 placed; a tail that is taken is closed (R158). -/
def fillPointer (f : Fill) : Fill :=
  if 3 < f.link.ceiling then
    let n := fitCount 8 PointerRecord.sendable f.left f.link.pointer
    ⟨{ f.link with pointer := onHead n (fun r => { r with inFlight := true, isOpen := false }) f.link.pointer },
      f.bytes ++ (f.link.pointer.take n).flatMap pointerRecordBytes, f.left - 8 * n⟩
  else f

/-- Class 4 placed. -/
def fillGesture (f : Fill) : Fill :=
  if 4 < f.link.ceiling then
    let n := fitCount 4 (fun _ => true) f.left f.link.gesture
    ⟨{ f.link with gesture := onHead n (fun r => { r with inFlight := true }) f.link.gesture },
      f.bytes ++ (f.link.gesture.take n).flatMap (fun r => gestureBytes r.gesture), f.left - 4 * n⟩
  else f

/-- The reply and the classes below the ceiling placed, in ascending class number (R154). -/
def fillAll (l : Link) : Fill := fillGesture (fillPointer (fillScreen (fillPen (fillReply l))))

/-- The assertion of SELn: the cell is filled, its records are in flight, and an exchange is in progress (R146, R154). The
more-pending flag says that a sendable record of a class below the ceiling was left out. -/
def State.fill (s : State) : State :=
  let f := fillAll s.link
  let cell := cellBytes s.topCause f.link.waitingRecord s.posture.actual f.bytes
  { s with link := { f.link with exchange := some ⟨0, cell, []⟩, sdo := [] } }

/-- SELn asserted. An exchange is served once SELn has been seen high after a reset, and none while RESETn is low (R146,
R164); SELn already low is not asserted anew (log entry 5). -/
def State.assertSeln (s : State) : State :=
  if s.pins.selnLow then s
  else
    let s' : State := { s with pins := { s.pins with selnLow := true } }
    if s.pins.resetnLow || !s.link.selnSeenHigh then s' else s'.fill

/-! ## Completion and truncation -/

/-- Every record in flight leaves its queue, and a reply in flight leaves the slot (R147 step 1). -/
def Link.sent (l : Link) : Link :=
  { l with
    pen := l.pen.filter (!·.inFlight)
    screen := l.screen.filter (!·.inFlight)
    pointer := l.pointer.filter (!·.inFlight)
    gesture := l.gesture.filter (!·.inFlight)
    reply := match l.reply with
      | some r => if r.inFlight then none else some r
      | none => none }

/-- An exchange is in progress whose 64th byte has not come (R146). -/
def State.exchanging (s : State) : Bool :=
  match s.link.exchange with
  | none => false
  | some e => e.count < 64

/-- The 64th byte of the exchange: the sent records leave their queues (R146, R147 step 1). -/
def State.completeExchange (s : State) : State :=
  { s with link := { s.link.sent with exchange := s.link.exchange.map fun e => { e with count := 64, received := [] } } }

/-- The byte that the part shifts out: the cell's byte at the position, and 0x00 after the 64th (R146, R165). -/
def Exchange.out (e : Exchange) : Byte := if e.count < 64 then e.cell.getD e.count 0 else 0

/-- Bits shifted out on SDO (log entry 15). -/
def State.shiftOut (s : State) (bits : List Bool) : State := { s with link := { s.link with sdo := s.link.sdo ++ bits } }

/-- The exchange put in another state. -/
def State.setExchange (s : State) (e : Exchange) : State := { s with link := { s.link with exchange := some e } }

/-- Every in-flight mark is lost, and the records stay where they stand (R148). -/
def Link.returned (l : Link) : Link :=
  { l with
    pen := l.pen.map fun r => { r with inFlight := false }
    screen := l.screen.map fun r => { r with inFlight := false }
    pointer := l.pointer.map fun r => { r with inFlight := false }
    gesture := l.gesture.map fun r => { r with inFlight := false }
    reply := l.reply.map fun r => { r with inFlight := false } }

/-- A truncated exchange: the marks are lost and LINK_ERROR is latched (R148). -/
def State.truncate (s : State) : State :=
  { s with link := { (s.link.returned.latch .linkError) with exchange := none } }

/-- SELn released: an exchange short of its 64th byte is truncated (R148), a completed one is over (R146); SELn is seen high
(R164). SELn already high is not released anew (log entries 5 and 12). -/
def State.releaseSeln (s : State) : State :=
  if s.pins.selnLow then
    let s : State := { s with pins := { s.pins with selnLow := false } }
    if s.pins.resetnLow then s
    else
      let s := if s.exchanging then s.truncate else { s with link := { s.link with exchange := none } }
      { s with link := { s.link with selnSeenHigh := true } }
  else s

/-! ## Replies (R150) -/

/-- A reply placed in the reply slot (R150). -/
def State.reply (s : State) (kind : Byte) (b : ReplyBody) : State :=
  { s with link := { s.link with reply := some ⟨kind, b, false⟩ } }

end Sys2Proof.Machine
end

