-- ==== Sys2Proof/Machine/Directives.lean ====
section
/-! DEFINITION. What each directive does when it is taken, and its reply: status and masks (R151 to R153), the tables (R137 to
R145), the ports (R2 to R4), the posture (R126), flush (R33) and restart (R163); and the decoding of a received cell, which picks
the directive (R149, R166). -/

namespace Sys2Proof.Machine

/-! ## Status, causes and ceiling -/

/-- A cause set that names a number above 8 (R152, R153). -/
def causesOutOfRange (set : Half) : Bool := set >>> 9 != 0

/-- The values that READ_STATUS reports, as they stand (R151). -/
def State.statusReport (s : State) : StatusReport where
  causes := s.causes
  masks := s.link.masks
  overrun := s.link.overrun
  ceiling := s.link.ceiling
  ports := s.ports.toList.map fun p => (p.role, p.state)
  actual := s.posture.actual
  requested := s.posture.requested
  override := s.posture.override
  pendingCommit := s.store.pendingCommit
  partCode := Config.partCode
  revision := Config.revision

/-- READ_STATUS (R151). -/
def takeReadStatus (s : State) : State × ReplyBody := (s, .status s.statusReport)

/-- CLEAR_CAUSES (R152). -/
def takeClearCauses (set : Half) (s : State) : State × ReplyBody :=
  if causesOutOfRange set then (s, .refusedRange)
  else
    let left := s.levelCauses &&& set
    let s := { s with link := { s.link with
      latched := s.link.latched &&& ~~~set
      overrun := if set.getLsbD (causeCode .overrun) then clearOverrun else s.link.overrun } }
    (s, if left = 0 then .done else .stillActive left)

/-- SET_MASK (R153). -/
def takeSetMask (set : Half) (s : State) : State × ReplyBody :=
  if causesOutOfRange set then (s, .refusedRange)
  else ({ s with link := { s.link with masks := set } }, .done)

/-- SET_CEILING (R153). -/
def takeSetCeiling (value : Nat) (s : State) : State × ReplyBody :=
  if 1 ≤ value ∧ value ≤ 5 then ({ s with link := { s.link with ceiling := value } }, .done)
  else (s, .refusedRange)

/-! ## Tables -/

/-- WRITE_TABLE with its operands read: the table is a known one, and the count, range and payload fit it (R137). -/
def writeShadow (id : TableId) (first count : Nat) (payload : List Byte) (s : State) : State × ReplyBody :=
  if inSet s.store.pendingCommit id then (s, .refusedBusy)
  else
    let w := writeEntries id payload count first 3 s.store.shadow
    ({ s with store := { s.store with shadow := w.1 } },
      match w.2 with
      | none => .done
      | some i => .clamped i)

/-- WRITE_TABLE (R137, R149): the first row that fits. `length` is the payload length byte. -/
def takeWriteTable (length : Nat) (payload : List Byte) (s : State) : State × ReplyBody :=
  let first := byteAt payload 1
  let count := byteAt payload 2
  match tableOfCode (byteAt payload 0) with
  | none => (s, .refusedRange)
  | some id =>
    if count = 0 ∨ tableMax id < count ∨ tableSize id < first + count ∨ length ≠ 3 + count * entrySize id then
      (s, .refusedRange)
    else writeShadow id first count payload s

/-- The bank that a code names: ACTIVE 0 or SHADOW 1 (R139, R166). -/
def bankOf (st : Store) : Nat → Option Tables
  | 0 => some st.active
  | 1 => some st.shadow
  | _ => none

/-- READ_TABLE (R139). -/
def takeReadTable (bank table first count : Nat) (s : State) : State × ReplyBody :=
  match bankOf s.store bank, tableOfCode table with
  | some t, some id =>
    if first < tableSize id then
      (s, .entries bank table first
        (((tableBytes t id).drop first).take (min (min count (tableSize id - first)) (tableMax id))))
    else (s, .refusedRange)
  | _, _ => (s, .refusedRange)

/-- The tables of a set committed: they join the pending-commit set, and the swap is made at once when no port has a frame
in processing and no RESTART waits (R140, R143). -/
def State.commit (s : State) (set : Half) : State :=
  let s : State := { s with store := { s.store with pendingCommit := s.store.pendingCommit ||| set } }
  if s.ports.anyFrame || s.link.restartWaiting then s else s.swap

/-- COMMIT_TABLES (R140). -/
def takeCommit (set : Half) (s : State) : State × ReplyBody :=
  if set = 0 ∨ setOutOfRange set then (s, .refusedRange)
  else
    match validateSet s.store.shadow set with
    | some (id, index, reason) => (s, .invalid (tableCode id) index reason)
    | none => (s.commit set, .pending)

/-- The tables of a set discarded: their shadows become copies of their active banks and their commits are cancelled; when
that leaves nothing pending and no RESTART waits, the waiting records begin (R15, R145). -/
def State.discard (s : State) (set : Half) : State :=
  let s : State := { s with store := { s.store with
    shadow := copySet set s.store.active s.store.shadow
    pendingCommit := s.store.pendingCommit &&& ~~~set } }
  if s.heldBack then s else s.beginAll

/-- DISCARD_SHADOW (R145). -/
def takeDiscard (set : Half) (s : State) : State × ReplyBody :=
  if set = 0 ∨ setOutOfRange set then (s, .refusedRange) else (s.discard set, .done)

/-! ## Ports, posture, flush, restart -/

/-- A port disabled (R4): it becomes DISABLED, its deadline stops, its buffer is emptied, a record being received is
abandoned, and the owner of its role is asked for a teardown. -/
def State.disablePort (s : State) (i : Fin 4) : State :=
  let p := s.port i
  let s := s.setPort i { p with
    state := .disabled, deadline := none, waiting := none, lossMark := false, rx := .hunting }
  s.askTeardown p.role

/-- A port enabled with a role: WAITING, its deadline stopped, no last frame stamp, an empty buffer, and it
hunts (R3). -/
def State.enablePort (s : State) (i : Fin 4) (r : Role) : State :=
  s.setPort i { s.port i with
    role := r, state := .waiting, deadline := none, lastStamp := none, waiting := none, lossMark := false, rx := .hunting }

/-- Another port than `i` holds a role (R2). -/
def State.heldByAnother (s : State) (i : Fin 4) (r : Role) : Bool :=
  ([0, 1, 2, 3] : List (Fin 4)).any fun j => j != i && (s.port j).holds r

/-- SET_PORT with its operands read: the rows of R2 after the first. -/
def setPortRow (i : Fin 4) (r : Role) (enable : Bool) (s : State) : State × ReplyBody :=
  let p := s.port i
  if p.enabled then
    if p.role ≠ r then (s, .refusedState)
    else if enable then (s, .done)
    else (s.disablePort i, .done)
  else if enable then
    if r ≠ .unused ∧ s.heldByAnother i r = true then (s, .refusedState)
    else (s.enablePort i r, .done)
  else (s.setPort i { p with role := r }, .done)

/-- SET_PORT (R2). -/
def takeSetPort (port role enable : Nat) (s : State) : State × ReplyBody :=
  match portOfCode port, roleOfCode role with
  | some i, some r =>
    if enable = 0 then setPortRow i r false s
    else if enable = 1 then setPortRow i r true s
    else (s, .refusedRange)
  | _, _ => (s, .refusedRange)

/-- The reply of a SET_POSTURE that was taken: DONE when nothing is pending after it (R126). -/
def postureReply (s : State) : State × ReplyBody := (s, if s.posture.pending then .pending else .done)

/-- The code of CLEAR (R166). -/
def clearCode : Nat := 0xFF

/-- SET_POSTURE (R126). -/
def takeSetPosture (code : Nat) (s : State) : State × ReplyBody :=
  if code = clearCode then
    let s : State := { s with posture := { s.posture with override := none } }
    postureReply (s.request (bandPosture s.posture.band s.aux.deck))
  else
    match postureOfCode code with
    | none => (s, .refusedRange)
    | some p => postureReply (State.request { s with posture := { s.posture with override := some p } } p)

/-- FLUSH_SURFACE (R33): a teardown of the surface is requested. -/
def takeFlush (code : Nat) (s : State) : State × ReplyBody :=
  match surfaceOfCode code with
  | none => (s, .refusedRange)
  | some .pad => (s.askTeardown .pad, .done)
  | some .screen => (s.askTeardown .screen, .done)

/-- RESTART (R163): it waits for the frames in processing, or takes effect at once when there is none. -/
def takeRestart (s : State) : State × ReplyBody :=
  let s : State := { s with link := { s.link with restartWaiting := true } }
  (if s.ports.anyFrame then s else s.restartEffect, .done)

/-! ## Decoding and taking a cell (R147, R149, R150) -/

/-- A directive's answer placed in the reply slot under its kind (R150). -/
def State.answer (s : State) (d : Directive) (act : State → State × ReplyBody) : State :=
  (act s).1.reply (directiveCode d) (act s).2

/-- A directive of the right length taken with its payload, and answered; POLL has no effect and no reply (R149, R150). -/
def State.takeDirective (s : State) (d : Directive) (length : Byte) (payload : List Byte) : State :=
  match d with
  | .poll => s
  | .readStatus => s.answer d takeReadStatus
  | .clearCauses => s.answer d (takeClearCauses (setAt payload 0))
  | .setMask => s.answer d (takeSetMask (setAt payload 0))
  | .setCeiling => s.answer d (takeSetCeiling (byteAt payload 0))
  | .writeTable => s.answer d (takeWriteTable length.toNat payload)
  | .readTable =>
    s.answer d (takeReadTable (byteAt payload 0) (byteAt payload 1) (byteAt payload 2) (byteAt payload 3))
  | .commitTables => s.answer d (takeCommit (setAt payload 0))
  | .discardShadow => s.answer d (takeDiscard (setAt payload 0))
  | .setPort => s.answer d (takeSetPort (byteAt payload 0) (byteAt payload 1) (byteAt payload 2))
  | .setPosture => s.answer d (takeSetPosture (byteAt payload 0))
  | .flushSurface => s.answer d (takeFlush (byteAt payload 0))
  | .restart => s.answer d takeRestart

/-- A received cell decoded and taken: a kind byte that names no directive is answered UNKNOWN, a directive of another length than
its kind requires REFUSED_RANGE, and any other is taken (R147 step 2, R149, R166). -/
def State.takeCell (s : State) (cell : List Byte) : State :=
  let kind := cell.getD 0 0
  let length := cell.getD 1 0
  match directiveOfCode kind with
  | none => s.reply kind .unknown
  | some d => if lengthFits d length then s.takeDirective d length (cell.drop 2) else s.reply kind .refusedRange

end Sys2Proof.Machine
end

