-- ==== Sys2Proof/Machine/Clocking.lean ====
section
/-! DEFINITION. The clocks of an exchange: each whole byte is counted, the report cell's byte shifted out and the directive cell's
byte stored, and the 64th byte completes the exchange and takes the cell (R146, R147). -/

namespace Sys2Proof.Machine

/-- A whole byte clocked: the part shifts out its byte and takes the one on SDI; the 64th completes the exchange, and bytes after
it are ignored. Without a served exchange nothing is shifted (R146, R147, R164). -/
def State.clockByte (s : State) (b : Byte) : State :=
  match s.link.exchange with
  | none => s
  | some e =>
    let s := s.shiftOut (linkBits e.out)
    if 64 ≤ e.count then s
    else if e.count = 63 then s.completeExchange.takeCell (e.received ++ [b])
    else s.setExchange { e with count := e.count + 1, received := e.received ++ [b] }

/-- Whole bytes clocked, one after another. -/
def State.clockBytes (s : State) (bytes : List Byte) : State := bytes.foldl State.clockByte s

/-- Fewer than eight bits clocked: they shift the first bits of the byte out and do not count (R146). -/
def State.clockPart (s : State) (n : Nat) : State :=
  match s.link.exchange with
  | none => s
  | some e => s.shiftOut ((linkBits e.out).take n)

/-- The bits that come on SDI: the whole bytes, then what is left of a byte (R146). -/
def State.clockBits (s : State) (bits : List Bool) : State :=
  (s.clockBytes (linkBytes bits)).clockPart (bits.length % 8)

/-- A directive cell clocked: its kind byte, its length byte, and the bytes after them (R146, R166). -/
def State.clockCell (s : State) (kind : Byte) (c : DirectiveCell) : State :=
  s.clockBytes (kind :: c.length :: c.payload)

end Sys2Proof.Machine
end

