-- ==== Sys2Proof/Machine/Resets.lean ====
section
/-! DEFINITION. The resets: power-on reset, hard reset and the release of RESETn (R1, R18, R134, R164). -/

namespace Sys2Proof.Machine

/-- Every block at its power-on values; the timebase, the lines and the model's own fields stay (R1, R164). The accepted click
level and the sight of SELn are taken from the lines (DEDUCED, unsafe: log entry 5). -/
def State.powerOn (s : State) : State :=
  { State.reset with
    timebase := s.timebase
    pins := s.pins
    aux := initialAux s.pins.click
    link := initialLink (!s.pins.selnLow)
    freeCount := s.freeCount
    pending := s.pending }

/-- RESETn held low: as at power-on, but both banks of CALIBRATION are kept (R134, R164). -/
def State.hardReset (s : State) : State :=
  let r := s.powerOn
  { r with
    pins := { s.pins with resetnLow := true }
    store :=
      { active := { defaultTables with calibration := s.store.active.calibration }
        shadow := { defaultTables with calibration := s.store.shadow.calibration }
        pendingCommit := 0 } }

/-- RESETn released after a hard reset: every port DISABLED with its default role, the click level sampled, and an exchange
served once SELn is seen high (R1, R18, R164). RESETn already high is not released anew (log entry 5). -/
def State.releaseReset (s : State) : State :=
  if s.pins.resetnLow then
    { s.sampleClick with
      pins := { s.pins with resetnLow := false }
      ports := initialPorts
      link := { s.link with selnSeenHigh := !s.pins.selnLow } }
  else s

end Sys2Proof.Machine
end

