-- ==== Sys2Proof/Machine/Timers.lean ====
section
/-! DEFINITION. The click line and the expiries of the timers that no port owns (R17, R18, R36, R71, R89, R100, R128). An expiry
acts when its timer is due; otherwise only the moment passes (DESIGN CHOICE, safe: log entry 1). -/

namespace Sys2Proof.Machine

/-- The level that an edge leaves CLICKn at. -/
def edgeLevel : ClickEdge → ClickLevel
  | .falling => .pressed
  | .rising => .released

/-- An edge of CLICKn: the debounce timer is started afresh, but not while RESETn is low (R17, R164; log entry 5). -/
def State.clickEdge (s : State) (e : ClickEdge) : State :=
  let s : State := { s with pins := { s.pins with click := edgeLevel e } }
  if s.pins.resetnLow then s
  else { s with aux := { s.aux with debounce := some (afterMs s.timebase s.store.active.clickDebounce) } }

/-- A click press or release handed to the engine, then quiet judged (R103, R104, R127). -/
def State.click (s : State) (level : ClickLevel) : State :=
  match level with
  | .pressed => (s.pads (clickPress s.store.active s.timebase s.contacts.pad)).judgeQuiet
  | .released => (s.pads (clickRelease s.contacts.pad)).judgeQuiet

/-- The debounce expiry: a changed line level is accepted, and handed on while the pad is live (R17, R18). -/
def State.debounced (s : State) : State :=
  if due s.aux.debounce s.timebase then
    let s : State := { s with aux := { s.aux with debounce := none } }
    if s.pins.click = s.aux.accepted then s
    else
      let s := s.sampleClick
      if padLive s.posture.actual then s.click s.aux.accepted else s
  else s

/-- The keystroke quiet expiry (R36). -/
def State.keysQuiet (s : State) : State :=
  if due s.keyQuiet s.timebase then { s with keyQuiet := none } else s

/-- The TapGap expiry, then quiet judged (R89, R127). -/
def State.tapGap (s : State) : State :=
  if due s.engine.tapGapTimer s.timebase then (s.pads tapGapExpired).judgeQuiet else s

/-- A coast expiry, then quiet judged (R100, R127). -/
def State.coast (s : State) : State :=
  if due s.engine.coastTimer s.timebase then (s.pads (coastExpired s.store.active)).judgeQuiet else s

/-- The shadow hold expiry (R71). -/
def State.shadowEnd (s : State) : State :=
  if due s.pen.shadowTimer s.timebase then
    { s with pen := { s.pen with shadowLive := false, shadowTimer := none } }
  else s

/-- The posture deferral expiry: a forced switch (R128). -/
def State.deferralEnd (s : State) : State :=
  if due s.posture.deferral s.timebase then s.switch true else s

end Sys2Proof.Machine
end

