-- ==== Sys2Proof/Machine/DirectiveCommands.lean ====
section
/-! DEFINITION. The directives as commands: each clocks a directive cell with its kind byte, whose 64th byte completes the exchange
in progress, and the cell is decoded and taken (R146, R147, R149, R166). Without a served exchange nothing is clocked in, and
only the moment passes. -/

namespace Sys2Proof.Machine

/-- POLL, kind 0x00: no payload; taken without effect and without a reply (R149). -/
def execPoll (t : Stamp) (c : DirectiveCell) (s : State) : Host.Outcome State Fault Refusal :=
  .next ((s.atTime t).clockCell 0x00 c)

/-- READ_STATUS, kind 0x01: no payload; answered with the status (R151). -/
def execReadStatus (t : Stamp) (c : DirectiveCell) (s : State) : Host.Outcome State Fault Refusal :=
  .next ((s.atTime t).clockCell 0x01 c)

/-- CLEAR_CAUSES, kind 0x02: a set of causes to clear (R152). -/
def execClearCauses (t : Stamp) (c : DirectiveCell) (s : State) : Host.Outcome State Fault Refusal :=
  .next ((s.atTime t).clockCell 0x02 c)

/-- SET_MASK, kind 0x03: a set of causes to mask (R153). -/
def execSetMask (t : Stamp) (c : DirectiveCell) (s : State) : Host.Outcome State Fault Refusal :=
  .next ((s.atTime t).clockCell 0x03 c)

/-- SET_CEILING, kind 0x04: the ceiling 1..5 (R153). -/
def execSetCeiling (t : Stamp) (c : DirectiveCell) (s : State) : Host.Outcome State Fault Refusal :=
  .next ((s.atTime t).clockCell 0x04 c)

/-- WRITE_TABLE, kind 0x10: table, first index, count and entries for the shadow bank (R137, R138). -/
def execWriteTable (t : Stamp) (c : DirectiveCell) (s : State) : Host.Outcome State Fault Refusal :=
  .next ((s.atTime t).clockCell 0x10 c)

/-- READ_TABLE, kind 0x11: bank, table, first index and count to read (R139). -/
def execReadTable (t : Stamp) (c : DirectiveCell) (s : State) : Host.Outcome State Fault Refusal :=
  .next ((s.atTime t).clockCell 0x11 c)

/-- COMMIT_TABLES, kind 0x12: a set of tables to commit (R140, R143). -/
def execCommitTables (t : Stamp) (c : DirectiveCell) (s : State) : Host.Outcome State Fault Refusal :=
  .next ((s.atTime t).clockCell 0x12 c)

/-- DISCARD_SHADOW, kind 0x13: a set of tables to discard (R145). -/
def execDiscardShadow (t : Stamp) (c : DirectiveCell) (s : State) : Host.Outcome State Fault Refusal :=
  .next ((s.atTime t).clockCell 0x13 c)

/-- SET_PORT, kind 0x20: port, role and enable (R2). -/
def execSetPort (t : Stamp) (c : DirectiveCell) (s : State) : Host.Outcome State Fault Refusal :=
  .next ((s.atTime t).clockCell 0x20 c)

/-- SET_POSTURE, kind 0x21: a posture or CLEAR (R126). -/
def execSetPosture (t : Stamp) (c : DirectiveCell) (s : State) : Host.Outcome State Fault Refusal :=
  .next ((s.atTime t).clockCell 0x21 c)

/-- FLUSH_SURFACE, kind 0x22: a surface to tear down (R33). -/
def execFlushSurface (t : Stamp) (c : DirectiveCell) (s : State) : Host.Outcome State Fault Refusal :=
  .next ((s.atTime t).clockCell 0x22 c)

/-- RESTART, kind 0x30: no payload; the warm restart (R163). -/
def execRestart (t : Stamp) (c : DirectiveCell) (s : State) : Host.Outcome State Fault Refusal :=
  .next ((s.atTime t).clockCell 0x30 c)

/-- UNKNOWN: a cell whose kind byte names no directive is answered UNKNOWN (R149); a kind byte that names one is that directive (log
entry 13). -/
def execUnknown (t : Stamp) (kind : Byte) (c : DirectiveCell) (s : State) : Host.Outcome State Fault Refusal :=
  .next ((s.atTime t).clockCell kind c)

end Sys2Proof.Machine
end

