-- ==== Sys2Proof/Machine/ExchangeCommands.lean ====
section
/-! DEFINITION. The commands of SELn: the beginning of an exchange, its truncation, and the release after its completion. -/

namespace Sys2Proof.Machine

/-- EXCHANGE_BEGIN: SELn is asserted and the arbiter fills the cell (R146, R154). -/
def execExchangeBegin (t : Stamp) (s : State) : Host.Outcome State Fault Refusal :=
  .next (s.atTime t).assertSeln

/-- EXCHANGE_TRUNCATED: bits are clocked, and SELn is released before the 64th byte (R146, R148). -/
def execExchangeTruncated (t : Stamp) (bits : List Bool) (s : State) : Host.Outcome State Fault Refusal :=
  .next ((s.atTime t).clockBits bits).releaseSeln

/-- SELN_RELEASE: bits are clocked after the 64th byte, and SELn is released, or is high for the first time after a reset (R146,
R164). -/
def execSelnRelease (t : Stamp) (bits : List Bool) (s : State) : Host.Outcome State Fault Refusal :=
  .next ((s.atTime t).clockBits bits).releaseSeln

end Sys2Proof.Machine
end

