-- ==== Sys2Proof/Machine/PortCommands.lean ====
section
/-! DEFINITION. The commands of the sensor ports: the arrival of a record and its failures, the deadline timer, and the
completion of a frame. -/

namespace Sys2Proof.Machine

/-- SCAN_RECORD_ARRIVAL: characters come on a port's line, up to the last body byte of a record (R3, R5, R9, R12 to R14, R168).
-/
def execScanRecordArrival (t : Stamp) (port : Fin 4) (line : List Character) (s : State) :
    Host.Outcome State Fault Refusal :=
  .next ((s.atTime t).receiveLine port line)

/-- FRAMING_ERROR: characters come on a port's line, and the last lacks its stop bit, which discards the record (R9). -/
def execFramingError (t : Stamp) (port : Fin 4) (line : List Character) (s : State) :
    Host.Outcome State Fault Refusal :=
  .next ((s.atTime t).receiveLine port line)

/-- INTER_BYTE_GAP: characters come on a port's line, and then more than 100 us pass, which discards the record (R9). -/
def execInterByteGap (t : Stamp) (port : Fin 4) (line : List Character) (s : State) :
    Host.Outcome State Fault Refusal :=
  .next (((s.atTime t).receiveLine port line).gap port)

/-- DEADLINE_EXPIRY: LIVE goes LATE, LATE goes DOWN (R6, R7). -/
def execDeadlineExpiry (t : Stamp) (port : Fin 4) (s : State) : Host.Outcome State Fault Refusal :=
  .next ((s.atTime t).deadline port)

/-- FRAME_COMPLETION: what waits for the frame is taken, quiet is judged, and a swap, a restart or the waiting record follows
(R13, R15, R127). -/
def execFrameCompletion (t : Stamp) (port : Fin 4) (s : State) : Host.Outcome State Fault Refusal :=
  .next ((s.atTime t).complete port)

end Sys2Proof.Machine
end

