-- ==== Sys2Proof/Machine/ResetCommands.lean ====
section
/-! DEFINITION. The commands of the reset and supply pins: POWER_ON_RESET, HARD_RESET and RESETN_RELEASE. -/

namespace Sys2Proof.Machine

/-- POWER_ON_RESET: every block takes its power-on values (R164). -/
def execPowerOnReset (t : Stamp) (s : State) : Host.Outcome State Fault Refusal :=
  .next (s.atTime t).powerOn

/-- HARD_RESET: RESETn is held low; as at power-on, but pen calibration is kept (R134, R164). -/
def execHardReset (t : Stamp) (s : State) : Host.Outcome State Fault Refusal :=
  .next (s.atTime t).hardReset

/-- RESETN_RELEASE: the ports are DISABLED with their default roles and the click level is sampled (R1, R18, R164). -/
def execResetnRelease (t : Stamp) (s : State) : Host.Outcome State Fault Refusal :=
  .next (s.atTime t).releaseReset

end Sys2Proof.Machine
end

