-- ==== Sys2Proof/Machine/TimerCommands.lean ====
section
/-! DEFINITION. The commands of the click line and of the timers that no port owns. -/

namespace Sys2Proof.Machine

/-- CLICKN_EDGE: the debounce timer is started afresh (R17). -/
def execClicknEdge (t : Stamp) (edge : ClickEdge) (s : State) : Host.Outcome State Fault Refusal :=
  .next ((s.atTime t).clickEdge edge)

/-- CLICK_DEBOUNCE_EXPIRY: the line is sampled (R17, R18). -/
def execClickDebounceExpiry (t : Stamp) (s : State) : Host.Outcome State Fault Refusal :=
  .next (s.atTime t).debounced

/-- KEYSTROKE_QUIET_EXPIRY: the timer stops (R36). -/
def execKeystrokeQuietExpiry (t : Stamp) (s : State) : Host.Outcome State Fault Refusal :=
  .next (s.atTime t).keysQuiet

/-- TAPGAP_EXPIRY: TAP_WAIT ends and PRIMARY is released (R89). -/
def execTapGapExpiry (t : Stamp) (s : State) : Host.Outcome State Fault Refusal :=
  .next (s.atTime t).tapGap

/-- COAST_EXPIRY: the coast velocity is added and decays (R100, R120). -/
def execCoastExpiry (t : Stamp) (s : State) : Host.Outcome State Fault Refusal :=
  .next (s.atTime t).coast

/-- SHADOW_HOLD_EXPIRY: the pen shadow stops being live (R71). -/
def execShadowHoldExpiry (t : Stamp) (s : State) : Host.Outcome State Fault Refusal :=
  .next (s.atTime t).shadowEnd

/-- DEFERRAL_EXPIRY: the switch to the requested posture is forced (R128). -/
def execDeferralExpiry (t : Stamp) (s : State) : Host.Outcome State Fault Refusal :=
  .next (s.atTime t).deferralEnd

end Sys2Proof.Machine
end

