-- ==== Sys2Proof/Machine/Dispatch.lean ====
section
/-! DEFINITION. One arm for each command: its meaning, called once. -/

namespace Sys2Proof.Machine

/-- The effect of a command on everything but the queue of waiting commands. -/
def exec (i : Instr) (s : State) : Host.Outcome State Fault Refusal :=
  match i with
  | .powerOnReset t => Sys2Proof.Machine.execPowerOnReset t s
  | .hardReset t => Sys2Proof.Machine.execHardReset t s
  | .resetnRelease t => Sys2Proof.Machine.execResetnRelease t s
  | .scanRecordArrival t port line => Sys2Proof.Machine.execScanRecordArrival t port line s
  | .framingError t port line => Sys2Proof.Machine.execFramingError t port line s
  | .interByteGap t port line => Sys2Proof.Machine.execInterByteGap t port line s
  | .deadlineExpiry t port => Sys2Proof.Machine.execDeadlineExpiry t port s
  | .frameCompletion t port => Sys2Proof.Machine.execFrameCompletion t port s
  | .clicknEdge t edge => Sys2Proof.Machine.execClicknEdge t edge s
  | .clickDebounceExpiry t => Sys2Proof.Machine.execClickDebounceExpiry t s
  | .keystrokeQuietExpiry t => Sys2Proof.Machine.execKeystrokeQuietExpiry t s
  | .tapGapExpiry t => Sys2Proof.Machine.execTapGapExpiry t s
  | .coastExpiry t => Sys2Proof.Machine.execCoastExpiry t s
  | .shadowHoldExpiry t => Sys2Proof.Machine.execShadowHoldExpiry t s
  | .deferralExpiry t => Sys2Proof.Machine.execDeferralExpiry t s
  | .exchangeBegin t => Sys2Proof.Machine.execExchangeBegin t s
  | .exchangeTruncated t bits => Sys2Proof.Machine.execExchangeTruncated t bits s
  | .poll t c => Sys2Proof.Machine.execPoll t c s
  | .readStatus t c => Sys2Proof.Machine.execReadStatus t c s
  | .clearCauses t c => Sys2Proof.Machine.execClearCauses t c s
  | .setMask t c => Sys2Proof.Machine.execSetMask t c s
  | .setCeiling t c => Sys2Proof.Machine.execSetCeiling t c s
  | .writeTable t c => Sys2Proof.Machine.execWriteTable t c s
  | .readTable t c => Sys2Proof.Machine.execReadTable t c s
  | .commitTables t c => Sys2Proof.Machine.execCommitTables t c s
  | .discardShadow t c => Sys2Proof.Machine.execDiscardShadow t c s
  | .setPort t c => Sys2Proof.Machine.execSetPort t c s
  | .setPosture t c => Sys2Proof.Machine.execSetPosture t c s
  | .flushSurface t c => Sys2Proof.Machine.execFlushSurface t c s
  | .restart t c => Sys2Proof.Machine.execRestart t c s
  | .unknown t kind c => Sys2Proof.Machine.execUnknown t kind c s
  | .selnRelease t bits => Sys2Proof.Machine.execSelnRelease t bits s

end Sys2Proof.Machine
end

