-- ==== Sys2Proof/Safety.lean ====
section
/-! DEFINITION. The terms that the statements use: what comes over the wires, what a directive, a switch, a posture request, a
beginning frame and a pad frame leave, and what a sound state of the part is, each a predicate of the State. -/

namespace Sys2Proof.Machine

/-! ## The command -/

/-- The moment of a command. -/
def stampOf : Instr → Stamp
  | .powerOnReset t => t
  | .hardReset t => t
  | .resetnRelease t => t
  | .scanRecordArrival t _ _ => t
  | .framingError t _ _ => t
  | .interByteGap t _ _ => t
  | .deadlineExpiry t _ => t
  | .frameCompletion t _ => t
  | .clicknEdge t _ => t
  | .clickDebounceExpiry t => t
  | .keystrokeQuietExpiry t => t
  | .tapGapExpiry t => t
  | .coastExpiry t => t
  | .shadowHoldExpiry t => t
  | .deferralExpiry t => t
  | .exchangeBegin t => t
  | .exchangeTruncated t _ => t
  | .poll t _ => t
  | .readStatus t _ => t
  | .clearCauses t _ => t
  | .setMask t _ => t
  | .setCeiling t _ => t
  | .writeTable t _ => t
  | .readTable t _ => t
  | .commitTables t _ => t
  | .discardShadow t _ => t
  | .setPort t _ => t
  | .setPosture t _ => t
  | .flushSurface t _ => t
  | .restart t _ => t
  | .unknown t _ _ => t
  | .selnRelease t _ => t

/-! ## The wires (R146, R165, R168) -/

/-- A byte as it comes on a sensor port's line: least significant bit first, with its stop bit (section 1, R165). -/
def onLine (b : Byte) : Character := ⟨(List.range 8).map fun k => b.getLsbD k, true⟩

/-- A line that completes the record with a body on a port that has received so much of it: bytes that start no record, the start
byte, the length byte and the body, or what of them has not come yet (R168). -/
def bringsRecord (rx : Reception) (line : List Character) (body : List Byte) : Prop :=
  body.length ≤ 255 ∧
    match rx with
    | .hunting => ∃ noise : List Byte, 0xA5 ∉ noise ∧
        line = (noise ++ 0xA5 :: BitVec.ofNat 8 body.length :: body).map onLine
    | .length => line = (BitVec.ofNat 8 body.length :: body).map onLine
    | .body n got => ∃ more : List Byte, more ≠ [] ∧ body = got ++ more ∧ body.length = n ∧ line = more.map onLine

/-- A byte as it goes over the report link: most significant bit first (R146, R165). -/
def overLink (b : Byte) : List Bool := (List.range 8).map fun k => b.getLsbD (7 - k)

/-- The bits that SDO carries during the 64 bytes of an exchange: the bytes of its cell in turn (R146). -/
def cellBits (cell : List Byte) : List Bool := (List.range 64).flatMap fun k => overLink (cell.getD k 0)

/-- An exchange is in progress of which no byte has been clocked (R146). -/
def State.exchangeOpen (s : State) : Prop := ∃ cell, s.link.exchange = some ⟨0, cell, []⟩

/-! ## The taking of a directive (R147, R150, R166) -/

/-- The state right after the 64th byte of an exchange, before its directive is taken: what was in flight has left, and SDO has
carried the cell (R146, R147). -/
def State.afterCell (s : State) (t : Stamp) : State :=
  { s with
    timebase := t
    link := { s.link with
      pen := s.link.pen.filter fun r => r.inFlight = false
      screen := s.link.screen.filter fun r => r.inFlight = false
      pointer := s.link.pointer.filter fun r => r.inFlight = false
      gesture := s.link.gesture.filter fun r => r.inFlight = false
      reply := s.link.reply.filter fun r => r.inFlight = false
      exchange := s.link.exchange.map fun e => ⟨64, e.cell, []⟩
      sdo := match s.link.exchange with
        | none => s.link.sdo
        | some e => s.link.sdo ++ cellBits e.cell } }

/-- The state with a reply placed in the reply slot. -/
def State.answered (s : State) (kind : Byte) (b : ReplyBody) : State :=
  { s with link := { s.link with reply := some ⟨kind, b, false⟩ } }

/-- The first two payload bytes as a set, the second byte the more significant (R165). -/
def operandSet (c : DirectiveCell) : Half := c.payload.getD 1 0 ++ c.payload.getD 0 0

/-- A payload byte as a number. -/
def operandByte (c : DirectiveCell) (i : Nat) : Nat := (c.payload.getD i 0).toNat

/-! ## The bytes of a report cell (R165, R167, section 10.3) -/

/-- A 16-bit field, least significant byte first, a signed one in two's complement (R165). -/
def twoBytes (i : Int) : List Byte := [BitVec.ofInt 8 i, BitVec.ofInt 8 (i / 256)]

/-- A pen sample: the tag 0x20, the flags, then x, y, pressure and the two tilts. -/
def penLayout (r : PenSample) : List Byte :=
  let state := match r.state with | .out => 0 | .hover => 1 | .contact => 2
  let tip := match r.tip with | .pen => 0 | .eraser => 4
  [0x20, BitVec.ofNat 8 (state + tip + (if r.barrel then 8 else 0) + (if r.gap then 16 else 0) + (if r.edge then 32 else 0))] ++
    twoBytes r.pos.x ++ twoBytes r.pos.y ++ twoBytes r.pressure ++ twoBytes r.tiltX ++ twoBytes r.tiltY

/-- A screen record: the tag by its kind, the track id, x, y and the two axes. -/
def touchLayout (r : TouchRecord) : List Byte :=
  [match r.kind with | .down => 0x30 | .move => 0x31 | .up => 0x32 | .cancel => 0x33, BitVec.ofNat 8 r.track] ++
    twoBytes r.pos.x ++ twoBytes r.pos.y ++ [BitVec.ofNat 8 r.major, BitVec.ofNat 8 r.minor]

/-- A pointer record: the tag by its button and mark, dx, dy, the two scrolls in 12 bits each of one 24-bit value, and zoom. -/
def pointerLayout (r : PointerRecord) : List Byte :=
  let button := match r.button with | .none => 0x40 | .primary => 0x41 | .secondary => 0x42 | .middle => 0x43
  let scroll : Int := r.motion.h % 4096 + 4096 * (r.motion.v % 4096)
  [BitVec.ofNat 8 (button + if r.change then 4 else 0), BitVec.ofInt 8 r.motion.dx, BitVec.ofInt 8 r.motion.dy,
    BitVec.ofInt 8 scroll, BitVec.ofInt 8 (scroll / 256), BitVec.ofInt 8 (scroll / 65536)] ++ twoBytes r.motion.zoom

/-- The code of a posture. -/
def postureByte : Posture → Byte
  | .closed => 0
  | .laptop => 1
  | .stand => 2
  | .tent => 3
  | .tablet => 4

/-- A gesture record: the tag, then a swipe's direction and count, or a switch's postures and forced field. -/
def gestureLayout : Gesture → List Byte
  | .swipeBegin d n => [0x50, match d with | .left => 0 | .right => 1 | .up => 2 | .down => 3, BitVec.ofNat 8 n, 0]
  | .swipeEnd d n => [0x51, match d with | .left => 0 | .right => 1 | .up => 2 | .down => 3, BitVec.ofNat 8 n, 0]
  | .pinchEnd => [0x52, 0, 0, 0]
  | .scrollEnd => [0x53, 0, 0, 0]
  | .posture new old forced => [0x54, postureByte new, postureByte old, if forced then 1 else 0]

/-- The byte of a port in the reply to READ_STATUS: its role and its state. -/
def portLayout (p : Role × PortState) : Byte :=
  let role : Byte := match p.1 with | .pad => 0 | .screen => 1 | .pen => 2 | .aux => 3 | .unused => 4
  let state : Byte := match p.2 with | .disabled => 0 | .waiting => 0x10 | .live => 0x20 | .late => 0x30 | .down => 0x40
  role + state

/-- The outcome code of a reply and its data. -/
def outcomeLayout : ReplyBody → List Byte
  | .done => [0]
  | .pending => [1]
  | .clamped i => [2, BitVec.ofNat 8 i]
  | .stillActive set => 3 :: twoBytes set.toNat
  | .refusedBusy => [4]
  | .refusedRange => [5]
  | .refusedState => [6]
  | .invalid table index reason =>
    [7, BitVec.ofNat 8 table, BitVec.ofNat 8 index,
      match reason with
      | .featureUnknown => 1
      | .anyOfNumeric => 2
      | .prereqOrder => 3
      | .restingScope => 4
      | .zoneOrder => 5
      | .knotOrder => 6
      | .bandOrder => 7
      | .tipOrder => 8
      | .coastOrder => 9]
  | .unknown => [8]
  | .entries bank table first es =>
    [0, BitVec.ofNat 8 bank, BitVec.ofNat 8 table, BitVec.ofNat 8 first, BitVec.ofNat 8 es.length] ++ es.flatten
  | .status r =>
    let flags := (if r.overrun.pen then 1 else 0) + (if r.overrun.screen then 2 else 0) +
      (if r.overrun.pointer then 4 else 0) + (if r.overrun.gesture then 8 else 0)
    [0] ++ twoBytes r.causes.toNat ++ twoBytes r.masks.toNat ++ [BitVec.ofNat 8 flags, BitVec.ofNat 8 r.ceiling] ++
      r.ports.map portLayout ++ [postureByte r.actual, postureByte r.requested, (r.override.map postureByte).getD 0xFF,
        BitVec.ofNat 8 r.pendingCommit.toNat, BitVec.ofNat 8 r.partCode, BitVec.ofNat 8 r.revision]

/-- A reply: the tag 0x10, its length, the kind byte it answers, the outcome code and its data. -/
def replyLayout (r : Reply) : List Byte :=
  [0x10, BitVec.ofNat 8 (3 + (outcomeLayout r.body).length), r.kind] ++ outcomeLayout r.body

/-! ## The pen's position (R19) -/

/-- A raw pen position in screen units: the floor of raw times scale over 65536, plus the offset, clamped, axis by axis; the active
CALIBRATION holds ScaleX, ScaleY, OffsetX and OffsetY in this order (R19; a bank without them, which no run reaches, is log entry
17). -/
def screenPosition (t : Tables) (raw : Point) : Point :=
  { x := (max 0 (min 16383 ((raw.x : Int) * t.calibration.getD 0 1 / 65536 + t.calibration.getD 2 0))).toNat
    y := (max 0 (min 10239 ((raw.y : Int) * t.calibration.getD 1 1 / 65536 + t.calibration.getD 3 0))).toNat }

/-! ## The hold (R5, R31, R73) -/

/-- The state with the hold of a role's owner taken or released: every entry of the surface carries the mark, or the pen does.
-/
def State.withHeld (s : State) (held : Bool) : Role → State
  | .pad => { s with contacts := { s.contacts with pad := s.contacts.pad.map fun e => { e with held := held } } }
  | .screen =>
    { s with contacts := { s.contacts with screen := s.contacts.screen.map fun e => { e with held := held } } }
  | .pen => { s with pen := { s.pen with held := held } }
  | .aux => s
  | .unused => s

/-- The state with the hold of a port's role owner released, when the port is LATE (R5). -/
def State.released (s : State) (i : Fin 4) : State :=
  if (s.port i).state = .late then s.withHeld false (s.port i).role else s

/-- A port after an accepted record that arrives at a moment: LIVE, its deadline LateAfter ms later, hunting again (R5, R168). -/
def State.revived (s : State) (i : Fin 4) (t : Stamp) : Port :=
  { s.port i with
    rx := .hunting
    state := .live
    deadline := some (t + BitVec.ofNat 32 (1000 * s.store.active.params.getD (24 + i.val) 0)) }

/-- A port that begins the frame of a record which arrives at this moment: its last frame stamp is the arrival, its loss mark
goes with a pen frame, and the frame interval is the distance from the last frame begun, 2000..32000 us, or 32000 (R13, R14). -/
def State.begun (s : State) (i : Fin 4) (t : Stamp) (r : ScanRecord) : Port :=
  { s.revived i t with
    lastStamp := some t
    waiting := none
    lossMark := (s.port i).lossMark && (s.port i).role != .pen
    frame := some
      { role := (s.port i).role, record := r, stamp := t
        dt := match (s.port i).lastStamp with
          | none => 32000
          | some l => max 2000 (min 32000 (t - l).toNat) } }

/-- A port that can begin a frame at once: enabled, with no frame in processing, no commit pending and no RESTART waiting, its
role's surface or pen live (R12, R13, R15). -/
def State.ready (s : State) (i : Fin 4) : Prop :=
  (s.port i).enabled = true ∧ (s.port i).frame = none ∧ s.store.pendingCommit = 0 ∧ s.link.restartWaiting = false ∧
    roleLive s.posture.actual (s.port i).role = true

/-! ## Teardowns and restart -/

/-- A timer that runs, whose expiry lies at this moment or in the half of the timebase before it (DESIGN CHOICE, log entry 1).
-/
def hasExpired (timer : Option Stamp) (now : Stamp) : Prop := ∃ e, timer = some e ∧ (now - e).toNat < 2147483648

/-- The link after a surface loss: a pressed button is released with one change (R105). -/
def Link.buttonReleased (l : Link) (b : Button) : Link := if b = .none then l else l.buttonChange .none

/-- Motion Transfer after a surface loss: the pointer residues are cleared when the engine leaves a state that moves the
pointer or drops its pointer contact (R105, R117). -/
def residuesAfterLoss (e : Engine) (m : Motion) : Motion :=
  if e.pointer ≠ none ∨ e.state = .pointing ∨ e.state = .holdDrag ∨ e.state = .tapDrag ∨ e.state = .clicked then
    { m with pointerX := 0, pointerY := 0 }
  else m

/-- The state after a teardown of the pad (R32, R105). -/
def State.padEmptied (s : State) : State :=
  { s with
    contacts := { s.contacts with pad := [] }
    engine := initialEngine
    motion := residuesAfterLoss s.engine s.motion
    link := s.link.buttonReleased s.engine.button }

/-- The state after a teardown of the screen: a CANCEL for each OPEN entry, in ascending slot (R32, R58). -/
def State.screenEmptied (s : State) : State :=
  { s with
    contacts := { s.contacts with screen := [] }
    link := ((s.contacts.screen.filter fun e => e.reported = .opened).map fun e =>
      (⟨.cancel, e.track, e.pos, e.major, e.minor, false⟩ : TouchRecord)).foldl Link.appendScreen s.link }

/-- The state after a teardown of the pen asked for by its port (R74): a pen in range is forced OUT with one sample, and its
shadow hold starts (a pen in range without a last position, which no run reaches, is log entry 17). -/
def State.penForcedOut (s : State) : State :=
  if s.pen.state = .out then { s with pen := { s.pen with lossMark := false, held := false } }
  else
    { s with
      pen := { s.pen with
        state := .out, prevState := .out, prevTip := s.pen.tip, lossMark := false, held := false
        shadowLive := s.pen.shadowLive && s.store.active.penShadowHold != 0
        shadowTimer := if s.store.active.penShadowHold = 0 then none
          else some (s.timebase + BitVec.ofNat 32 (1000 * s.store.active.penShadowHold)) }
      link := s.link.appendPen
        { state := .out, tip := s.pen.tip, pos := s.pen.lastPos.getD ⟨0, 0⟩, pressure := 0
          tiltX := s.pen.tiltX, tiltY := s.pen.tiltY, barrel := s.pen.barrel, gap := s.pen.lossMark
          edge := s.pen.prevState != .out || s.pen.prevTip != s.pen.tip, inFlight := false } }

/-- The state after a teardown of the pen asked for by a switch into CLOSED (R75): as after one asked for by its port, but the shadow
ends at once, its hold timer stopped. -/
def State.penClosed (s : State) : State :=
  { s.penForcedOut with pen := { s.penForcedOut.pen with shadowLive := false, shadowTimer := none } }

/-- The state after a teardown of the pen, asked for by its port or by a switch into CLOSED (R74, R75). -/
def State.penTorn (s : State) : PenTeardown → State
  | .port => s.penForcedOut
  | .closed => s.penClosed

/-- The state after a teardown of the pad is asked for: it is taken at once, or at the completion of a pad frame in processing (R32;
log entry 21). -/
def State.padAsked (s : State) : State :=
  if s.ports.frameOf .pad = true then { s with waits := { s.waits with pad := true } } else s.padEmptied

/-- The state after a teardown of the screen is asked for, likewise (R32; log entry 21). -/
def State.screenAsked (s : State) : State :=
  if s.ports.frameOf .screen = true then { s with waits := { s.waits with screen := true } } else s.screenEmptied

/-- The state after a teardown of the pen is asked for, by its port or by a switch into CLOSED, likewise (R74, R75; log entry 21). -/
def State.penAsked (s : State) (k : PenTeardown) : State :=
  if s.ports.frameOf .pen = true then { s with waits := { s.waits with pen := s.waits.pen ++ [k] } }
  else s.penTorn k

/-- The state after the owner of a role is asked for its teardown by a port or by FLUSH_SURFACE (R4, R7, R33). -/
def State.teardownAsked (s : State) : Role → State
  | .pad => s.padAsked
  | .screen => s.screenAsked
  | .pen => s.penAsked .port
  | .aux => s
  | .unused => s

/-- The state after the teardowns that wait for the completion of a frame of a role, those of the pen in turn (R32, R74, R75; log
entry 16). -/
def State.tornDown (s : State) : Role → State
  | .pad => if s.waits.pad = true then State.padEmptied { s with waits := { s.waits with pad := false } } else s
  | .screen =>
    if s.waits.screen = true then State.screenEmptied { s with waits := { s.waits with screen := false } } else s
  | .pen =>
    s.waits.pen.foldl State.penTorn { s with waits := { s.waits with pen := [] } }
  | .aux => s
  | .unused => s

/-- The state after a warm restart has taken effect (R1, R18, R21, R61, R78, R108, R122, R134, R163). -/
def State.warmRestarted (s : State) : State :=
  { s with
    ports := s.ports.map fun p =>
      { role := p.role, state := if p.state = .disabled then .disabled else .waiting, lastStamp := none
        deadline := none, waiting := none, lossMark := false, frame := p.frame, rx := p.rx }
    aux := { s.aux with accepted := s.pins.click, debounce := none }
    contacts := { pad := [], screen := [], nextId := 1 }
    pen :=
      { state := .out, tip := s.pen.tip, lastPos := none, tiltX := s.pen.tiltX, tiltY := s.pen.tiltY
        barrel := s.pen.barrel, prevState := .out, prevTip := s.pen.prevTip, lossMark := false, held := false
        shadowLive := false, shadowTimer := none }
    engine :=
      { state := .idle, button := .none, pointer := none, landingSet := [], landingCentroid := none
        landingSeparation := none, peakCount := 0, tapCandidate := false, swipeDirection := none
        swipeCount := none, lastCentroid := none, lastSeparation := none, tapGapTimer := none
        coastTimer := none, vcx := 0, vcy := 0 }
    motion :=
      { pointerX := 0, pointerY := 0, scrollX := 0, scrollY := 0, lastOutX := 0, lastOutY := 0
        lastInterval := 32000 }
    posture := { s.posture with requested := s.posture.actual, pending := false, deferral := none }
    store := { active := s.store.active, shadow := s.store.active, pendingCommit := 0 }
    link := { s.link with
      pen := [], screen := [], pointer := [], gesture := [], latched := 1
      overrun := ⟨false, false, false, false⟩, restartWaiting := false }
    waits := { pad := false, screen := false, pen := [] } }

/-! ## The posture switch and a posture request (R123 to R132) -/

/-- The posture of a band and a deck orientation: the table of R124. Band 2 without an orientation is TENT (log entry 17). -/
def postureOfBand (band : Nat) (deck : Option Deck) (p : Posture) : Prop :=
  (band = 0 ∧ p = .closed) ∨ (band = 1 ∧ p = .laptop) ∨ (band = 2 ∧ deck = some .down ∧ p = .stand) ∨
    (band = 2 ∧ deck ≠ some .down ∧ p = .tent) ∨ (band = 3 ∧ p = .tablet)

/-- The pad is quiet: no pad entry, the engine IDLE, the pen not in CONTACT (R127). -/
def State.isQuiet (s : State) : Prop := s.contacts.pad = [] ∧ s.engine.state = .idle ∧ s.pen.state ≠ .contact

/-- What the switch of `s` to its requested posture leaves, whole: nothing is pending, and the click level is sampled on entering
LAPTOP; then the pad on leaving LAPTOP, and the screen and the pen on entering CLOSED, are torn down, each at once or at the
completion of its frame in processing; then POSTURE_CHANGED (cause 7) is latched and the POSTURE record queued, or dropped with
its overrun flag and OVERRUN (cause 3) from a full gesture queue (R18, R34, R75, R130 to R132, R160). -/
def State.switchedTo (s : State) (forced : Bool) (t : State) : Prop :=
  let old := s.posture.actual
  let new := s.posture.requested
  let v : State :=
    { s with
      posture := { s.posture with actual := new, pending := false, deferral := none }
      aux := { s.aux with accepted := if old ≠ .laptop ∧ new = .laptop then s.pins.click else s.aux.accepted } }
  let a : State := if old = .laptop ∧ new ≠ .laptop then v.padAsked else v
  let c : State := if old ≠ .closed ∧ new = .closed then a.screenAsked.penAsked .closed else a
  (s.link.gesture.length < 16 →
    t = { c with link := { c.link with
      gesture := s.link.gesture ++ [⟨.posture new old forced, false⟩], latched := c.link.latched ||| 0x80 } }) ∧
  (16 ≤ s.link.gesture.length →
    t = { c with link := { c.link with
      latched := c.link.latched ||| 0x88, overrun := { c.link.overrun with gesture := true } } })

/-- What the judgement of quiet leaves at the end of an event: with a request pending and the pad quiet the switch is made at once,
not forced; otherwise nothing changes (R127). -/
def State.judged (u : State) (t : State) : Prop :=
  (u.posture.pending = true → u.isQuiet → u.switchedTo false t) ∧ (u.posture.pending = false ∨ ¬u.isQuiet → t = u)

/-- What a port's request for a teardown by the owner of a role leaves, at DOWN, at disable and by FLUSH_SURFACE: the teardown is
taken at once or waits (log entry 21), and quiet is judged when one of the pad or of the pen is taken (R4, R7, R32, R33, R74, R127;
log entry 24). -/
def State.tearsDown (u : State) (r : Role) (t : State) : Prop :=
  (u.ports.frameOf r = false → r = .pad ∨ r = .pen → (u.teardownAsked r).judged t) ∧
    (u.ports.frameOf r = true ∨ (r ≠ .pad ∧ r ≠ .pen) → t = u.teardownAsked r)

/-- What the request of a posture leaves: equal to the actual posture it drops what is pending; on a quiet pad the switch is made
at once, not forced; otherwise it waits, and PostureWait runs from the first request that found the pad busy (R125). -/
def State.requested (u : State) (p : Posture) (t : State) : Prop :=
  (p = u.posture.actual →
    t = { u with posture := { u.posture with requested := p, pending := false, deferral := none } }) ∧
  (p ≠ u.posture.actual → u.isQuiet →
    State.switchedTo { u with posture := { u.posture with requested := p } } false t) ∧
  (p ≠ u.posture.actual → ¬u.isQuiet →
    t = { u with posture := { u.posture with
      requested := p, pending := true
      deferral := if u.posture.pending = true then u.posture.deferral
        else some (u.timebase + BitVec.ofNat 32 (1000 * u.store.active.params.getD 23 0)) } })

/-! ## The beginning of a frame (R13, R14) -/

/-- What the Classifier reads of the other blocks at this moment (R37). -/
def State.seen (s : State) : Snapshot :=
  ⟨s.timebase, s.aux.keyTime, s.keyQuiet.isSome, s.pen.state, s.pen.shadow s.store.active, s.posture.actual⟩

/-- What the whole work of a frame leaves: the owner of its role takes the record and hands its results on in order (R16, R19, R22,
R47, R53, R59, R62, R81; that it stands at the frame's beginning is log entry 4). -/
def State.worked (v : State) (f : Frame) (loss : Bool) (t : State) : Prop :=
  let k := v.store.active
  match f.role, f.record with
  | .pad, .contacts cs =>
    let h := trackFrame k.liftGrace k.padJump (landingZone k.zones) (v.contacts.screen.map (·.track)) v.contacts.nextId
      cs f.stamp v.contacts.pad
    let ks := classifyAll k .pad v.seen h.entries
    let w := padFrame k v.timebase f.dt ⟨ks, h.lifted⟩ v.engine v.motion
    t = { v with
      contacts := { v.contacts with pad := ks.map (·.entry), nextId := h.nextId }
      engine := w.e
      motion := w.m
      link := v.link.takeAll w.out }
  | .screen, .contacts cs =>
    let h := trackFrame k.liftGrace k.screenJump (fun _ => none) (v.contacts.pad.map (·.track)) v.contacts.nextId
      cs f.stamp v.contacts.screen
    let ks := classifyAll k .screen v.seen h.entries
    t = { v with
      contacts := { v.contacts with screen := ks.map reportedEntry, nextId := h.nextId }
      link := (screenRecords h.lifted ks).foldl Link.appendScreen v.link }
  | .pen, .pen r =>
    let w := penFrame k v.timebase loss v.pen { r with pos := screenPosition k r.pos }
    t = { v with pen := w.pen, link := w.out.foldl Link.appendPen v.link }
  | .aux, .aux r =>
    let band := bandMove k.bands r.hinge v.posture.band
    let u : State :=
      { v with
        aux := { v.aux with
          hinge := some r.hinge
          deck := some r.deck
          keyTime := if r.keys = 0 then v.aux.keyTime else some f.stamp }
        keyQuiet := if r.keys = 0 then v.keyQuiet else some (v.timebase + BitVec.ofNat 32 65535000)
        posture := { v.posture with band := band } }
    (v.posture.override ≠ none → t = u) ∧
      (v.posture.override = none → ∀ p, postureOfBand band (some r.deck) p → u.requested p t)
  | _, _ => t = v

/-- What a port leaves that begins the frame of a stamped record: the interval from its last frame stamp, 2000..32000 us, or 32000,
is the frame's, the stamp is its last, the buffer is empty, and a pen frame takes the loss mark (R13, R14). -/
def State.begins (u : State) (i : Fin 4) (x : Stamped) (t : State) : Prop :=
  let p := u.port i
  let f : Frame :=
    { role := p.role, record := x.record, stamp := x.stamp
      dt := match p.lastStamp with
        | none => 32000
        | some l => max 2000 (min 32000 (x.stamp - l).toNat) }
  let q : Port :=
    { p with
      lastStamp := some x.stamp, waiting := none, lossMark := p.lossMark && p.role != .pen, frame := some f }
  State.worked { u with ports := u.ports.set i q } f p.lossMark t

/-- The state in which a port that is LATE or DOWN again has taken the change to LIVE, its deadline running from this moment and
the hold of a LATE port released (R5, R13; log entry 6). -/
def State.unstalled (u : State) (i : Fin 4) : State :=
  if (u.port i).state = .late ∨ (u.port i).state = .down then
    { u.released i with ports := u.ports.set i { u.port i with
        state := .live
        deadline := some (u.timebase + BitVec.ofNat 32 (1000 * u.store.active.params.getD (24 + i.val) 0)) } }
  else u

/-- What a port leaves that looks at its waiting buffer: without a record, or with a frame in processing, nothing changes; a record
whose surface or pen is not live is discarded and clears the loss mark, the port's state staying as it is (log entry 19);
any other begins (R13, R14). -/
def State.beginsWaiting (u : State) (i : Fin 4) (t : State) : Prop :=
  ((u.port i).waiting = none ∨ (u.port i).frame ≠ none → t = u) ∧
    ∀ x, (u.port i).waiting = some x → (u.port i).frame = none →
      (roleLive u.posture.actual (u.port i).role = false →
        t = { u with ports := u.ports.set i { u.port i with waiting := none, lossMark := false } }) ∧
      (roleLive u.posture.actual (u.port i).role = true → (u.unstalled i).begins i x t)

/-- Ports that look at their waiting buffers one after another. -/
def State.beginInTurn (u : State) (t : State) : List (Fin 4) → Prop
  | [] => t = u
  | i :: is => ∃ m : State, u.beginsWaiting i m ∧ m.beginInTurn t is

/-- Each port with a waiting record and no frame in processing begins it, in an order that is free (R143, R145; log entry 3). -/
def State.beginsEach (u : State) (t : State) : Prop :=
  ∃ order : List (Fin 4), order.Nodup ∧
    (∀ i, i ∈ order ↔ (u.port i).waiting ≠ none ∧ (u.port i).frame = none) ∧
    State.beginInTurn { u with freeCount := if 2 ≤ order.length then u.freeCount + 1 else u.freeCount } t order

/-- What the completion of a port's frame of a role leaves before the port goes on: the frame has left the port, the teardowns that
wait for it are taken, the hold is taken while the port is LATE in that role (log entry 21), and quiet is judged once after a
pad or pen frame (log entry 24), in this order (log entry 7) (R6, R32, R74, R75, R127). -/
def State.frameEnded (s : State) (i : Fin 4) (role : Role) (t : State) : Prop :=
  let u : State := { s with ports := s.ports.set i { s.port i with frame := none } }
  let a := u.tornDown role
  let b := if (s.port i).state = .late ∧ (s.port i).role = role then a.withHeld true role else a
  (role = .pad ∨ role = .pen → b.judged t) ∧ (role ≠ .pad → role ≠ .pen → t = b)

/-! ## Tracking (R26, R27, R79) -/

/-- The ids taken in turn from the counter: each is the first from the counter on, 255 being followed by 1, that is not held, and
the counter follows it (R27). -/
def takesIds (held : List Nat) (counter : Nat) (next : Nat) : List Nat → Prop
  | [] => next = counter
  | id :: ids =>
    (∃ k < 255, id = (counter - 1 + k) % 255 + 1 ∧ ∀ j < k, (counter - 1 + j) % 255 + 1 ∈ held) ∧ id ∉ held ∧
      takesIds (id :: held) (id % 255 + 1) next ids

/-- The most recently landed of several entries: the later touch-down, seen from now, and the higher slot among equals (R79; log
entry 18). -/
def mostRecentlyLanded (now : Stamp) (es : List Entry) (e : Entry) : Prop :=
  e ∈ es ∧ ∀ x ∈ es, x = e ∨ (now - e.touchDown).toNat < (now - x.touchDown).toNat ∨
    ((now - e.touchDown).toNat = (now - x.touchDown).toNat ∧ x.slot < e.slot)

/-! ## A pad frame, gesture state by gesture state (R79 to R101) -/

/-- The finger set after the verdicts (R79). -/
def fingersOf (v : PadView) : List Classified := v.entries.filter fun c => c.entry.cls = .finger

/-- The fingers that were there before the frame (R79). -/
def stayingOf (v : PadView) : List Classified := (fingersOf v).filter fun c => c.before = .finger

/-- The fingers that land in the frame (R79). -/
def landedOf (v : PadView) : List Classified := (fingersOf v).filter fun c => c.before ≠ .finger

/-- A finger was lifted with this track (R79). -/
def lifts (v : PadView) (l : Entry) : Prop :=
  l ∈ v.lifted ∧ l.cls = .finger ∧ ∀ x ∈ v.lifted, x.cls = .finger → x.track = l.track → x = l

/-- A finger was withdrawn with this track (R79). -/
def withdraws (v : PadView) (track : Nat) : Prop :=
  ∃ c ∈ v.entries, c.before = .finger ∧ c.entry.cls ≠ .finger ∧ c.entry.track = track

/-- The pointer contact has departed, by lift or withdrawal (R81). -/
def pointerGone (v : PadView) (e : Engine) : Prop :=
  ∃ p, e.pointer = some p ∧ ((∃ l ∈ v.lifted, l.cls = .finger ∧ l.track = p) ∨ withdraws v p)

/-- No finger departs in the frame. -/
def nothingDeparts (v : PadView) : Prop :=
  (∀ l ∈ v.lifted, l.cls ≠ .finger) ∧ ∀ c ∈ v.entries, c.before = .finger → c.entry.cls = .finger

/-- Within the tap limits: age below TapMax and travel at or below TapSlop (R86). -/
def withinTap (t : Tables) (e : Entry) : Prop := e.age < t.tapMax ∧ e.travel ≤ t.tapSlop

/-- The pointer residues cleared (R117). -/
def pointerCleared (m : Motion) : Motion := { m with pointerX := 0, pointerY := 0 }

/-- The engine with the fields of a landing set or an episode cleared (log entry 8). -/
def landingCleared (e : Engine) : Engine :=
  { e with landingSet := [], landingCentroid := none, landingSeparation := none, peakCount := 0, tapCandidate := false }

/-- The centroid of fingers: the floor of the sum over the number, per axis (R83). -/
def centroidOf (cs : List Classified) : Point :=
  ⟨(cs.map (·.entry.pos.x)).sum / cs.length, (cs.map (·.entry.pos.y)).sum / cs.length⟩

/-- The separation of two fingers: their Chebyshev distance (R83). -/
def separationOf : List Classified → Nat
  | a :: b :: _ =>
    max ((a.entry.pos.x : Int) - b.entry.pos.x).natAbs ((a.entry.pos.y : Int) - b.entry.pos.y).natAbs
  | _ => 0

/-- The engine with the landing values taken from a finger set (R91). -/
def landingTaken (fs : List Classified) (e : Engine) : Engine :=
  { e with
    landingSet := fs.map (·.entry.track)
    landingCentroid := some (centroidOf fs)
    landingSeparation := if fs.length = 2 then some (separationOf fs) else none
    peakCount := max e.peakCount fs.length }

/-- A frame that departs from a state and lands nothing: the rules of R86 to R90, R92 and R95 to R99, R104. -/
def padDepartures (t : Tables) (now : Stamp) (dt : Nat) (v : PadView) (e : Engine) (m : Motion) : Prop :=
  let w := padFrame t now dt v e m
  let rest : GestureState := if fingersOf v = [] then .idle else .residual
  let still := pointerCleared m
  landedOf v = [] →
    (e.state = .touch → e.button = .none → ∀ l, lifts v l → e.pointer = some l.track →
      (withinTap t l →
        w = ⟨{ e with
            state := .tapWait, button := .primary, pointer := none
            tapGapTimer := some (now + BitVec.ofNat 32 (1000 * t.tapGap)) }, still, [.button .primary]⟩) ∧
      (¬withinTap t l → w = ⟨{ e with state := .idle, pointer := none }, still, []⟩)) ∧
    (e.state = .touch → ∀ p, e.pointer = some p → withdraws v p → (∀ l ∈ v.lifted, l.cls = .finger → l.track ≠ p) →
      w = ⟨{ e with state := .idle, pointer := none }, still, []⟩) ∧
    (e.state = .pointing → pointerGone v e → w = ⟨{ e with state := .idle, pointer := none }, still, []⟩) ∧
    (e.state = .holdDrag → e.button = .primary → pointerGone v e →
      w = ⟨{ e with state := rest, button := .none, pointer := none }, still, [.button .none]⟩) ∧
    (e.state = .tapDrag → e.button = .primary → pointerGone v e →
      (∀ l, lifts v l → e.pointer = some l.track → withinTap t l →
        w = ⟨{ e with state := rest, button := .none, pointer := none }, still,
          [.button .none, .button .primary, .button .none]⟩) ∧
      ((∀ l ∈ v.lifted, l.cls = .finger → e.pointer = some l.track → ¬withinTap t l) →
        w = ⟨{ e with state := rest, button := .none, pointer := none }, still, [.button .none]⟩)) ∧
    (e.state = .multi → e.button = .none → fingersOf v = [] →
      let kept := e.tapCandidate = true ∧ (∀ l ∈ v.lifted, l.cls = .finger → withinTap t l) ∧ ∀ p, ¬withdraws v p
      let ended : Engine := { landingCleared e with state := .idle }
      (kept → e.peakCount = 2 → w = ⟨ended, m, [.button .secondary, .button .none]⟩) ∧
      (kept → e.peakCount = 3 → w = ⟨ended, m, [.button .middle, .button .none]⟩) ∧
      (kept → e.peakCount ≠ 2 → e.peakCount ≠ 3 → w = ⟨ended, m, []⟩) ∧ (¬kept → w = ⟨ended, m, []⟩)) ∧
    (e.state = .scrolling → (∃ id ∈ e.landingSet, ∀ c ∈ fingersOf v, c.entry.track ≠ id) →
      let ended : Engine := { landingCleared e with lastCentroid := none }
      let vx := Int.tdiv (m.lastOutX * 8000) m.lastInterval
      let vy := Int.tdiv (m.lastOutY * 8000) m.lastInterval
      (fingersOf v ≠ [] → w = ⟨{ ended with state := .residual }, m, [.gesture .scrollEnd]⟩) ∧
      (fingersOf v = [] → t.coastStart ≤ max vx.natAbs vy.natAbs →
        w = ⟨{ ended with state := .coasting, vcx := vx, vcy := vy, coastTimer := some (now + 8000#32) }, m, []⟩) ∧
      (fingersOf v = [] → max vx.natAbs vy.natAbs < t.coastStart →
        w = ⟨{ ended with state := .idle, vcx := 0, vcy := 0 }, m, [.gesture .scrollEnd]⟩)) ∧
    (e.state = .pinching → (∃ id ∈ e.landingSet, ∀ c ∈ fingersOf v, c.entry.track ≠ id) →
      w = ⟨{ landingCleared e with lastSeparation := none, state := rest }, m, [.gesture .pinchEnd]⟩) ∧
    (e.state = .swiping → ∀ d n, e.swipeDirection = some d → e.swipeCount = some n → (fingersOf v).length < n →
      w = ⟨{ e with state := rest, swipeDirection := none, swipeCount := none }, m, [.gesture (.swipeEnd d n)]⟩) ∧
    (e.state = .residual → fingersOf v = [] → w = ⟨{ e with state := .idle }, m, []⟩) ∧
    (e.state = .clicked → pointerGone v e →
      (fingersOf v = [] → w = ⟨{ e with pointer := none }, still, []⟩) ∧
      ∀ x, mostRecentlyLanded now ((fingersOf v).map (·.entry)) x → e.pointer ≠ some x.track →
        w = ⟨{ e with pointer := some x.track }, still, []⟩)

/-- A frame that lands fingers and departs from nothing: the rules of R84, R85, R87, R89, R91, R92, R95, R98, R101 and R104. -/
def padLandings (t : Tables) (now : Stamp) (dt : Nat) (v : PadView) (e : Engine) (m : Motion) : Prop :=
  let w := padFrame t now dt v e m
  let fs := fingersOf v
  let still := pointerCleared m
  nothingDeparts v → landedOf v ≠ [] → (v.entries.map (·.entry.track)).Nodup → 0 < t.scrollStart → 0 < t.swipeStart →
    (e.state = .idle → e.pointer = none → e.button = .none → ∀ c, landedOf v = [c] →
      (t.tapSlop < c.entry.travel →
        w = ⟨{ e with state := .pointing, pointer := some c.entry.track }, still, []⟩) ∧
      (c.entry.travel ≤ t.tapSlop → t.holdMin ≤ c.entry.age →
        w = ⟨{ e with state := .holdDrag, button := .primary, pointer := some c.entry.track }, still,
          [.button .primary]⟩) ∧
      (c.entry.travel ≤ t.tapSlop → c.entry.age < t.holdMin →
        w = ⟨{ e with state := .touch, pointer := some c.entry.track }, still, []⟩)) ∧
    ((e.state = .idle ∧ e.pointer = none ∧ 2 ≤ (landedOf v).length) ∨ (e.state = .touch ∧ e.pointer ≠ none) ∨
        e.state = .pointing →
      let ended : Engine := { landingCleared e with pointer := none }
      let moved := if e.state = .idle then m else still
      (∀ yes : Bool, (yes = true ↔ e.state ≠ .pointing ∧ ∀ c ∈ fs, withinTap t c.entry) → 2 ≤ fs.length → fs.length ≤ 4 →
        w = ⟨{ landingTaken fs ended with state := .multi, tapCandidate := yes }, moved, []⟩) ∧
      (5 ≤ fs.length → w = ⟨{ ended with state := .residual }, moved, []⟩)) ∧
    (e.state = .coasting →
      let w' := padFrame t now dt v { e with state := .idle, coastTimer := none, vcx := 0, vcy := 0 } m
      w = ⟨w'.e, w'.m, .gesture .scrollEnd :: w'.out⟩) ∧
    (e.state = .tapWait → ∀ x, mostRecentlyLanded now ((landedOf v).map (·.entry)) x →
      w = ⟨{ e with state := .tapDrag, pointer := some x.track, tapGapTimer := none }, still, []⟩) ∧
    (e.state = .clicked → ∀ x, mostRecentlyLanded now (fs.map (·.entry)) x → e.pointer ≠ some x.track →
      w = ⟨{ e with pointer := some x.track }, still, []⟩) ∧
    (e.state = .residual → stayingOf v ≠ [] → w = ⟨e, m, []⟩) ∧
    (e.state = .swiping → (∀ n ∈ e.swipeCount, n ≤ (stayingOf v).length) → w = ⟨e, m, []⟩)

/-- The thresholds of TOUCH, and of MULTI while fingers stay, the landing values taken afresh when the finger set has changed: the
rules of R85 and R91 to R95. -/
def padThresholds (t : Tables) (now : Stamp) (dt : Nat) (v : PadView) (e : Engine) (m : Motion) : Prop :=
  let w := padFrame t now dt v e m
  let fs := fingersOf v
  (e.state = .touch → e.button = .none → nothingDeparts v → landedOf v = [] → (v.entries.map (·.entry.track)).Nodup →
    ∀ c ∈ v.entries, e.pointer = some c.entry.track →
      (t.tapSlop < c.entry.travel → w = ⟨{ e with state := .pointing }, pointerCleared m, []⟩) ∧
      (c.entry.travel ≤ t.tapSlop → t.holdMin ≤ c.entry.age →
        w = ⟨{ e with state := .holdDrag, button := .primary }, pointerCleared m, [.button .primary]⟩) ∧
      (c.entry.travel ≤ t.tapSlop → c.entry.age < t.holdMin → w = ⟨e, m, []⟩)) ∧
  (e.state = .multi → stayingOf v ≠ [] → ∀ kept yes : Bool,
    (kept = true ↔ e.tapCandidate = true ∧ (∀ l ∈ v.lifted, l.cls = .finger → withinTap t l) ∧ ∀ p, ¬withdraws v p) →
    (yes = true ↔ kept = true ∧ ∀ c ∈ fs, withinTap t c.entry) →
    let e' : Engine :=
      if fs.map (·.entry.track) ≠ e.landingSet ∧ 2 ≤ fs.length ∧ fs.length ≤ 4
      then { landingTaken fs e with tapCandidate := kept } else { e with tapCandidate := kept }
    let ended := landingCleared e'
    let now' := centroidOf fs
    (5 ≤ fs.length → w = ⟨{ ended with state := .residual }, m, []⟩) ∧
    (fs.length = 1 → kept = false → w = ⟨{ ended with state := .residual }, m, []⟩) ∧
    (fs.length = 1 → kept = true → w = ⟨{ e' with tapCandidate := yes }, m, []⟩) ∧
    ∀ l, e'.landingCentroid = some l →
      let tc := max ((l.x : Int) - now'.x).natAbs ((l.y : Int) - now'.y).natAbs
      (fs.length = 2 → ∀ d, e'.landingSeparation = some d →
        let ds := ((separationOf fs : Int) - d).natAbs
        (t.pinchStart ≤ ds → tc < ds →
          w = ⟨{ ended with
            state := .pinching, landingSet := e'.landingSet, lastSeparation := some (max 1 (separationOf fs)) }, m, []⟩) ∧
        (ds < t.pinchStart ∨ ds ≤ tc → t.scrollStart ≤ tc →
          w = ⟨{ ended with state := .scrolling, landingSet := e'.landingSet, lastCentroid := some now' },
            { m with scrollX := 0, scrollY := 0, lastOutX := 0, lastOutY := 0, lastInterval := 32000 }, []⟩) ∧
        (ds < t.pinchStart ∨ ds ≤ tc → tc < t.scrollStart → w = ⟨{ e' with tapCandidate := yes }, m, []⟩)) ∧
      (fs.length = 3 ∨ fs.length = 4 →
        let dx := (now'.x : Int) - l.x
        let dy := (now'.y : Int) - l.y
        (∀ d : Direction, t.swipeStart ≤ tc →
          (dy.natAbs ≤ dx.natAbs ∧ 0 < dx ∧ d = .right) ∨ (dy.natAbs ≤ dx.natAbs ∧ dx < 0 ∧ d = .left) ∨
            (dx.natAbs < dy.natAbs ∧ 0 < dy ∧ d = .down) ∨ (dx.natAbs < dy.natAbs ∧ dy < 0 ∧ d = .up) →
          w = ⟨{ ended with state := .swiping, swipeDirection := some d, swipeCount := some fs.length }, m,
            [.gesture (.swipeBegin d fs.length)]⟩) ∧
        (tc < t.swipeStart → w = ⟨{ e' with tapCandidate := yes }, m, []⟩)))

/-- The frame without its landings: what its stage 1 judges (R81). -/
def withoutLandings (v : PadView) : PadView :=
  { v with entries := v.entries.filter fun c => c.entry.cls ≠ .finger ∨ c.before = .finger }

/-- The frame once its departures have been taken (R81). -/
def withoutDepartures (v : PadView) : PadView :=
  { entries := v.entries.filter fun c => c.entry.cls = .finger ∨ c.before ≠ .finger, lifted := [] }

/-- A frame that departs from its gesture state and also lands fingers: its departures act alone first, as `padDepartures` has them,
and its landings alone then act on the state they leave, as `padLandings` has them, what they hand over standing in this order
(R81, R84, R87 to R90, R92, R95 to R98, R101, R107). In CLICKED, whether the pointer contact departs or stays, the most
recently landed of all the fingers becomes it (R104). A lifted track's id stands in the frame only as that of an entry admitted
in it. -/
def padTurnovers (t : Tables) (now : Stamp) (dt : Nat) (v : PadView) (e : Engine) (m : Motion) : Prop :=
  let w := padFrame t now dt v e m
  let gone := padFrame t now dt (withoutLandings v) e m
  let came := padFrame t now dt (withoutDepartures v) gone.e gone.m
  let fewer := stayingOf v
  landedOf v ≠ [] → (v.entries.map (·.entry.track)).Nodup → 0 < t.scrollStart →
    (∀ l ∈ v.lifted, ∀ c ∈ v.entries, c.entry.track = l.track → c.isNew = true ∧ c.before ≠ .finger) →
    (((e.state = .touch ∨ e.state = .pointing ∨ e.state = .holdDrag ∨ e.state = .tapDrag) ∧ pointerGone v e) ∨
        (e.state = .multi ∧ fewer = []) ∨
        ((e.state = .scrolling ∨ e.state = .pinching) ∧ ∃ id ∈ e.landingSet, ∀ c ∈ fewer, c.entry.track ≠ id) ∨
        (e.state = .swiping ∧ ∃ n ∈ e.swipeCount, fewer.length < n) ∨ (e.state = .residual ∧ fewer = []) →
      w = ⟨came.e, came.m, gone.out ++ came.out⟩) ∧
    (e.state = .clicked → ∀ x, mostRecentlyLanded now ((fingersOf v).map (·.entry)) x →
      pointerGone v e ∨ e.pointer ≠ some x.track →
      w = ⟨{ e with pointer := some x.track }, pointerCleared m, []⟩)

/-- A frame that keeps its gesture state and its pointer contact or pair: the motion it hands over, or none. In CLICKED a landing
keeps the pointer contact that is still the most recently landed finger. With a contact of a pair LIFTING the base of the next
frame takes the position it keeps (log entry 22) (R83, R87, R88, R90, R96 to R98, R101, R104). -/
def padMotion (t : Tables) (now : Stamp) (dt : Nat) (v : PadView) (e : Engine) (m : Motion) : Prop :=
  let w := padFrame t now dt v e m
  let pair := (fingersOf v).filter fun c => c.entry.track ∈ e.landingSet
  let lifting := ∃ c ∈ pair, c.entry.presence = .lifting
  let stays := ∀ id ∈ e.landingSet, ∃ c ∈ stayingOf v, c.entry.track = id
  let kept := ∃ x, mostRecentlyLanded now ((fingersOf v).map (·.entry)) x ∧ e.pointer = some x.track
  (((e.state = .pointing ∨ e.state = .clicked) ∧ landedOf v = []) ∨ (e.state = .clicked ∧ kept) ∨
      e.state = .holdDrag ∨ e.state = .tapDrag →
    ¬pointerGone v e → (v.entries.map (·.entry.track)).Nodup →
    ∀ c ∈ v.entries, e.pointer = some c.entry.track →
      let r := pointerInput t m ((c.entry.pos.x : Int) - c.prev.x) ((c.entry.pos.y : Int) - c.prev.y) dt
      (c.isNew = false → c.before ≠ .suspect → c.entry.presence = .present →
        w = ⟨e, r.1, [.motion e.button r.2]⟩) ∧
      (c.isNew = true ∨ (c.before = .suspect ∧ c.entry.cls = .finger) ∨ c.entry.presence = .lifting → w = ⟨e, m, []⟩)) ∧
  (e.state = .scrolling → stays → ∀ l, e.lastCentroid = some l →
    let c := centroidOf pair
    let r := scrollInput t m ((c.x : Int) - l.x) ((c.y : Int) - l.y) dt
    (¬lifting → w = ⟨{ e with lastCentroid := some c }, r.1, [.motion e.button r.2]⟩) ∧
    (lifting → w = ⟨{ e with lastCentroid := some c }, m, []⟩)) ∧
  (e.state = .pinching → stays → ∀ d, e.lastSeparation = some d →
    let c := max 1 (separationOf pair)
    (¬lifting → w = ⟨{ e with lastSeparation := some c }, m,
      [.motion e.button ⟨0, 0, 0, 0, Int.tdiv (((c : Int) - d) * 1024) d⟩]⟩) ∧
    (lifting → w = ⟨{ e with lastSeparation := some c }, m, []⟩)) ∧
  (e.state = .idle ∨ e.state = .tapWait ∨ e.state = .coasting → landedOf v = [] → w = ⟨e, m, []⟩) ∧
  (e.state = .residual → stayingOf v ≠ [] → w = ⟨e, m, []⟩) ∧
  (e.state = .swiping → (∀ n ∈ e.swipeCount, n ≤ (stayingOf v).length) → w = ⟨e, m, []⟩)

/-! ## Tables and arithmetic -/

/-- A value brought into a range by its nearer end (R138). -/
def intoRange (lo hi x : Int) : Int := max lo (min hi x)

/-- The bytes of an entry with each field brought into its field range (R138, R169). -/
def clampedBytes (id : TableId) (i : Nat) (b : List Byte) : List Byte :=
  let code (k hi : Nat) : Byte := BitVec.ofNat 8 (min hi (b.getD k 0).toNat)
  let half (k : Nat) : Nat := (b.getD k 0).toNat + 256 * (b.getD (k + 1) 0).toNat
  let two (n : Nat) : List Byte := [BitVec.ofNat 8 n, BitVec.ofNat 8 (n / 256)]
  let condition (k : Nat) : List Byte := [b.getD k 0, code (k + 1) 4, b.getD (k + 2) 0, b.getD (k + 3) 0]
  match id with
  | .rules => [code 0 1, code 1 2, code 2 3, if b.getD 3 0 = 0xFF then 0xFF else code 3 31, code 4 4] ++
      condition 5 ++ condition 9 ++ condition 13
  | .zones => [code 0 1, code 1 4] ++ two (min 8191 (half 2)) ++ two (min 5119 (half 4)) ++ two (min 8191 (half 6)) ++
      two (min 5119 (half 8))
  | .pointerCurve => two (min 4095 (half 0)) ++ two (min 2047 (half 2))
  | .scrollCurve => two (min 4095 (half 0)) ++ two (min 2047 (half 2))
  | .pressureCurve => two (min 4095 (half 0)) ++ two (min 4095 (half 2))
  | .bands => two (min 359 (half 0)) ++ two (min 359 (half 2))
  | .params => two (match paramSpecs[i]? with | none => half 0 | some r => max r.lo (min r.hi (half 0)))
  | .calibration =>
    let v := (BitVec.ofNat 32 (half 0 + 65536 * half 2)).toInt
    let c := (BitVec.ofInt 32 (if i < 2 then intoRange 1 131071 v else intoRange (-16384) 16383 v)).toNat
    two c ++ two (c / 65536)

/-- The bytes of a condition: feature, relation, operand (R169). -/
def conditionLayout (c : Condition) : List Byte :=
  let relation : Byte := match c.relation with | .eq => 0 | .ne => 1 | .lt => 2 | .ge => 3 | .anyOf => 4
  [BitVec.ofNat 8 c.feature, relation] ++ twoBytes c.operand

/-- The bytes of a rule: enabled, scope, condition count, prerequisite, verdict, the three conditions (R169). -/
def ruleLayout (r : Rule) : List Byte :=
  let enabled : Byte := if r.enabled = true then 1 else 0
  let scope : Byte := match r.scope with | .pad => 0 | .screen => 1 | .both => 2
  let prereq : Byte := match r.prereq with | none => 0xFF | some p => BitVec.ofNat 8 p
  let verdict : Byte := match r.verdict with | .finger => 0 | .palm => 1 | .resting => 2 | .ignore => 3 | .mark => 4
  [enabled, scope, BitVec.ofNat 8 r.count, prereq, verdict] ++ conditionLayout r.c1 ++ conditionLayout r.c2 ++
    conditionLayout r.c3

/-- The bytes of a zone: enabled, function, x0, y0, x1, y1 (R169). -/
def zoneLayout (z : Zone) : List Byte :=
  let enabled : Byte := if z.enabled = true then 1 else 0
  let function : Byte := match z.function with | .pointer => 0 | .secondary => 1 | .middle => 2 | .rest => 3 | .dead => 4
  [enabled, function] ++ twoBytes z.x0 ++ twoBytes z.y0 ++ twoBytes z.x1 ++ twoBytes z.y1

/-- The bytes of every entry of a table, as section 10.5 has them; a calibration value is signed, of 32 bits (R169). -/
def tableLayout (t : Tables) : TableId → List (List Byte)
  | .rules => t.rules.map ruleLayout
  | .zones => t.zones.map zoneLayout
  | .pointerCurve => t.pointerCurve.map fun k => twoBytes k.input ++ twoBytes k.output
  | .scrollCurve => t.scrollCurve.map fun k => twoBytes k.input ++ twoBytes k.output
  | .pressureCurve => t.pressureCurve.map fun k => twoBytes k.input ++ twoBytes k.output
  | .bands => t.bands.map fun b => twoBytes b.rise ++ twoBytes b.fall
  | .params => t.params.map fun (v : Nat) => twoBytes v
  | .calibration => t.calibration.map fun v => twoBytes v ++ twoBytes (v / 65536)

/-- One table has the same contents in two banks. -/
def sameTable (t u : Tables) : TableId → Prop
  | .rules => t.rules = u.rules
  | .zones => t.zones = u.zones
  | .pointerCurve => t.pointerCurve = u.pointerCurve
  | .scrollCurve => t.scrollCurve = u.scrollCurve
  | .pressureCurve => t.pressureCurve = u.pressureCurve
  | .bands => t.bands = u.bands
  | .params => t.params = u.params
  | .calibration => t.calibration = u.calibration

/-- A run of inputs on one axis, each a delta and its gain, from a residue on: the outputs and the last residue (R112). -/
def axisRun (limit : Int) : List (Int × Int) → Nat → List Int × Nat
  | [], r => ([], r)
  | (d, g) :: rest, r =>
    let a := axisStep limit d g r
    let b := axisRun limit rest a.2
    (a.1 :: b.1, b.2)

/-! ## The Contact Table (R20, R27, R38, R56) -/

/-- One surface: at most 10 entries, in strictly ascending slot, each with a slot 0..15, a track id 1..255, a palm run 0..15
and a class that a frame has decided. -/
def surfaceSound (es : List Entry) : Prop :=
  es.length ≤ 10 ∧ (es.map (·.slot)).Pairwise (· < ·) ∧
    ∀ e ∈ es, e.slot ≤ 15 ∧ 1 ≤ e.track ∧ e.track ≤ 255 ∧ e.palmRun ≤ 15 ∧ e.cls ≠ .undecided

/-- The Contact Table: both surfaces sound, no track id twice, the counter 1..255, no pad entry reported, no REJECTED screen
entry OPEN and no screen entry CLOSED that is not REJECTED. -/
def Contacts.sound (c : Contacts) : Prop :=
  surfaceSound c.pad ∧ surfaceSound c.screen ∧ ((c.pad ++ c.screen).map (·.track)).Nodup ∧
    (1 ≤ c.nextId ∧ c.nextId ≤ 255) ∧ (∀ e ∈ c.pad, e.reported = .none) ∧
    ∀ e ∈ c.screen, (e.cls = .rejected → e.reported ≠ .opened) ∧ (e.reported = .closed → e.cls = .rejected)

/-! ## The tables (R135, R136) -/

/-- A condition whose fields lie in their field ranges. -/
def Condition.inRange (c : Condition) : Prop := c.feature ≤ 255 ∧ c.operand ≤ 65535

/-- A rule whose fields lie in their field ranges. -/
def Rule.inRange (r : Rule) : Prop :=
  r.count ≤ 3 ∧ r.c1.inRange ∧ r.c2.inRange ∧ r.c3.inRange ∧ ∀ p ∈ r.prereq, p ≤ 31

/-- A zone whose bounds lie on the pad. -/
def Zone.inRange (z : Zone) : Prop := z.x0 ≤ 8191 ∧ z.y0 ≤ 5119 ∧ z.x1 ≤ 8191 ∧ z.y1 ≤ 5119

/-- A knot whose fields lie in their field ranges. -/
def Knot.inRange (maxOutput : Nat) (k : Knot) : Prop := k.input ≤ 4095 ∧ k.output ≤ maxOutput

/-- A boundary whose angles lie in their field range. -/
def Boundary.inRange (b : Boundary) : Prop := b.rise ≤ 359 ∧ b.fall ≤ 359

/-- A parameter slot in its field range. -/
def paramInRange (slot v : Nat) : Prop := ∀ r ∈ paramSpecs[slot]?, r.lo ≤ v ∧ v ≤ r.hi

/-- A calibration value in its field range. -/
def calibrationInRange (i : Nat) (v : Int) : Prop := (calibrationRange i).1 ≤ v ∧ v ≤ (calibrationRange i).2

/-- A bank with the right number of entries in each table, every field in its field range (R136, R138). -/
def Tables.inRange (t : Tables) : Prop :=
  (∀ id ∈ allTables, (tableBytes t id).length = tableSize id) ∧
    (∀ r ∈ t.rules, r.inRange) ∧ (∀ z ∈ t.zones, z.inRange) ∧
    (∀ k ∈ t.pointerCurve, k.inRange 2047) ∧ (∀ k ∈ t.scrollCurve, k.inRange 2047) ∧
    (∀ k ∈ t.pressureCurve, k.inRange 4095) ∧ (∀ b ∈ t.bands, b.inRange) ∧
    (∀ i ∈ List.range 28, ∀ v ∈ t.params[i]?, paramInRange i v) ∧
    ∀ i ∈ List.range 4, ∀ v ∈ t.calibration[i]?, calibrationInRange i v

/-- The Table Store: every active table passes its commit validation, so does the shadow of every pending table, the
pending-commit set names tables alone, and both banks are in range (R135, R137, R138). -/
def Store.sound (st : Store) : Prop :=
  (∀ id ∈ allTables, validate st.active id = none) ∧
    (∀ id ∈ allTables, inSet st.pendingCommit id = true → validate st.shadow id = none) ∧
    setOutOfRange st.pendingCommit = false ∧ st.active.inRange ∧ st.shadow.inRange

/-! ## The queues (R155 to R160) -/

/-- The four queues within their capacities. -/
def Link.withinCapacity (l : Link) : Prop :=
  l.pen.length ≤ 32 ∧ l.screen.length ≤ 40 ∧ l.pointer.length ≤ 12 ∧ l.gesture.length ≤ 16

/-- The in-flight marks of a queue, oldest first, form its head and are at most `n` (R155). -/
def headInFlight (n : Nat) (marks : List Bool) : Prop :=
  marks.Pairwise (fun a b => b = true → a = true) ∧ marks.count true ≤ n

/-- No record and no reply is in flight. -/
def Link.nothingInFlight (l : Link) : Prop :=
  (∀ r ∈ l.pen, r.inFlight = false) ∧ (∀ r ∈ l.screen, r.inFlight = false) ∧
    (∀ r ∈ l.pointer, r.inFlight = false) ∧ (∀ r ∈ l.gesture, r.inFlight = false) ∧
    ∀ r ∈ l.reply, r.inFlight = false

/-- The queues and their in-flight heads, the open tail as the newest pointer record, which carries the engine's button state,
and an exchange only while SELn is low and RESETn high (R146, R155, R158, R164). -/
def State.linkSound (s : State) : Prop :=
  s.link.withinCapacity ∧
    headInFlight 5 (s.link.pen.map (·.inFlight)) ∧ headInFlight 7 (s.link.screen.map (·.inFlight)) ∧
    headInFlight 7 (s.link.pointer.map (·.inFlight)) ∧ headInFlight 15 (s.link.gesture.map (·.inFlight)) ∧
    (s.exchanging = false → s.link.nothingInFlight) ∧
    (s.pins.selnLow = false → s.link.exchange = none) ∧ (s.pins.resetnLow = true → s.link.exchange = none) ∧
    (∀ r ∈ s.link.pointer.dropLast, r.isOpen = false) ∧
    ∀ r ∈ s.link.pointer.getLast?, r.button = s.engine.button

/-- A value within a symmetric range. -/
def within (limit x : Int) : Prop := -limit ≤ x ∧ x ≤ limit

/-- The motion fields of a pointer record in their ranges (R159). -/
def Delta.inRange (d : Delta) : Prop :=
  within 127 d.dx ∧ within 127 d.dy ∧ within 2047 d.h ∧ within 2047 d.v ∧ within 2047 d.zoom

/-- Motion Transfer's residues, last scroll output and interval in their ranges, and every pointer record in its (section 6.1,
R159). -/
def State.motionSound (s : State) : Prop :=
  (s.motion.pointerX ≤ 255 ∧ s.motion.pointerY ≤ 255 ∧ s.motion.scrollX ≤ 255 ∧ s.motion.scrollY ≤ 255) ∧
    (within 2047 s.motion.lastOutX ∧ within 2047 s.motion.lastOutY) ∧
    (2000 ≤ s.motion.lastInterval ∧ s.motion.lastInterval ≤ 32000) ∧
    ∀ r ∈ s.link.pointer, r.motion.inRange

/-- The link's settings: the ceiling 1..5, masks of the causes 0..8 alone, and latched event causes alone (R153, R161). -/
def Link.settingsSound (l : Link) : Prop :=
  (1 ≤ l.ceiling ∧ l.ceiling ≤ 5) ∧ l.masks &&& 0xFE00 = 0 ∧ l.latched &&& 0xFF04 = 0

/-- The reply fits the 60 bytes of a cell, the cell of an exchange has 64 bytes, at most 64 are counted, and below 64 as many bytes
have been received as are counted (R146, R150). -/
def Link.cellSound (l : Link) : Prop :=
  (∀ r ∈ l.reply, (replyBytes r).length ≤ 60) ∧
    ∀ e ∈ l.exchange, e.cell.length = 64 ∧ e.count ≤ 64 ∧ e.received.length = if e.count < 64 then e.count else 0

/-! ## The gesture states (section 5, head table) -/

/-- The button state that a gesture state implies. -/
def buttonFits : GestureState → Button → Prop
  | .idle, b => b = .none
  | .touch, b => b = .none
  | .pointing, b => b = .none
  | .holdDrag, b => b = .primary
  | .tapWait, b => b = .primary
  | .tapDrag, b => b = .primary
  | .multi, b => b = .none
  | .scrolling, b => b = .none
  | .pinching, b => b = .none
  | .swiping, b => b = .none
  | .clicked, b => b ≠ .none
  | .residual, b => b = .none
  | .coasting, b => b = .none

/-- The gesture states in which the engine may have a pointer contact. -/
def mayPoint : GestureState → Prop
  | .touch => True
  | .pointing => True
  | .holdDrag => True
  | .tapDrag => True
  | .clicked => True
  | .idle => False
  | .tapWait => False
  | .multi => False
  | .scrolling => False
  | .pinching => False
  | .swiping => False
  | .residual => False
  | .coasting => False

/-- The button state, the two timers and the pointer contact go with the gesture state: TapGap runs in TAP_WAIT alone and the
coast timer in COASTING alone, and TOUCH, POINTING, HOLD_DRAG and TAP_DRAG have a pointer contact. -/
def Engine.sound (e : Engine) : Prop :=
  buttonFits e.state e.button ∧
    (e.tapGapTimer.isSome = true ↔ e.state = .tapWait) ∧ (e.coastTimer.isSome = true ↔ e.state = .coasting) ∧
    (e.pointer.isSome = true → mayPoint e.state) ∧
    (e.state = .touch ∨ e.state = .pointing ∨ e.state = .holdDrag ∨ e.state = .tapDrag → e.pointer.isSome = true)

/-! ## The posture (section 7.1) -/

/-- Pending is yes exactly while the requested posture differs from the actual one, the deferral timer runs exactly while
pending is yes, and the band index is 0..3. -/
def PostureControl.sound (p : PostureControl) : Prop :=
  (p.pending = true ↔ p.requested ≠ p.actual) ∧ (p.deferral.isSome = true ↔ p.pending = true) ∧ p.band ≤ 3

/-! ## The ports and what they feed (R2, R35, R106) -/

/-- Some enabled port with a role is LIVE or LATE. -/
def Ports.serve (ps : Ports) (r : Role) : Bool :=
  ps.toList.any fun p => p.role == r && (p.state == .live || p.state == .late)

/-- While RESETn is low, every block is as the hard reset left it (R164). -/
def State.heldInReset (s : State) : Prop :=
  s.ports = initialPorts ∧ s.aux.debounce = none ∧ s.contacts = initialContacts ∧ s.keyQuiet = none ∧
    s.pen = initialPen ∧ s.engine = initialEngine ∧ s.motion = initialMotion ∧ s.posture = initialPosture ∧
    s.waits = initialWaits ∧ s.store.pendingCommit = 0 ∧ ∃ b, s.link = initialLink b

/-- A role other than UNUSED is held by one port at a time (R2); a waiting record and a running deadline belong to a port whose
stream has come (sections 1, 1.4); a DISABLED port has no record under way (R4), and a body under way is short of its length
(R168); and RESETn low holds every block. -/
def State.portsSound (s : State) : Prop :=
  (∀ i j : Fin 4, i ≠ j → ∀ r ∈ [Role.pad, Role.screen, Role.pen, Role.aux],
      (s.port i).holds r = true → (s.port j).holds r = false) ∧
    (∀ i : Fin 4, (s.port i).waiting.isSome = true →
      (s.port i).state = .live ∨ (s.port i).state = .late ∨ (s.port i).state = .down) ∧
    (∀ i : Fin 4, (s.port i).deadline.isSome = true ↔ (s.port i).state = .live ∨ (s.port i).state = .late) ∧
    (∀ i : Fin 4, (s.port i).state = .disabled → (s.port i).rx = .hunting) ∧
    (∀ (i : Fin 4) (n : Nat) (bs : List Byte), (s.port i).rx = .body n bs → bs.length < n ∧ n ≤ 255) ∧
    (s.pins.resetnLow = true → s.heldInReset)

/-- What a role feeds is in use: the actual posture has it live and an enabled port serves it. -/
def State.fed (s : State) (r : Role) : Prop := roleLive s.posture.actual r = true ∧ s.ports.serve r = true

/-- No pad entry, screen entry or pen in range without a stream and a posture that feeds it, counted from the completion of a
frame in processing, at which the teardown that waits is taken (R35); and the engine leaves IDLE in LAPTOP alone (R106). -/
def State.feedSound (s : State) : Prop :=
  s.portsSound ∧
    (s.contacts.pad ≠ [] → s.ports.frameOf .pad = true ∨ s.fed .pad) ∧
    (s.contacts.screen ≠ [] → s.ports.frameOf .screen = true ∨ s.fed .screen) ∧
    (s.pen.state ≠ .out → s.ports.frameOf .pen = true ∨ s.fed .pen) ∧
    (s.engine.state ≠ .idle → s.ports.frameOf .pad = true ∨ padLive s.posture.actual = true) ∧
    (s.ports.frameOf .pad = true → s.fed .pad ∨ s.waits.pad = true) ∧
    (s.ports.frameOf .screen = true → s.fed .screen ∨ s.waits.screen = true) ∧
    (s.ports.frameOf .pen = true → s.fed .pen ∨ s.waits.pen ≠ []) ∧
    (s.waits.pad = true → s.ports.frameOf .pad = true) ∧
    (s.waits.screen = true → s.ports.frameOf .screen = true) ∧
    (s.waits.pen ≠ [] → s.ports.frameOf .pen = true)

end Sys2Proof.Machine
end

