-- ==== Sys2Proof/Certificates/Slice0/Obligations.lean ====
section
/-! DEFINITION. The statements for the provers, one definition each. -/

open Sys2Proof Sys2Proof.Machine

/-! ## The step -/

/-- A step carries out the command at the front of the queue on the state with the queue's rest, and an empty queue leaves the
state as it is (the model's choice, log entry 10). -/
def Obligations.StepRunsFrontCommand : Prop :=
  (∀ (c : Instr) (q : List Instr) (s : State),
    step { s with pending := c :: q } = exec c { s with pending := q }) ∧
  ∀ s : State, s.pending = [] → step s = .next s

/-- Every command, in every state, has a next state, which stands at the command's moment and has the same commands waiting:
no command faults or is refused (00_scope.md; the queue is the model's own). -/
def Obligations.EveryCommandCompletes : Prop :=
  ∀ (c : Instr) (s : State),
    ∃ t, exec c s = .next t ∧ t.timebase = stampOf c ∧ t.pending = s.pending

/-! ## Resets -/

/-- POWER_ON_RESET sets every block to the values of 00_scope.md section 9, whatever the state was, and both banks of every table to
the defaults of section 8.2. The lines, the timebase and the model's own fields stay, and the accepted click level and the sight of
SELn are taken from the lines (R1, R18, R134, R136, R164; how the lines are kept is the model's choice, log entry 5). -/
def Obligations.PowerOnResetSetsEveryBlock : Prop :=
  ∀ (τ : Stamp) (s : State),
    let rule : Rule := ⟨false, .both, 0, ⟨0, .eq, 0⟩, ⟨0, .eq, 0⟩, ⟨0, .eq, 0⟩, none, .finger⟩
    let zone : Zone := ⟨false, .pointer, 0, 0, 0, 0⟩
    let curve (gain : Nat) : List Knot :=
      [⟨0, gain⟩, ⟨32, gain⟩, ⟨64, gain⟩, ⟨96, gain⟩, ⟨128, gain⟩, ⟨160, gain⟩, ⟨192, gain⟩, ⟨224, gain⟩]
    let bank : Tables :=
      { rules := List.replicate 32 rule
        zones := ⟨true, .pointer, 0, 0, 8191, 5119⟩ :: List.replicate 7 zone
        pointerCurve := curve 64
        scrollCurve := curve 32
        pressureCurve := [⟨0, 0⟩, ⟨819, 819⟩, ⟨1638, 1638⟩, ⟨2457, 2457⟩, ⟨3276, 3276⟩, ⟨4095, 4095⟩]
        bands := [⟨12, 6⟩, ⟨195, 185⟩, ⟨350, 340⟩]
        params :=
          [180, 700, 220, 96, 160, 192, 640, 1, 3, 1280, 2048, 64, 8, 232, 5, 600, 0, 4000, 3000, 600, 400, 60, 40, 1500,
            40, 40, 40, 40]
        calibration := [32768, 20480, 0, 0] }
    exec (.powerOnReset τ) s = .next
      { timebase := τ
        pins := s.pins
        ports :=
          { p0 := ⟨.pad, .disabled, none, none, none, false, none, .hunting⟩
            p1 := ⟨.screen, .disabled, none, none, none, false, none, .hunting⟩
            p2 := ⟨.pen, .disabled, none, none, none, false, none, .hunting⟩
            p3 := ⟨.aux, .disabled, none, none, none, false, none, .hunting⟩ }
        aux := { hinge := none, deck := none, keyTime := none, accepted := s.pins.click, debounce := none }
        contacts := { pad := [], screen := [], nextId := 1 }
        keyQuiet := none
        pen :=
          { state := .out, tip := .pen, lastPos := none, tiltX := 0, tiltY := 0, barrel := false
            prevState := .out, prevTip := .pen, lossMark := false, held := false
            shadowLive := false, shadowTimer := none }
        engine :=
          { state := .idle, button := .none, pointer := none, landingSet := [], landingCentroid := none
            landingSeparation := none, peakCount := 0, tapCandidate := false, swipeDirection := none
            swipeCount := none, lastCentroid := none, lastSeparation := none, tapGapTimer := none
            coastTimer := none, vcx := 0, vcy := 0 }
        motion :=
          { pointerX := 0, pointerY := 0, scrollX := 0, scrollY := 0, lastOutX := 0, lastOutY := 0
            lastInterval := 32000 }
        posture :=
          { band := 1, actual := .laptop, requested := .laptop, override := none, pending := false
            deferral := none }
        store := { active := bank, shadow := bank, pendingCommit := 0 }
        link :=
          { reply := none, pen := [], screen := [], pointer := [], gesture := [], latched := 1, masks := 0
            ceiling := 5, overrun := ⟨false, false, false, false⟩, exchange := none, restartWaiting := false
            selnSeenHigh := !s.pins.selnLow, sdo := [] }
        waits := { pad := false, screen := false, pen := [] }
        freeCount := s.freeCount
        pending := s.pending }

/-- HARD_RESET completes, and leaves what POWER_ON_RESET leaves, with RESETn low and both banks of CALIBRATION kept (R134, R164;
RESETn as a line of the state is the model's choice, log entry 5). -/
def Obligations.HardResetKeepsCalibrationAlone : Prop :=
  ∀ (τ : Stamp) (s : State), ∃ u, exec (.powerOnReset τ) s = .next u ∧
    exec (.hardReset τ) s = .next
      { u with
        pins := { s.pins with resetnLow := true }
        store :=
          { active := { u.store.active with calibration := s.store.active.calibration }
            shadow := { u.store.shadow with calibration := s.store.shadow.calibration }
            pendingCommit := 0 } }

/-- RESETN_RELEASE after a hard reset: every port is DISABLED with its default role, the accepted click level is the line's,
and an exchange is served once SELn is seen high; a RESETn that is high already is not released (R1, R18, R164; that last
clause is the model's choice, log entry 5). -/
def Obligations.ResetReleaseSamplesLines : Prop :=
  ∀ (τ : Stamp) (s : State),
    (s.pins.resetnLow = true →
      exec (.resetnRelease τ) s = .next
        { s with
          timebase := τ
          pins := { s.pins with resetnLow := false }
          ports :=
            { p0 := ⟨.pad, .disabled, none, none, none, false, none, .hunting⟩
              p1 := ⟨.screen, .disabled, none, none, none, false, none, .hunting⟩
              p2 := ⟨.pen, .disabled, none, none, none, false, none, .hunting⟩
              p3 := ⟨.aux, .disabled, none, none, none, false, none, .hunting⟩ }
          aux := { s.aux with accepted := s.pins.click }
          link := { s.link with selnSeenHigh := !s.pins.selnLow } }) ∧
    (s.pins.resetnLow = false → exec (.resetnRelease τ) s = .next { s with timebase := τ })

/-! ## Scan records -/

/-- The checks of kind, length and role (R9, checks 3 to 5; R168), and the values of an accepted body (R10, R11). CONTACTS: a count
0..10 with its length, for PAD or SCREEN; of its entries those stand whose slot is 0..15 and no earlier entry's, in their order,
clamped, and with the edge flag moved to the nearest border, along x on a tie. PEN: 12 bytes. AUX: 5 bytes, a deck code above DOWN
taken as EDGE. UNUSED accepts nothing. -/
def Obligations.RecordChecks : Prop :=
  ∀ body : List Byte,
    let byte (k : Nat) : Nat := (body.getD k 0).toNat
    let half (k : Nat) : Nat := byte k + 256 * byte (k + 1)
    (∀ sf : Surface, ∀ role : Role, role = (match sf with | .pad => .pad | .screen => .screen) →
      let ends : Point := match sf with | .pad => ⟨8191, 5119⟩ | .screen => ⟨16383, 10239⟩
      let value (o : Nat) : Contact :=
        let p : Point := ⟨min ends.x (half (o + 1)), min ends.y (half (o + 3))⟩
        let left := p.x
        let right := ends.x - p.x
        let top := p.y
        let bottom := ends.y - p.y
        { slot := byte o
          pos :=
            if byte (o + 9) = 0 then p
            else if min left right ≤ min top bottom then ⟨if left ≤ right then 0 else ends.x, p.y⟩
            else ⟨p.x, if top ≤ bottom then 0 else ends.y⟩
          major := byte (o + 5)
          minor := byte (o + 6)
          strength := min 1023 (half (o + 7)) }
      ((parseBody role body).isSome = true ↔
        ∃ n : Nat, n ≤ 10 ∧ body.length = 2 + 10 * n ∧ body[0]? = some 1 ∧ body[1]? = some (BitVec.ofNat 8 n)) ∧
      (∀ n : Nat, n ≤ 10 → body.length = 2 + 10 * n → body[0]? = some 1 → body[1]? = some (BitVec.ofNat 8 n) →
        parseBody role body = some (.contacts
          (((List.range n).filter fun k =>
            byte (2 + 10 * k) ≤ 15 ∧ ∀ j < k, byte (2 + 10 * j) ≠ byte (2 + 10 * k)).map fun k => value (2 + 10 * k)))) ∧
      ∀ r, parseBody role body = some r →
        ∃ cs, r = .contacts cs ∧ cs.length ≤ 10 ∧ (cs.map (·.slot)).Nodup ∧
          ∀ c ∈ cs, c.slot ≤ 15 ∧ c.pos.x ≤ ends.x ∧ c.pos.y ≤ ends.y ∧ c.major ≤ 255 ∧ c.minor ≤ 255 ∧
            c.strength ≤ 1023) ∧
    ((parseBody .pen body).isSome = true ↔ body.length = 12 ∧ body[0]? = some 2) ∧
    (body.length = 12 → body[0]? = some 2 →
      parseBody .pen body = some (.pen
        { inRange := byte 1 != 0
          pos := ⟨min 32767 (half 2), min 32767 (half 4)⟩
          raw := min 4095 (half 6)
          tiltX := max (-60) (min 60 (body.getD 8 0).toInt)
          tiltY := max (-60) (min 60 (body.getD 9 0).toInt)
          eraser := byte 10 != 0
          barrel := byte 11 != 0 })) ∧
    ((parseBody .aux body).isSome = true ↔ body.length = 5 ∧ body[0]? = some 3) ∧
    (body.length = 5 → body[0]? = some 3 →
      parseBody .aux body = some (.aux
        { hinge := min 359 (half 1)
          deck := if byte 3 = 0 then .up else if byte 3 = 1 then .down else .edge
          keys := byte 4 })) ∧
    parseBody .unused body = none

/-- The reception of a port's line (R3, R9, R168). An enabled port that hunts passes over bytes that are no start byte; then it takes
the length byte and counts the body, in which 0xA5 is data. A whole body that fails its checks, an empty one too, latches
FRAME_BAD (cause 4), and the port hunts again. A framing error or a gap does the same with a record under way, and nothing while
the port hunts (log entry 25). Characters act in turn, so what came before the error acts first. A DISABLED port receives
nothing. -/
def Obligations.BadRecordLatchesFrameBad : Prop :=
  ∀ (τ : Stamp) (i : Fin 4) (s : State),
    let bad (u : State) : State :=
      { u with
        ports := u.ports.set i { u.port i with rx := .hunting }
        link := { u.link with latched := u.link.latched ||| 0x10 } }
    let part (rx : Reception) : State :=
      { s with timebase := τ, ports := s.ports.set i { s.port i with rx := rx } }
    (∀ line, (s.port i).enabled = false →
      exec (.scanRecordArrival τ i line) s = .next { s with timebase := τ } ∧
      exec (.framingError τ i line) s = .next { s with timebase := τ } ∧
      exec (.interByteGap τ i line) s = .next { s with timebase := τ }) ∧
    (∀ line body, (s.port i).enabled = true → bringsRecord (s.port i).rx line body →
      parseBody (s.port i).role body = none →
      exec (.scanRecordArrival τ i line) s = .next (bad { s with timebase := τ })) ∧
    (∀ noise : List Byte, (s.port i).enabled = true → (s.port i).rx = .hunting → 0xA5 ∉ noise →
      exec (.scanRecordArrival τ i (noise.map onLine)) s = .next { s with timebase := τ } ∧
      exec (.scanRecordArrival τ i ((noise ++ [0xA5]).map onLine)) s = .next (part .length) ∧
      ∀ (n : Byte) (got : List Byte), got.length < n.toNat →
        exec (.scanRecordArrival τ i ((noise ++ 0xA5 :: n :: got).map onLine)) s = .next (part (.body n.toNat got))) ∧
    ∀ line : List Character, ∃ t, exec (.scanRecordArrival τ i line) s = .next t ∧
      (∀ more, exec (.scanRecordArrival τ i (line ++ more)) s = exec (.scanRecordArrival τ i more) t) ∧
      (∀ ch : Character, ch.stop = false → (t.port i).enabled = true →
        ((t.port i).rx ≠ .hunting →
          exec (.framingError τ i (line ++ [ch])) s = .next (bad t) ∧
          exec (.interByteGap τ i line) s = .next (bad t)) ∧
        ((t.port i).rx = .hunting →
          exec (.framingError τ i (line ++ [ch])) s = .next t ∧ exec (.interByteGap τ i line) s = .next t))

/-- An accepted record makes its port LIVE, restarts the deadline and releases the hold of a LATE port, and the port hunts again.
For a surface or pen that is not live it does nothing more. While the port has a frame in processing, or a commit or a RESTART holds
new frames back, it waits in the buffer in place of an older one; on a PEN port the replacement sets the loss mark. The pad is live
in LAPTOP, the screen and the pen in every posture but CLOSED, and AUX always (R5, R12, R14, R15, R168). The values that a model
needs in cases no run reaches are log entry 17. -/
def Obligations.ArrivalWithoutFrame : Prop :=
  (∀ p : Posture, (roleLive p .pad = true ↔ p = .laptop) ∧ (roleLive p .screen = true ↔ p ≠ .closed) ∧
    (roleLive p .pen = true ↔ p ≠ .closed) ∧ roleLive p .aux = true) ∧
  ∀ (τ : Stamp) (i : Fin 4) (line : List Character) (body : List Byte) (r : ScanRecord) (s : State),
    (s.port i).enabled = true → bringsRecord (s.port i).rx line body → parseBody (s.port i).role body = some r →
    (roleLive s.posture.actual (s.port i).role = false →
      exec (.scanRecordArrival τ i line) s = .next
        { s.released i with timebase := τ, ports := s.ports.set i (s.revived i τ) }) ∧
    (roleLive s.posture.actual (s.port i).role = true →
      ((s.port i).frame ≠ none ∨ s.store.pendingCommit ≠ 0 ∨ s.link.restartWaiting = true) →
      exec (.scanRecordArrival τ i line) s = .next
        { s.released i with
          timebase := τ
          ports := s.ports.set i { s.revived i τ with
            waiting := some ⟨r, τ⟩
            lossMark := (s.port i).lossMark || ((s.port i).waiting.isSome && (s.port i).role == .pen) } })

/-- A pen record accepted by a ready port begins its frame: its position is mapped axis by axis with the active CALIBRATION, the
floor of raw times scale over 65536 plus the offset, clamped to the screen; the Pen Unit applies its rule for the frame, and the
samples go to the pen queue in order; that all this stands at the arrival is log entry 4 (R5, R13, R19, R62). The values that a
model needs in cases no run reaches are log entry 17. -/
def Obligations.PenArrivalBeginsFrame : Prop :=
  ∀ (τ : Stamp) (i : Fin 4) (line : List Character) (body : List Byte) (r : PenRecord) (s : State),
    s.ready i → (s.port i).role = .pen → bringsRecord (s.port i).rx line body →
    parseBody .pen body = some (.pen r) →
    let k := s.store.active.calibration
    let mapped : Point :=
      { x := (max 0 (min 16383 ((r.pos.x : Int) * k.getD 0 1 / 65536 + k.getD 2 0))).toNat
        y := (max 0 (min 10239 ((r.pos.y : Int) * k.getD 1 1 / 65536 + k.getD 3 0))).toNat }
    let w := penFrame s.store.active τ (s.port i).lossMark (s.released i).pen { r with pos := mapped }
    exec (.scanRecordArrival τ i line) s = .next
      { s with
        timebase := τ
        ports := s.ports.set i (s.begun i τ (.pen r))
        pen := w.pen
        link := w.out.foldl Link.appendPen s.link }

/-- A contact record accepted by a ready port begins its frame. On the pad the Tracker, the Classifier and the engine with Motion
Transfer work in turn, and what they hand over goes to the pointer and gesture queues in order; on the screen the Tracker and the
Classifier work, and the screen records go to the screen queue in order. The Classifier reads the other blocks as they stand at this
moment; that the whole work is done at the arrival is log entry 4 (R5, R13, R22, R37, R53, R59, R81). The values that a model needs
in cases no run reaches are log entry 17. -/
def Obligations.ContactArrivalBeginsFrame : Prop :=
  (∀ (l : Link) (out : List Out), l.takeAll out = out.foldl (fun m o =>
    match o with
    | .button b => m.buttonChange b
    | .motion b d => m.addMotion b d
    | .gesture g => m.appendGesture g) l) ∧
  ∀ (τ : Stamp) (i : Fin 4) (line : List Character) (body : List Byte) (cs : List Contact) (s : State),
    s.ready i → bringsRecord (s.port i).rx line body →
    let t := s.store.active
    let sn : Snapshot := ⟨τ, s.aux.keyTime, s.keyQuiet.isSome, s.pen.state, s.pen.shadow t, s.posture.actual⟩
    ((s.port i).role = .pad → parseBody .pad body = some (.contacts cs) →
      let p := s.begun i τ (.contacts cs)
      let h := trackFrame (t.params.getD 7 0) (t.params.getD 9 0) (landingZone t.zones) (s.contacts.screen.map (·.track))
        s.contacts.nextId cs τ (s.released i).contacts.pad
      let ks := classifyAll t .pad sn h.entries
      let dt := match (s.port i).lastStamp with | none => 32000 | some l => max 2000 (min 32000 (τ - l).toNat)
      let w := padFrame t τ dt ⟨ks, h.lifted⟩ s.engine s.motion
      exec (.scanRecordArrival τ i line) s = .next
        { s with
          timebase := τ
          ports := s.ports.set i p
          contacts := { s.contacts with pad := ks.map (·.entry), nextId := h.nextId }
          engine := w.e
          motion := w.m
          link := s.link.takeAll w.out }) ∧
    ((s.port i).role = .screen → parseBody .screen body = some (.contacts cs) →
      let p := s.begun i τ (.contacts cs)
      let h := trackFrame (t.params.getD 7 0) (t.params.getD 10 0) (fun _ => none) (s.contacts.pad.map (·.track))
        s.contacts.nextId cs τ (s.released i).contacts.screen
      let ks := classifyAll t .screen sn h.entries
      exec (.scanRecordArrival τ i line) s = .next
        { s with
          timebase := τ
          ports := s.ports.set i p
          contacts := { s.contacts with screen := ks.map reportedEntry, nextId := h.nextId }
          link := (screenRecords h.lifted ks).foldl Link.appendScreen s.link })

/-- An aux record accepted by a ready port begins its frame: the hinge angle and the deck orientation are stored, keystrokes set the
keystroke time and start the quiet timer of 65535 ms afresh, the band index moves, and, with no override, the posture of the band is
requested: CLOSED, LAPTOP, STAND with the deck DOWN and TENT with it not, or TABLET. That the whole work, a switch included, is done
at the arrival is log entry 4, and that a teardown of the switch waits for a frame of the role is log entry 21 (R5, R13, R16, R36,
R123 to R125, R130). The values that a model needs in cases no run reaches are log entry 17. -/
def Obligations.AuxArrivalBeginsFrame : Prop :=
  ∀ (τ : Stamp) (i : Fin 4) (line : List Character) (body : List Byte) (r : AuxRecord) (s : State),
    s.ready i → (s.port i).role = .aux → bringsRecord (s.port i).rx line body → parseBody .aux body = some (.aux r) →
    let band := bandMove s.store.active.bands r.hinge s.posture.band
    let u : State :=
      { s with
        timebase := τ
        ports := s.ports.set i (s.begun i τ (.aux r))
        aux := { s.aux with
          hinge := some r.hinge
          deck := some r.deck
          keyTime := if r.keys = 0 then s.aux.keyTime else some τ }
        keyQuiet := if r.keys = 0 then s.keyQuiet else some (τ + BitVec.ofNat 32 65535000)
        posture := { s.posture with band := band } }
    (s.posture.override ≠ none → exec (.scanRecordArrival τ i line) s = .next u) ∧
    (s.posture.override = none → ∀ p, postureOfBand band (some r.deck) p →
      ∃ t, exec (.scanRecordArrival τ i line) s = .next t ∧ u.requested p t)

/-! ## The blocks at work on a frame -/

/-- The Pen Unit's rule for a frame, chosen by the pen state, in-range and the eraser flag: no sample while OUT and out of range,
one HOVER sample at an entry into range, one OUT sample at the last position on leaving range, one sample with the tip hysteresis
while the end agrees, and an OUT and a HOVER sample at an end change. The loss mark goes on the first sample as GAP, and a sample
whose state or tip kind differs from the one before it is an edge (R62 to R69, R71). The position (0, 0) of a pen in range without a
last position, which no run reaches, and the value of a pressure curve without knots are log entry 17. -/
def Obligations.PenFrameByTable : Prop :=
  ∀ (t : Tables) (now : Stamp) (loss : Bool) (p : Pen) (r : PenRecord),
    let w := penFrame t now loss p r
    let gap := p.lossMark || loss
    let tip : Tip := if r.eraser then .eraser else .pen
    let sample (st : PenState) (k : Tip) (pos : Point) (pr : Nat) (tx ty : Int) (b g e : Bool) : PenSample :=
      { state := st, tip := k, pos := pos, pressure := pr, tiltX := tx, tiltY := ty, barrel := b, gap := g, edge := e
        inFlight := false }
    (p.state = .out → r.inRange = false → w.out = [] ∧ w.pen = { p with lossMark := gap }) ∧
    (p.state = .out → r.inRange = true →
      w.out = [sample .hover tip r.pos 0 r.tiltX r.tiltY r.barrel gap (p.prevState != .hover || p.prevTip != tip)] ∧
      w.pen = { p with
        state := .hover, tip := tip, lastPos := some r.pos, tiltX := r.tiltX, tiltY := r.tiltY, barrel := r.barrel
        prevState := .hover, prevTip := tip, lossMark := false, shadowLive := true, shadowTimer := none }) ∧
    (p.state ≠ .out → r.inRange = false →
      w.out = [sample .out p.tip (p.lastPos.getD ⟨0, 0⟩) 0 r.tiltX r.tiltY r.barrel gap
        (p.prevState != .out || p.prevTip != p.tip)] ∧
      w.pen = { p with
        state := .out, tiltX := r.tiltX, tiltY := r.tiltY, barrel := r.barrel, prevState := .out, prevTip := p.tip
        lossMark := false
        shadowLive := p.shadowLive && t.penShadowHold != 0
        shadowTimer := if t.penShadowHold = 0 then none
          else some (now + BitVec.ofNat 32 (1000 * t.penShadowHold)) }) ∧
    (p.state ≠ .out → r.inRange = true → tip = p.tip →
      ∃ st : PenState, (st = .contact ↔ (p.state = .hover ∧ t.tipOn ≤ r.raw) ∨ (p.state = .contact ∧ t.tipOff ≤ r.raw)) ∧
        (st ≠ .contact → st = .hover) ∧
        w.out = [sample st tip r.pos (if st = .contact then max 1 (curveValue t.pressureCurve r.raw).toNat else 0)
          r.tiltX r.tiltY r.barrel gap (p.prevState != st || p.prevTip != tip)] ∧
        w.pen = { p with
          state := st, lastPos := some r.pos, tiltX := r.tiltX, tiltY := r.tiltY, barrel := r.barrel
          prevState := st, prevTip := tip, lossMark := false }) ∧
    (p.state ≠ .out → r.inRange = true → tip ≠ p.tip →
      w.out =
        [sample .out p.tip (p.lastPos.getD ⟨0, 0⟩) 0 p.tiltX p.tiltY p.barrel gap
            (p.prevState != .out || p.prevTip != p.tip),
          sample .hover tip r.pos 0 r.tiltX r.tiltY r.barrel false true] ∧
      w.pen = { p with
        state := .hover, tip := tip, lastPos := some r.pos, tiltX := r.tiltX, tiltY := r.tiltY, barrel := r.barrel
        prevState := .hover, prevTip := tip, lossMark := false })

/-- The Tracker on a sound surface. Review: an entry whose slot is in the frame within the jump distance is updated, farther away it
is lifted, missing it is LIFTING up to the lift grace and lifted beyond it; the lifts stand in ascending slot. Admission: the
slots lifted for a jump come first, then every other slot without an entry, each in ascending slot, as many as the surface has
room for up to 10; a track id is the first from the counter on that neither surface holds, 255 being followed by 1, and the
landing zone is the lowest-index enabled zone that contains the position (R20, R22 to R30). -/
def Obligations.TrackerReviewsEveryEntry : Prop :=
  ∀ (grace jump : Nat) (zoneOf : Point → Option Nat) (others : List Nat) (nextId : Nat) (cs : List Contact)
    (stamp : Stamp) (es : List Entry), surfaceSound es →
    let h := trackFrame grace jump zoneOf others nextId cs stamp es
    let far (e : Entry) (c : Contact) := max ((e.pos.x : Int) - c.pos.x).natAbs ((e.pos.y : Int) - c.pos.y).natAbs
    h.entries.length ≤ 10 ∧ (h.entries.map (·.entry.slot)).Pairwise (· < ·) ∧ h.lifted.Sublist es ∧
    (∀ e ∈ es, ∀ c, cs.find? (fun c => c.slot == e.slot) = some c → far e c ≤ jump →
      e ∉ h.lifted ∧ ∃ k ∈ h.entries, k.isNew = false ∧ k.prev = e.pos ∧
        k.entry = { e with
          presence := .present, liftFrames := 0, pos := c.pos, major := c.major, minor := c.minor
          strength := c.strength
          age := if e.age = 65535 then 65535 else min 65535 ((stamp - e.touchDown).toNat / 1000)
          travel := min 65535 (max ((e.landing.x : Int) - c.pos.x).natAbs ((e.landing.y : Int) - c.pos.y).natAbs) }) ∧
    (∀ e ∈ es, ∀ c, cs.find? (fun c => c.slot == e.slot) = some c → jump < far e c →
      e ∈ h.lifted ∧ ∃ k ∈ h.entries, k.isNew = true ∧ k.entry.slot = e.slot ∧ k.entry.pos = c.pos ∧
        k.entry.landing = c.pos ∧ k.entry.touchDown = stamp ∧ k.entry.age = 0 ∧ k.entry.cls = .undecided) ∧
    (∀ e ∈ es, cs.find? (fun c => c.slot == e.slot) = none →
      (e.liftFrames + 1 ≤ grace → e ∉ h.lifted ∧ ∃ k ∈ h.entries, k.isNew = false ∧ k.prev = e.pos ∧
        k.entry = { e with presence := .lifting, liftFrames := e.liftFrames + 1 }) ∧
      (grace < e.liftFrames + 1 → e ∈ h.lifted)) ∧
    (∀ k ∈ h.entries, k.isNew = false → ∃ e ∈ es, e.track = k.entry.track ∧ e.slot = k.entry.slot) ∧
    ((∀ c ∈ cs, c.slot ≤ 15) → (cs.map (·.slot)).Nodup → others.length ≤ 10 → 1 ≤ nextId → nextId ≤ 255 →
      let first := (List.range 16).filter fun s => ∃ e ∈ es, e.slot = s ∧ ∃ c ∈ cs, c.slot = s ∧ jump < far e c
      let second := (List.range 16).filter fun s => (∃ c ∈ cs, c.slot = s) ∧ ∀ e ∈ es, e.slot ≠ s
      let stay := es.filter fun e => e ∉ h.lifted
      let taken := (first ++ second).take (10 - stay.length)
      ∃ ids : List Nat, ids.length = taken.length ∧
        takesIds (others ++ stay.map (·.track)) nextId h.nextId ids ∧
        (∀ x ∈ taken.zip ids, ∃ c ∈ cs, c.slot = x.1 ∧ ∃ k ∈ h.entries, k.isNew = true ∧ k.prev = c.pos ∧
          k.entry =
            { track := x.2, slot := x.1, presence := .present, held := false, liftFrames := 0, pos := c.pos
              landing := c.pos, zone := zoneOf c.pos, touchDown := stamp, age := 0, travel := 0, major := c.major
              minor := c.minor, strength := c.strength, cls := .undecided, palmRun := 0, reported := .none }) ∧
        ∀ k ∈ h.entries, k.isNew = true → k.entry.slot ∈ taken) ∧
    ∀ (zones : List Zone) (p : Point),
      let holds (z : Zone) := z.enabled = true ∧ z.x0 ≤ p.x ∧ p.x ≤ z.x1 ∧ z.y0 ≤ p.y ∧ p.y ≤ z.y1
      (∀ i, landingZone zones p = some i ↔ (∃ z, zones[i]? = some z ∧ holds z) ∧
        ∀ j < i, ∀ z, zones[j]? = some z → ¬holds z) ∧
      (landingZone zones p = none ↔ ∀ z ∈ zones, ¬holds z)

/-- The Classifier. An entry that is LIFTING or REJECTED stays as it is; any other takes its class from a verdict, never MARK:
FINGER and RESTING set the palm run to 0, PALM counts it to 15 and rejects at PersistPalm, IGNORE rejects. A DEAD landing zone gives
IGNORE. Otherwise a rule matches when it is enabled in a scope that covers the surface, its used conditions hold and its
prerequisite, of lower index, has matched; the lowest match that is not MARK gives the verdict, and without one it is RESTING in a
REST zone and FINGER elsewhere. The fourteen features are as section 3.3 has them, COUNT being the number of entries of the surface
after admission, and the shadow stands at the pen's last position while it is live. Every entry of the surface is handed on in its
place, with its class before the verdict, its position before the frame, and whether the frame admitted it (R38 to R44, R46 to R51,
R53, R72, R79). The values that a model needs in cases no run reaches are log entry 17. -/
def Obligations.ClassesFollowVerdicts : Prop :=
  (∀ (t : Tables) (sf : Surface) (count : Nat) (sn : Snapshot) (k : Tracked),
    let c := classify t sf count sn k
    let e := k.entry
    let v := verdictOn t sf count sn e
    let f := Machine.feature sf count sn e
    let ends : Point := match sf with | .pad => ⟨8191, 5119⟩ | .screen => ⟨16383, 10239⟩
    let function : ZoneFunction :=
      match sf, e.zone with
      | .pad, some i => ((t.zones[i]?).map (·.function)).getD .pointer
      | _, _ => .pointer
    (c.before = e.cls ∧ c.prev = k.prev ∧ c.isNew = k.isNew) ∧
    (e.presence = .lifting ∨ e.cls = .rejected → c.entry = e ∧ c.judged = false) ∧
    (e.presence = .present → e.cls ≠ .rejected →
      v ≠ .mark ∧ c.judged = true ∧
      (v = .finger → c.entry = { e with cls := .finger, palmRun := 0 }) ∧
      (v = .resting → c.entry = { e with cls := .resting, palmRun := 0 }) ∧
      (v = .palm → c.entry = { e with
        palmRun := min 15 (e.palmRun + 1)
        cls := if t.params.getD 8 0 ≤ min 15 (e.palmRun + 1) then .rejected else .suspect }) ∧
      (v = .ignore → c.entry = { e with cls := .rejected })) ∧
    (function = .dead → v = .ignore) ∧
    (function ≠ .dead → ∀ M : Nat → Prop,
      (∀ i, M i ↔ ∃ r, t.rules[i]? = some r ∧ r.enabled = true ∧
        (r.scope = .both ∨ (r.scope = .pad ∧ sf = .pad) ∨ (r.scope = .screen ∧ sf = .screen)) ∧
        (∀ x ∈ ([r.c1, r.c2, r.c3] : List Condition).take r.count, x.holds f = true) ∧
        ∀ p, r.prereq = some p → p < i ∧ M p) →
      (∀ i r, t.rules[i]? = some r → M i → r.verdict ≠ .mark →
        (∀ j < i, ∀ q, t.rules[j]? = some q → M j → q.verdict = .mark) → v = r.verdict) ∧
      ((∀ i r, t.rules[i]? = some r → M i → r.verdict = .mark) →
        v = if function = .rest then .resting else .finger)) ∧
    f 0 = e.major * e.minor ∧ f 1 = min 255 (e.major * 16 / max e.minor 1) ∧ f 2 = e.strength ∧
    f 3 = min (min e.pos.x (ends.x - e.pos.x)) (min e.pos.y (ends.y - e.pos.y)) ∧ f 4 = e.age ∧ f 5 = e.travel ∧
    f 6 = count ∧
    f 7 = (match sn.keyTime with
      | none => 65535
      | some kt => if sn.quietRunning = true then min 65535 ((sn.now - kt).toNat / 1000) else 65535) ∧
    f 8 = (match sf, sn.shadow with
      | .screen, some (a, _) => max ((e.pos.x : Int) - a.x).natAbs ((e.pos.y : Int) - a.y).natAbs
      | _, _ => 65535) ∧
    f 9 = (match sf, sn.shadow with
      | .screen, some (_, r) =>
        if r.x0 ≤ e.pos.x ∧ (e.pos.x : Int) ≤ r.x1 ∧ r.y0 ≤ e.pos.y ∧ (e.pos.y : Int) ≤ r.y1 then 1 else 0
      | _, _ => 0) ∧
    f 10 = (match sf, e.zone with | .pad, some z => z | _, _ => 15) ∧
    f 11 = (match sn.penState with | .out => 0 | .hover => 1 | .contact => 2) ∧
    f 12 = (match sn.posture with | .closed => 0 | .laptop => 1 | .stand => 2 | .tent => 3 | .tablet => 4) ∧
    f 13 = (match sf with | .pad => 0 | .screen => 1)) ∧
  (∀ (t : Tables) (sf : Surface) (sn : Snapshot) (ks : List Tracked),
    classifyAll t sf sn ks = ks.map fun k => classify t sf ks.length sn k) ∧
  ∀ (t : Tables) (p : Pen),
    p.shadow t = if p.shadowLive = true then p.lastPos.map fun q =>
        (q,
          { x0 := q.x - ((if t.params.getD 16 0 = 1 then t.params.getD 17 0 else t.params.getD 19 0 : Nat) : Int)
            x1 := q.x + ((if t.params.getD 16 0 = 1 then t.params.getD 19 0 else t.params.getD 17 0 : Nat) : Int)
            y0 := q.y - ((t.params.getD 20 0 : Nat) : Int)
            y1 := q.y + ((t.params.getD 18 0 : Nat) : Int) })
      else none

/-- The record a classified screen entry is given, by its reported state before the frame and its class after the verdict: the
reporting table of section 3.7; and the records of a frame in order: an UP for each lifted entry that was OPEN, whatever its
class, then the record of each classified entry, each in ascending slot (R54 to R57, R59). -/
def Obligations.ScreenReportingTable : Prop :=
  (∀ c : Classified,
    (c.judged = false → reportEntry c = (none, c.entry.reported)) ∧
    (c.judged = true → c.entry.reported = .none → c.entry.cls = .finger → reportEntry c = (some .down, .opened)) ∧
    (c.judged = true → c.entry.reported = .none → c.entry.cls = .suspect ∨ c.entry.cls = .rejected →
      reportEntry c = (none, .none)) ∧
    (c.judged = true → c.entry.reported = .opened → c.entry.cls = .finger →
      reportEntry c = (if c.entry.pos ≠ c.prev ∨ c.before = .suspect then some .move else none, .opened)) ∧
    (c.judged = true → c.entry.reported = .opened → c.entry.cls = .suspect → reportEntry c = (none, .opened)) ∧
    (c.judged = true → c.entry.reported = .opened → c.entry.cls = .rejected → reportEntry c = (some .cancel, .closed)) ∧
    (c.entry.reported = .closed → reportEntry c = (none, .closed)) ∧
    reportedEntry c = { c.entry with reported := (reportEntry c).2 }) ∧
  ∀ (lifted : List Entry) (cs : List Classified),
    screenRecords lifted cs =
      ((lifted.filter fun e => e.reported = .opened).map fun e =>
        (⟨.up, e.track, e.pos, e.major, e.minor, false⟩ : TouchRecord)) ++
      cs.flatMap fun c =>
        match (reportEntry c).1 with
        | none => []
        | some kind => [⟨kind, c.entry.track, c.entry.pos, c.entry.major, c.entry.minor, false⟩]

/-- The transitions of the thirteen gesture states on a pad frame, whatever its other contacts: the departures of TOUCH, POINTING,
HOLD_DRAG, TAP_DRAG, MULTI, SCROLLING, PINCHING, SWIPING, RESIDUAL and CLICKED (a lift in TOUCH within the tap limits is a tap); the
landings of IDLE, TOUCH, POINTING, TAP_WAIT, CLICKED, RESIDUAL, SWIPING and COASTING; the thresholds of TOUCH and MULTI; and the
motion a frame hands over, or none. A frame that both departs from its state and lands does the one and then the other. Each says
the engine, the residues and what is handed over, in order (R79 to R101, R104, R107, R117; the fields cleared with a state are log
entry 8, the most recently landed entry log entry 18, the base that a frame with a LIFTING entry of a pair leaves log entry 22). The
values that a model needs in cases no run reaches are log entry 17. -/
def Obligations.LiftInTouchTaps : Prop :=
  ∀ (t : Tables) (now : Stamp) (dt : Nat) (v : PadView) (e : Engine) (m : Motion),
    padDepartures t now dt v e m ∧ padLandings t now dt v e m ∧ padThresholds t now dt v e m ∧
      padMotion t now dt v e m ∧ padTurnovers t now dt v e m

/-! ## The deadline and the completion of a frame -/

/-- DEADLINE_EXPIRY in LIVE: the port is LATE, its deadline runs a second period read afresh, and the owner of its role holds at
once, unless it has a frame of the role in processing, whatever port began it (log entry 21). An expiry in another state, or of a
timer that has not run out, changes nothing (R6; that last clause is the model's choice, log entry 1). The values that a model needs
in cases no run reaches are log entry 17. -/
def Obligations.DeadlineMakesPortLate : Prop :=
  ∀ (τ : Stamp) (i : Fin 4) (s : State),
    (hasExpired (s.port i).deadline τ → (s.port i).state = .live →
      exec (.deadlineExpiry τ i) s = .next
        { (if s.ports.frameOf (s.port i).role = true then s else s.withHeld true (s.port i).role) with
          timebase := τ
          ports := s.ports.set i { s.port i with
            state := .late
            deadline := some (τ + BitVec.ofNat 32 (1000 * s.store.active.params.getD (24 + i.val) 0)) } }) ∧
    (¬hasExpired (s.port i).deadline τ ∨ ((s.port i).state ≠ .live ∧ (s.port i).state ≠ .late) →
      exec (.deadlineExpiry τ i) s = .next { s with timebase := τ })

/-- DEADLINE_EXPIRY in LATE: the port is DOWN with its deadline stopped, STREAM_DOWN (cause 1) is latched, and what the role feeds
is torn down: the pad's entries with a surface loss, the screen's entries with a CANCEL for each OPEN one, the pen forced OUT. With
a frame of the role in processing, whatever port began it, the teardown waits for its completion (log entry 21). A teardown of the
pad or the pen that is taken is followed by the judgement of quiet: with a posture request pending and the pad quiet the switch is
made at once, otherwise nothing more happens (log entry 24) (R7, R32, R58, R74, R105, R127, R130; when a timer has run out is the
model's choice, log entry 1). The values that a model needs in cases no run reaches are log entry 17. -/
def Obligations.DeadlineMakesPortDown : Prop :=
  ∀ (τ : Stamp) (i : Fin 4) (s : State), hasExpired (s.port i).deadline τ → (s.port i).state = .late →
    let u : State :=
      { s with
        timebase := τ
        ports := s.ports.set i { s.port i with state := .down, deadline := none }
        link := { s.link with latched := s.link.latched ||| 2 } }
    ∃ t, exec (.deadlineExpiry τ i) s = .next t ∧ u.tearsDown (s.port i).role t

/-- FRAME_COMPLETION: the port has no frame in processing any more. In this order (log entry 7) the teardowns that wait for a frame
of the role are taken, those of the pen in turn (log entry 16); a port that is still LATE in that role takes the hold that waited
(log entry 21); and after a pad or pen frame quiet is judged once (log entry 24), so that a pending posture request is switched to
on a quiet pad. While a commit or a RESTART waits for other frames no record begins. With neither, a waiting record whose surface or
pen is not live is discarded and clears the loss mark, the port's state staying as it is (log entry 19), and a live one begins: a
port LATE or DOWN again first takes the change to LIVE (log entry 6), and the frame's whole work is done (log entry 4). A port
without a frame completes none (R4 to R7, R13 to R15, R32, R58, R74, R75, R105, R127; that last clause is the model's choice, log
entry 1). The values that a model needs in cases no run reaches are log entry 17. -/
def Obligations.FrameCompletionFreesPort : Prop :=
  ∀ (τ : Stamp) (i : Fin 4) (s : State),
    ((s.port i).frame = none → exec (.frameCompletion τ i) s = .next { s with timebase := τ }) ∧
    ∀ f : Frame, (s.port i).frame = some f →
      ∃ c, State.frameEnded { s with timebase := τ } i f.role c ∧
        (s.store.pendingCommit = 0 → s.link.restartWaiting = false →
          ∃ t, exec (.frameCompletion τ i) s = .next t ∧ c.beginsWaiting i t) ∧
        (s.store.pendingCommit ≠ 0 ∨ s.link.restartWaiting = true → (∃ j, j ≠ i ∧ (s.port j).frame ≠ none) →
          exec (.frameCompletion τ i) s = .next c)

/-- FRAME_COMPLETION of the last frame in processing, with a commit pending and no RESTART waiting: first what waits for the frame
is taken and quiet is judged, as at any completion (log entries 7, 16, 21 and 24); then every pending table takes its shadow as
active and the others stay, the pending-commit set is empty and TABLE_SWAPPED (cause 6) is latched; then each port with a waiting
record begins it, several in an order that is free (R13, R15, R32, R127, R143; the order is log entry 3, the work done at the
beginning log entry 4, a LATE or DOWN port log entry 6, a discarded record log entry 19). The values that a model needs in cases no
run reaches are log entry 17. -/
def Obligations.LastCompletionSwapsTables : Prop :=
  ∀ (τ : Stamp) (i : Fin 4) (f : Frame) (s : State),
    (s.port i).frame = some f → (∀ j, j ≠ i → (s.port j).frame = none) →
    s.store.pendingCommit ≠ 0 → s.link.restartWaiting = false →
    ∃ (c : State) (active : Tables), State.frameEnded { s with timebase := τ } i f.role c ∧
      (∀ id, s.store.pendingCommit.getLsbD (tableCode id) = true → sameTable active s.store.shadow id) ∧
      (∀ id, s.store.pendingCommit.getLsbD (tableCode id) = false → sameTable active s.store.active id) ∧
      let u : State :=
        { c with
          store := { active := active, shadow := s.store.shadow, pendingCommit := 0 }
          link := { c.link with latched := c.link.latched ||| 0x40 } }
      ((∀ j, (s.port j).waiting = none) → exec (.frameCompletion τ i) s = .next u) ∧
      ∃ t, exec (.frameCompletion τ i) s = .next t ∧ u.beginsEach t

/-- RESTART is answered DONE. With no frame in processing it takes effect at once in every block; with one it waits, and takes
effect at the completion of the last, after what waits for that frame has been taken and quiet has been judged (R1, R15, R18, R21,
R32, R61, R78, R108, R122, R127, R134, R163; log entries 7, 16, 21 and 24). The values that a model needs in cases no run reaches
are log entry 17. -/
def Obligations.RestartTakesEffect : Prop :=
  ∀ (τ : Stamp) (c : DirectiveCell) (s : State),
    (s.exchangeOpen → c.wellFormed = true → c.length = 0 → (∀ j, (s.port j).frame = none) →
      exec (.restart τ c) s = .next ((s.afterCell τ).warmRestarted.answered 0x30 .done)) ∧
    (s.exchangeOpen → c.wellFormed = true → c.length = 0 → (∃ j, (s.port j).frame ≠ none) →
      exec (.restart τ c) s = .next
        ({ s.afterCell τ with link := { (s.afterCell τ).link with restartWaiting := true } }.answered 0x30 .done)) ∧
    ∀ (i : Fin 4) (f : Frame), (s.port i).frame = some f → (∀ j, j ≠ i → (s.port j).frame = none) →
      s.link.restartWaiting = true →
      ∃ c, State.frameEnded { s with timebase := τ } i f.role c ∧
        exec (.frameCompletion τ i) s = .next c.warmRestarted

/-! ## The click line and the timers -/

/-- CLICKN_EDGE: the line has its new level and the debounce timer runs afresh for ClickDebounce ms; while RESETn is low the timer
stays stopped (R17, R164; log entry 5). The values that a model needs in cases no run reaches are log entry 17. -/
def Obligations.ClickEdgeStartsDebounce : Prop :=
  ∀ (τ : Stamp) (e : ClickEdge) (s : State),
    let level : ClickLevel := match e with | .falling => .pressed | .rising => .released
    (s.pins.resetnLow = false →
      exec (.clicknEdge τ e) s = .next
        { s with
          timebase := τ
          pins := { s.pins with click := level }
          aux := { s.aux with debounce := some (τ + BitVec.ofNat 32 (1000 * s.store.active.params.getD 14 0)) } }) ∧
    (s.pins.resetnLow = true →
      exec (.clicknEdge τ e) s = .next { s with timebase := τ, pins := { s.pins with click := level } })

/-- CLICK_DEBOUNCE_EXPIRY: a level equal to the accepted one only stops the timer; a changed one is accepted, and while the pad is
live a press in any state but CLICKED acts. It first ends what is under way (SCROLL_END of a scroll or a coast, PINCH_END,
SWIPE_END, the release of a tap), then presses the chosen button, unless it is held, and enters CLICKED. The button is SECONDARY
with two or more fingers, else the function of the landing zone of the most recently landed FINGER or RESTING entry decides. A press
in CLICKED is ignored; a release in CLICKED releases the button, and in another state does nothing. After a release quiet is judged:
with a posture request pending and the pad quiet the switch is made at once; a press never leaves the pad quiet (R17, R18, R101 to
R104, R117, R127, R130; log entries 1, 8, 18 and 21). The values that a model needs in cases no run reaches are log entry 17. -/
def Obligations.DebouncedClickActs : Prop :=
  ∀ (τ : Stamp) (s : State), hasExpired s.aux.debounce τ →
    let isFinger (e : Entry) : Bool := e.cls = .finger
    let fingers := s.contacts.pad.filter isFinger
    let deciding := s.contacts.pad.filter fun e => e.cls = .finger ∨ e.cls = .resting
    let u : State := { s with timebase := τ, aux := { s.aux with accepted := s.pins.click, debounce := none } }
    (s.pins.click = s.aux.accepted → exec (.clickDebounceExpiry τ) s = .next u) ∧
    (s.pins.click ≠ s.aux.accepted → s.posture.actual ≠ .laptop → exec (.clickDebounceExpiry τ) s = .next u) ∧
    (s.pins.click = .pressed → s.aux.accepted = .released → s.posture.actual = .laptop → s.engine.sound →
      s.engine.state ≠ .clicked →
      ∃ (b : Button) (p : Option Nat),
        (2 ≤ fingers.length → b = .secondary) ∧
        (fingers.length ≤ 1 → deciding = [] → b = .primary) ∧
        (∀ x, fingers.length ≤ 1 → mostRecentlyLanded τ deciding x →
          let function := (x.zone.bind fun z => (s.store.active.zones[z]?).map (·.function)).getD .pointer
          b = (match function with
            | .secondary => .secondary
            | .middle => .middle
            | .pointer => .primary
            | .rest => .primary
            | .dead => .primary)) ∧
        (fingers = [] → p = none) ∧ (∀ x, mostRecentlyLanded τ fingers x → p = some x.track) ∧
        let ended : Link :=
          match s.engine.state with
          | .coasting => s.link.appendGesture .scrollEnd
          | .scrolling => s.link.appendGesture .scrollEnd
          | .pinching => s.link.appendGesture .pinchEnd
          | .swiping =>
            s.link.appendGesture (.swipeEnd (s.engine.swipeDirection.getD .left) (s.engine.swipeCount.getD 0))
          | .tapWait => s.link.buttonChange .none
          | _ => s.link
        exec (.clickDebounceExpiry τ) s = .next
          { u with
            engine := { s.engine with
              state := .clicked, button := b, pointer := p, landingSet := []
              landingCentroid := none, landingSeparation := none, peakCount := 0, tapCandidate := false
              swipeDirection := none, swipeCount := none, lastCentroid := none, lastSeparation := none
              tapGapTimer := none, coastTimer := none, vcx := 0, vcy := 0 }
            motion := { s.motion with pointerX := 0, pointerY := 0 }
            link := if s.engine.state ≠ .tapWait ∧ s.engine.button = b then ended else ended.buttonChange b }) ∧
    (s.pins.click = .pressed → s.aux.accepted = .released → s.engine.state = .clicked →
      exec (.clickDebounceExpiry τ) s = .next u) ∧
    (s.pins.click = .released → s.aux.accepted = .pressed → s.posture.actual = .laptop →
      s.engine.button ≠ .none → s.engine.state = .clicked →
      ∃ t, exec (.clickDebounceExpiry τ) s = .next t ∧ State.judged
        { u with
          engine := { s.engine with
            state := if fingers = [] then .idle else .residual, button := .none, pointer := none }
          motion := { s.motion with pointerX := 0, pointerY := 0 }
          link := s.link.buttonChange .none } t) ∧
    (s.pins.click = .released → s.aux.accepted = .pressed → s.posture.actual = .laptop → s.engine.state ≠ .clicked →
      ∃ t, exec (.clickDebounceExpiry τ) s = .next t ∧ u.judged t)

/-- KEYSTROKE_QUIET_EXPIRY stops its timer, and SHADOW_HOLD_EXPIRY stops its timer and ends the shadow; an expiry of a timer
that has not run out changes nothing (R36, R71; that last clause is the model's choice, log entry 1). -/
def Obligations.QuietTimersExpire : Prop :=
  ∀ (τ : Stamp) (s : State),
    (hasExpired s.keyQuiet τ →
      exec (.keystrokeQuietExpiry τ) s = .next { s with timebase := τ, keyQuiet := none }) ∧
    (¬hasExpired s.keyQuiet τ → exec (.keystrokeQuietExpiry τ) s = .next { s with timebase := τ }) ∧
    (hasExpired s.pen.shadowTimer τ →
      exec (.shadowHoldExpiry τ) s = .next
        { s with timebase := τ, pen := { s.pen with shadowLive := false, shadowTimer := none } }) ∧
    (¬hasExpired s.pen.shadowTimer τ → exec (.shadowHoldExpiry τ) s = .next { s with timebase := τ })

/-- TAPGAP_EXPIRY in TAP_WAIT: PRIMARY is released with one change and the engine is IDLE; with a posture request pending and the
pad quiet after it, the switch is made at once, not forced, its teardowns waiting for frames of their roles (log entry 21). An
expiry of a timer that has not run out changes nothing (R89, R127, R130, R131; that last clause is the model's choice, log entry 1).
The values that a model needs in cases no run reaches are log entry 17. -/
def Obligations.TapGapExpiryReleasesPrimary : Prop :=
  ∀ (τ : Stamp) (s : State),
    (hasExpired s.engine.tapGapTimer τ → s.engine.state = .tapWait → s.engine.button = .primary →
      let u : State :=
        { s with
          timebase := τ
          engine := { s.engine with state := .idle, button := .none, tapGapTimer := none }
          link := s.link.buttonChange .none }
      (s.posture.pending = false → exec (.tapGapExpiry τ) s = .next u) ∧
      (s.posture.pending = true → s.contacts.pad = [] → s.pen.state ≠ .contact →
        ∃ t, exec (.tapGapExpiry τ) s = .next t ∧ u.switchedTo false t) ∧
      (s.posture.pending = true → s.contacts.pad ≠ [] ∨ s.pen.state = .contact →
        exec (.tapGapExpiry τ) s = .next u)) ∧
    (¬hasExpired s.engine.tapGapTimer τ → exec (.tapGapExpiry τ) s = .next { s with timebase := τ })

/-- COAST_EXPIRY in COASTING: the velocity is added to the scroll fields of the open record and then decays by CoastDecay; below
CoastStop the coast ends with SCROLL_END in IDLE, and with a posture request pending and the pad quiet the switch is made at once,
its teardowns waiting for frames of their roles (log entry 21); otherwise the timer runs 8 ms on. With a CoastDecay in its range, a
component that is not 0 shrinks (R100, R120, R127, R130; log entry 1). The values that a model needs in cases no run reaches are log
entry 17. -/
def Obligations.CoastExpiryStepsAndEnds : Prop :=
  ∀ (τ : Stamp) (s : State), hasExpired s.engine.coastTimer τ → s.engine.state = .coasting →
    let d := s.store.active.params.getD 13 0
    let vx := Int.tdiv (s.engine.vcx * d) 256
    let vy := Int.tdiv (s.engine.vcy * d) 256
    let l := s.link.addMotion s.engine.button ⟨0, 0, s.engine.vcx, s.engine.vcy, 0⟩
    (max vx.natAbs vy.natAbs < s.store.active.params.getD 12 0 →
      ∃ t, exec (.coastExpiry τ) s = .next t ∧ State.judged
        { s with
          timebase := τ
          engine := { s.engine with state := .idle, coastTimer := none, vcx := 0, vcy := 0 }
          link := l.appendGesture .scrollEnd } t) ∧
    (s.store.active.params.getD 12 0 ≤ max vx.natAbs vy.natAbs →
      exec (.coastExpiry τ) s = .next
        { s with
          timebase := τ
          engine := { s.engine with
            coastTimer := s.engine.coastTimer.map fun e => e + 8000#32, vcx := vx, vcy := vy }
          link := l }) ∧
    (d ≤ 254 →
      (s.engine.vcx ≠ 0 → vx.natAbs < s.engine.vcx.natAbs) ∧ (s.engine.vcy ≠ 0 → vy.natAbs < s.engine.vcy.natAbs))

/-- DEFERRAL_EXPIRY: the switch to the requested posture is forced. Nothing is pending after it, POSTURE_CHANGED (cause 7) is
latched, the POSTURE record with its forced field is queued while the gesture queue has room, a surface or pen that leaves use is
empty or OUT, or waits for a frame of its role in processing (log entry 21), the shadow ends with CLOSED, and the click level is
sampled on entering LAPTOP; the rest is as before. An expiry of a timer that has not run out changes nothing (R18, R34, R75, R128,
R130 to R132; that last clause is the model's choice, log entry 1). The values that a model needs in cases no run reaches are log
entry 17. -/
def Obligations.DeferralExpiryForcesSwitch : Prop :=
  ∀ (τ : Stamp) (s : State),
    (hasExpired s.posture.deferral τ →
      ∃ t, exec (.deferralExpiry τ) s = .next t ∧ State.switchedTo { s with timebase := τ } true t) ∧
    (¬hasExpired s.posture.deferral τ → exec (.deferralExpiry τ) s = .next { s with timebase := τ })

/-! ## Exchanges -/

/-- EXCHANGE_BEGIN served: the cell carries the reply and then, from each class below the ceiling in turn, as many records from the
head of its queue as fit the bytes that remain, a pointer tail without motion or mark stopping its class. What is placed is in
flight, a placed tail is closed, and the 64 bytes are the header, the records byte by byte and filler. An exchange is served while
RESETn is high, once SELn has been seen high; while RESETn is low only the line changes (log entry 5) (R146, R154, R158, R164,
R167). -/
def Obligations.ExchangeBeginFillsCell : Prop :=
  ∀ (τ : Stamp) (s : State),
    let l := s.link
    let reply : List Byte := match l.reply with | none => [] | some r => replyLayout r
    let left0 := 60 - reply.length
    let np := if 1 < l.ceiling then min l.pen.length (left0 / 12) else 0
    let left1 := left0 - 12 * np
    let ns := if 2 < l.ceiling then min l.screen.length (left1 / 8) else 0
    let left2 := left1 - 8 * ns
    let sendable := l.pointer.takeWhile fun r => !r.isOpen || r.change || r.motion != ⟨0, 0, 0, 0, 0⟩
    let nq := if 3 < l.ceiling then min sendable.length (left2 / 8) else 0
    let left3 := left2 - 8 * nq
    let ng := if 4 < l.ceiling then min l.gesture.length (left3 / 4) else 0
    let bytes := reply ++ (l.pen.take np).flatMap penLayout ++ (l.screen.take ns).flatMap touchLayout ++
      (l.pointer.take nq).flatMap pointerLayout ++ (l.gesture.take ng).flatMap fun r => gestureLayout r.gesture
    let more := (1 < l.ceiling ∧ np < l.pen.length) ∨ (2 < l.ceiling ∧ ns < l.screen.length) ∨
      (3 < l.ceiling ∧ ∃ r ∈ l.pointer.drop nq, r.isOpen = false ∨ r.change = true ∨ r.motion ≠ ⟨0, 0, 0, 0, 0⟩) ∨
      (4 < l.ceiling ∧ ng < l.gesture.length)
    s.pins.selnLow = false →
    (s.pins.resetnLow = false → l.selnSeenHigh = true → l.nothingInFlight →
      ∃ flags : Nat, (more → flags = 1 + 16 * (postureByte s.posture.actual).toNat) ∧
        (¬more → flags = 16 * (postureByte s.posture.actual).toNat) ∧
        exec (.exchangeBegin τ) s = .next
          { s with
            timebase := τ
            pins := { s.pins with selnLow := true }
            link := { l with
              reply := l.reply.map fun r => { r with inFlight := true }
              pen := (l.pen.take np).map (fun r => { r with inFlight := true }) ++ l.pen.drop np
              screen := (l.screen.take ns).map (fun r => { r with inFlight := true }) ++ l.screen.drop ns
              pointer := (l.pointer.take nq).map (fun r => { r with inFlight := true, isOpen := false }) ++
                l.pointer.drop nq
              gesture := (l.gesture.take ng).map (fun r => { r with inFlight := true }) ++ l.gesture.drop ng
              exchange := some
                { count := 0
                  cell := [if bytes = [] then 0 else 1, BitVec.ofNat 8 bytes.length, BitVec.ofNat 8 s.topCause,
                      BitVec.ofNat 8 flags] ++ bytes ++ List.replicate (60 - bytes.length) 0
                  received := [] }
              sdo := [] } }) ∧
    (s.pins.resetnLow = true ∨ l.selnSeenHigh = false →
      exec (.exchangeBegin τ) s = .next { s with timebase := τ, pins := { s.pins with selnLow := true } })

/-- EXCHANGE_TRUNCATED with fewer than 64 bytes clocked: SDO has carried the first bits of the cell, most significant bit of each
byte first, the part of a byte at the end not counting. Every record and the reply lose their in-flight marks and stay where they
stand, a closed tail stays closed, no directive is taken, and LINK_ERROR (cause 5) is latched (R146, R148). -/
def Obligations.TruncationReturnsRecords : Prop :=
  ∀ (τ : Stamp) (cell : List Byte) (bits : List Bool) (s : State),
    s.pins.selnLow = true → s.pins.resetnLow = false → s.link.exchange = some ⟨0, cell, []⟩ → bits.length < 512 →
    exec (.exchangeTruncated τ bits) s = .next
      { s with
        timebase := τ
        pins := { s.pins with selnLow := false }
        link := { s.link with
          pen := s.link.pen.map fun r => { r with inFlight := false }
          screen := s.link.screen.map fun r => { r with inFlight := false }
          pointer := s.link.pointer.map fun r => { r with inFlight := false }
          gesture := s.link.gesture.map fun r => { r with inFlight := false }
          reply := s.link.reply.map fun r => { r with inFlight := false }
          latched := s.link.latched ||| 0x20
          exchange := none
          selnSeenHigh := true
          sdo := s.link.sdo ++ (cellBits cell).take bits.length } }

/-- SELN_RELEASE after the 64th byte: SDO carries 0x00 for whatever is clocked, which the part ignores, and the exchange ends with the
queues as they are; SELn has then been seen high. The release of an exchange that was not served ends nothing. While RESETn is
low only the line changes, and a line that is high already is not released (R146, R164; log entries 5 and 12). -/
def Obligations.SelnReleaseEndsExchange : Prop :=
  ∀ (τ : Stamp) (bits : List Bool) (s : State),
    (s.pins.selnLow = true → s.pins.resetnLow = false → ∀ e, s.link.exchange = some e → 64 ≤ e.count →
      exec (.selnRelease τ bits) s = .next
        { s with
          timebase := τ
          pins := { s.pins with selnLow := false }
          link := { s.link with
            exchange := none, selnSeenHigh := true, sdo := s.link.sdo ++ List.replicate bits.length false } }) ∧
    (s.link.exchange = none →
      (s.pins.selnLow = true → s.pins.resetnLow = false →
        exec (.selnRelease τ bits) s = .next
          { s with
            timebase := τ
            pins := { s.pins with selnLow := false }
            link := { s.link with selnSeenHigh := true } }) ∧
      (s.pins.selnLow = true → s.pins.resetnLow = true →
        exec (.selnRelease τ bits) s = .next { s with timebase := τ, pins := { s.pins with selnLow := false } }) ∧
      (s.pins.selnLow = false → exec (.selnRelease τ bits) s = .next { s with timebase := τ })) ∧
    exec (.exchangeTruncated τ bits) s = exec (.selnRelease τ bits) s

/-! ## Directives -/

/-- READ_STATUS is answered DONE with the values as they stand and changes nothing: the latched causes with STREAM_LATE while a
port is LATE and POSTURE_PENDING while a request is pending, the masks, the overrun flags, the ceiling, the ports, the postures,
the pending-commit set, the part code 0x34 and the revision 1; its reply has 20 bytes (R8, R129, R151, section 10.3). -/
def Obligations.ReadStatusReportsState : Prop :=
  ∀ (τ : Stamp) (c : DirectiveCell) (s : State), s.exchangeOpen → c.wellFormed = true → c.length = 0 →
    let late : Half := if ∃ i : Fin 4, (s.port i).state = .late then 4 else 0
    let waits : Half := if s.posture.pending = true then 0x100 else 0
    let r : StatusReport :=
      { causes := s.link.latched ||| late ||| waits
        masks := s.link.masks
        overrun := s.link.overrun
        ceiling := s.link.ceiling
        ports := [((s.port 0).role, (s.port 0).state), ((s.port 1).role, (s.port 1).state),
          ((s.port 2).role, (s.port 2).state), ((s.port 3).role, (s.port 3).state)]
        actual := s.posture.actual
        requested := s.posture.requested
        override := s.posture.override
        pendingCommit := s.store.pendingCommit
        partCode := 0x34
        revision := 1 }
    exec (.readStatus τ c) s = .next ((s.afterCell τ).answered 0x01 (.status r)) ∧
      (replyLayout ⟨0x01, .status r, false⟩).length = 20

/-- CLEAR_CAUSES: the event causes of the set stop being pending, a set that names OVERRUN (cause 3) clears the four overrun
flags, and the level causes of the set whose condition holds are named by STILL_ACTIVE; a set with a number above 8 is refused
and clears nothing (R8, R129, R152). -/
def Obligations.ClearCausesKeepsLevelCauses : Prop :=
  ∀ (τ : Stamp) (c : DirectiveCell) (s : State), s.exchangeOpen → c.wellFormed = true → c.length = 2 →
    let u := s.afterCell τ
    let late : Half := if ∃ i : Fin 4, (s.port i).state = .late then 4 else 0
    let waits : Half := if s.posture.pending = true then 0x100 else 0
    let left := (late ||| waits) &&& operandSet c
    ((operandSet c).toNat < 512 →
      exec (.clearCauses τ c) s = .next
        ({ u with link := { u.link with
            latched := u.link.latched &&& ~~~(operandSet c)
            overrun := if (operandSet c).getLsbD 3 = true then ⟨false, false, false, false⟩ else u.link.overrun } }.answered
          0x02 (if left = 0 then .done else .stillActive left))) ∧
    (512 ≤ (operandSet c).toNat → exec (.clearCauses τ c) s = .next (u.answered 0x02 .refusedRange))

/-- SET_MASK masks exactly the causes of its set, which leaves the pending causes as they are and takes the masked ones from the top
cause; SET_CEILING sets the ceiling, and with a ceiling of 1 a fill carries the reply alone. A set above cause 8 and a ceiling
outside 1..5 are refused. In every state the latched causes and the level causes that hold are pending, the top cause is the lowest
pending and unmasked one, or 15, and ATTNn is asserted exactly while a reply not in flight waits, a class below the ceiling holds a
sendable record not in flight, or a cause is pending and unmasked (R153, R161, R162). -/
def Obligations.SetMaskAndCeiling : Prop :=
  (∀ (τ : Stamp) (c : DirectiveCell) (s : State), s.exchangeOpen → c.wellFormed = true →
    let u := s.afterCell τ
    (c.length = 2 → (operandSet c).toNat < 512 →
      let v := { u with link := { u.link with masks := operandSet c } }
      exec (.setMask τ c) s = .next (v.answered 0x03 .done) ∧ v.causes = s.causes ∧
        ((∃ n < 9, s.causes.getLsbD n = true ∧ (operandSet c).getLsbD n = false) →
          s.causes.getLsbD v.topCause = true ∧ (operandSet c).getLsbD v.topCause = false ∧
            ∀ n < v.topCause, s.causes.getLsbD n = true → (operandSet c).getLsbD n = true) ∧
        ((∀ n < 9, s.causes.getLsbD n = true → (operandSet c).getLsbD n = true) → v.topCause = 15)) ∧
    (c.length = 2 → 512 ≤ (operandSet c).toNat → exec (.setMask τ c) s = .next (u.answered 0x03 .refusedRange)) ∧
    (c.length = 1 → 1 ≤ operandByte c 0 → operandByte c 0 ≤ 5 →
      exec (.setCeiling τ c) s = .next
        ({ u with link := { u.link with ceiling := operandByte c 0 } }.answered 0x04 .done)) ∧
    (c.length = 1 → operandByte c 0 = 0 ∨ 5 < operandByte c 0 →
      exec (.setCeiling τ c) s = .next (u.answered 0x04 .refusedRange)) ∧
    (∀ l : Link, l.ceiling = 1 → (fillAll l).bytes = (match l.reply with | none => [] | some r => replyLayout r))) ∧
  ∀ v : State,
    let late : Half := if ∃ i : Fin 4, (v.port i).state = .late then 4 else 0
    let waits : Half := if v.posture.pending = true then 0x100 else 0
    let pending := v.link.latched ||| late ||| waits
    v.causes = pending ∧
    (∀ n < 9, pending.getLsbD n = true → v.link.masks.getLsbD n = false →
      (∀ m < n, pending.getLsbD m = true → v.link.masks.getLsbD m = true) → v.topCause = n) ∧
    ((∀ n < 9, pending.getLsbD n = true → v.link.masks.getLsbD n = true) → v.topCause = 15) ∧
    (v.attention = true ↔
      (∃ r ∈ v.link.reply, r.inFlight = false) ∨
      (1 < v.link.ceiling ∧ ∃ r ∈ v.link.pen, r.inFlight = false) ∨
      (2 < v.link.ceiling ∧ ∃ r ∈ v.link.screen, r.inFlight = false) ∨
      (3 < v.link.ceiling ∧ ∃ r ∈ v.link.pointer, r.inFlight = false ∧
        (r.isOpen = false ∨ r.change = true ∨ r.motion ≠ ⟨0, 0, 0, 0, 0⟩)) ∨
      (4 < v.link.ceiling ∧ ∃ r ∈ v.link.gesture, r.inFlight = false) ∨
      ∃ n < 9, pending.getLsbD n = true ∧ v.link.masks.getLsbD n = false)

/-- WRITE_TABLE in range writes whole entries first index .. first index + count - 1 of the shadow of a table that is not
pending, each as it was sent with every field brought into its field range, and leaves the table's other entries and every other
table; the reply is DONE when nothing was changed so, and else CLAMPED with the lowest index at which something was. A pending
table is refused BUSY; a wrong table, count, range or length is refused; a refusal writes nothing (R137, R138, R169). -/
def Obligations.WriteTableWritesShadow : Prop :=
  ∀ (τ : Stamp) (c : DirectiveCell) (s : State), s.exchangeOpen → c.wellFormed = true → s.store.shadow.inRange →
    let u := s.afterCell τ
    let first := operandByte c 1
    let count := operandByte c 2
    (tableOfCode (operandByte c 0) = none → exec (.writeTable τ c) s = .next (u.answered 0x10 .refusedRange)) ∧
    ∀ id, tableOfCode (operandByte c 0) = some id →
      let sent (k : Nat) := (c.payload.drop (3 + k * entrySize id)).take (entrySize id)
      (count = 0 ∨ tableMax id < count ∨ tableSize id < first + count ∨ c.length.toNat ≠ 3 + count * entrySize id →
        exec (.writeTable τ c) s = .next (u.answered 0x10 .refusedRange)) ∧
      (0 < count → count ≤ tableMax id → first + count ≤ tableSize id → c.length.toNat = 3 + count * entrySize id →
        (s.store.pendingCommit.getLsbD (tableCode id) = true →
          exec (.writeTable τ c) s = .next (u.answered 0x10 .refusedBusy)) ∧
        (s.store.pendingCommit.getLsbD (tableCode id) = false →
          ∃ (shadow : Tables) (lowest : Option Nat),
            exec (.writeTable τ c) s = .next
              ({ u with store := { u.store with shadow := shadow } }.answered 0x10
                (match lowest with | none => .done | some i => .clamped i)) ∧
            shadow.inRange ∧
            (∀ id', id' ≠ id → sameTable shadow s.store.shadow id') ∧
            (∀ j, j < first ∨ first + count ≤ j → (tableBytes shadow id)[j]? = (tableBytes s.store.shadow id)[j]?) ∧
            (∀ k < count, (tableBytes shadow id)[first + k]? = some (clampedBytes id (first + k) (sent k))) ∧
            (lowest = none → ∀ k < count, clampedBytes id (first + k) (sent k) = sent k) ∧
            ∀ i, lowest = some i → ∃ k < count, i = first + k ∧ clampedBytes id i (sent k) ≠ sent k ∧
              ∀ k' < k, clampedBytes id (first + k') (sent k') = sent k'))

/-- READ_TABLE of a known bank and table and a first index within it is answered DONE with the entries from there on: the count
asked for, reduced to what remains and then to the table's maximum; anything else is refused; the banks stay as they are
(R139). -/
def Obligations.ReadTableReturnsEntries : Prop :=
  ∀ (τ : Stamp) (c : DirectiveCell) (s : State), s.exchangeOpen → c.wellFormed = true → c.length = 4 →
    let u := s.afterCell τ
    let first := operandByte c 2
    let count := operandByte c 3
    (1 < operandByte c 0 ∨ 7 < operandByte c 1 → exec (.readTable τ c) s = .next (u.answered 0x11 .refusedRange)) ∧
    ∀ id, tableOfCode (operandByte c 1) = some id → operandByte c 0 ≤ 1 →
      (tableSize id ≤ first → exec (.readTable τ c) s = .next (u.answered 0x11 .refusedRange)) ∧
      (first < tableSize id →
        ∃ es : List (List Byte),
          exec (.readTable τ c) s = .next
            (u.answered 0x11 (.entries (operandByte c 0) (operandByte c 1) first es)) ∧
          let bank := if operandByte c 0 = 0 then s.store.active else s.store.shadow
          (bank.inRange → es.length = min (min count (tableSize id - first)) (tableMax id)) ∧
          ∀ k < es.length, es[k]? = (tableBytes bank id)[first + k]?)

/-- Writing a whole table from the bytes that READ_TABLE returns of it puts exactly that table into any bank that is in range, and
clamps nothing: the two forms of section 10.5 agree on every entry in its field ranges. A table has its number, its number of
entries, its most entries for one directive and its bytes for one entry; the bytes of an entry stand as section 10.5 has them; and
the parameter slots and calibration values have their field ranges and their names (R136, R138, R169, section 8 head table). The
values that a model needs in cases no run reaches are log entry 17. -/
def Obligations.TableEntriesReadBack : Prop :=
  (∀ (t t' : Tables) (id : TableId), t.inRange → t'.inRange →
    writeEntries id (tableBytes t id).flatten (tableSize id) 0 0 t' = (copyTable t t' id, none)) ∧
  (∀ n, tableOfCode n =
    ([.rules, .zones, .pointerCurve, .scrollCurve, .pressureCurve, .bands, .params, .calibration] : List TableId)[n]?) ∧
  (∀ id n, tableCode id = n ↔ tableOfCode n = some id) ∧
  (∀ id, (tableSize id, tableMax id, entrySize id) = match id with
    | .rules => (32, 3, 17) | .zones => (8, 5, 10) | .pointerCurve => (8, 8, 4) | .scrollCurve => (8, 8, 4)
    | .pressureCurve => (6, 6, 4) | .bands => (3, 3, 4) | .params => (28, 14, 2) | .calibration => (4, 4, 4)) ∧
  (∀ t id, tableBytes t id = tableLayout t id) ∧
  (∀ slot v, paramInRange slot v ↔
    ∀ r ∈ ([(40, 600), (100, 3000), (60, 500), (16, 640), (32, 1280), (32, 1280), (64, 2560), (0, 3), (1, 15), (256, 8191),
      (256, 16383), (1, 2047), (1, 2047), (128, 254), (1, 15), (0, 2000), (0, 1), (0, 16383), (0, 10239), (0, 4095),
      (0, 4095), (1, 4095), (0, 4095), (100, 5000), (4, 250), (4, 250), (4, 250), (4, 250)] : List (Nat × Nat))[slot]?,
      r.1 ≤ v ∧ v ≤ r.2) ∧
  (∀ i v, calibrationInRange i v ↔ (i < 2 → 1 ≤ v ∧ v ≤ 131071) ∧ (2 ≤ i → -16384 ≤ v ∧ v ≤ 16383)) ∧
  ∀ t : Tables,
    [t.tapMax, t.holdMin, t.tapGap, t.tapSlop, t.scrollStart, t.pinchStart, t.swipeStart, t.liftGrace, t.persistPalm,
      t.padJump, t.screenJump, t.coastStart, t.coastStop, t.coastDecay, t.clickDebounce, t.penShadowHold] =
      (List.range 16).map (fun k => t.params.getD k 0) ∧
    (t.leftHanded = true ↔ t.params.getD 16 0 = 1) ∧
    [t.shadowW, t.shadowH, t.shadowBack, t.shadowUp, t.tipOn, t.tipOff, t.postureWait, t.lateAfter 0, t.lateAfter 1,
      t.lateAfter 2, t.lateAfter 3] = (List.range 11).map fun k => t.params.getD (17 + k) 0

/-- COMMIT_TABLES: an empty set, or one above table 7, is refused; a failing shadow is named by INVALID and nothing changes;
otherwise the set joins the pending-commit set and the reply is PENDING, and with no frame in processing and no RESTART waiting the
swap is made at once, with TABLE_SWAPPED (cause 6) latched, and each port with a waiting record begins it, several in an order that
is free (R13, R15, R134, R140, R143; the order is log entry 3, the work done at the beginning log entries 4 and 21, a LATE or DOWN
port log entry 6, a discarded record log entry 19). The values that a model needs in cases no run reaches are log entry 17. -/
def Obligations.CommitTablesPendsOrSwaps : Prop :=
  ∀ (τ : Stamp) (c : DirectiveCell) (s : State), s.exchangeOpen → c.wellFormed = true → c.length = 2 →
    let u := s.afterCell τ
    let set := operandSet c
    (set = 0 ∨ 256 ≤ set.toNat → exec (.commitTables τ c) s = .next (u.answered 0x12 .refusedRange)) ∧
    (set ≠ 0 → set.toNat < 256 →
      ((∃ id, set.getLsbD (tableCode id) = true ∧ validate s.store.shadow id ≠ none) →
        ∃ id index reason, set.getLsbD (tableCode id) = true ∧ validate s.store.shadow id = some (index, reason) ∧
          (∀ id', set.getLsbD (tableCode id') = true → tableCode id' < tableCode id →
            validate s.store.shadow id' = none) ∧
          exec (.commitTables τ c) s = .next (u.answered 0x12 (.invalid (tableCode id) index reason))) ∧
      ((∀ id, set.getLsbD (tableCode id) = true → validate s.store.shadow id = none) →
        ((∃ j, (s.port j).frame ≠ none) ∨ s.link.restartWaiting = true →
          exec (.commitTables τ c) s = .next
            ({ u with store := { u.store with pendingCommit := u.store.pendingCommit ||| set } }.answered 0x12
              .pending)) ∧
        ((∀ j, (s.port j).frame = none) → s.link.restartWaiting = false →
          ∃ active : Tables,
            (∀ id, (s.store.pendingCommit ||| set).getLsbD (tableCode id) = true →
              sameTable active s.store.shadow id) ∧
            (∀ id, (s.store.pendingCommit ||| set).getLsbD (tableCode id) = false →
              sameTable active s.store.active id) ∧
            let v : State :=
              { u with
                store := { active := active, shadow := s.store.shadow, pendingCommit := 0 }
                link := { u.link with latched := u.link.latched ||| 0x40 } }
            ((∀ j, (s.port j).waiting = none) → exec (.commitTables τ c) s = .next (v.answered 0x12 .pending)) ∧
            ∃ t, exec (.commitTables τ c) s = .next (t.answered 0x12 .pending) ∧ v.beginsEach t)))

/-- The commit validation, with the index and the reason it names. A curve fails at the first knot not above the one before it, a
zone whose bounds are out of order, a band k with its fall above its rise or its rise not below the next fall, and the parameters at
slot 12 for CoastStop above CoastStart, else at slot 22 for TipOff above TipOn. A rule fails by the first of: a used feature that is
unknown, an ANYOF on a numeric feature, a prerequisite that is not of lower index, a RESTING verdict without scope PAD. The lowest
failing index is named; CALIBRATION always passes (R140 to R142). The values that a model needs in cases no run reaches are log
entry 17. -/
def Obligations.ValidationMeansOrder : Prop :=
  ∀ t : Tables,
    let first (bad : Nat → Reason → Prop) (f : Option (Nat × Reason)) : Prop :=
      (f = none ↔ ∀ i r, ¬bad i r) ∧ ∀ i r, f = some (i, r) ↔ bad i r ∧ ∀ j < i, ∀ q, ¬bad j q
    let knots (ks : List Knot) (i : Nat) (r : Reason) : Prop :=
      r = .knotOrder ∧ ∃ j a b, i = j + 1 ∧ ks[j]? = some a ∧ ks[j + 1]? = some b ∧ b.input ≤ a.input
    first (knots t.pointerCurve) (validate t .pointerCurve) ∧
    first (knots t.scrollCurve) (validate t .scrollCurve) ∧
    first (knots t.pressureCurve) (validate t .pressureCurve) ∧
    first (fun i r => r = .zoneOrder ∧ ∃ z, t.zones[i]? = some z ∧ (z.x1 < z.x0 ∨ z.y1 < z.y0)) (validate t .zones) ∧
    first (fun i r => r = .bandOrder ∧ ∃ a, t.bands[i]? = some a ∧
      (a.rise < a.fall ∨ ∃ b, t.bands[i + 1]? = some b ∧ b.fall ≤ a.rise)) (validate t .bands) ∧
    first (fun i r => (i = 12 ∧ r = .coastOrder ∧ t.params.getD 11 0 < t.params.getD 12 0) ∨
      (i = 22 ∧ r = .tipOrder ∧ t.params.getD 21 0 < t.params.getD 22 0)) (validate t .params) ∧
    first (fun i reason => ∃ r, t.rules[i]? = some r ∧
      let used := ([r.c1, r.c2, r.c3] : List Condition).take r.count
      let unknown := ∃ x ∈ used, 13 < x.feature
      let numeric := ∃ x ∈ used, x.relation = .anyOf ∧ (x.feature < 10 ∨ 13 < x.feature)
      let order := ∃ p, r.prereq = some p ∧ i ≤ p
      let scope := r.verdict = .resting ∧ r.scope ≠ .pad
      (unknown ∧ reason = .featureUnknown) ∨ (¬unknown ∧ numeric ∧ reason = .anyOfNumeric) ∨
        (¬unknown ∧ ¬numeric ∧ order ∧ reason = .prereqOrder) ∨
        (¬unknown ∧ ¬numeric ∧ ¬order ∧ scope ∧ reason = .restingScope)) (validate t .rules) ∧
    validate t .calibration = none

/-- DISCARD_SHADOW makes the shadow of each named table a copy of its active bank and takes the table out of the pending-commit set,
leaving the other tables; the reply is DONE. When that leaves the set empty and no RESTART waits, each port with a waiting record
and no frame in processing begins it, several in an order that is free; otherwise none begins. An empty set, or one above table 7,
is refused (R13, R15, R145; the order is log entry 3, the work done at the beginning log entries 4 and 21, a LATE or DOWN port log
entry 6, a discarded record log entry 19). The values that a model needs in cases no run reaches are log entry 17. -/
def Obligations.DiscardShadowCancels : Prop :=
  ∀ (τ : Stamp) (c : DirectiveCell) (s : State), s.exchangeOpen → c.wellFormed = true → c.length = 2 →
    let u := s.afterCell τ
    let set := operandSet c
    (set = 0 ∨ 256 ≤ set.toNat → exec (.discardShadow τ c) s = .next (u.answered 0x13 .refusedRange)) ∧
    (set ≠ 0 → set.toNat < 256 →
      ∃ shadow : Tables,
        (∀ id, set.getLsbD (tableCode id) = true → sameTable shadow s.store.active id) ∧
        (∀ id, set.getLsbD (tableCode id) = false → sameTable shadow s.store.shadow id) ∧
        let v : State := { u with store := { u.store with
          shadow := shadow, pendingCommit := u.store.pendingCommit &&& ~~~set } }
        (s.store.pendingCommit &&& ~~~set ≠ 0 ∨ s.link.restartWaiting = true ∨ (∀ j, (s.port j).waiting = none) →
          exec (.discardShadow τ c) s = .next (v.answered 0x13 .done)) ∧
        (s.store.pendingCommit &&& ~~~set = 0 → s.link.restartWaiting = false →
          ∃ t, exec (.discardShadow τ c) s = .next (t.answered 0x13 .done) ∧ v.beginsEach t))

/-- SET_PORT: the rows of R2. A disabled port enabled is WAITING with nothing running and hunts, unless another port holds the role,
counted by its role while enabled or by the role of its frame in processing (log entry 21). An enabled port disabled abandons what
it has and asks the owner of its role for the teardown: the pad's entries with a surface loss, the screen's with a CANCEL for each
OPEN one, a pen in range forced OUT; with a frame of the role in processing the teardown waits for its completion (log entry 21);
one of the pad or the pen that is taken is followed by the judgement of quiet (log entry 24). A role is set on a disabled port (R2
to R4, R32, R58, R74, R105, R127). The values that a model needs in cases no run reaches are log entry 17. -/
def Obligations.SetPortTable : Prop :=
  ∀ (τ : Stamp) (c : DirectiveCell) (s : State), s.exchangeOpen → c.wellFormed = true → c.length = 3 →
    let u := s.afterCell τ
    let answer (b : ReplyBody) := exec (.setPort τ c) s = .next (u.answered 0x20 b)
    (3 < operandByte c 0 ∨ 4 < operandByte c 1 ∨ 1 < operandByte c 2 → answer .refusedRange) ∧
    ∀ (i : Fin 4) (r : Role), operandByte c 0 = i.val → operandByte c 1 = roleCode r →
      ((s.port i).enabled = true → operandByte c 2 ≤ 1 → (s.port i).role ≠ r → answer .refusedState) ∧
      ((s.port i).enabled = true → (s.port i).role = r → operandByte c 2 = 1 → answer .done) ∧
      ((s.port i).enabled = true → (s.port i).role = r → operandByte c 2 = 0 →
        let v : State :=
          { u with ports := s.ports.set i { s.port i with
              state := .disabled, deadline := none, waiting := none, lossMark := false, rx := .hunting } }
        ∃ t, v.tearsDown r t ∧ exec (.setPort τ c) s = .next (t.answered 0x20 .done)) ∧
      ((s.port i).enabled = false → operandByte c 2 = 0 →
        exec (.setPort τ c) s = .next
          ({ u with ports := s.ports.set i { s.port i with role := r } }.answered 0x20 .done)) ∧
      ((s.port i).enabled = false → operandByte c 2 = 1 → r ≠ .unused →
        (∃ j, j ≠ i ∧ (((s.port j).enabled = true ∧ (s.port j).role = r) ∨
          ∃ f, (s.port j).frame = some f ∧ f.role = r)) → answer .refusedState) ∧
      ((s.port i).enabled = false → operandByte c 2 = 1 →
        (r = .unused ∨ ∀ j, j ≠ i → ((s.port j).enabled = true → (s.port j).role ≠ r) ∧
          ∀ f, (s.port j).frame = some f → f.role ≠ r) →
        let p : Port := ⟨r, .waiting, none, none, none, false, (s.port i).frame, .hunting⟩
        exec (.setPort τ c) s = .next ({ u with ports := s.ports.set i p }.answered 0x20 .done))

/-- SET_POSTURE sets or clears the override and judges the posture, or with CLEAR the posture of the band, as a request: equal to
the actual posture it drops what is pending; with the pad quiet the switch is made at once; otherwise it waits, and PostureWait
runs from the first request that found the pad busy. The reply is PENDING when a request is pending after it and else DONE. A
code that is neither a posture nor CLEAR is refused (R124 to R127, R130; band 2 without a deck orientation is log entry 17, a teardown
that waits for a frame of its role log entry 21). -/
def Obligations.SetPostureRequests : Prop :=
  ∀ (τ : Stamp) (c : DirectiveCell) (s : State), s.exchangeOpen → c.wellFormed = true → c.length = 1 →
    let u := s.afterCell τ
    let code := operandByte c 0
    (4 < code → code ≠ 255 → exec (.setPosture τ c) s = .next (u.answered 0x21 .refusedRange)) ∧
    ∀ p : Posture, (code = postureCode p ∨ (code = 255 ∧ postureOfBand s.posture.band s.aux.deck p)) →
      let ov : Option Posture := if code = 255 then none else some p
      ∃ t, State.requested { u with posture := { s.posture with override := ov } } p t ∧
        exec (.setPosture τ c) s = .next (t.answered 0x21 (if t.posture.pending = true then .pending else .done))

/-- FLUSH_SURFACE is answered DONE: with no frame of the surface in processing, whatever port began it, its teardown is taken at
once, and otherwise it waits for that frame's completion (log entry 21). A pad teardown that is taken is followed by the judgement
of quiet: with a posture request pending and the pad quiet the switch is made at once (log entry 24). The ports stay as they are.
Another surface code is refused (R32, R33, R58, R105, R127, R130). The values that a model needs in cases no run reaches are log
entry 17. -/
def Obligations.FlushSurfaceTearsDown : Prop :=
  ∀ (τ : Stamp) (c : DirectiveCell) (s : State), s.exchangeOpen → c.wellFormed = true → c.length = 1 →
    let u := s.afterCell τ
    (1 < operandByte c 0 → exec (.flushSurface τ c) s = .next (u.answered 0x22 .refusedRange)) ∧
    ∀ r : Role, (operandByte c 0 = 0 ∧ r = .pad) ∨ (operandByte c 0 = 1 ∧ r = .screen) →
      ∃ t, u.tearsDown r t ∧ t.ports = s.ports ∧ exec (.flushSurface τ c) s = .next (t.answered 0x22 .done)

/-- The decoding of a directive cell clocked into an open exchange: its kind byte picks the directive, so a cell under a kind byte
that names one is that directive; a kind that names none is answered UNKNOWN; a known kind whose payload length byte is not the
one it requires is answered REFUSED_RANGE; either changes nothing else. WRITE_TABLE requires the length of its count of entries.
POLL has no effect and no reply, and leaves the reply slot empty when the cell carried what it held. Without a served exchange
nothing is clocked, and after the 64th byte SDO carries 0x00 and the bytes are ignored (R146, R149, R164, R166; the kind byte as
an operand is log entry 13). -/
def Obligations.DirectiveDecoding : Prop :=
  ∀ (τ : Stamp) (c : DirectiveCell) (s : State), c.wellFormed = true →
    let kinds : List (Instr × Byte × Nat) :=
      [(.poll τ c, 0x00, 0), (.readStatus τ c, 0x01, 0), (.clearCauses τ c, 0x02, 2), (.setMask τ c, 0x03, 2),
        (.setCeiling τ c, 0x04, 1), (.readTable τ c, 0x11, 4), (.commitTables τ c, 0x12, 2),
        (.discardShadow τ c, 0x13, 2), (.setPort τ c, 0x20, 3), (.setPosture τ c, 0x21, 1),
        (.flushSurface τ c, 0x22, 1), (.restart τ c, 0x30, 0)]
    (s.exchangeOpen →
      (∀ kind : Byte, kind ∉ directiveKinds →
        exec (.unknown τ kind c) s = .next ((s.afterCell τ).answered kind .unknown)) ∧
      (∀ x ∈ kinds, exec (.unknown τ x.2.1 c) s = exec x.1 s ∧
        (c.length.toNat ≠ x.2.2 → exec x.1 s = .next ((s.afterCell τ).answered x.2.1 .refusedRange))) ∧
      (exec (.unknown τ 0x10 c) s = exec (.writeTable τ c) s ∧
        (62 < c.length.toNat ∨
            (∃ id, tableOfCode (operandByte c 0) = some id ∧ c.length.toNat ≠ 3 + operandByte c 2 * entrySize id) →
          exec (.writeTable τ c) s = .next ((s.afterCell τ).answered 0x10 .refusedRange))) ∧
      (c.length = 0 → exec (.poll τ c) s = .next (s.afterCell τ) ∧
        ((∀ r ∈ s.link.reply, r.inFlight = true) → (s.afterCell τ).link.reply = none))) ∧
    ∀ (kind : Byte) (x : Instr), x ∈ (.unknown τ kind c :: .writeTable τ c :: kinds.map (·.1) : List Instr) →
      (s.link.exchange = none → exec x s = .next { s with timebase := τ }) ∧
      ∀ e, s.link.exchange = some e → 64 ≤ e.count →
        exec x s = .next
          { s with timebase := τ, link := { s.link with sdo := s.link.sdo ++ List.replicate 512 false } }

/-- The bytes of a directive cell after its payload are ignored: two cells with the same length byte and the same payload have
the same effect, in an exchange of which nothing is clocked yet, after its 64th byte, and without one (R165, R166). -/
def Obligations.BytesAfterPayloadIgnored : Prop :=
  ∀ (τ : Stamp) (c d : DirectiveCell) (s : State), c.wellFormed = true → d.wellFormed = true →
    (∀ e, s.link.exchange = some e → (e.count = 0 ∧ e.received = []) ∨ 64 ≤ e.count) →
    c.length = d.length → c.payload.take c.length.toNat = d.payload.take c.length.toNat →
    ∀ (kind : Byte), ∀ f ∈ ([Instr.poll τ, .readStatus τ, .clearCauses τ, .setMask τ, .setCeiling τ, .writeTable τ,
        .readTable τ, .commitTables τ, .discardShadow τ, .setPort τ, .setPosture τ, .flushSurface τ, .restart τ,
        .unknown τ kind] : List (DirectiveCell → Instr)),
      exec (f c) s = exec (f d) s

/-! ## Arithmetic and queues -/

/-- The arithmetic of Motion Transfer. Stage 1: the speed is the larger component plus half the smaller, times 8000 over the frame
interval, at most 4095. Stage 3: while no output is clamped, the output of an axis is the floor of (d x g + r) / 256 and the new
residue its remainder, in 0..255; over a run the outputs sum to the floor of the summed products with the first residue over 256,
and the last residue is the remainder; a delta of 0 yields 0 and keeps its residue; deltas of 1 under a gain of 64 pay one step at
the fourth. Stage 4: an output beyond the limit is the limit with a residue of 0. Pointer and scroll input apply it to their
residues, axis by axis; the pinch step and the coast velocity truncate toward zero (R110 to R113, R115, R116, R118, R119). The
values that a model needs in cases no run reaches are log entry 17. -/
def Obligations.ResiduePaysEveryStep : Prop :=
  (∀ (limit : Int) (r : Nat), r ≤ 255 →
    (∀ d g : Int, -limit ≤ (d * g + r) / 256 → (d * g + r) / 256 ≤ limit →
      (axisStep limit d g r).1 = (d * g + r) / 256 ∧ (axisStep limit d g r).2 ≤ 255 ∧
        ((axisStep limit d g r).2 : Int) = d * g + r - 256 * ((d * g + r) / 256)) ∧
    (∀ g : Int, 0 ≤ limit → axisStep limit 0 g r = (0, r)) ∧
    (∀ d g : Int, 0 ≤ limit → (limit < (d * g + r) / 256 → axisStep limit d g r = (limit, 0)) ∧
      ((d * g + r) / 256 < -limit → axisStep limit d g r = (-limit, 0))) ∧
    ∀ run : List (Int × Int),
      (∀ k < run.length, ∃ x, run[k]? = some x ∧
        -limit ≤ (x.1 * x.2 + (axisRun limit (run.take k) r).2) / 256 ∧
        (x.1 * x.2 + (axisRun limit (run.take k) r).2) / 256 ≤ limit) →
      (axisRun limit run r).1.sum = ((run.map fun x => x.1 * x.2).sum + r) / 256 ∧
        ((axisRun limit run r).2 : Int) = ((run.map fun x => x.1 * x.2).sum + r) % 256) ∧
  (axisRun 127 [(1, 64), (1, 64), (1, 64), (1, 64)] 0 = ([0, 0, 0, 1], 0)) ∧
  ∀ (t : Tables) (m : Motion) (dx dy : Int) (dt : Nat),
    let speed := min 4095 ((max dx.natAbs dy.natAbs + min dx.natAbs dy.natAbs / 2) * 8000 / dt)
    let gp := curveValue t.pointerCurve speed
    let gs := curveValue t.scrollCurve speed
    (∀ before now : Nat, pinchStep before now = Int.tdiv (((now : Int) - before) * 1024) before) ∧
    coastVelocity dx dt = Int.tdiv (dx * 8000) dt ∧
    pointerInput t m dx dy dt =
      ({ m with pointerX := (axisStep 127 dx gp m.pointerX).2, pointerY := (axisStep 127 dy gp m.pointerY).2 },
        ⟨(axisStep 127 dx gp m.pointerX).1, (axisStep 127 dy gp m.pointerY).1, 0, 0, 0⟩) ∧
    scrollInput t m dx dy dt =
      ({ m with
          scrollX := (axisStep 2047 dx gs m.scrollX).2, scrollY := (axisStep 2047 dy gs m.scrollY).2
          lastOutX := (axisStep 2047 dx gs m.scrollX).1, lastOutY := (axisStep 2047 dy gs m.scrollY).1
          lastInterval := dt },
        ⟨0, 0, (axisStep 2047 dx gs m.scrollX).1, (axisStep 2047 dy gs m.scrollY).1, 0⟩)

/-- The relations of a condition: EQ, NE, LT and GE compare the feature value with the operand as numbers, and ANYOF holds when
the operand's bit of that number is 1, so never above bit 15. As examples of it, PENSTATE, ZONE and POSTURE sets hold for the
codes they name, AREA is never 65535, and PENDIST is 65535 exactly for a pad entry or without a live shadow (R45). -/
def Obligations.ConditionRelations : Prop :=
  (∀ (feature operand : Nat) (f : Nat → Nat),
    ((⟨feature, .eq, operand⟩ : Condition).holds f = true ↔ f feature = operand) ∧
    ((⟨feature, .ne, operand⟩ : Condition).holds f = true ↔ f feature ≠ operand) ∧
    ((⟨feature, .lt, operand⟩ : Condition).holds f = true ↔ f feature < operand) ∧
    ((⟨feature, .ge, operand⟩ : Condition).holds f = true ↔ operand ≤ f feature) ∧
    ((⟨feature, .anyOf, operand⟩ : Condition).holds f = true ↔ operand / 2 ^ f feature % 2 = 1) ∧
    (operand ≤ 65535 → 16 ≤ f feature → (⟨feature, .anyOf, operand⟩ : Condition).holds f = false)) ∧
  ∀ (sf : Surface) (count : Nat) (sn : Snapshot) (e : Entry),
    let f := Machine.feature sf count sn e
    ((⟨11, .anyOf, 0x0006⟩ : Condition).holds f = true ↔ sn.penState ≠ .out) ∧
    ((⟨10, .anyOf, 0x0002⟩ : Condition).holds f = true ↔ sf = .pad ∧ e.zone = some 1) ∧
    ((∀ z ∈ e.zone, z ≤ 7) → ((⟨10, .anyOf, 0x8000⟩ : Condition).holds f = true ↔ sf = .screen ∨ e.zone = none)) ∧
    ((⟨12, .anyOf, 0x001C⟩ : Condition).holds f = true ↔
      sn.posture = .stand ∨ sn.posture = .tent ∨ sn.posture = .tablet) ∧
    (e.major ≤ 255 → e.minor ≤ 255 → (⟨0, .ge, 65535⟩ : Condition).holds f = false) ∧
    (e.pos.x ≤ 16383 → e.pos.y ≤ 16383 → (∀ a ∈ sn.shadow, a.1.x ≤ 16383 ∧ a.1.y ≤ 16383) →
      ((⟨8, .eq, 65535⟩ : Condition).holds f = true ↔ sf = .pad ∨ sn.shadow = none))

/-- The band index after an aux frame: no further step holds, every boundary crossed upward has its rise at or below the angle,
every one crossed downward has its fall above it, and so it never oscillates (R123). -/
def Obligations.BandIndexSettles : Prop :=
  ∀ (bands : List Boundary) (angle band : Nat), bands.length = 3 → checkBands 0 bands = none → band ≤ 3 →
    let b := bandMove bands angle band
    b ≤ 3 ∧
    (∀ x, bands[b]? = some x → angle < x.rise) ∧
    (∀ k x, b = k + 1 → bands[k]? = some x → x.fall ≤ angle) ∧
    (∀ k x, band ≤ k → k < b → bands[k]? = some x → x.rise ≤ angle) ∧
    ∀ k x, b ≤ k → k < band → bands[k]? = some x → angle < x.fall

/-- A curve that passes its validation gives each knot's output at the knot, the first output below the first knot, the last
above the last, and never leaves the range of its outputs (R67, R111). -/
def Obligations.CurveStaysBetweenKnots : Prop :=
  ∀ ks : List Knot, ks ≠ [] → checkKnots 0 ks = none →
    (∀ k ∈ ks, curveValue ks k.input = k.output) ∧
    (∀ k v, ks.head? = some k → v ≤ k.input → curveValue ks v = k.output) ∧
    (∀ k v, ks.getLast? = some k → k.input ≤ v → curveValue ks v = k.output) ∧
    (∀ lo hi : Nat, (∀ k ∈ ks, lo ≤ k.output ∧ k.output ≤ hi) → ∀ v, lo ≤ curveValue ks v ∧ curveValue ks v ≤ hi) ∧
    ∀ i a b v, ks[i]? = some a → ks[i + 1]? = some b → a.input ≤ v → v < b.input →
      curveValue ks v = a.output + Int.tdiv (((b.output : Int) - a.output) * ((v : Int) - a.input)) (b.input - a.input)

/-- The overflow of the pen queue: with 32 samples of which at most 5 are in flight at the head, the oldest sample not in flight
without an edge mark is removed, or else the oldest not in flight; the sample after it gets GAP, the arriving one is appended,
the pen overrun flag is set and OVERRUN (cause 3) is latched. With room the sample is appended and nothing else changes (R155,
R156). -/
def Obligations.PenQueueOverflow : Prop :=
  ∀ (l : Link) (x : PenSample),
    (l.pen.length < 32 → l.appendPen x = { l with pen := l.pen ++ [x] }) ∧
    (l.pen.length = 32 → headInFlight 5 (l.pen.map (·.inFlight)) →
      ∃ (older newer : List PenSample) (gone next : PenSample) (rest : List PenSample),
        l.pen = older ++ gone :: newer ∧ newer ++ [x] = next :: rest ∧ gone.inFlight = false ∧
        (gone.edge = false → ∀ y ∈ older, y.inFlight = true ∨ y.edge = true) ∧
        (gone.edge = true → (∀ y ∈ older, y.inFlight = true) ∧ ∀ y ∈ l.pen, y.inFlight = true ∨ y.edge = true) ∧
        l.appendPen x = { l with
          pen := older ++ { next with gap := true } :: rest
          latched := l.latched ||| 8
          overrun := { l.overrun with pen := true } })

/-- The overflow of the screen queue: an arriving MOVE takes the place of its track's newest record when that is a MOVE not in
flight; otherwise, with 40 records, the oldest MOVE not in flight is removed, or, without one, the oldest complete pair: a DOWN and
the closing record of its track after it, neither in flight. The screen overrun flag is set and OVERRUN (cause 3) is latched; with
room the record is appended (R157; that the oldest pair is the one whose DOWN is oldest is the model's choice, log entry 26). -/
def Obligations.ScreenQueueOverflow : Prop :=
  ∀ (l : Link) (x : TouchRecord),
    (∀ older newer m, x.kind = .move → l.screen = older ++ m :: newer → m.track = x.track → m.kind = .move →
      m.inFlight = false → (∀ y ∈ newer, y.track ≠ x.track) →
      l.appendScreen x =
        { l with screen := older ++ { m with pos := x.pos, major := x.major, minor := x.minor } :: newer }) ∧
    ((x.kind = .move → ∀ older newer m, l.screen = older ++ m :: newer → (∀ y ∈ newer, y.track ≠ x.track) →
        m.track = x.track → m.kind ≠ .move ∨ m.inFlight = true) →
      (l.screen.length < 40 → l.appendScreen x = { l with screen := l.screen ++ [x] }) ∧
      (∀ older newer m, l.screen.length = 40 → l.screen = older ++ m :: newer → m.kind = .move → m.inFlight = false →
        (∀ y ∈ older, y.kind ≠ .move ∨ y.inFlight = true) →
        l.appendScreen x = { l with
          screen := older ++ newer ++ [x]
          latched := l.latched ||| 8
          overrun := { l.overrun with screen := true } }) ∧
      (∀ older down mid close newer, l.screen.length = 40 → (∀ y ∈ l.screen, y.kind ≠ .move ∨ y.inFlight = true) →
        l.screen = older ++ down :: mid ++ close :: newer →
        down.kind = .down → down.inFlight = false → close.inFlight = false → close.track = down.track →
        close.kind = .up ∨ close.kind = .cancel →
        (∀ y ∈ mid, y.track = down.track → y.kind ≠ .up ∧ y.kind ≠ .cancel) →
        (∀ before z after, older = before ++ z :: after → z.kind = .down → z.inFlight = false →
          ∀ y ∈ after ++ down :: mid ++ close :: newer, y.track = z.track → y.kind ≠ .up ∧ y.kind ≠ .cancel) →
        l.appendScreen x = { l with
          screen := older ++ mid ++ newer ++ [x]
          latched := l.latched ||| 8
          overrun := { l.overrun with screen := true } }))

/-- The pointer queue. A tail that opens in a full queue, with 12 records of which at most 7 are in flight at the head and only the
newest can be open, merges the two oldest outside the head: the newer button, the summed motion saturating field by field, either
change mark; the pointer overrun flag is set and OVERRUN (cause 3) is latched. Motion is added, saturating, into the open tail,
and one is opened under the engine's button state where there is none. A button change takes an open tail without motion and mark
over; otherwise an open tail is closed and a new one opened with the new state and the mark (R114, R158, R159). -/
def Obligations.PointerQueueMerges : Prop :=
  ∀ (l : Link) (b : Button) (mark : Bool),
    let sat (limit x : Int) : Int := max (-limit) (min limit x)
    let tail : PointerRecord := ⟨b, ⟨0, 0, 0, 0, 0⟩, mark, true, false⟩
    (l.pointer.length < 12 → l.openTail b mark = { l with pointer := l.pointer ++ [tail] }) ∧
    (l.pointer.length = 12 → headInFlight 7 (l.pointer.map (·.inFlight)) →
      (∀ r ∈ l.pointer.dropLast, r.isOpen = false) →
      ∃ (head : List PointerRecord) (x y : PointerRecord) (rest : List PointerRecord),
        l.pointer = head ++ x :: y :: rest ∧ (∀ r ∈ head, r.inFlight = true) ∧ x.inFlight = false ∧
        l.openTail b mark = { l with
          pointer := head ++
            { button := y.button
              motion := ⟨sat 127 (x.motion.dx + y.motion.dx), sat 127 (x.motion.dy + y.motion.dy),
                sat 2047 (x.motion.h + y.motion.h), sat 2047 (x.motion.v + y.motion.v),
                sat 2047 (x.motion.zoom + y.motion.zoom)⟩
              change := x.change || y.change
              isOpen := false
              inFlight := false } :: rest ++ [tail]
          latched := l.latched ||| 8
          overrun := { l.overrun with pointer := true } }) ∧
    (∀ (d : Delta) (older : List PointerRecord) (r : PointerRecord),
      let added : PointerRecord :=
        { r with motion := ⟨sat 127 (r.motion.dx + d.dx), sat 127 (r.motion.dy + d.dy), sat 2047 (r.motion.h + d.h),
            sat 2047 (r.motion.v + d.v), sat 2047 (r.motion.zoom + d.zoom)⟩ }
      r.isOpen = true →
      (l.pointer = older ++ [r] → l.addMotion b d = { l with pointer := older ++ [added] }) ∧
      ((∀ y ∈ l.pointer.getLast?, y.isOpen = false) → (l.openTail b false).pointer = older ++ [r] →
        l.addMotion b d = { l.openTail b false with pointer := older ++ [added] })) ∧
    (∀ (older : List PointerRecord) (r : PointerRecord), l.pointer = older ++ [r] → r.isOpen = true →
      (r.motion = ⟨0, 0, 0, 0, 0⟩ → r.change = false →
        l.buttonChange b = { l with pointer := older ++ [{ r with button := b, change := true }] }) ∧
      (r.motion ≠ ⟨0, 0, 0, 0, 0⟩ ∨ r.change = true →
        l.buttonChange b = Link.openTail { l with pointer := older ++ [{ r with isOpen := false }] } b true)) ∧
    ((∀ y ∈ l.pointer.getLast?, y.isOpen = false) → l.buttonChange b = l.openTail b true)

/-- The gesture queue: of records that arrive in turn, each is appended while the queue holds fewer than 16; those that arrive
at 16 are dropped, the records already queued stay, the gesture overrun flag is set and OVERRUN (cause 3) is latched (R160).
-/
def Obligations.GestureQueueDrops : Prop :=
  ∀ (l : Link) (arriving : List Gesture), l.gesture.length ≤ 16 →
    let kept := (arriving.take (16 - l.gesture.length)).map fun g => (⟨g, false⟩ : GestureRecord)
    (l.gesture.length + arriving.length ≤ 16 →
      arriving.foldl Link.appendGesture l = { l with gesture := l.gesture ++ kept }) ∧
    (16 < l.gesture.length + arriving.length →
      arriving.foldl Link.appendGesture l =
        { l with
          gesture := l.gesture ++ kept
          latched := l.latched ||| 8
          overrun := { l.overrun with gesture := true } })

/-! ## Laws that every step keeps -/

/-- Every step keeps the Contact Table sound: at most 10 entries of a surface, each slot once on a surface and each track id
once in the table, ids and counter 1..255, no entry undecided between commands, and the reported state fitting the class
(R20, R26, R27, R38, R56). -/
def Obligations.StepKeepsContactTable : Prop :=
  ∀ s t : State, s.contacts.sound → step s = .next t → t.contacts.sound

/-- The default of every table passes its validation, and every step keeps the active bank of every table valid, with every
pending shadow valid and both banks in their field ranges (R135, R137, R138). -/
def Obligations.StepKeepsTablesValid : Prop :=
  (∀ id, validate defaultTables id = none) ∧ ∀ s t : State, s.store.sound → step s = .next t → t.store.sound

/-- Every step keeps the queues within their capacities, what is in flight at their heads and nowhere outside an exchange, the
open tail as the newest pointer record, and the newest pointer record under the engine's button state (R146, R155 to R160). -/
def Obligations.StepKeepsQueues : Prop :=
  ∀ s t : State, s.linkSound → step s = .next t → t.linkSound

/-- Every step keeps the button state, the timers and the pointer contact as the gesture state implies them (section 5, head
table; R82, R89, R99). -/
def Obligations.StepKeepsGestureTable : Prop :=
  ∀ s t : State, s.engine.sound → step s = .next t → t.engine.sound

/-- Every step keeps a posture request pending exactly while the requested posture differs from the actual one, with the
deferral timer running exactly then (section 7.1, R125, R130). -/
def Obligations.StepKeepsPosture : Prop :=
  ∀ s t : State, s.posture.sound → step s = .next t → t.posture.sound

/-- Every step keeps the ports, the surfaces and the pen in agreement: one holder of each role, counted by its role while enabled or
by the role of its frame in processing (log entry 21), no contact and no pen in range without a stream and a posture that feed it,
counted from the completion of a frame in processing, no record under way on a DISABLED port, and every block, the debounce timer
and the link among them, at rest while RESETn is low (log entry 5) (R2, R4, R35, R106, R164, R168). -/
def Obligations.StepKeepsSurfacesFed : Prop :=
  ∀ s t : State, s.feedSound → step s = .next t → t.feedSound

/-- Every step keeps the motion values, the pointer records, the ceiling, the masks and the latched causes in their ranges, a
reply within 60 bytes, every cell at 64 bytes, and the bytes received as many as are counted (section 6.1, R112, R113, R146, R150,
R153, R159, R161). -/
def Obligations.StepKeepsValuesInRange : Prop :=
  ∀ s t : State, s.motionSound → s.link.settingsSound → s.link.cellSound → step s = .next t →
    t.motionSound ∧ t.link.settingsSound ∧ t.link.cellSound

/-- The state right after power-on reset satisfies every law that the steps keep, and asserts ATTNn with RESTARTED as the top
cause (R135, R164; the levels of the lines are the model's choice, log entry 2). -/
def Obligations.ResetIsSound : Prop :=
  State.reset.contacts.sound ∧ State.reset.store.sound ∧ State.reset.linkSound ∧ State.reset.engine.sound ∧
    State.reset.posture.sound ∧ State.reset.feedSound ∧ State.reset.motionSound ∧ State.reset.link.settingsSound ∧
    State.reset.link.cellSound ∧ State.reset.attention = true ∧ State.reset.topCause = 0
end

