-- ==== Sys2Proof/Laws/State.lean ====
section
/-! SUPPORT. The small lemmas of State: for each named update, what it writes where that is one expression, and every field that
it leaves as it is. -/

namespace Sys2Proof.Machine

/-! ## Plain updates -/

@[simp] theorem State.atTime_timebase (s : State) (t : Stamp) : (s.atTime t).timebase = t := rfl
@[simp] theorem State.atTime_pins (s : State) (t : Stamp) : (s.atTime t).pins = s.pins := rfl
@[simp] theorem State.atTime_ports (s : State) (t : Stamp) : (s.atTime t).ports = s.ports := rfl
@[simp] theorem State.atTime_aux (s : State) (t : Stamp) : (s.atTime t).aux = s.aux := rfl
@[simp] theorem State.atTime_contacts (s : State) (t : Stamp) : (s.atTime t).contacts = s.contacts := rfl
@[simp] theorem State.atTime_keyQuiet (s : State) (t : Stamp) : (s.atTime t).keyQuiet = s.keyQuiet := rfl
@[simp] theorem State.atTime_pen (s : State) (t : Stamp) : (s.atTime t).pen = s.pen := rfl
@[simp] theorem State.atTime_engine (s : State) (t : Stamp) : (s.atTime t).engine = s.engine := rfl
@[simp] theorem State.atTime_motion (s : State) (t : Stamp) : (s.atTime t).motion = s.motion := rfl
@[simp] theorem State.atTime_posture (s : State) (t : Stamp) : (s.atTime t).posture = s.posture := rfl
@[simp] theorem State.atTime_store (s : State) (t : Stamp) : (s.atTime t).store = s.store := rfl
@[simp] theorem State.atTime_link (s : State) (t : Stamp) : (s.atTime t).link = s.link := rfl
@[simp] theorem State.atTime_waits (s : State) (t : Stamp) : (s.atTime t).waits = s.waits := rfl
@[simp] theorem State.atTime_freeCount (s : State) (t : Stamp) : (s.atTime t).freeCount = s.freeCount := rfl
@[simp] theorem State.atTime_pending (s : State) (t : Stamp) : (s.atTime t).pending = s.pending := rfl

@[simp] theorem State.setPort_timebase (s : State) (i : Fin 4) (p : Port) : (s.setPort i p).timebase = s.timebase :=
  rfl
@[simp] theorem State.setPort_pins (s : State) (i : Fin 4) (p : Port) : (s.setPort i p).pins = s.pins := rfl
@[simp] theorem State.setPort_ports (s : State) (i : Fin 4) (p : Port) : (s.setPort i p).ports = s.ports.set i p :=
  rfl
@[simp] theorem State.setPort_aux (s : State) (i : Fin 4) (p : Port) : (s.setPort i p).aux = s.aux := rfl
@[simp] theorem State.setPort_contacts (s : State) (i : Fin 4) (p : Port) : (s.setPort i p).contacts = s.contacts :=
  rfl
@[simp] theorem State.setPort_keyQuiet (s : State) (i : Fin 4) (p : Port) : (s.setPort i p).keyQuiet = s.keyQuiet :=
  rfl
@[simp] theorem State.setPort_pen (s : State) (i : Fin 4) (p : Port) : (s.setPort i p).pen = s.pen := rfl
@[simp] theorem State.setPort_engine (s : State) (i : Fin 4) (p : Port) : (s.setPort i p).engine = s.engine := rfl
@[simp] theorem State.setPort_motion (s : State) (i : Fin 4) (p : Port) : (s.setPort i p).motion = s.motion := rfl
@[simp] theorem State.setPort_posture (s : State) (i : Fin 4) (p : Port) : (s.setPort i p).posture = s.posture := rfl
@[simp] theorem State.setPort_store (s : State) (i : Fin 4) (p : Port) : (s.setPort i p).store = s.store := rfl
@[simp] theorem State.setPort_link (s : State) (i : Fin 4) (p : Port) : (s.setPort i p).link = s.link := rfl
@[simp] theorem State.setPort_waits (s : State) (i : Fin 4) (p : Port) : (s.setPort i p).waits = s.waits := rfl
@[simp] theorem State.setPort_freeCount (s : State) (i : Fin 4) (p : Port) : (s.setPort i p).freeCount = s.freeCount :=
  rfl
@[simp] theorem State.setPort_pending (s : State) (i : Fin 4) (p : Port) : (s.setPort i p).pending = s.pending := rfl

@[simp] theorem State.latch_timebase (s : State) (c : Cause) : (s.latch c).timebase = s.timebase := rfl
@[simp] theorem State.latch_pins (s : State) (c : Cause) : (s.latch c).pins = s.pins := rfl
@[simp] theorem State.latch_ports (s : State) (c : Cause) : (s.latch c).ports = s.ports := rfl
@[simp] theorem State.latch_aux (s : State) (c : Cause) : (s.latch c).aux = s.aux := rfl
@[simp] theorem State.latch_contacts (s : State) (c : Cause) : (s.latch c).contacts = s.contacts := rfl
@[simp] theorem State.latch_keyQuiet (s : State) (c : Cause) : (s.latch c).keyQuiet = s.keyQuiet := rfl
@[simp] theorem State.latch_pen (s : State) (c : Cause) : (s.latch c).pen = s.pen := rfl
@[simp] theorem State.latch_engine (s : State) (c : Cause) : (s.latch c).engine = s.engine := rfl
@[simp] theorem State.latch_motion (s : State) (c : Cause) : (s.latch c).motion = s.motion := rfl
@[simp] theorem State.latch_posture (s : State) (c : Cause) : (s.latch c).posture = s.posture := rfl
@[simp] theorem State.latch_store (s : State) (c : Cause) : (s.latch c).store = s.store := rfl
@[simp] theorem State.latch_link (s : State) (c : Cause) : (s.latch c).link = s.link.latch c := rfl
@[simp] theorem State.latch_waits (s : State) (c : Cause) : (s.latch c).waits = s.waits := rfl
@[simp] theorem State.latch_freeCount (s : State) (c : Cause) : (s.latch c).freeCount = s.freeCount := rfl
@[simp] theorem State.latch_pending (s : State) (c : Cause) : (s.latch c).pending = s.pending := rfl

@[simp] theorem State.reply_timebase (s : State) (k : Byte) (b : ReplyBody) : (s.reply k b).timebase = s.timebase :=
  rfl
@[simp] theorem State.reply_pins (s : State) (k : Byte) (b : ReplyBody) : (s.reply k b).pins = s.pins := rfl
@[simp] theorem State.reply_ports (s : State) (k : Byte) (b : ReplyBody) : (s.reply k b).ports = s.ports := rfl
@[simp] theorem State.reply_aux (s : State) (k : Byte) (b : ReplyBody) : (s.reply k b).aux = s.aux := rfl
@[simp] theorem State.reply_contacts (s : State) (k : Byte) (b : ReplyBody) : (s.reply k b).contacts = s.contacts :=
  rfl
@[simp] theorem State.reply_keyQuiet (s : State) (k : Byte) (b : ReplyBody) : (s.reply k b).keyQuiet = s.keyQuiet :=
  rfl
@[simp] theorem State.reply_pen (s : State) (k : Byte) (b : ReplyBody) : (s.reply k b).pen = s.pen := rfl
@[simp] theorem State.reply_engine (s : State) (k : Byte) (b : ReplyBody) : (s.reply k b).engine = s.engine := rfl
@[simp] theorem State.reply_motion (s : State) (k : Byte) (b : ReplyBody) : (s.reply k b).motion = s.motion := rfl
@[simp] theorem State.reply_posture (s : State) (k : Byte) (b : ReplyBody) : (s.reply k b).posture = s.posture := rfl
@[simp] theorem State.reply_store (s : State) (k : Byte) (b : ReplyBody) : (s.reply k b).store = s.store := rfl
@[simp] theorem State.reply_link (s : State) (k : Byte) (b : ReplyBody) : (s.reply k b).link = { s.link with reply := some ⟨k, b, false⟩ } :=
  rfl
@[simp] theorem State.reply_waits (s : State) (k : Byte) (b : ReplyBody) : (s.reply k b).waits = s.waits := rfl
@[simp] theorem State.reply_freeCount (s : State) (k : Byte) (b : ReplyBody) : (s.reply k b).freeCount = s.freeCount :=
  rfl
@[simp] theorem State.reply_pending (s : State) (k : Byte) (b : ReplyBody) : (s.reply k b).pending = s.pending := rfl

@[simp] theorem State.sampleClick_timebase (s : State) : s.sampleClick.timebase = s.timebase := rfl
@[simp] theorem State.sampleClick_pins (s : State) : s.sampleClick.pins = s.pins := rfl
@[simp] theorem State.sampleClick_ports (s : State) : s.sampleClick.ports = s.ports := rfl
@[simp] theorem State.sampleClick_aux (s : State) : s.sampleClick.aux = { s.aux with accepted := s.pins.click } := rfl
@[simp] theorem State.sampleClick_contacts (s : State) : s.sampleClick.contacts = s.contacts := rfl
@[simp] theorem State.sampleClick_keyQuiet (s : State) : s.sampleClick.keyQuiet = s.keyQuiet := rfl
@[simp] theorem State.sampleClick_pen (s : State) : s.sampleClick.pen = s.pen := rfl
@[simp] theorem State.sampleClick_engine (s : State) : s.sampleClick.engine = s.engine := rfl
@[simp] theorem State.sampleClick_motion (s : State) : s.sampleClick.motion = s.motion := rfl
@[simp] theorem State.sampleClick_posture (s : State) : s.sampleClick.posture = s.posture := rfl
@[simp] theorem State.sampleClick_store (s : State) : s.sampleClick.store = s.store := rfl
@[simp] theorem State.sampleClick_link (s : State) : s.sampleClick.link = s.link := rfl
@[simp] theorem State.sampleClick_waits (s : State) : s.sampleClick.waits = s.waits := rfl
@[simp] theorem State.sampleClick_freeCount (s : State) : s.sampleClick.freeCount = s.freeCount := rfl
@[simp] theorem State.sampleClick_pending (s : State) : s.sampleClick.pending = s.pending := rfl

@[simp] theorem State.completeExchange_timebase (s : State) : s.completeExchange.timebase = s.timebase := rfl
@[simp] theorem State.completeExchange_pins (s : State) : s.completeExchange.pins = s.pins := rfl
@[simp] theorem State.completeExchange_ports (s : State) : s.completeExchange.ports = s.ports := rfl
@[simp] theorem State.completeExchange_aux (s : State) : s.completeExchange.aux = s.aux := rfl
@[simp] theorem State.completeExchange_contacts (s : State) : s.completeExchange.contacts = s.contacts := rfl
@[simp] theorem State.completeExchange_keyQuiet (s : State) : s.completeExchange.keyQuiet = s.keyQuiet := rfl
@[simp] theorem State.completeExchange_pen (s : State) : s.completeExchange.pen = s.pen := rfl
@[simp] theorem State.completeExchange_engine (s : State) : s.completeExchange.engine = s.engine := rfl
@[simp] theorem State.completeExchange_motion (s : State) : s.completeExchange.motion = s.motion := rfl
@[simp] theorem State.completeExchange_posture (s : State) : s.completeExchange.posture = s.posture := rfl
@[simp] theorem State.completeExchange_store (s : State) : s.completeExchange.store = s.store := rfl
@[simp] theorem State.completeExchange_waits (s : State) : s.completeExchange.waits = s.waits := rfl
@[simp] theorem State.completeExchange_freeCount (s : State) : s.completeExchange.freeCount = s.freeCount := rfl
@[simp] theorem State.completeExchange_pending (s : State) : s.completeExchange.pending = s.pending := rfl

@[simp] theorem State.truncate_timebase (s : State) : s.truncate.timebase = s.timebase := rfl
@[simp] theorem State.truncate_pins (s : State) : s.truncate.pins = s.pins := rfl
@[simp] theorem State.truncate_ports (s : State) : s.truncate.ports = s.ports := rfl
@[simp] theorem State.truncate_aux (s : State) : s.truncate.aux = s.aux := rfl
@[simp] theorem State.truncate_contacts (s : State) : s.truncate.contacts = s.contacts := rfl
@[simp] theorem State.truncate_keyQuiet (s : State) : s.truncate.keyQuiet = s.keyQuiet := rfl
@[simp] theorem State.truncate_pen (s : State) : s.truncate.pen = s.pen := rfl
@[simp] theorem State.truncate_engine (s : State) : s.truncate.engine = s.engine := rfl
@[simp] theorem State.truncate_motion (s : State) : s.truncate.motion = s.motion := rfl
@[simp] theorem State.truncate_posture (s : State) : s.truncate.posture = s.posture := rfl
@[simp] theorem State.truncate_store (s : State) : s.truncate.store = s.store := rfl
@[simp] theorem State.truncate_waits (s : State) : s.truncate.waits = s.waits := rfl
@[simp] theorem State.truncate_freeCount (s : State) : s.truncate.freeCount = s.freeCount := rfl
@[simp] theorem State.truncate_pending (s : State) : s.truncate.pending = s.pending := rfl

@[simp] theorem State.fill_timebase (s : State) : s.fill.timebase = s.timebase := rfl
@[simp] theorem State.fill_pins (s : State) : s.fill.pins = s.pins := rfl
@[simp] theorem State.fill_ports (s : State) : s.fill.ports = s.ports := rfl
@[simp] theorem State.fill_aux (s : State) : s.fill.aux = s.aux := rfl
@[simp] theorem State.fill_contacts (s : State) : s.fill.contacts = s.contacts := rfl
@[simp] theorem State.fill_keyQuiet (s : State) : s.fill.keyQuiet = s.keyQuiet := rfl
@[simp] theorem State.fill_pen (s : State) : s.fill.pen = s.pen := rfl
@[simp] theorem State.fill_engine (s : State) : s.fill.engine = s.engine := rfl
@[simp] theorem State.fill_motion (s : State) : s.fill.motion = s.motion := rfl
@[simp] theorem State.fill_posture (s : State) : s.fill.posture = s.posture := rfl
@[simp] theorem State.fill_store (s : State) : s.fill.store = s.store := rfl
@[simp] theorem State.fill_waits (s : State) : s.fill.waits = s.waits := rfl
@[simp] theorem State.fill_freeCount (s : State) : s.fill.freeCount = s.freeCount := rfl
@[simp] theorem State.fill_pending (s : State) : s.fill.pending = s.pending := rfl

@[simp] theorem State.appendScreens_timebase (s : State) (rs : List TouchRecord) : (s.appendScreens rs).timebase = s.timebase :=
  rfl
@[simp] theorem State.appendScreens_pins (s : State) (rs : List TouchRecord) : (s.appendScreens rs).pins = s.pins :=
  rfl
@[simp] theorem State.appendScreens_ports (s : State) (rs : List TouchRecord) : (s.appendScreens rs).ports = s.ports :=
  rfl
@[simp] theorem State.appendScreens_aux (s : State) (rs : List TouchRecord) : (s.appendScreens rs).aux = s.aux := rfl
@[simp] theorem State.appendScreens_contacts (s : State) (rs : List TouchRecord) : (s.appendScreens rs).contacts = s.contacts :=
  rfl
@[simp] theorem State.appendScreens_keyQuiet (s : State) (rs : List TouchRecord) : (s.appendScreens rs).keyQuiet = s.keyQuiet :=
  rfl
@[simp] theorem State.appendScreens_pen (s : State) (rs : List TouchRecord) : (s.appendScreens rs).pen = s.pen := rfl
@[simp] theorem State.appendScreens_engine (s : State) (rs : List TouchRecord) : (s.appendScreens rs).engine = s.engine :=
  rfl
@[simp] theorem State.appendScreens_motion (s : State) (rs : List TouchRecord) : (s.appendScreens rs).motion = s.motion :=
  rfl
@[simp] theorem State.appendScreens_posture (s : State) (rs : List TouchRecord) : (s.appendScreens rs).posture = s.posture :=
  rfl
@[simp] theorem State.appendScreens_store (s : State) (rs : List TouchRecord) : (s.appendScreens rs).store = s.store :=
  rfl
@[simp] theorem State.appendScreens_link (s : State) (rs : List TouchRecord) : (s.appendScreens rs).link = rs.foldl Link.appendScreen s.link :=
  rfl
@[simp] theorem State.appendScreens_waits (s : State) (rs : List TouchRecord) : (s.appendScreens rs).waits = s.waits :=
  rfl
@[simp] theorem State.appendScreens_freeCount (s : State) (rs : List TouchRecord) : (s.appendScreens rs).freeCount = s.freeCount :=
  rfl
@[simp] theorem State.appendScreens_pending (s : State) (rs : List TouchRecord) : (s.appendScreens rs).pending = s.pending :=
  rfl

@[simp] theorem State.pens_timebase (s : State) (f : Pen → PenWork) : (s.pens f).timebase = s.timebase := rfl
@[simp] theorem State.pens_pins (s : State) (f : Pen → PenWork) : (s.pens f).pins = s.pins := rfl
@[simp] theorem State.pens_ports (s : State) (f : Pen → PenWork) : (s.pens f).ports = s.ports := rfl
@[simp] theorem State.pens_aux (s : State) (f : Pen → PenWork) : (s.pens f).aux = s.aux := rfl
@[simp] theorem State.pens_contacts (s : State) (f : Pen → PenWork) : (s.pens f).contacts = s.contacts := rfl
@[simp] theorem State.pens_keyQuiet (s : State) (f : Pen → PenWork) : (s.pens f).keyQuiet = s.keyQuiet := rfl
@[simp] theorem State.pens_pen (s : State) (f : Pen → PenWork) : (s.pens f).pen = (f s.pen).pen := rfl
@[simp] theorem State.pens_engine (s : State) (f : Pen → PenWork) : (s.pens f).engine = s.engine := rfl
@[simp] theorem State.pens_motion (s : State) (f : Pen → PenWork) : (s.pens f).motion = s.motion := rfl
@[simp] theorem State.pens_posture (s : State) (f : Pen → PenWork) : (s.pens f).posture = s.posture := rfl
@[simp] theorem State.pens_store (s : State) (f : Pen → PenWork) : (s.pens f).store = s.store := rfl
@[simp] theorem State.pens_link (s : State) (f : Pen → PenWork) : (s.pens f).link = (f s.pen).out.foldl Link.appendPen s.link :=
  rfl
@[simp] theorem State.pens_waits (s : State) (f : Pen → PenWork) : (s.pens f).waits = s.waits := rfl
@[simp] theorem State.pens_freeCount (s : State) (f : Pen → PenWork) : (s.pens f).freeCount = s.freeCount := rfl
@[simp] theorem State.pens_pending (s : State) (f : Pen → PenWork) : (s.pens f).pending = s.pending := rfl

@[simp] theorem State.pads_timebase (s : State) (f : Work → Work) : (s.pads f).timebase = s.timebase := rfl
@[simp] theorem State.pads_pins (s : State) (f : Work → Work) : (s.pads f).pins = s.pins := rfl
@[simp] theorem State.pads_ports (s : State) (f : Work → Work) : (s.pads f).ports = s.ports := rfl
@[simp] theorem State.pads_aux (s : State) (f : Work → Work) : (s.pads f).aux = s.aux := rfl
@[simp] theorem State.pads_contacts (s : State) (f : Work → Work) : (s.pads f).contacts = s.contacts := rfl
@[simp] theorem State.pads_keyQuiet (s : State) (f : Work → Work) : (s.pads f).keyQuiet = s.keyQuiet := rfl
@[simp] theorem State.pads_pen (s : State) (f : Work → Work) : (s.pads f).pen = s.pen := rfl
@[simp] theorem State.pads_engine (s : State) (f : Work → Work) : (s.pads f).engine = (f ⟨s.engine, s.motion, []⟩).e :=
  rfl
@[simp] theorem State.pads_motion (s : State) (f : Work → Work) : (s.pads f).motion = (f ⟨s.engine, s.motion, []⟩).m :=
  rfl
@[simp] theorem State.pads_posture (s : State) (f : Work → Work) : (s.pads f).posture = s.posture := rfl
@[simp] theorem State.pads_store (s : State) (f : Work → Work) : (s.pads f).store = s.store := rfl
@[simp] theorem State.pads_link (s : State) (f : Work → Work) : (s.pads f).link = s.link.takeAll (f ⟨s.engine, s.motion, []⟩).out :=
  rfl
@[simp] theorem State.pads_waits (s : State) (f : Work → Work) : (s.pads f).waits = s.waits := rfl
@[simp] theorem State.pads_freeCount (s : State) (f : Work → Work) : (s.pads f).freeCount = s.freeCount := rfl
@[simp] theorem State.pads_pending (s : State) (f : Work → Work) : (s.pads f).pending = s.pending := rfl

@[simp] theorem State.buffer_timebase (s : State) (i : Fin 4) (r : Stamped) : (s.buffer i r).timebase = s.timebase :=
  rfl
@[simp] theorem State.buffer_pins (s : State) (i : Fin 4) (r : Stamped) : (s.buffer i r).pins = s.pins := rfl
@[simp] theorem State.buffer_aux (s : State) (i : Fin 4) (r : Stamped) : (s.buffer i r).aux = s.aux := rfl
@[simp] theorem State.buffer_contacts (s : State) (i : Fin 4) (r : Stamped) : (s.buffer i r).contacts = s.contacts :=
  rfl
@[simp] theorem State.buffer_keyQuiet (s : State) (i : Fin 4) (r : Stamped) : (s.buffer i r).keyQuiet = s.keyQuiet :=
  rfl
@[simp] theorem State.buffer_pen (s : State) (i : Fin 4) (r : Stamped) : (s.buffer i r).pen = s.pen := rfl
@[simp] theorem State.buffer_engine (s : State) (i : Fin 4) (r : Stamped) : (s.buffer i r).engine = s.engine := rfl
@[simp] theorem State.buffer_motion (s : State) (i : Fin 4) (r : Stamped) : (s.buffer i r).motion = s.motion := rfl
@[simp] theorem State.buffer_posture (s : State) (i : Fin 4) (r : Stamped) : (s.buffer i r).posture = s.posture := rfl
@[simp] theorem State.buffer_store (s : State) (i : Fin 4) (r : Stamped) : (s.buffer i r).store = s.store := rfl
@[simp] theorem State.buffer_link (s : State) (i : Fin 4) (r : Stamped) : (s.buffer i r).link = s.link := rfl
@[simp] theorem State.buffer_waits (s : State) (i : Fin 4) (r : Stamped) : (s.buffer i r).waits = s.waits := rfl
@[simp] theorem State.buffer_freeCount (s : State) (i : Fin 4) (r : Stamped) : (s.buffer i r).freeCount = s.freeCount :=
  rfl
@[simp] theorem State.buffer_pending (s : State) (i : Fin 4) (r : Stamped) : (s.buffer i r).pending = s.pending := rfl

/-! ## Holds and teardowns: what they leave -/

@[simp] theorem State.hold_timebase (s : State) (b : Bool) (r : Role) : (s.hold b r).timebase = s.timebase :=
  by cases r <;> rfl
@[simp] theorem State.hold_pins (s : State) (b : Bool) (r : Role) : (s.hold b r).pins = s.pins := by cases r <;> rfl
@[simp] theorem State.hold_ports (s : State) (b : Bool) (r : Role) : (s.hold b r).ports = s.ports :=
  by cases r <;> rfl
@[simp] theorem State.hold_aux (s : State) (b : Bool) (r : Role) : (s.hold b r).aux = s.aux := by cases r <;> rfl
@[simp] theorem State.hold_keyQuiet (s : State) (b : Bool) (r : Role) : (s.hold b r).keyQuiet = s.keyQuiet :=
  by cases r <;> rfl
@[simp] theorem State.hold_engine (s : State) (b : Bool) (r : Role) : (s.hold b r).engine = s.engine :=
  by cases r <;> rfl
@[simp] theorem State.hold_motion (s : State) (b : Bool) (r : Role) : (s.hold b r).motion = s.motion :=
  by cases r <;> rfl
@[simp] theorem State.hold_posture (s : State) (b : Bool) (r : Role) : (s.hold b r).posture = s.posture :=
  by cases r <;> rfl
@[simp] theorem State.hold_store (s : State) (b : Bool) (r : Role) : (s.hold b r).store = s.store :=
  by cases r <;> rfl
@[simp] theorem State.hold_link (s : State) (b : Bool) (r : Role) : (s.hold b r).link = s.link := by cases r <;> rfl
@[simp] theorem State.hold_waits (s : State) (b : Bool) (r : Role) : (s.hold b r).waits = s.waits :=
  by cases r <;> rfl
@[simp] theorem State.hold_freeCount (s : State) (b : Bool) (r : Role) : (s.hold b r).freeCount = s.freeCount :=
  by cases r <;> rfl
@[simp] theorem State.hold_pending (s : State) (b : Bool) (r : Role) : (s.hold b r).pending = s.pending :=
  by cases r <;> rfl

@[simp] theorem State.tearPad_timebase (s : State) : s.tearPad.timebase = s.timebase := rfl
@[simp] theorem State.tearPad_pins (s : State) : s.tearPad.pins = s.pins := rfl
@[simp] theorem State.tearPad_ports (s : State) : s.tearPad.ports = s.ports := rfl
@[simp] theorem State.tearPad_aux (s : State) : s.tearPad.aux = s.aux := rfl
@[simp] theorem State.tearPad_contacts (s : State) : s.tearPad.contacts = { s.contacts with pad := [] } := rfl
@[simp] theorem State.tearPad_keyQuiet (s : State) : s.tearPad.keyQuiet = s.keyQuiet := rfl
@[simp] theorem State.tearPad_pen (s : State) : s.tearPad.pen = s.pen := rfl
@[simp] theorem State.tearPad_posture (s : State) : s.tearPad.posture = s.posture := rfl
@[simp] theorem State.tearPad_store (s : State) : s.tearPad.store = s.store := rfl
@[simp] theorem State.tearPad_waits (s : State) : s.tearPad.waits = s.waits := rfl
@[simp] theorem State.tearPad_freeCount (s : State) : s.tearPad.freeCount = s.freeCount := rfl
@[simp] theorem State.tearPad_pending (s : State) : s.tearPad.pending = s.pending := rfl

@[simp] theorem State.tearScreen_timebase (s : State) : s.tearScreen.timebase = s.timebase := rfl
@[simp] theorem State.tearScreen_pins (s : State) : s.tearScreen.pins = s.pins := rfl
@[simp] theorem State.tearScreen_ports (s : State) : s.tearScreen.ports = s.ports := rfl
@[simp] theorem State.tearScreen_aux (s : State) : s.tearScreen.aux = s.aux := rfl
@[simp] theorem State.tearScreen_contacts (s : State) : s.tearScreen.contacts = { s.contacts with screen := [] } :=
  rfl
@[simp] theorem State.tearScreen_keyQuiet (s : State) : s.tearScreen.keyQuiet = s.keyQuiet := rfl
@[simp] theorem State.tearScreen_pen (s : State) : s.tearScreen.pen = s.pen := rfl
@[simp] theorem State.tearScreen_engine (s : State) : s.tearScreen.engine = s.engine := rfl
@[simp] theorem State.tearScreen_motion (s : State) : s.tearScreen.motion = s.motion := rfl
@[simp] theorem State.tearScreen_posture (s : State) : s.tearScreen.posture = s.posture := rfl
@[simp] theorem State.tearScreen_store (s : State) : s.tearScreen.store = s.store := rfl
@[simp] theorem State.tearScreen_waits (s : State) : s.tearScreen.waits = s.waits := rfl
@[simp] theorem State.tearScreen_freeCount (s : State) : s.tearScreen.freeCount = s.freeCount := rfl
@[simp] theorem State.tearScreen_pending (s : State) : s.tearScreen.pending = s.pending := rfl

@[simp] theorem State.tearPen_timebase (s : State) (k : PenTeardown) : (s.tearPen k).timebase = s.timebase :=
  by cases k <;> rfl
@[simp] theorem State.tearPen_pins (s : State) (k : PenTeardown) : (s.tearPen k).pins = s.pins := by cases k <;> rfl
@[simp] theorem State.tearPen_ports (s : State) (k : PenTeardown) : (s.tearPen k).ports = s.ports :=
  by cases k <;> rfl
@[simp] theorem State.tearPen_aux (s : State) (k : PenTeardown) : (s.tearPen k).aux = s.aux := by cases k <;> rfl
@[simp] theorem State.tearPen_contacts (s : State) (k : PenTeardown) : (s.tearPen k).contacts = s.contacts :=
  by cases k <;> rfl
@[simp] theorem State.tearPen_keyQuiet (s : State) (k : PenTeardown) : (s.tearPen k).keyQuiet = s.keyQuiet :=
  by cases k <;> rfl
@[simp] theorem State.tearPen_engine (s : State) (k : PenTeardown) : (s.tearPen k).engine = s.engine :=
  by cases k <;> rfl
@[simp] theorem State.tearPen_motion (s : State) (k : PenTeardown) : (s.tearPen k).motion = s.motion :=
  by cases k <;> rfl
@[simp] theorem State.tearPen_posture (s : State) (k : PenTeardown) : (s.tearPen k).posture = s.posture :=
  by cases k <;> rfl
@[simp] theorem State.tearPen_store (s : State) (k : PenTeardown) : (s.tearPen k).store = s.store :=
  by cases k <;> rfl
@[simp] theorem State.tearPen_waits (s : State) (k : PenTeardown) : (s.tearPen k).waits = s.waits :=
  by cases k <;> rfl
@[simp] theorem State.tearPen_freeCount (s : State) (k : PenTeardown) : (s.tearPen k).freeCount = s.freeCount :=
  by cases k <;> rfl
@[simp] theorem State.tearPen_pending (s : State) (k : PenTeardown) : (s.tearPen k).pending = s.pending :=
  by cases k <;> rfl

@[simp] theorem State.requestPad_timebase (s : State) : s.requestPad.timebase = s.timebase :=
  by unfold State.requestPad; split <;> simp
@[simp] theorem State.requestPad_pins (s : State) : s.requestPad.pins = s.pins :=
  by unfold State.requestPad; split <;> simp
@[simp] theorem State.requestPad_ports (s : State) : s.requestPad.ports = s.ports :=
  by unfold State.requestPad; split <;> simp
@[simp] theorem State.requestPad_aux (s : State) : s.requestPad.aux = s.aux :=
  by unfold State.requestPad; split <;> simp
@[simp] theorem State.requestPad_keyQuiet (s : State) : s.requestPad.keyQuiet = s.keyQuiet :=
  by unfold State.requestPad; split <;> simp
@[simp] theorem State.requestPad_pen (s : State) : s.requestPad.pen = s.pen :=
  by unfold State.requestPad; split <;> simp
@[simp] theorem State.requestPad_posture (s : State) : s.requestPad.posture = s.posture :=
  by unfold State.requestPad; split <;> simp
@[simp] theorem State.requestPad_store (s : State) : s.requestPad.store = s.store :=
  by unfold State.requestPad; split <;> simp
@[simp] theorem State.requestPad_freeCount (s : State) : s.requestPad.freeCount = s.freeCount :=
  by unfold State.requestPad; split <;> simp
@[simp] theorem State.requestPad_pending (s : State) : s.requestPad.pending = s.pending :=
  by unfold State.requestPad; split <;> simp

@[simp] theorem State.requestScreen_timebase (s : State) : s.requestScreen.timebase = s.timebase :=
  by unfold State.requestScreen; split <;> simp
@[simp] theorem State.requestScreen_pins (s : State) : s.requestScreen.pins = s.pins :=
  by unfold State.requestScreen; split <;> simp
@[simp] theorem State.requestScreen_ports (s : State) : s.requestScreen.ports = s.ports :=
  by unfold State.requestScreen; split <;> simp
@[simp] theorem State.requestScreen_aux (s : State) : s.requestScreen.aux = s.aux :=
  by unfold State.requestScreen; split <;> simp
@[simp] theorem State.requestScreen_keyQuiet (s : State) : s.requestScreen.keyQuiet = s.keyQuiet :=
  by unfold State.requestScreen; split <;> simp
@[simp] theorem State.requestScreen_pen (s : State) : s.requestScreen.pen = s.pen :=
  by unfold State.requestScreen; split <;> simp
@[simp] theorem State.requestScreen_engine (s : State) : s.requestScreen.engine = s.engine :=
  by unfold State.requestScreen; split <;> simp
@[simp] theorem State.requestScreen_motion (s : State) : s.requestScreen.motion = s.motion :=
  by unfold State.requestScreen; split <;> simp
@[simp] theorem State.requestScreen_posture (s : State) : s.requestScreen.posture = s.posture :=
  by unfold State.requestScreen; split <;> simp
@[simp] theorem State.requestScreen_store (s : State) : s.requestScreen.store = s.store :=
  by unfold State.requestScreen; split <;> simp
@[simp] theorem State.requestScreen_freeCount (s : State) : s.requestScreen.freeCount = s.freeCount :=
  by unfold State.requestScreen; split <;> simp
@[simp] theorem State.requestScreen_pending (s : State) : s.requestScreen.pending = s.pending :=
  by unfold State.requestScreen; split <;> simp

@[simp] theorem State.requestPen_timebase (s : State) (k : PenTeardown) : (s.requestPen k).timebase = s.timebase :=
  by unfold State.requestPen; split <;> simp
@[simp] theorem State.requestPen_pins (s : State) (k : PenTeardown) : (s.requestPen k).pins = s.pins :=
  by unfold State.requestPen; split <;> simp
@[simp] theorem State.requestPen_ports (s : State) (k : PenTeardown) : (s.requestPen k).ports = s.ports :=
  by unfold State.requestPen; split <;> simp
@[simp] theorem State.requestPen_aux (s : State) (k : PenTeardown) : (s.requestPen k).aux = s.aux :=
  by unfold State.requestPen; split <;> simp
@[simp] theorem State.requestPen_contacts (s : State) (k : PenTeardown) : (s.requestPen k).contacts = s.contacts :=
  by unfold State.requestPen; split <;> simp
@[simp] theorem State.requestPen_keyQuiet (s : State) (k : PenTeardown) : (s.requestPen k).keyQuiet = s.keyQuiet :=
  by unfold State.requestPen; split <;> simp
@[simp] theorem State.requestPen_engine (s : State) (k : PenTeardown) : (s.requestPen k).engine = s.engine :=
  by unfold State.requestPen; split <;> simp
@[simp] theorem State.requestPen_motion (s : State) (k : PenTeardown) : (s.requestPen k).motion = s.motion :=
  by unfold State.requestPen; split <;> simp
@[simp] theorem State.requestPen_posture (s : State) (k : PenTeardown) : (s.requestPen k).posture = s.posture :=
  by unfold State.requestPen; split <;> simp
@[simp] theorem State.requestPen_store (s : State) (k : PenTeardown) : (s.requestPen k).store = s.store :=
  by unfold State.requestPen; split <;> simp
@[simp] theorem State.requestPen_freeCount (s : State) (k : PenTeardown) : (s.requestPen k).freeCount = s.freeCount :=
  by unfold State.requestPen; split <;> simp
@[simp] theorem State.requestPen_pending (s : State) (k : PenTeardown) : (s.requestPen k).pending = s.pending :=
  by unfold State.requestPen; split <;> simp

@[simp] theorem State.requestRole_timebase (s : State) (r : Role) : (s.requestRole r).timebase = s.timebase :=
  by cases r <;> simp [State.requestRole]
@[simp] theorem State.requestRole_pins (s : State) (r : Role) : (s.requestRole r).pins = s.pins :=
  by cases r <;> simp [State.requestRole]
@[simp] theorem State.requestRole_ports (s : State) (r : Role) : (s.requestRole r).ports = s.ports :=
  by cases r <;> simp [State.requestRole]
@[simp] theorem State.requestRole_aux (s : State) (r : Role) : (s.requestRole r).aux = s.aux :=
  by cases r <;> simp [State.requestRole]
@[simp] theorem State.requestRole_keyQuiet (s : State) (r : Role) : (s.requestRole r).keyQuiet = s.keyQuiet :=
  by cases r <;> simp [State.requestRole]
@[simp] theorem State.requestRole_posture (s : State) (r : Role) : (s.requestRole r).posture = s.posture :=
  by cases r <;> simp [State.requestRole]
@[simp] theorem State.requestRole_store (s : State) (r : Role) : (s.requestRole r).store = s.store :=
  by cases r <;> simp [State.requestRole]
@[simp] theorem State.requestRole_freeCount (s : State) (r : Role) : (s.requestRole r).freeCount = s.freeCount :=
  by cases r <;> simp [State.requestRole]
@[simp] theorem State.requestRole_pending (s : State) (r : Role) : (s.requestRole r).pending = s.pending :=
  by cases r <;> simp [State.requestRole]

@[simp] theorem State.leaveUse_timebase (s : State) (old new : Posture) : (s.leaveUse old new).timebase = s.timebase :=
  by unfold State.leaveUse; dsimp only; split <;> split <;> simp
@[simp] theorem State.leaveUse_pins (s : State) (old new : Posture) : (s.leaveUse old new).pins = s.pins :=
  by unfold State.leaveUse; dsimp only; split <;> split <;> simp
@[simp] theorem State.leaveUse_ports (s : State) (old new : Posture) : (s.leaveUse old new).ports = s.ports :=
  by unfold State.leaveUse; dsimp only; split <;> split <;> simp
@[simp] theorem State.leaveUse_aux (s : State) (old new : Posture) : (s.leaveUse old new).aux = s.aux :=
  by unfold State.leaveUse; dsimp only; split <;> split <;> simp
@[simp] theorem State.leaveUse_keyQuiet (s : State) (old new : Posture) : (s.leaveUse old new).keyQuiet = s.keyQuiet :=
  by unfold State.leaveUse; dsimp only; split <;> split <;> simp
@[simp] theorem State.leaveUse_posture (s : State) (old new : Posture) : (s.leaveUse old new).posture = s.posture :=
  by unfold State.leaveUse; dsimp only; split <;> split <;> simp
@[simp] theorem State.leaveUse_store (s : State) (old new : Posture) : (s.leaveUse old new).store = s.store :=
  by unfold State.leaveUse; dsimp only; split <;> split <;> simp
@[simp] theorem State.leaveUse_freeCount (s : State) (old new : Posture) : (s.leaveUse old new).freeCount = s.freeCount :=
  by unfold State.leaveUse; dsimp only; split <;> split <;> simp
@[simp] theorem State.leaveUse_pending (s : State) (old new : Posture) : (s.leaveUse old new).pending = s.pending :=
  by unfold State.leaveUse; dsimp only; split <;> split <;> simp

@[simp] theorem State.switch_timebase (s : State) (b : Bool) : (s.switch b).timebase = s.timebase :=
  by unfold State.switch; dsimp only; split <;> simp
@[simp] theorem State.switch_pins (s : State) (b : Bool) : (s.switch b).pins = s.pins :=
  by unfold State.switch; dsimp only; split <;> simp
@[simp] theorem State.switch_ports (s : State) (b : Bool) : (s.switch b).ports = s.ports :=
  by unfold State.switch; dsimp only; split <;> simp
@[simp] theorem State.switch_keyQuiet (s : State) (b : Bool) : (s.switch b).keyQuiet = s.keyQuiet :=
  by unfold State.switch; dsimp only; split <;> simp
@[simp] theorem State.switch_store (s : State) (b : Bool) : (s.switch b).store = s.store :=
  by unfold State.switch; dsimp only; split <;> simp
@[simp] theorem State.switch_freeCount (s : State) (b : Bool) : (s.switch b).freeCount = s.freeCount :=
  by unfold State.switch; dsimp only; split <;> simp
@[simp] theorem State.switch_pending (s : State) (b : Bool) : (s.switch b).pending = s.pending :=
  by unfold State.switch; dsimp only; split <;> simp

@[simp] theorem State.judgeQuiet_timebase (s : State) : s.judgeQuiet.timebase = s.timebase :=
  by unfold State.judgeQuiet; split <;> simp
@[simp] theorem State.judgeQuiet_pins (s : State) : s.judgeQuiet.pins = s.pins :=
  by unfold State.judgeQuiet; split <;> simp
@[simp] theorem State.judgeQuiet_ports (s : State) : s.judgeQuiet.ports = s.ports :=
  by unfold State.judgeQuiet; split <;> simp
@[simp] theorem State.judgeQuiet_keyQuiet (s : State) : s.judgeQuiet.keyQuiet = s.keyQuiet :=
  by unfold State.judgeQuiet; split <;> simp
@[simp] theorem State.judgeQuiet_store (s : State) : s.judgeQuiet.store = s.store :=
  by unfold State.judgeQuiet; split <;> simp
@[simp] theorem State.judgeQuiet_freeCount (s : State) : s.judgeQuiet.freeCount = s.freeCount :=
  by unfold State.judgeQuiet; split <;> simp
@[simp] theorem State.judgeQuiet_pending (s : State) : s.judgeQuiet.pending = s.pending :=
  by unfold State.judgeQuiet; split <;> simp

@[simp] theorem State.askTeardown_timebase (s : State) (r : Role) : (s.askTeardown r).timebase = s.timebase :=
  by unfold State.askTeardown; split <;> simp
@[simp] theorem State.askTeardown_pins (s : State) (r : Role) : (s.askTeardown r).pins = s.pins :=
  by unfold State.askTeardown; split <;> simp
@[simp] theorem State.askTeardown_ports (s : State) (r : Role) : (s.askTeardown r).ports = s.ports :=
  by unfold State.askTeardown; split <;> simp
@[simp] theorem State.askTeardown_keyQuiet (s : State) (r : Role) : (s.askTeardown r).keyQuiet = s.keyQuiet :=
  by unfold State.askTeardown; split <;> simp
@[simp] theorem State.askTeardown_store (s : State) (r : Role) : (s.askTeardown r).store = s.store :=
  by unfold State.askTeardown; split <;> simp
@[simp] theorem State.askTeardown_freeCount (s : State) (r : Role) : (s.askTeardown r).freeCount = s.freeCount :=
  by unfold State.askTeardown; split <;> simp
@[simp] theorem State.askTeardown_pending (s : State) (r : Role) : (s.askTeardown r).pending = s.pending :=
  by unfold State.askTeardown; split <;> simp

@[simp] theorem State.request_timebase (s : State) (p : Posture) : (s.request p).timebase = s.timebase :=
  by unfold State.request; split <;> simp
@[simp] theorem State.request_pins (s : State) (p : Posture) : (s.request p).pins = s.pins :=
  by unfold State.request; split <;> simp
@[simp] theorem State.request_ports (s : State) (p : Posture) : (s.request p).ports = s.ports :=
  by unfold State.request; split <;> simp
@[simp] theorem State.request_keyQuiet (s : State) (p : Posture) : (s.request p).keyQuiet = s.keyQuiet :=
  by unfold State.request; split <;> simp
@[simp] theorem State.request_store (s : State) (p : Posture) : (s.request p).store = s.store :=
  by unfold State.request; split <;> simp
@[simp] theorem State.request_freeCount (s : State) (p : Posture) : (s.request p).freeCount = s.freeCount :=
  by unfold State.request; split <;> simp
@[simp] theorem State.request_pending (s : State) (p : Posture) : (s.request p).pending = s.pending :=
  by unfold State.request; split <;> simp

/-! ## The taking of waiting requests -/

theorem State.foldTearPen_timebase (s : State) (ks : List PenTeardown) : (ks.foldl State.tearPen s).timebase = s.timebase := by
  induction ks generalizing s with
  | nil => rfl
  | cons k ks ih => rw [List.foldl_cons, ih]; simp
@[simp] theorem State.takeWaits_timebase (s : State) (r : Role) : (s.takeWaits r).timebase = s.timebase := by
  cases r <;> simp [State.takeWaits, State.foldTearPen_timebase] <;> split <;> simp
theorem State.foldTearPen_pins (s : State) (ks : List PenTeardown) : (ks.foldl State.tearPen s).pins = s.pins := by
  induction ks generalizing s with
  | nil => rfl
  | cons k ks ih => rw [List.foldl_cons, ih]; simp
@[simp] theorem State.takeWaits_pins (s : State) (r : Role) : (s.takeWaits r).pins = s.pins := by
  cases r <;> simp [State.takeWaits, State.foldTearPen_pins] <;> split <;> simp
theorem State.foldTearPen_ports (s : State) (ks : List PenTeardown) : (ks.foldl State.tearPen s).ports = s.ports := by
  induction ks generalizing s with
  | nil => rfl
  | cons k ks ih => rw [List.foldl_cons, ih]; simp
@[simp] theorem State.takeWaits_ports (s : State) (r : Role) : (s.takeWaits r).ports = s.ports := by
  cases r <;> simp [State.takeWaits, State.foldTearPen_ports] <;> split <;> simp
theorem State.foldTearPen_aux (s : State) (ks : List PenTeardown) : (ks.foldl State.tearPen s).aux = s.aux := by
  induction ks generalizing s with
  | nil => rfl
  | cons k ks ih => rw [List.foldl_cons, ih]; simp
@[simp] theorem State.takeWaits_aux (s : State) (r : Role) : (s.takeWaits r).aux = s.aux := by
  cases r <;> simp [State.takeWaits, State.foldTearPen_aux] <;> split <;> simp
theorem State.foldTearPen_keyQuiet (s : State) (ks : List PenTeardown) : (ks.foldl State.tearPen s).keyQuiet = s.keyQuiet := by
  induction ks generalizing s with
  | nil => rfl
  | cons k ks ih => rw [List.foldl_cons, ih]; simp
@[simp] theorem State.takeWaits_keyQuiet (s : State) (r : Role) : (s.takeWaits r).keyQuiet = s.keyQuiet := by
  cases r <;> simp [State.takeWaits, State.foldTearPen_keyQuiet] <;> split <;> simp
theorem State.foldTearPen_posture (s : State) (ks : List PenTeardown) : (ks.foldl State.tearPen s).posture = s.posture := by
  induction ks generalizing s with
  | nil => rfl
  | cons k ks ih => rw [List.foldl_cons, ih]; simp
@[simp] theorem State.takeWaits_posture (s : State) (r : Role) : (s.takeWaits r).posture = s.posture := by
  cases r <;> simp [State.takeWaits, State.foldTearPen_posture] <;> split <;> simp
theorem State.foldTearPen_store (s : State) (ks : List PenTeardown) : (ks.foldl State.tearPen s).store = s.store := by
  induction ks generalizing s with
  | nil => rfl
  | cons k ks ih => rw [List.foldl_cons, ih]; simp
@[simp] theorem State.takeWaits_store (s : State) (r : Role) : (s.takeWaits r).store = s.store := by
  cases r <;> simp [State.takeWaits, State.foldTearPen_store] <;> split <;> simp
theorem State.foldTearPen_freeCount (s : State) (ks : List PenTeardown) : (ks.foldl State.tearPen s).freeCount = s.freeCount := by
  induction ks generalizing s with
  | nil => rfl
  | cons k ks ih => rw [List.foldl_cons, ih]; simp
@[simp] theorem State.takeWaits_freeCount (s : State) (r : Role) : (s.takeWaits r).freeCount = s.freeCount := by
  cases r <;> simp [State.takeWaits, State.foldTearPen_freeCount] <;> split <;> simp
theorem State.foldTearPen_pending (s : State) (ks : List PenTeardown) : (ks.foldl State.tearPen s).pending = s.pending := by
  induction ks generalizing s with
  | nil => rfl
  | cons k ks ih => rw [List.foldl_cons, ih]; simp
@[simp] theorem State.takeWaits_pending (s : State) (r : Role) : (s.takeWaits r).pending = s.pending := by
  cases r <;> simp [State.takeWaits, State.foldTearPen_pending] <;> split <;> simp

/-! ## Ports and frames: what they leave -/

@[simp] theorem State.revive_timebase (s : State) (i : Fin 4) : (s.revive i).timebase = s.timebase :=
  by unfold State.revive; dsimp only; split <;> simp
@[simp] theorem State.revive_pins (s : State) (i : Fin 4) : (s.revive i).pins = s.pins :=
  by unfold State.revive; dsimp only; split <;> simp
@[simp] theorem State.revive_ports (s : State) (i : Fin 4) : (s.revive i).ports = s.ports.set i { s.port i with state := .live, deadline := some (s.deadlineFrom i) } :=
  by unfold State.revive; dsimp only; split <;> simp
@[simp] theorem State.revive_aux (s : State) (i : Fin 4) : (s.revive i).aux = s.aux :=
  by unfold State.revive; dsimp only; split <;> simp
@[simp] theorem State.revive_keyQuiet (s : State) (i : Fin 4) : (s.revive i).keyQuiet = s.keyQuiet :=
  by unfold State.revive; dsimp only; split <;> simp
@[simp] theorem State.revive_engine (s : State) (i : Fin 4) : (s.revive i).engine = s.engine :=
  by unfold State.revive; dsimp only; split <;> simp
@[simp] theorem State.revive_motion (s : State) (i : Fin 4) : (s.revive i).motion = s.motion :=
  by unfold State.revive; dsimp only; split <;> simp
@[simp] theorem State.revive_posture (s : State) (i : Fin 4) : (s.revive i).posture = s.posture :=
  by unfold State.revive; dsimp only; split <;> simp
@[simp] theorem State.revive_store (s : State) (i : Fin 4) : (s.revive i).store = s.store :=
  by unfold State.revive; dsimp only; split <;> simp
@[simp] theorem State.revive_link (s : State) (i : Fin 4) : (s.revive i).link = s.link :=
  by unfold State.revive; dsimp only; split <;> simp
@[simp] theorem State.revive_waits (s : State) (i : Fin 4) : (s.revive i).waits = s.waits :=
  by unfold State.revive; dsimp only; split <;> simp
@[simp] theorem State.revive_freeCount (s : State) (i : Fin 4) : (s.revive i).freeCount = s.freeCount :=
  by unfold State.revive; dsimp only; split <;> simp
@[simp] theorem State.revive_pending (s : State) (i : Fin 4) : (s.revive i).pending = s.pending :=
  by unfold State.revive; dsimp only; split <;> simp

@[simp] theorem State.noteKeys_timebase (s : State) (t : Stamp) (k : Nat) : (s.noteKeys t k).timebase = s.timebase :=
  by unfold State.noteKeys; split <;> simp
@[simp] theorem State.noteKeys_pins (s : State) (t : Stamp) (k : Nat) : (s.noteKeys t k).pins = s.pins :=
  by unfold State.noteKeys; split <;> simp
@[simp] theorem State.noteKeys_ports (s : State) (t : Stamp) (k : Nat) : (s.noteKeys t k).ports = s.ports :=
  by unfold State.noteKeys; split <;> simp
@[simp] theorem State.noteKeys_contacts (s : State) (t : Stamp) (k : Nat) : (s.noteKeys t k).contacts = s.contacts :=
  by unfold State.noteKeys; split <;> simp
@[simp] theorem State.noteKeys_pen (s : State) (t : Stamp) (k : Nat) : (s.noteKeys t k).pen = s.pen :=
  by unfold State.noteKeys; split <;> simp
@[simp] theorem State.noteKeys_engine (s : State) (t : Stamp) (k : Nat) : (s.noteKeys t k).engine = s.engine :=
  by unfold State.noteKeys; split <;> simp
@[simp] theorem State.noteKeys_motion (s : State) (t : Stamp) (k : Nat) : (s.noteKeys t k).motion = s.motion :=
  by unfold State.noteKeys; split <;> simp
@[simp] theorem State.noteKeys_posture (s : State) (t : Stamp) (k : Nat) : (s.noteKeys t k).posture = s.posture :=
  by unfold State.noteKeys; split <;> simp
@[simp] theorem State.noteKeys_store (s : State) (t : Stamp) (k : Nat) : (s.noteKeys t k).store = s.store :=
  by unfold State.noteKeys; split <;> simp
@[simp] theorem State.noteKeys_link (s : State) (t : Stamp) (k : Nat) : (s.noteKeys t k).link = s.link :=
  by unfold State.noteKeys; split <;> simp
@[simp] theorem State.noteKeys_waits (s : State) (t : Stamp) (k : Nat) : (s.noteKeys t k).waits = s.waits :=
  by unfold State.noteKeys; split <;> simp
@[simp] theorem State.noteKeys_freeCount (s : State) (t : Stamp) (k : Nat) : (s.noteKeys t k).freeCount = s.freeCount :=
  by unfold State.noteKeys; split <;> simp
@[simp] theorem State.noteKeys_pending (s : State) (t : Stamp) (k : Nat) : (s.noteKeys t k).pending = s.pending :=
  by unfold State.noteKeys; split <;> simp

@[simp] theorem State.padFrameWork_timebase (s : State) (t : Stamp) (dt : Nat) (cs : List Contact) : (s.padFrameWork t dt cs).timebase = s.timebase :=
  rfl
@[simp] theorem State.padFrameWork_pins (s : State) (t : Stamp) (dt : Nat) (cs : List Contact) : (s.padFrameWork t dt cs).pins = s.pins :=
  rfl
@[simp] theorem State.padFrameWork_ports (s : State) (t : Stamp) (dt : Nat) (cs : List Contact) : (s.padFrameWork t dt cs).ports = s.ports :=
  rfl
@[simp] theorem State.padFrameWork_aux (s : State) (t : Stamp) (dt : Nat) (cs : List Contact) : (s.padFrameWork t dt cs).aux = s.aux :=
  rfl
@[simp] theorem State.padFrameWork_keyQuiet (s : State) (t : Stamp) (dt : Nat) (cs : List Contact) : (s.padFrameWork t dt cs).keyQuiet = s.keyQuiet :=
  rfl
@[simp] theorem State.padFrameWork_pen (s : State) (t : Stamp) (dt : Nat) (cs : List Contact) : (s.padFrameWork t dt cs).pen = s.pen :=
  rfl
@[simp] theorem State.padFrameWork_posture (s : State) (t : Stamp) (dt : Nat) (cs : List Contact) : (s.padFrameWork t dt cs).posture = s.posture :=
  rfl
@[simp] theorem State.padFrameWork_store (s : State) (t : Stamp) (dt : Nat) (cs : List Contact) : (s.padFrameWork t dt cs).store = s.store :=
  rfl
@[simp] theorem State.padFrameWork_waits (s : State) (t : Stamp) (dt : Nat) (cs : List Contact) : (s.padFrameWork t dt cs).waits = s.waits :=
  rfl
@[simp] theorem State.padFrameWork_freeCount (s : State) (t : Stamp) (dt : Nat) (cs : List Contact) : (s.padFrameWork t dt cs).freeCount = s.freeCount :=
  rfl
@[simp] theorem State.padFrameWork_pending (s : State) (t : Stamp) (dt : Nat) (cs : List Contact) : (s.padFrameWork t dt cs).pending = s.pending :=
  rfl

@[simp] theorem State.screenFrameWork_timebase (s : State) (t : Stamp) (cs : List Contact) : (s.screenFrameWork t cs).timebase = s.timebase :=
  rfl
@[simp] theorem State.screenFrameWork_pins (s : State) (t : Stamp) (cs : List Contact) : (s.screenFrameWork t cs).pins = s.pins :=
  rfl
@[simp] theorem State.screenFrameWork_ports (s : State) (t : Stamp) (cs : List Contact) : (s.screenFrameWork t cs).ports = s.ports :=
  rfl
@[simp] theorem State.screenFrameWork_aux (s : State) (t : Stamp) (cs : List Contact) : (s.screenFrameWork t cs).aux = s.aux :=
  rfl
@[simp] theorem State.screenFrameWork_keyQuiet (s : State) (t : Stamp) (cs : List Contact) : (s.screenFrameWork t cs).keyQuiet = s.keyQuiet :=
  rfl
@[simp] theorem State.screenFrameWork_pen (s : State) (t : Stamp) (cs : List Contact) : (s.screenFrameWork t cs).pen = s.pen :=
  rfl
@[simp] theorem State.screenFrameWork_engine (s : State) (t : Stamp) (cs : List Contact) : (s.screenFrameWork t cs).engine = s.engine :=
  rfl
@[simp] theorem State.screenFrameWork_motion (s : State) (t : Stamp) (cs : List Contact) : (s.screenFrameWork t cs).motion = s.motion :=
  rfl
@[simp] theorem State.screenFrameWork_posture (s : State) (t : Stamp) (cs : List Contact) : (s.screenFrameWork t cs).posture = s.posture :=
  rfl
@[simp] theorem State.screenFrameWork_store (s : State) (t : Stamp) (cs : List Contact) : (s.screenFrameWork t cs).store = s.store :=
  rfl
@[simp] theorem State.screenFrameWork_waits (s : State) (t : Stamp) (cs : List Contact) : (s.screenFrameWork t cs).waits = s.waits :=
  rfl
@[simp] theorem State.screenFrameWork_freeCount (s : State) (t : Stamp) (cs : List Contact) : (s.screenFrameWork t cs).freeCount = s.freeCount :=
  rfl
@[simp] theorem State.screenFrameWork_pending (s : State) (t : Stamp) (cs : List Contact) : (s.screenFrameWork t cs).pending = s.pending :=
  rfl

@[simp] theorem State.penFrameWork_timebase (s : State) (b : Bool) (r : PenRecord) : (s.penFrameWork b r).timebase = s.timebase :=
  rfl
@[simp] theorem State.penFrameWork_pins (s : State) (b : Bool) (r : PenRecord) : (s.penFrameWork b r).pins = s.pins :=
  rfl
@[simp] theorem State.penFrameWork_ports (s : State) (b : Bool) (r : PenRecord) : (s.penFrameWork b r).ports = s.ports :=
  rfl
@[simp] theorem State.penFrameWork_aux (s : State) (b : Bool) (r : PenRecord) : (s.penFrameWork b r).aux = s.aux :=
  rfl
@[simp] theorem State.penFrameWork_contacts (s : State) (b : Bool) (r : PenRecord) : (s.penFrameWork b r).contacts = s.contacts :=
  rfl
@[simp] theorem State.penFrameWork_keyQuiet (s : State) (b : Bool) (r : PenRecord) : (s.penFrameWork b r).keyQuiet = s.keyQuiet :=
  rfl
@[simp] theorem State.penFrameWork_engine (s : State) (b : Bool) (r : PenRecord) : (s.penFrameWork b r).engine = s.engine :=
  rfl
@[simp] theorem State.penFrameWork_motion (s : State) (b : Bool) (r : PenRecord) : (s.penFrameWork b r).motion = s.motion :=
  rfl
@[simp] theorem State.penFrameWork_posture (s : State) (b : Bool) (r : PenRecord) : (s.penFrameWork b r).posture = s.posture :=
  rfl
@[simp] theorem State.penFrameWork_store (s : State) (b : Bool) (r : PenRecord) : (s.penFrameWork b r).store = s.store :=
  rfl
@[simp] theorem State.penFrameWork_waits (s : State) (b : Bool) (r : PenRecord) : (s.penFrameWork b r).waits = s.waits :=
  rfl
@[simp] theorem State.penFrameWork_freeCount (s : State) (b : Bool) (r : PenRecord) : (s.penFrameWork b r).freeCount = s.freeCount :=
  rfl
@[simp] theorem State.penFrameWork_pending (s : State) (b : Bool) (r : PenRecord) : (s.penFrameWork b r).pending = s.pending :=
  rfl

@[simp] theorem State.auxFrameWork_timebase (s : State) (t : Stamp) (r : AuxRecord) : (s.auxFrameWork t r).timebase = s.timebase :=
  by unfold State.auxFrameWork; dsimp only; split <;> simp
@[simp] theorem State.auxFrameWork_pins (s : State) (t : Stamp) (r : AuxRecord) : (s.auxFrameWork t r).pins = s.pins :=
  by unfold State.auxFrameWork; dsimp only; split <;> simp
@[simp] theorem State.auxFrameWork_ports (s : State) (t : Stamp) (r : AuxRecord) : (s.auxFrameWork t r).ports = s.ports :=
  by unfold State.auxFrameWork; dsimp only; split <;> simp
@[simp] theorem State.auxFrameWork_store (s : State) (t : Stamp) (r : AuxRecord) : (s.auxFrameWork t r).store = s.store :=
  by unfold State.auxFrameWork; dsimp only; split <;> simp
@[simp] theorem State.auxFrameWork_freeCount (s : State) (t : Stamp) (r : AuxRecord) : (s.auxFrameWork t r).freeCount = s.freeCount :=
  by unfold State.auxFrameWork; dsimp only; split <;> simp
@[simp] theorem State.auxFrameWork_pending (s : State) (t : Stamp) (r : AuxRecord) : (s.auxFrameWork t r).pending = s.pending :=
  by unfold State.auxFrameWork; dsimp only; split <;> simp

@[simp] theorem State.frameWork_timebase (s : State) (r : Role) (b : Bool) (t : Stamp) (dt : Nat) (x : ScanRecord) : (s.frameWork r b t dt x).timebase = s.timebase :=
  by unfold State.frameWork; split <;> simp
@[simp] theorem State.frameWork_pins (s : State) (r : Role) (b : Bool) (t : Stamp) (dt : Nat) (x : ScanRecord) : (s.frameWork r b t dt x).pins = s.pins :=
  by unfold State.frameWork; split <;> simp
@[simp] theorem State.frameWork_ports (s : State) (r : Role) (b : Bool) (t : Stamp) (dt : Nat) (x : ScanRecord) : (s.frameWork r b t dt x).ports = s.ports :=
  by unfold State.frameWork; split <;> simp
@[simp] theorem State.frameWork_store (s : State) (r : Role) (b : Bool) (t : Stamp) (dt : Nat) (x : ScanRecord) : (s.frameWork r b t dt x).store = s.store :=
  by unfold State.frameWork; split <;> simp
@[simp] theorem State.frameWork_freeCount (s : State) (r : Role) (b : Bool) (t : Stamp) (dt : Nat) (x : ScanRecord) : (s.frameWork r b t dt x).freeCount = s.freeCount :=
  by unfold State.frameWork; split <;> simp
@[simp] theorem State.frameWork_pending (s : State) (r : Role) (b : Bool) (t : Stamp) (dt : Nat) (x : ScanRecord) : (s.frameWork r b t dt x).pending = s.pending :=
  by unfold State.frameWork; split <;> simp

@[simp] theorem State.beginFrame_timebase (s : State) (i : Fin 4) (r : Stamped) : (s.beginFrame i r).timebase = s.timebase :=
  by simp [State.beginFrame]
@[simp] theorem State.beginFrame_pins (s : State) (i : Fin 4) (r : Stamped) : (s.beginFrame i r).pins = s.pins :=
  by simp [State.beginFrame]
@[simp] theorem State.beginFrame_store (s : State) (i : Fin 4) (r : Stamped) : (s.beginFrame i r).store = s.store :=
  by simp [State.beginFrame]
@[simp] theorem State.beginFrame_freeCount (s : State) (i : Fin 4) (r : Stamped) : (s.beginFrame i r).freeCount = s.freeCount :=
  by simp [State.beginFrame]
@[simp] theorem State.beginFrame_pending (s : State) (i : Fin 4) (r : Stamped) : (s.beginFrame i r).pending = s.pending :=
  by simp [State.beginFrame]

@[simp] theorem State.accept_timebase (s : State) (i : Fin 4) (r : ScanRecord) : (s.accept i r).timebase = s.timebase :=
  by unfold State.accept; dsimp only; split <;> (try split) <;> simp
@[simp] theorem State.accept_pins (s : State) (i : Fin 4) (r : ScanRecord) : (s.accept i r).pins = s.pins :=
  by unfold State.accept; dsimp only; split <;> (try split) <;> simp
@[simp] theorem State.accept_store (s : State) (i : Fin 4) (r : ScanRecord) : (s.accept i r).store = s.store :=
  by unfold State.accept; dsimp only; split <;> (try split) <;> simp
@[simp] theorem State.accept_freeCount (s : State) (i : Fin 4) (r : ScanRecord) : (s.accept i r).freeCount = s.freeCount :=
  by unfold State.accept; dsimp only; split <;> (try split) <;> simp
@[simp] theorem State.accept_pending (s : State) (i : Fin 4) (r : ScanRecord) : (s.accept i r).pending = s.pending :=
  by unfold State.accept; dsimp only; split <;> (try split) <;> simp

@[simp] theorem State.arrival_timebase (s : State) (i : Fin 4) (b : List Byte) : (s.arrival i b).timebase = s.timebase :=
  by unfold State.arrival; split <;> simp
@[simp] theorem State.arrival_pins (s : State) (i : Fin 4) (b : List Byte) : (s.arrival i b).pins = s.pins :=
  by unfold State.arrival; split <;> simp
@[simp] theorem State.arrival_store (s : State) (i : Fin 4) (b : List Byte) : (s.arrival i b).store = s.store :=
  by unfold State.arrival; split <;> simp
@[simp] theorem State.arrival_freeCount (s : State) (i : Fin 4) (b : List Byte) : (s.arrival i b).freeCount = s.freeCount :=
  by unfold State.arrival; split <;> simp
@[simp] theorem State.arrival_pending (s : State) (i : Fin 4) (b : List Byte) : (s.arrival i b).pending = s.pending :=
  by unfold State.arrival; split <;> simp

@[simp] theorem State.setRx_timebase (s : State) (i : Fin 4) (rx : Reception) : (s.setRx i rx).timebase = s.timebase :=
  rfl
@[simp] theorem State.setRx_pins (s : State) (i : Fin 4) (rx : Reception) : (s.setRx i rx).pins = s.pins := rfl
@[simp] theorem State.setRx_ports (s : State) (i : Fin 4) (rx : Reception) : (s.setRx i rx).ports = s.ports.set i { s.port i with rx := rx } :=
  rfl
@[simp] theorem State.setRx_aux (s : State) (i : Fin 4) (rx : Reception) : (s.setRx i rx).aux = s.aux := rfl
@[simp] theorem State.setRx_contacts (s : State) (i : Fin 4) (rx : Reception) : (s.setRx i rx).contacts = s.contacts :=
  rfl
@[simp] theorem State.setRx_keyQuiet (s : State) (i : Fin 4) (rx : Reception) : (s.setRx i rx).keyQuiet = s.keyQuiet :=
  rfl
@[simp] theorem State.setRx_pen (s : State) (i : Fin 4) (rx : Reception) : (s.setRx i rx).pen = s.pen := rfl
@[simp] theorem State.setRx_engine (s : State) (i : Fin 4) (rx : Reception) : (s.setRx i rx).engine = s.engine := rfl
@[simp] theorem State.setRx_motion (s : State) (i : Fin 4) (rx : Reception) : (s.setRx i rx).motion = s.motion := rfl
@[simp] theorem State.setRx_posture (s : State) (i : Fin 4) (rx : Reception) : (s.setRx i rx).posture = s.posture :=
  rfl
@[simp] theorem State.setRx_store (s : State) (i : Fin 4) (rx : Reception) : (s.setRx i rx).store = s.store := rfl
@[simp] theorem State.setRx_link (s : State) (i : Fin 4) (rx : Reception) : (s.setRx i rx).link = s.link := rfl
@[simp] theorem State.setRx_waits (s : State) (i : Fin 4) (rx : Reception) : (s.setRx i rx).waits = s.waits := rfl
@[simp] theorem State.setRx_freeCount (s : State) (i : Fin 4) (rx : Reception) : (s.setRx i rx).freeCount = s.freeCount :=
  rfl
@[simp] theorem State.setRx_pending (s : State) (i : Fin 4) (rx : Reception) : (s.setRx i rx).pending = s.pending :=
  rfl

@[simp] theorem State.receiveByte_timebase (s : State) (i : Fin 4) (b : Byte) : (s.receiveByte i b).timebase = s.timebase :=
  by unfold State.receiveByte; (repeat' split) <;> simp
@[simp] theorem State.receiveByte_pins (s : State) (i : Fin 4) (b : Byte) : (s.receiveByte i b).pins = s.pins :=
  by unfold State.receiveByte; (repeat' split) <;> simp
@[simp] theorem State.receiveByte_store (s : State) (i : Fin 4) (b : Byte) : (s.receiveByte i b).store = s.store :=
  by unfold State.receiveByte; (repeat' split) <;> simp
@[simp] theorem State.receiveByte_freeCount (s : State) (i : Fin 4) (b : Byte) : (s.receiveByte i b).freeCount = s.freeCount :=
  by unfold State.receiveByte; (repeat' split) <;> simp
@[simp] theorem State.receiveByte_pending (s : State) (i : Fin 4) (b : Byte) : (s.receiveByte i b).pending = s.pending :=
  by unfold State.receiveByte; (repeat' split) <;> simp

@[simp] theorem State.breakRecord_timebase (s : State) (i : Fin 4) : (s.breakRecord i).timebase = s.timebase :=
  by unfold State.breakRecord; (repeat' split) <;> simp
@[simp] theorem State.breakRecord_pins (s : State) (i : Fin 4) : (s.breakRecord i).pins = s.pins :=
  by unfold State.breakRecord; (repeat' split) <;> simp
@[simp] theorem State.breakRecord_aux (s : State) (i : Fin 4) : (s.breakRecord i).aux = s.aux :=
  by unfold State.breakRecord; (repeat' split) <;> simp
@[simp] theorem State.breakRecord_contacts (s : State) (i : Fin 4) : (s.breakRecord i).contacts = s.contacts :=
  by unfold State.breakRecord; (repeat' split) <;> simp
@[simp] theorem State.breakRecord_keyQuiet (s : State) (i : Fin 4) : (s.breakRecord i).keyQuiet = s.keyQuiet :=
  by unfold State.breakRecord; (repeat' split) <;> simp
@[simp] theorem State.breakRecord_pen (s : State) (i : Fin 4) : (s.breakRecord i).pen = s.pen :=
  by unfold State.breakRecord; (repeat' split) <;> simp
@[simp] theorem State.breakRecord_engine (s : State) (i : Fin 4) : (s.breakRecord i).engine = s.engine :=
  by unfold State.breakRecord; (repeat' split) <;> simp
@[simp] theorem State.breakRecord_motion (s : State) (i : Fin 4) : (s.breakRecord i).motion = s.motion :=
  by unfold State.breakRecord; (repeat' split) <;> simp
@[simp] theorem State.breakRecord_posture (s : State) (i : Fin 4) : (s.breakRecord i).posture = s.posture :=
  by unfold State.breakRecord; (repeat' split) <;> simp
@[simp] theorem State.breakRecord_store (s : State) (i : Fin 4) : (s.breakRecord i).store = s.store :=
  by unfold State.breakRecord; (repeat' split) <;> simp
@[simp] theorem State.breakRecord_waits (s : State) (i : Fin 4) : (s.breakRecord i).waits = s.waits :=
  by unfold State.breakRecord; (repeat' split) <;> simp
@[simp] theorem State.breakRecord_freeCount (s : State) (i : Fin 4) : (s.breakRecord i).freeCount = s.freeCount :=
  by unfold State.breakRecord; (repeat' split) <;> simp
@[simp] theorem State.breakRecord_pending (s : State) (i : Fin 4) : (s.breakRecord i).pending = s.pending :=
  by unfold State.breakRecord; (repeat' split) <;> simp

@[simp] theorem State.receive_timebase (s : State) (i : Fin 4) (ch : Character) : (s.receive i ch).timebase = s.timebase :=
  by unfold State.receive; (repeat' split) <;> simp
@[simp] theorem State.receive_pins (s : State) (i : Fin 4) (ch : Character) : (s.receive i ch).pins = s.pins :=
  by unfold State.receive; (repeat' split) <;> simp
@[simp] theorem State.receive_store (s : State) (i : Fin 4) (ch : Character) : (s.receive i ch).store = s.store :=
  by unfold State.receive; (repeat' split) <;> simp
@[simp] theorem State.receive_freeCount (s : State) (i : Fin 4) (ch : Character) : (s.receive i ch).freeCount = s.freeCount :=
  by unfold State.receive; (repeat' split) <;> simp
@[simp] theorem State.receive_pending (s : State) (i : Fin 4) (ch : Character) : (s.receive i ch).pending = s.pending :=
  by unfold State.receive; (repeat' split) <;> simp

@[simp] theorem State.receiveLine_timebase (s : State) (i : Fin 4) (line : List Character) : (s.receiveLine i line).timebase = s.timebase := by
  unfold State.receiveLine
  induction line generalizing s with
  | nil => rfl
  | cons a l ih => rw [List.foldl_cons, ih]; simp
@[simp] theorem State.receiveLine_pins (s : State) (i : Fin 4) (line : List Character) : (s.receiveLine i line).pins = s.pins := by
  unfold State.receiveLine
  induction line generalizing s with
  | nil => rfl
  | cons a l ih => rw [List.foldl_cons, ih]; simp
@[simp] theorem State.receiveLine_store (s : State) (i : Fin 4) (line : List Character) : (s.receiveLine i line).store = s.store := by
  unfold State.receiveLine
  induction line generalizing s with
  | nil => rfl
  | cons a l ih => rw [List.foldl_cons, ih]; simp
@[simp] theorem State.receiveLine_freeCount (s : State) (i : Fin 4) (line : List Character) : (s.receiveLine i line).freeCount = s.freeCount := by
  unfold State.receiveLine
  induction line generalizing s with
  | nil => rfl
  | cons a l ih => rw [List.foldl_cons, ih]; simp
@[simp] theorem State.receiveLine_pending (s : State) (i : Fin 4) (line : List Character) : (s.receiveLine i line).pending = s.pending := by
  unfold State.receiveLine
  induction line generalizing s with
  | nil => rfl
  | cons a l ih => rw [List.foldl_cons, ih]; simp

@[simp] theorem State.gap_timebase (s : State) (i : Fin 4) : (s.gap i).timebase = s.timebase :=
  by unfold State.gap; (repeat' split) <;> simp
@[simp] theorem State.gap_pins (s : State) (i : Fin 4) : (s.gap i).pins = s.pins :=
  by unfold State.gap; (repeat' split) <;> simp
@[simp] theorem State.gap_aux (s : State) (i : Fin 4) : (s.gap i).aux = s.aux :=
  by unfold State.gap; (repeat' split) <;> simp
@[simp] theorem State.gap_contacts (s : State) (i : Fin 4) : (s.gap i).contacts = s.contacts :=
  by unfold State.gap; (repeat' split) <;> simp
@[simp] theorem State.gap_keyQuiet (s : State) (i : Fin 4) : (s.gap i).keyQuiet = s.keyQuiet :=
  by unfold State.gap; (repeat' split) <;> simp
@[simp] theorem State.gap_pen (s : State) (i : Fin 4) : (s.gap i).pen = s.pen :=
  by unfold State.gap; (repeat' split) <;> simp
@[simp] theorem State.gap_engine (s : State) (i : Fin 4) : (s.gap i).engine = s.engine :=
  by unfold State.gap; (repeat' split) <;> simp
@[simp] theorem State.gap_motion (s : State) (i : Fin 4) : (s.gap i).motion = s.motion :=
  by unfold State.gap; (repeat' split) <;> simp
@[simp] theorem State.gap_posture (s : State) (i : Fin 4) : (s.gap i).posture = s.posture :=
  by unfold State.gap; (repeat' split) <;> simp
@[simp] theorem State.gap_store (s : State) (i : Fin 4) : (s.gap i).store = s.store :=
  by unfold State.gap; (repeat' split) <;> simp
@[simp] theorem State.gap_waits (s : State) (i : Fin 4) : (s.gap i).waits = s.waits :=
  by unfold State.gap; (repeat' split) <;> simp
@[simp] theorem State.gap_freeCount (s : State) (i : Fin 4) : (s.gap i).freeCount = s.freeCount :=
  by unfold State.gap; (repeat' split) <;> simp
@[simp] theorem State.gap_pending (s : State) (i : Fin 4) : (s.gap i).pending = s.pending :=
  by unfold State.gap; (repeat' split) <;> simp

@[simp] theorem State.reviveIfStalled_timebase (s : State) (i : Fin 4) : (s.reviveIfStalled i).timebase = s.timebase :=
  by unfold State.reviveIfStalled; split <;> simp
@[simp] theorem State.reviveIfStalled_pins (s : State) (i : Fin 4) : (s.reviveIfStalled i).pins = s.pins :=
  by unfold State.reviveIfStalled; split <;> simp
@[simp] theorem State.reviveIfStalled_aux (s : State) (i : Fin 4) : (s.reviveIfStalled i).aux = s.aux :=
  by unfold State.reviveIfStalled; split <;> simp
@[simp] theorem State.reviveIfStalled_keyQuiet (s : State) (i : Fin 4) : (s.reviveIfStalled i).keyQuiet = s.keyQuiet :=
  by unfold State.reviveIfStalled; split <;> simp
@[simp] theorem State.reviveIfStalled_engine (s : State) (i : Fin 4) : (s.reviveIfStalled i).engine = s.engine :=
  by unfold State.reviveIfStalled; split <;> simp
@[simp] theorem State.reviveIfStalled_motion (s : State) (i : Fin 4) : (s.reviveIfStalled i).motion = s.motion :=
  by unfold State.reviveIfStalled; split <;> simp
@[simp] theorem State.reviveIfStalled_posture (s : State) (i : Fin 4) : (s.reviveIfStalled i).posture = s.posture :=
  by unfold State.reviveIfStalled; split <;> simp
@[simp] theorem State.reviveIfStalled_store (s : State) (i : Fin 4) : (s.reviveIfStalled i).store = s.store :=
  by unfold State.reviveIfStalled; split <;> simp
@[simp] theorem State.reviveIfStalled_link (s : State) (i : Fin 4) : (s.reviveIfStalled i).link = s.link :=
  by unfold State.reviveIfStalled; split <;> simp
@[simp] theorem State.reviveIfStalled_waits (s : State) (i : Fin 4) : (s.reviveIfStalled i).waits = s.waits :=
  by unfold State.reviveIfStalled; split <;> simp
@[simp] theorem State.reviveIfStalled_freeCount (s : State) (i : Fin 4) : (s.reviveIfStalled i).freeCount = s.freeCount :=
  by unfold State.reviveIfStalled; split <;> simp
@[simp] theorem State.reviveIfStalled_pending (s : State) (i : Fin 4) : (s.reviveIfStalled i).pending = s.pending :=
  by unfold State.reviveIfStalled; split <;> simp

@[simp] theorem State.beginWaiting_timebase (s : State) (i : Fin 4) : (s.beginWaiting i).timebase = s.timebase :=
  by unfold State.beginWaiting; dsimp only; repeat (first | split | simp)
@[simp] theorem State.beginWaiting_pins (s : State) (i : Fin 4) : (s.beginWaiting i).pins = s.pins :=
  by unfold State.beginWaiting; dsimp only; repeat (first | split | simp)
@[simp] theorem State.beginWaiting_store (s : State) (i : Fin 4) : (s.beginWaiting i).store = s.store :=
  by unfold State.beginWaiting; dsimp only; repeat (first | split | simp)
@[simp] theorem State.beginWaiting_freeCount (s : State) (i : Fin 4) : (s.beginWaiting i).freeCount = s.freeCount :=
  by unfold State.beginWaiting; dsimp only; repeat (first | split | simp)
@[simp] theorem State.beginWaiting_pending (s : State) (i : Fin 4) : (s.beginWaiting i).pending = s.pending :=
  by unfold State.beginWaiting; dsimp only; repeat (first | split | simp)

theorem State.foldBegin_timebase (s : State) (is : List (Fin 4)) : (is.foldl State.beginWaiting s).timebase = s.timebase := by
  induction is generalizing s with
  | nil => rfl
  | cons i is ih => rw [List.foldl_cons, ih]; simp
@[simp] theorem State.beginAll_timebase (s : State) : s.beginAll.timebase = s.timebase := by
  unfold State.beginAll; split <;> simp [State.foldBegin_timebase]
theorem State.foldBegin_pins (s : State) (is : List (Fin 4)) : (is.foldl State.beginWaiting s).pins = s.pins := by
  induction is generalizing s with
  | nil => rfl
  | cons i is ih => rw [List.foldl_cons, ih]; simp
@[simp] theorem State.beginAll_pins (s : State) : s.beginAll.pins = s.pins := by
  unfold State.beginAll; split <;> simp [State.foldBegin_pins]
theorem State.foldBegin_store (s : State) (is : List (Fin 4)) : (is.foldl State.beginWaiting s).store = s.store := by
  induction is generalizing s with
  | nil => rfl
  | cons i is ih => rw [List.foldl_cons, ih]; simp
@[simp] theorem State.beginAll_store (s : State) : s.beginAll.store = s.store := by
  unfold State.beginAll; split <;> simp [State.foldBegin_store]
theorem State.foldBegin_pending (s : State) (is : List (Fin 4)) : (is.foldl State.beginWaiting s).pending = s.pending := by
  induction is generalizing s with
  | nil => rfl
  | cons i is ih => rw [List.foldl_cons, ih]; simp
@[simp] theorem State.beginAll_pending (s : State) : s.beginAll.pending = s.pending := by
  unfold State.beginAll; split <;> simp [State.foldBegin_pending]

@[simp] theorem State.swap_timebase (s : State) : s.swap.timebase = s.timebase := by simp [State.swap]
@[simp] theorem State.swap_pins (s : State) : s.swap.pins = s.pins := by simp [State.swap]
@[simp] theorem State.swap_pending (s : State) : s.swap.pending = s.pending := by simp [State.swap]

@[simp] theorem State.restartEffect_timebase (s : State) : s.restartEffect.timebase = s.timebase := rfl
@[simp] theorem State.restartEffect_pins (s : State) : s.restartEffect.pins = s.pins := rfl
@[simp] theorem State.restartEffect_keyQuiet (s : State) : s.restartEffect.keyQuiet = s.keyQuiet := rfl
@[simp] theorem State.restartEffect_freeCount (s : State) : s.restartEffect.freeCount = s.freeCount := rfl
@[simp] theorem State.restartEffect_pending (s : State) : s.restartEffect.pending = s.pending := rfl

@[simp] theorem State.settle_timebase (s : State) (i : Fin 4) : (s.settle i).timebase = s.timebase :=
  by unfold State.settle; repeat (first | split | simp)
@[simp] theorem State.settle_pins (s : State) (i : Fin 4) : (s.settle i).pins = s.pins :=
  by unfold State.settle; repeat (first | split | simp)
@[simp] theorem State.settle_pending (s : State) (i : Fin 4) : (s.settle i).pending = s.pending :=
  by unfold State.settle; repeat (first | split | simp)

@[simp] theorem State.takeWaiting_timebase (s : State) (i : Fin 4) (r : Role) : (s.takeWaiting i r).timebase = s.timebase :=
  by unfold State.takeWaiting; dsimp only; split <;> simp
@[simp] theorem State.takeWaiting_pins (s : State) (i : Fin 4) (r : Role) : (s.takeWaiting i r).pins = s.pins :=
  by unfold State.takeWaiting; dsimp only; split <;> simp
@[simp] theorem State.takeWaiting_ports (s : State) (i : Fin 4) (r : Role) : (s.takeWaiting i r).ports = s.ports :=
  by unfold State.takeWaiting; dsimp only; split <;> simp
@[simp] theorem State.takeWaiting_aux (s : State) (i : Fin 4) (r : Role) : (s.takeWaiting i r).aux = s.aux :=
  by unfold State.takeWaiting; dsimp only; split <;> simp
@[simp] theorem State.takeWaiting_keyQuiet (s : State) (i : Fin 4) (r : Role) : (s.takeWaiting i r).keyQuiet = s.keyQuiet :=
  by unfold State.takeWaiting; dsimp only; split <;> simp
@[simp] theorem State.takeWaiting_posture (s : State) (i : Fin 4) (r : Role) : (s.takeWaiting i r).posture = s.posture :=
  by unfold State.takeWaiting; dsimp only; split <;> simp
@[simp] theorem State.takeWaiting_store (s : State) (i : Fin 4) (r : Role) : (s.takeWaiting i r).store = s.store :=
  by unfold State.takeWaiting; dsimp only; split <;> simp
@[simp] theorem State.takeWaiting_freeCount (s : State) (i : Fin 4) (r : Role) : (s.takeWaiting i r).freeCount = s.freeCount :=
  by unfold State.takeWaiting; dsimp only; split <;> simp
@[simp] theorem State.takeWaiting_pending (s : State) (i : Fin 4) (r : Role) : (s.takeWaiting i r).pending = s.pending :=
  by unfold State.takeWaiting; dsimp only; split <;> simp

@[simp] theorem State.complete_timebase (s : State) (i : Fin 4) : (s.complete i).timebase = s.timebase :=
  by unfold State.complete; repeat (first | split | simp)
@[simp] theorem State.complete_pins (s : State) (i : Fin 4) : (s.complete i).pins = s.pins :=
  by unfold State.complete; repeat (first | split | simp)
@[simp] theorem State.complete_pending (s : State) (i : Fin 4) : (s.complete i).pending = s.pending :=
  by unfold State.complete; repeat (first | split | simp)

@[simp] theorem State.goLate_timebase (s : State) (i : Fin 4) : (s.goLate i).timebase = s.timebase :=
  by unfold State.goLate; dsimp only; split <;> simp
@[simp] theorem State.goLate_pins (s : State) (i : Fin 4) : (s.goLate i).pins = s.pins :=
  by unfold State.goLate; dsimp only; split <;> simp
@[simp] theorem State.goLate_aux (s : State) (i : Fin 4) : (s.goLate i).aux = s.aux :=
  by unfold State.goLate; dsimp only; split <;> simp
@[simp] theorem State.goLate_keyQuiet (s : State) (i : Fin 4) : (s.goLate i).keyQuiet = s.keyQuiet :=
  by unfold State.goLate; dsimp only; split <;> simp
@[simp] theorem State.goLate_engine (s : State) (i : Fin 4) : (s.goLate i).engine = s.engine :=
  by unfold State.goLate; dsimp only; split <;> simp
@[simp] theorem State.goLate_motion (s : State) (i : Fin 4) : (s.goLate i).motion = s.motion :=
  by unfold State.goLate; dsimp only; split <;> simp
@[simp] theorem State.goLate_posture (s : State) (i : Fin 4) : (s.goLate i).posture = s.posture :=
  by unfold State.goLate; dsimp only; split <;> simp
@[simp] theorem State.goLate_store (s : State) (i : Fin 4) : (s.goLate i).store = s.store :=
  by unfold State.goLate; dsimp only; split <;> simp
@[simp] theorem State.goLate_link (s : State) (i : Fin 4) : (s.goLate i).link = s.link :=
  by unfold State.goLate; dsimp only; split <;> simp
@[simp] theorem State.goLate_waits (s : State) (i : Fin 4) : (s.goLate i).waits = s.waits :=
  by unfold State.goLate; dsimp only; split <;> simp
@[simp] theorem State.goLate_freeCount (s : State) (i : Fin 4) : (s.goLate i).freeCount = s.freeCount :=
  by unfold State.goLate; dsimp only; split <;> simp
@[simp] theorem State.goLate_pending (s : State) (i : Fin 4) : (s.goLate i).pending = s.pending :=
  by unfold State.goLate; dsimp only; split <;> simp

@[simp] theorem State.goDown_timebase (s : State) (i : Fin 4) : (s.goDown i).timebase = s.timebase :=
  by simp [State.goDown]
@[simp] theorem State.goDown_pins (s : State) (i : Fin 4) : (s.goDown i).pins = s.pins := by simp [State.goDown]
@[simp] theorem State.goDown_keyQuiet (s : State) (i : Fin 4) : (s.goDown i).keyQuiet = s.keyQuiet :=
  by simp [State.goDown]
@[simp] theorem State.goDown_store (s : State) (i : Fin 4) : (s.goDown i).store = s.store := by simp [State.goDown]
@[simp] theorem State.goDown_freeCount (s : State) (i : Fin 4) : (s.goDown i).freeCount = s.freeCount :=
  by simp [State.goDown]
@[simp] theorem State.goDown_pending (s : State) (i : Fin 4) : (s.goDown i).pending = s.pending :=
  by simp [State.goDown]

@[simp] theorem State.deadline_timebase (s : State) (i : Fin 4) : (s.deadline i).timebase = s.timebase :=
  by unfold State.deadline; dsimp only; repeat (first | split | simp)
@[simp] theorem State.deadline_pins (s : State) (i : Fin 4) : (s.deadline i).pins = s.pins :=
  by unfold State.deadline; dsimp only; repeat (first | split | simp)
@[simp] theorem State.deadline_keyQuiet (s : State) (i : Fin 4) : (s.deadline i).keyQuiet = s.keyQuiet :=
  by unfold State.deadline; dsimp only; repeat (first | split | simp)
@[simp] theorem State.deadline_store (s : State) (i : Fin 4) : (s.deadline i).store = s.store :=
  by unfold State.deadline; dsimp only; repeat (first | split | simp)
@[simp] theorem State.deadline_freeCount (s : State) (i : Fin 4) : (s.deadline i).freeCount = s.freeCount :=
  by unfold State.deadline; dsimp only; repeat (first | split | simp)
@[simp] theorem State.deadline_pending (s : State) (i : Fin 4) : (s.deadline i).pending = s.pending :=
  by unfold State.deadline; dsimp only; repeat (first | split | simp)

/-! ## Lines, timers and exchanges: what they leave -/

@[simp] theorem State.assertSeln_timebase (s : State) : s.assertSeln.timebase = s.timebase :=
  by unfold State.assertSeln; dsimp only; split <;> (try split) <;> simp
@[simp] theorem State.assertSeln_ports (s : State) : s.assertSeln.ports = s.ports :=
  by unfold State.assertSeln; dsimp only; split <;> (try split) <;> simp
@[simp] theorem State.assertSeln_aux (s : State) : s.assertSeln.aux = s.aux :=
  by unfold State.assertSeln; dsimp only; split <;> (try split) <;> simp
@[simp] theorem State.assertSeln_contacts (s : State) : s.assertSeln.contacts = s.contacts :=
  by unfold State.assertSeln; dsimp only; split <;> (try split) <;> simp
@[simp] theorem State.assertSeln_keyQuiet (s : State) : s.assertSeln.keyQuiet = s.keyQuiet :=
  by unfold State.assertSeln; dsimp only; split <;> (try split) <;> simp
@[simp] theorem State.assertSeln_pen (s : State) : s.assertSeln.pen = s.pen :=
  by unfold State.assertSeln; dsimp only; split <;> (try split) <;> simp
@[simp] theorem State.assertSeln_engine (s : State) : s.assertSeln.engine = s.engine :=
  by unfold State.assertSeln; dsimp only; split <;> (try split) <;> simp
@[simp] theorem State.assertSeln_motion (s : State) : s.assertSeln.motion = s.motion :=
  by unfold State.assertSeln; dsimp only; split <;> (try split) <;> simp
@[simp] theorem State.assertSeln_posture (s : State) : s.assertSeln.posture = s.posture :=
  by unfold State.assertSeln; dsimp only; split <;> (try split) <;> simp
@[simp] theorem State.assertSeln_store (s : State) : s.assertSeln.store = s.store :=
  by unfold State.assertSeln; dsimp only; split <;> (try split) <;> simp
@[simp] theorem State.assertSeln_waits (s : State) : s.assertSeln.waits = s.waits :=
  by unfold State.assertSeln; dsimp only; split <;> (try split) <;> simp
@[simp] theorem State.assertSeln_freeCount (s : State) : s.assertSeln.freeCount = s.freeCount :=
  by unfold State.assertSeln; dsimp only; split <;> (try split) <;> simp
@[simp] theorem State.assertSeln_pending (s : State) : s.assertSeln.pending = s.pending :=
  by unfold State.assertSeln; dsimp only; split <;> (try split) <;> simp

@[simp] theorem State.releaseSeln_timebase (s : State) : s.releaseSeln.timebase = s.timebase :=
  by unfold State.releaseSeln; dsimp only; repeat (first | split | simp)
@[simp] theorem State.releaseSeln_ports (s : State) : s.releaseSeln.ports = s.ports :=
  by unfold State.releaseSeln; dsimp only; repeat (first | split | simp)
@[simp] theorem State.releaseSeln_aux (s : State) : s.releaseSeln.aux = s.aux :=
  by unfold State.releaseSeln; dsimp only; repeat (first | split | simp)
@[simp] theorem State.releaseSeln_contacts (s : State) : s.releaseSeln.contacts = s.contacts :=
  by unfold State.releaseSeln; dsimp only; repeat (first | split | simp)
@[simp] theorem State.releaseSeln_keyQuiet (s : State) : s.releaseSeln.keyQuiet = s.keyQuiet :=
  by unfold State.releaseSeln; dsimp only; repeat (first | split | simp)
@[simp] theorem State.releaseSeln_pen (s : State) : s.releaseSeln.pen = s.pen :=
  by unfold State.releaseSeln; dsimp only; repeat (first | split | simp)
@[simp] theorem State.releaseSeln_engine (s : State) : s.releaseSeln.engine = s.engine :=
  by unfold State.releaseSeln; dsimp only; repeat (first | split | simp)
@[simp] theorem State.releaseSeln_motion (s : State) : s.releaseSeln.motion = s.motion :=
  by unfold State.releaseSeln; dsimp only; repeat (first | split | simp)
@[simp] theorem State.releaseSeln_posture (s : State) : s.releaseSeln.posture = s.posture :=
  by unfold State.releaseSeln; dsimp only; repeat (first | split | simp)
@[simp] theorem State.releaseSeln_store (s : State) : s.releaseSeln.store = s.store :=
  by unfold State.releaseSeln; dsimp only; repeat (first | split | simp)
@[simp] theorem State.releaseSeln_waits (s : State) : s.releaseSeln.waits = s.waits :=
  by unfold State.releaseSeln; dsimp only; repeat (first | split | simp)
@[simp] theorem State.releaseSeln_freeCount (s : State) : s.releaseSeln.freeCount = s.freeCount :=
  by unfold State.releaseSeln; dsimp only; repeat (first | split | simp)
@[simp] theorem State.releaseSeln_pending (s : State) : s.releaseSeln.pending = s.pending :=
  by unfold State.releaseSeln; dsimp only; repeat (first | split | simp)

@[simp] theorem State.shiftOut_timebase (s : State) (bits : List Bool) : (s.shiftOut bits).timebase = s.timebase :=
  rfl
@[simp] theorem State.shiftOut_pins (s : State) (bits : List Bool) : (s.shiftOut bits).pins = s.pins := rfl
@[simp] theorem State.shiftOut_ports (s : State) (bits : List Bool) : (s.shiftOut bits).ports = s.ports := rfl
@[simp] theorem State.shiftOut_aux (s : State) (bits : List Bool) : (s.shiftOut bits).aux = s.aux := rfl
@[simp] theorem State.shiftOut_contacts (s : State) (bits : List Bool) : (s.shiftOut bits).contacts = s.contacts :=
  rfl
@[simp] theorem State.shiftOut_keyQuiet (s : State) (bits : List Bool) : (s.shiftOut bits).keyQuiet = s.keyQuiet :=
  rfl
@[simp] theorem State.shiftOut_pen (s : State) (bits : List Bool) : (s.shiftOut bits).pen = s.pen := rfl
@[simp] theorem State.shiftOut_engine (s : State) (bits : List Bool) : (s.shiftOut bits).engine = s.engine := rfl
@[simp] theorem State.shiftOut_motion (s : State) (bits : List Bool) : (s.shiftOut bits).motion = s.motion := rfl
@[simp] theorem State.shiftOut_posture (s : State) (bits : List Bool) : (s.shiftOut bits).posture = s.posture := rfl
@[simp] theorem State.shiftOut_store (s : State) (bits : List Bool) : (s.shiftOut bits).store = s.store := rfl
@[simp] theorem State.shiftOut_link (s : State) (bits : List Bool) : (s.shiftOut bits).link = { s.link with sdo := s.link.sdo ++ bits } :=
  rfl
@[simp] theorem State.shiftOut_waits (s : State) (bits : List Bool) : (s.shiftOut bits).waits = s.waits := rfl
@[simp] theorem State.shiftOut_freeCount (s : State) (bits : List Bool) : (s.shiftOut bits).freeCount = s.freeCount :=
  rfl
@[simp] theorem State.shiftOut_pending (s : State) (bits : List Bool) : (s.shiftOut bits).pending = s.pending := rfl

@[simp] theorem State.setExchange_timebase (s : State) (e : Exchange) : (s.setExchange e).timebase = s.timebase := rfl
@[simp] theorem State.setExchange_pins (s : State) (e : Exchange) : (s.setExchange e).pins = s.pins := rfl
@[simp] theorem State.setExchange_ports (s : State) (e : Exchange) : (s.setExchange e).ports = s.ports := rfl
@[simp] theorem State.setExchange_aux (s : State) (e : Exchange) : (s.setExchange e).aux = s.aux := rfl
@[simp] theorem State.setExchange_contacts (s : State) (e : Exchange) : (s.setExchange e).contacts = s.contacts := rfl
@[simp] theorem State.setExchange_keyQuiet (s : State) (e : Exchange) : (s.setExchange e).keyQuiet = s.keyQuiet := rfl
@[simp] theorem State.setExchange_pen (s : State) (e : Exchange) : (s.setExchange e).pen = s.pen := rfl
@[simp] theorem State.setExchange_engine (s : State) (e : Exchange) : (s.setExchange e).engine = s.engine := rfl
@[simp] theorem State.setExchange_motion (s : State) (e : Exchange) : (s.setExchange e).motion = s.motion := rfl
@[simp] theorem State.setExchange_posture (s : State) (e : Exchange) : (s.setExchange e).posture = s.posture := rfl
@[simp] theorem State.setExchange_store (s : State) (e : Exchange) : (s.setExchange e).store = s.store := rfl
@[simp] theorem State.setExchange_link (s : State) (e : Exchange) : (s.setExchange e).link = { s.link with exchange := some e } :=
  rfl
@[simp] theorem State.setExchange_waits (s : State) (e : Exchange) : (s.setExchange e).waits = s.waits := rfl
@[simp] theorem State.setExchange_freeCount (s : State) (e : Exchange) : (s.setExchange e).freeCount = s.freeCount :=
  rfl
@[simp] theorem State.setExchange_pending (s : State) (e : Exchange) : (s.setExchange e).pending = s.pending := rfl

@[simp] theorem State.clockPart_timebase (s : State) (n : Nat) : (s.clockPart n).timebase = s.timebase :=
  by unfold State.clockPart; (repeat' split) <;> simp
@[simp] theorem State.clockPart_pins (s : State) (n : Nat) : (s.clockPart n).pins = s.pins :=
  by unfold State.clockPart; (repeat' split) <;> simp
@[simp] theorem State.clockPart_ports (s : State) (n : Nat) : (s.clockPart n).ports = s.ports :=
  by unfold State.clockPart; (repeat' split) <;> simp
@[simp] theorem State.clockPart_aux (s : State) (n : Nat) : (s.clockPart n).aux = s.aux :=
  by unfold State.clockPart; (repeat' split) <;> simp
@[simp] theorem State.clockPart_contacts (s : State) (n : Nat) : (s.clockPart n).contacts = s.contacts :=
  by unfold State.clockPart; (repeat' split) <;> simp
@[simp] theorem State.clockPart_keyQuiet (s : State) (n : Nat) : (s.clockPart n).keyQuiet = s.keyQuiet :=
  by unfold State.clockPart; (repeat' split) <;> simp
@[simp] theorem State.clockPart_pen (s : State) (n : Nat) : (s.clockPart n).pen = s.pen :=
  by unfold State.clockPart; (repeat' split) <;> simp
@[simp] theorem State.clockPart_engine (s : State) (n : Nat) : (s.clockPart n).engine = s.engine :=
  by unfold State.clockPart; (repeat' split) <;> simp
@[simp] theorem State.clockPart_motion (s : State) (n : Nat) : (s.clockPart n).motion = s.motion :=
  by unfold State.clockPart; (repeat' split) <;> simp
@[simp] theorem State.clockPart_posture (s : State) (n : Nat) : (s.clockPart n).posture = s.posture :=
  by unfold State.clockPart; (repeat' split) <;> simp
@[simp] theorem State.clockPart_store (s : State) (n : Nat) : (s.clockPart n).store = s.store :=
  by unfold State.clockPart; (repeat' split) <;> simp
@[simp] theorem State.clockPart_waits (s : State) (n : Nat) : (s.clockPart n).waits = s.waits :=
  by unfold State.clockPart; (repeat' split) <;> simp
@[simp] theorem State.clockPart_freeCount (s : State) (n : Nat) : (s.clockPart n).freeCount = s.freeCount :=
  by unfold State.clockPart; (repeat' split) <;> simp
@[simp] theorem State.clockPart_pending (s : State) (n : Nat) : (s.clockPart n).pending = s.pending :=
  by unfold State.clockPart; (repeat' split) <;> simp

@[simp] theorem State.clickEdge_timebase (s : State) (e : ClickEdge) : (s.clickEdge e).timebase = s.timebase :=
  by unfold State.clickEdge; dsimp only; split <;> rfl
@[simp] theorem State.clickEdge_ports (s : State) (e : ClickEdge) : (s.clickEdge e).ports = s.ports :=
  by unfold State.clickEdge; dsimp only; split <;> rfl
@[simp] theorem State.clickEdge_contacts (s : State) (e : ClickEdge) : (s.clickEdge e).contacts = s.contacts :=
  by unfold State.clickEdge; dsimp only; split <;> rfl
@[simp] theorem State.clickEdge_keyQuiet (s : State) (e : ClickEdge) : (s.clickEdge e).keyQuiet = s.keyQuiet :=
  by unfold State.clickEdge; dsimp only; split <;> rfl
@[simp] theorem State.clickEdge_pen (s : State) (e : ClickEdge) : (s.clickEdge e).pen = s.pen :=
  by unfold State.clickEdge; dsimp only; split <;> rfl
@[simp] theorem State.clickEdge_engine (s : State) (e : ClickEdge) : (s.clickEdge e).engine = s.engine :=
  by unfold State.clickEdge; dsimp only; split <;> rfl
@[simp] theorem State.clickEdge_motion (s : State) (e : ClickEdge) : (s.clickEdge e).motion = s.motion :=
  by unfold State.clickEdge; dsimp only; split <;> rfl
@[simp] theorem State.clickEdge_posture (s : State) (e : ClickEdge) : (s.clickEdge e).posture = s.posture :=
  by unfold State.clickEdge; dsimp only; split <;> rfl
@[simp] theorem State.clickEdge_store (s : State) (e : ClickEdge) : (s.clickEdge e).store = s.store :=
  by unfold State.clickEdge; dsimp only; split <;> rfl
@[simp] theorem State.clickEdge_link (s : State) (e : ClickEdge) : (s.clickEdge e).link = s.link :=
  by unfold State.clickEdge; dsimp only; split <;> rfl
@[simp] theorem State.clickEdge_waits (s : State) (e : ClickEdge) : (s.clickEdge e).waits = s.waits :=
  by unfold State.clickEdge; dsimp only; split <;> rfl
@[simp] theorem State.clickEdge_freeCount (s : State) (e : ClickEdge) : (s.clickEdge e).freeCount = s.freeCount :=
  by unfold State.clickEdge; dsimp only; split <;> rfl
@[simp] theorem State.clickEdge_pending (s : State) (e : ClickEdge) : (s.clickEdge e).pending = s.pending :=
  by unfold State.clickEdge; dsimp only; split <;> rfl

@[simp] theorem State.click_timebase (s : State) (l : ClickLevel) : (s.click l).timebase = s.timebase :=
  by cases l <;> simp [State.click]
@[simp] theorem State.click_pins (s : State) (l : ClickLevel) : (s.click l).pins = s.pins :=
  by cases l <;> simp [State.click]
@[simp] theorem State.click_ports (s : State) (l : ClickLevel) : (s.click l).ports = s.ports :=
  by cases l <;> simp [State.click]
@[simp] theorem State.click_keyQuiet (s : State) (l : ClickLevel) : (s.click l).keyQuiet = s.keyQuiet :=
  by cases l <;> simp [State.click]
@[simp] theorem State.click_store (s : State) (l : ClickLevel) : (s.click l).store = s.store :=
  by cases l <;> simp [State.click]
@[simp] theorem State.click_freeCount (s : State) (l : ClickLevel) : (s.click l).freeCount = s.freeCount :=
  by cases l <;> simp [State.click]
@[simp] theorem State.click_pending (s : State) (l : ClickLevel) : (s.click l).pending = s.pending :=
  by cases l <;> simp [State.click]

@[simp] theorem State.debounced_timebase (s : State) : s.debounced.timebase = s.timebase :=
  by unfold State.debounced; dsimp only; repeat (first | split | simp)
@[simp] theorem State.debounced_pins (s : State) : s.debounced.pins = s.pins :=
  by unfold State.debounced; dsimp only; repeat (first | split | simp)
@[simp] theorem State.debounced_ports (s : State) : s.debounced.ports = s.ports :=
  by unfold State.debounced; dsimp only; repeat (first | split | simp)
@[simp] theorem State.debounced_keyQuiet (s : State) : s.debounced.keyQuiet = s.keyQuiet :=
  by unfold State.debounced; dsimp only; repeat (first | split | simp)
@[simp] theorem State.debounced_store (s : State) : s.debounced.store = s.store :=
  by unfold State.debounced; dsimp only; repeat (first | split | simp)
@[simp] theorem State.debounced_freeCount (s : State) : s.debounced.freeCount = s.freeCount :=
  by unfold State.debounced; dsimp only; repeat (first | split | simp)
@[simp] theorem State.debounced_pending (s : State) : s.debounced.pending = s.pending :=
  by unfold State.debounced; dsimp only; repeat (first | split | simp)

@[simp] theorem State.keysQuiet_timebase (s : State) : s.keysQuiet.timebase = s.timebase :=
  by unfold State.keysQuiet; split <;> simp
@[simp] theorem State.keysQuiet_pins (s : State) : s.keysQuiet.pins = s.pins :=
  by unfold State.keysQuiet; split <;> simp
@[simp] theorem State.keysQuiet_ports (s : State) : s.keysQuiet.ports = s.ports :=
  by unfold State.keysQuiet; split <;> simp
@[simp] theorem State.keysQuiet_aux (s : State) : s.keysQuiet.aux = s.aux := by unfold State.keysQuiet; split <;> simp
@[simp] theorem State.keysQuiet_contacts (s : State) : s.keysQuiet.contacts = s.contacts :=
  by unfold State.keysQuiet; split <;> simp
@[simp] theorem State.keysQuiet_pen (s : State) : s.keysQuiet.pen = s.pen := by unfold State.keysQuiet; split <;> simp
@[simp] theorem State.keysQuiet_engine (s : State) : s.keysQuiet.engine = s.engine :=
  by unfold State.keysQuiet; split <;> simp
@[simp] theorem State.keysQuiet_motion (s : State) : s.keysQuiet.motion = s.motion :=
  by unfold State.keysQuiet; split <;> simp
@[simp] theorem State.keysQuiet_posture (s : State) : s.keysQuiet.posture = s.posture :=
  by unfold State.keysQuiet; split <;> simp
@[simp] theorem State.keysQuiet_store (s : State) : s.keysQuiet.store = s.store :=
  by unfold State.keysQuiet; split <;> simp
@[simp] theorem State.keysQuiet_link (s : State) : s.keysQuiet.link = s.link :=
  by unfold State.keysQuiet; split <;> simp
@[simp] theorem State.keysQuiet_waits (s : State) : s.keysQuiet.waits = s.waits :=
  by unfold State.keysQuiet; split <;> simp
@[simp] theorem State.keysQuiet_freeCount (s : State) : s.keysQuiet.freeCount = s.freeCount :=
  by unfold State.keysQuiet; split <;> simp
@[simp] theorem State.keysQuiet_pending (s : State) : s.keysQuiet.pending = s.pending :=
  by unfold State.keysQuiet; split <;> simp

@[simp] theorem State.tapGap_timebase (s : State) : s.tapGap.timebase = s.timebase :=
  by unfold State.tapGap; split <;> simp
@[simp] theorem State.tapGap_pins (s : State) : s.tapGap.pins = s.pins := by unfold State.tapGap; split <;> simp
@[simp] theorem State.tapGap_ports (s : State) : s.tapGap.ports = s.ports := by unfold State.tapGap; split <;> simp
@[simp] theorem State.tapGap_keyQuiet (s : State) : s.tapGap.keyQuiet = s.keyQuiet :=
  by unfold State.tapGap; split <;> simp
@[simp] theorem State.tapGap_store (s : State) : s.tapGap.store = s.store := by unfold State.tapGap; split <;> simp
@[simp] theorem State.tapGap_freeCount (s : State) : s.tapGap.freeCount = s.freeCount :=
  by unfold State.tapGap; split <;> simp
@[simp] theorem State.tapGap_pending (s : State) : s.tapGap.pending = s.pending :=
  by unfold State.tapGap; split <;> simp

@[simp] theorem State.coast_timebase (s : State) : s.coast.timebase = s.timebase :=
  by unfold State.coast; split <;> simp
@[simp] theorem State.coast_pins (s : State) : s.coast.pins = s.pins := by unfold State.coast; split <;> simp
@[simp] theorem State.coast_ports (s : State) : s.coast.ports = s.ports := by unfold State.coast; split <;> simp
@[simp] theorem State.coast_keyQuiet (s : State) : s.coast.keyQuiet = s.keyQuiet :=
  by unfold State.coast; split <;> simp
@[simp] theorem State.coast_store (s : State) : s.coast.store = s.store := by unfold State.coast; split <;> simp
@[simp] theorem State.coast_freeCount (s : State) : s.coast.freeCount = s.freeCount :=
  by unfold State.coast; split <;> simp
@[simp] theorem State.coast_pending (s : State) : s.coast.pending = s.pending := by unfold State.coast; split <;> simp

@[simp] theorem State.shadowEnd_timebase (s : State) : s.shadowEnd.timebase = s.timebase :=
  by unfold State.shadowEnd; split <;> simp
@[simp] theorem State.shadowEnd_pins (s : State) : s.shadowEnd.pins = s.pins :=
  by unfold State.shadowEnd; split <;> simp
@[simp] theorem State.shadowEnd_ports (s : State) : s.shadowEnd.ports = s.ports :=
  by unfold State.shadowEnd; split <;> simp
@[simp] theorem State.shadowEnd_aux (s : State) : s.shadowEnd.aux = s.aux := by unfold State.shadowEnd; split <;> simp
@[simp] theorem State.shadowEnd_contacts (s : State) : s.shadowEnd.contacts = s.contacts :=
  by unfold State.shadowEnd; split <;> simp
@[simp] theorem State.shadowEnd_keyQuiet (s : State) : s.shadowEnd.keyQuiet = s.keyQuiet :=
  by unfold State.shadowEnd; split <;> simp
@[simp] theorem State.shadowEnd_engine (s : State) : s.shadowEnd.engine = s.engine :=
  by unfold State.shadowEnd; split <;> simp
@[simp] theorem State.shadowEnd_motion (s : State) : s.shadowEnd.motion = s.motion :=
  by unfold State.shadowEnd; split <;> simp
@[simp] theorem State.shadowEnd_posture (s : State) : s.shadowEnd.posture = s.posture :=
  by unfold State.shadowEnd; split <;> simp
@[simp] theorem State.shadowEnd_store (s : State) : s.shadowEnd.store = s.store :=
  by unfold State.shadowEnd; split <;> simp
@[simp] theorem State.shadowEnd_link (s : State) : s.shadowEnd.link = s.link :=
  by unfold State.shadowEnd; split <;> simp
@[simp] theorem State.shadowEnd_waits (s : State) : s.shadowEnd.waits = s.waits :=
  by unfold State.shadowEnd; split <;> simp
@[simp] theorem State.shadowEnd_freeCount (s : State) : s.shadowEnd.freeCount = s.freeCount :=
  by unfold State.shadowEnd; split <;> simp
@[simp] theorem State.shadowEnd_pending (s : State) : s.shadowEnd.pending = s.pending :=
  by unfold State.shadowEnd; split <;> simp

@[simp] theorem State.deferralEnd_timebase (s : State) : s.deferralEnd.timebase = s.timebase :=
  by unfold State.deferralEnd; split <;> simp
@[simp] theorem State.deferralEnd_pins (s : State) : s.deferralEnd.pins = s.pins :=
  by unfold State.deferralEnd; split <;> simp
@[simp] theorem State.deferralEnd_ports (s : State) : s.deferralEnd.ports = s.ports :=
  by unfold State.deferralEnd; split <;> simp
@[simp] theorem State.deferralEnd_keyQuiet (s : State) : s.deferralEnd.keyQuiet = s.keyQuiet :=
  by unfold State.deferralEnd; split <;> simp
@[simp] theorem State.deferralEnd_store (s : State) : s.deferralEnd.store = s.store :=
  by unfold State.deferralEnd; split <;> simp
@[simp] theorem State.deferralEnd_freeCount (s : State) : s.deferralEnd.freeCount = s.freeCount :=
  by unfold State.deferralEnd; split <;> simp
@[simp] theorem State.deferralEnd_pending (s : State) : s.deferralEnd.pending = s.pending :=
  by unfold State.deferralEnd; split <;> simp

/-! ## Directives: what they leave -/

@[simp] theorem State.commit_timebase (s : State) (set : Half) : (s.commit set).timebase = s.timebase :=
  by unfold State.commit; dsimp only; split <;> simp
@[simp] theorem State.commit_pins (s : State) (set : Half) : (s.commit set).pins = s.pins :=
  by unfold State.commit; dsimp only; split <;> simp
@[simp] theorem State.commit_pending (s : State) (set : Half) : (s.commit set).pending = s.pending :=
  by unfold State.commit; dsimp only; split <;> simp

@[simp] theorem State.discard_timebase (s : State) (set : Half) : (s.discard set).timebase = s.timebase :=
  by unfold State.discard; dsimp only; split <;> simp
@[simp] theorem State.discard_pins (s : State) (set : Half) : (s.discard set).pins = s.pins :=
  by unfold State.discard; dsimp only; split <;> simp
@[simp] theorem State.discard_pending (s : State) (set : Half) : (s.discard set).pending = s.pending :=
  by unfold State.discard; dsimp only; split <;> simp

@[simp] theorem State.disablePort_timebase (s : State) (i : Fin 4) : (s.disablePort i).timebase = s.timebase :=
  by simp [State.disablePort]
@[simp] theorem State.disablePort_pins (s : State) (i : Fin 4) : (s.disablePort i).pins = s.pins :=
  by simp [State.disablePort]
@[simp] theorem State.disablePort_keyQuiet (s : State) (i : Fin 4) : (s.disablePort i).keyQuiet = s.keyQuiet :=
  by simp [State.disablePort]
@[simp] theorem State.disablePort_store (s : State) (i : Fin 4) : (s.disablePort i).store = s.store :=
  by simp [State.disablePort]
@[simp] theorem State.disablePort_freeCount (s : State) (i : Fin 4) : (s.disablePort i).freeCount = s.freeCount :=
  by simp [State.disablePort]
@[simp] theorem State.disablePort_pending (s : State) (i : Fin 4) : (s.disablePort i).pending = s.pending :=
  by simp [State.disablePort]

@[simp] theorem State.enablePort_timebase (s : State) (i : Fin 4) (r : Role) : (s.enablePort i r).timebase = s.timebase :=
  rfl
@[simp] theorem State.enablePort_pins (s : State) (i : Fin 4) (r : Role) : (s.enablePort i r).pins = s.pins := rfl
@[simp] theorem State.enablePort_aux (s : State) (i : Fin 4) (r : Role) : (s.enablePort i r).aux = s.aux := rfl
@[simp] theorem State.enablePort_contacts (s : State) (i : Fin 4) (r : Role) : (s.enablePort i r).contacts = s.contacts :=
  rfl
@[simp] theorem State.enablePort_keyQuiet (s : State) (i : Fin 4) (r : Role) : (s.enablePort i r).keyQuiet = s.keyQuiet :=
  rfl
@[simp] theorem State.enablePort_pen (s : State) (i : Fin 4) (r : Role) : (s.enablePort i r).pen = s.pen := rfl
@[simp] theorem State.enablePort_engine (s : State) (i : Fin 4) (r : Role) : (s.enablePort i r).engine = s.engine :=
  rfl
@[simp] theorem State.enablePort_motion (s : State) (i : Fin 4) (r : Role) : (s.enablePort i r).motion = s.motion :=
  rfl
@[simp] theorem State.enablePort_posture (s : State) (i : Fin 4) (r : Role) : (s.enablePort i r).posture = s.posture :=
  rfl
@[simp] theorem State.enablePort_store (s : State) (i : Fin 4) (r : Role) : (s.enablePort i r).store = s.store := rfl
@[simp] theorem State.enablePort_link (s : State) (i : Fin 4) (r : Role) : (s.enablePort i r).link = s.link := rfl
@[simp] theorem State.enablePort_waits (s : State) (i : Fin 4) (r : Role) : (s.enablePort i r).waits = s.waits := rfl
@[simp] theorem State.enablePort_freeCount (s : State) (i : Fin 4) (r : Role) : (s.enablePort i r).freeCount = s.freeCount :=
  rfl
@[simp] theorem State.enablePort_pending (s : State) (i : Fin 4) (r : Role) : (s.enablePort i r).pending = s.pending :=
  rfl

/-! ## The taking of a cell: what it leaves -/

@[simp] theorem State.takeDirective_timebase (s : State) (d : Directive) (n : Byte) (b : List Byte) : (s.takeDirective d n b).timebase = s.timebase := by
  cases d <;> simp only [State.takeDirective, State.answer, takeReadStatus, takeClearCauses, takeSetMask,
    takeSetCeiling, takeWriteTable, writeShadow, takeReadTable, takeCommit, takeDiscard, takeSetPort, setPortRow,
    takeSetPosture, postureReply, takeFlush, takeRestart, State.reply_timebase] <;> (repeat' split) <;> simp
@[simp] theorem State.takeDirective_pins (s : State) (d : Directive) (n : Byte) (b : List Byte) : (s.takeDirective d n b).pins = s.pins := by
  cases d <;> simp only [State.takeDirective, State.answer, takeReadStatus, takeClearCauses, takeSetMask,
    takeSetCeiling, takeWriteTable, writeShadow, takeReadTable, takeCommit, takeDiscard, takeSetPort, setPortRow,
    takeSetPosture, postureReply, takeFlush, takeRestart, State.reply_pins] <;> (repeat' split) <;> simp
@[simp] theorem State.takeDirective_pending (s : State) (d : Directive) (n : Byte) (b : List Byte) : (s.takeDirective d n b).pending = s.pending := by
  cases d <;> simp only [State.takeDirective, State.answer, takeReadStatus, takeClearCauses, takeSetMask,
    takeSetCeiling, takeWriteTable, writeShadow, takeReadTable, takeCommit, takeDiscard, takeSetPort, setPortRow,
    takeSetPosture, postureReply, takeFlush, takeRestart, State.reply_pending] <;> (repeat' split) <;> simp

@[simp] theorem State.takeCell_timebase (s : State) (b : List Byte) : (s.takeCell b).timebase = s.timebase :=
  by unfold State.takeCell; dsimp only; (repeat' split) <;> simp
@[simp] theorem State.takeCell_pins (s : State) (b : List Byte) : (s.takeCell b).pins = s.pins :=
  by unfold State.takeCell; dsimp only; (repeat' split) <;> simp
@[simp] theorem State.takeCell_pending (s : State) (b : List Byte) : (s.takeCell b).pending = s.pending :=
  by unfold State.takeCell; dsimp only; (repeat' split) <;> simp

@[simp] theorem State.clockByte_timebase (s : State) (b : Byte) : (s.clockByte b).timebase = s.timebase :=
  by unfold State.clockByte; (repeat' split) <;> simp
@[simp] theorem State.clockByte_pins (s : State) (b : Byte) : (s.clockByte b).pins = s.pins :=
  by unfold State.clockByte; (repeat' split) <;> simp
@[simp] theorem State.clockByte_pending (s : State) (b : Byte) : (s.clockByte b).pending = s.pending :=
  by unfold State.clockByte; (repeat' split) <;> simp

@[simp] theorem State.clockBytes_timebase (s : State) (b : List Byte) : (s.clockBytes b).timebase = s.timebase := by
  unfold State.clockBytes
  induction b generalizing s with
  | nil => rfl
  | cons a l ih => rw [List.foldl_cons, ih]; simp
@[simp] theorem State.clockBytes_pins (s : State) (b : List Byte) : (s.clockBytes b).pins = s.pins := by
  unfold State.clockBytes
  induction b generalizing s with
  | nil => rfl
  | cons a l ih => rw [List.foldl_cons, ih]; simp
@[simp] theorem State.clockBytes_pending (s : State) (b : List Byte) : (s.clockBytes b).pending = s.pending := by
  unfold State.clockBytes
  induction b generalizing s with
  | nil => rfl
  | cons a l ih => rw [List.foldl_cons, ih]; simp

@[simp] theorem State.clockBits_timebase (s : State) (b : List Bool) : (s.clockBits b).timebase = s.timebase :=
  by simp [State.clockBits]
@[simp] theorem State.clockBits_pins (s : State) (b : List Bool) : (s.clockBits b).pins = s.pins :=
  by simp [State.clockBits]
@[simp] theorem State.clockBits_pending (s : State) (b : List Bool) : (s.clockBits b).pending = s.pending :=
  by simp [State.clockBits]

@[simp] theorem State.clockCell_timebase (s : State) (k : Byte) (c : DirectiveCell) : (s.clockCell k c).timebase = s.timebase :=
  by simp [State.clockCell]
@[simp] theorem State.clockCell_pins (s : State) (k : Byte) (c : DirectiveCell) : (s.clockCell k c).pins = s.pins :=
  by simp [State.clockCell]
@[simp] theorem State.clockCell_pending (s : State) (k : Byte) (c : DirectiveCell) : (s.clockCell k c).pending = s.pending :=
  by simp [State.clockCell]

end Sys2Proof.Machine
end

