-- ==== Sys2Proof/Laws/Ops.lean ====
section
/-! SUPPORT. What each shared operation of Machine/Ops.lean, Flags.lean and Exchange.lean does, said once: the ports, the
timers, the frames in processing, the causes, the sets, and the taking of a directive. -/

namespace Sys2Proof.Machine

/-! ## The ports -/

@[simp] theorem Ports.get_set_same (ps : Ports) (i : Fin 4) (p : Port) : (ps.set i p).get i = p := by
  fin_cases i <;> rfl

theorem Ports.get_set_other (ps : Ports) {i j : Fin 4} (h : j ≠ i) (p : Port) : (ps.set i p).get j = ps.get j := by
  fin_cases i <;> fin_cases j <;> first | rfl | exact absurd rfl h

theorem Ports.get_set (ps : Ports) (i j : Fin 4) (p : Port) :
    (ps.set i p).get j = if j = i then p else ps.get j := by
  split
  · next h => subst h; exact Ports.get_set_same ps j p
  · next h => exact Ports.get_set_other ps h p

@[simp] theorem Ports.set_set (ps : Ports) (i : Fin 4) (p q : Port) : (ps.set i p).set i q = ps.set i q := by
  fin_cases i <;> rfl

@[simp] theorem Ports.set_get (ps : Ports) (i : Fin 4) : ps.set i (ps.get i) = ps := by fin_cases i <;> rfl

@[simp] theorem Ports.get_map (ps : Ports) (f : Port → Port) (i : Fin 4) : (ps.map f).get i = f (ps.get i) := by
  fin_cases i <;> rfl

theorem Ports.any_iff (ps : Ports) (f : Port → Bool) : ps.toList.any f = true ↔ ∃ i, f (ps.get i) = true := by
  simp [Ports.toList, Fin.exists_fin_succ, Ports.get]

theorem Ports.any_eq_false (ps : Ports) (f : Port → Bool) : ps.toList.any f = false ↔ ∀ i, f (ps.get i) = false := by
  simp [Ports.toList, Fin.forall_fin_succ, Ports.get]

/-- Two sets of ports that agree port by port are equal. -/
theorem Ports.ext_get {ps qs : Ports} (h : ∀ i, ps.get i = qs.get i) : ps = qs := by
  cases ps; cases qs
  simp only [Ports.mk.injEq]
  exact ⟨h 0, h 1, h 2, h 3⟩

@[simp] theorem State.port_atTime (s : State) (t : Stamp) (i : Fin 4) : (s.atTime t).port i = s.port i := rfl

@[simp] theorem State.port_setPort_same (s : State) (i : Fin 4) (p : Port) : (s.setPort i p).port i = p :=
  Ports.get_set_same _ _ _

theorem State.port_setPort (s : State) (i j : Fin 4) (p : Port) :
    (s.setPort i p).port j = if j = i then p else s.port j := Ports.get_set _ _ _ _

@[simp] theorem State.setPort_setPort (s : State) (i : Fin 4) (p q : Port) :
    (s.setPort i p).setPort i q = s.setPort i q := by simp [State.setPort]

/-! ## Frames in processing -/

theorem Ports.frameOf_iff (ps : Ports) (r : Role) :
    ps.frameOf r = true ↔ ∃ i f, (ps.get i).frame = some f ∧ f.role = r := by
  unfold Ports.frameOf
  rw [Ports.any_iff]
  refine exists_congr fun i => ?_
  cases (ps.get i).frame <;> simp

theorem Ports.frameOf_eq_false (ps : Ports) (r : Role) :
    ps.frameOf r = false ↔ ∀ i f, (ps.get i).frame = some f → f.role ≠ r := by
  rw [← Bool.not_eq_true, Ports.frameOf_iff]
  push Not
  rfl

theorem Ports.anyFrame_iff (ps : Ports) : ps.anyFrame = true ↔ ∃ i, (ps.get i).frame ≠ none := by
  unfold Ports.anyFrame
  rw [Ports.any_iff]
  simp [Option.isSome_iff_ne_none]

theorem Ports.anyFrame_eq_false (ps : Ports) : ps.anyFrame = false ↔ ∀ i, (ps.get i).frame = none := by
  rw [← Bool.not_eq_true, Ports.anyFrame_iff]
  push Not
  rfl

/-- A change of one port that keeps its frame changes no role's frame in processing. -/
theorem Ports.frameOf_set (ps : Ports) (i : Fin 4) (p : Port) (h : p.frame = (ps.get i).frame) (r : Role) :
    (ps.set i p).frameOf r = ps.frameOf r := by
  fin_cases i <;> simp_all [Ports.set, Ports.get, Ports.frameOf, Ports.toList]

theorem Ports.anyFrame_set (ps : Ports) (i : Fin 4) (p : Port) (h : p.frame = (ps.get i).frame) :
    (ps.set i p).anyFrame = ps.anyFrame := by
  fin_cases i <;> simp_all [Ports.set, Ports.get, Ports.anyFrame, Ports.toList]

theorem Port.enabled_iff (p : Port) : p.enabled = true ↔ p.state ≠ .disabled := by
  simp [Port.enabled]

theorem Port.holds_iff (p : Port) (r : Role) :
    p.holds r = true ↔ (p.enabled = true ∧ p.role = r) ∨ ∃ f, p.frame = some f ∧ f.role = r := by
  unfold Port.holds
  cases p.frame <;> simp

/-! ## Time -/

theorem due_iff (timer : Option Stamp) (now : Stamp) : due timer now = true ↔ hasExpired timer now := by
  cases timer with
  | none => simp [due, hasExpired]
  | some e =>
    simp only [due, hasExpired, elapsed, Option.some.injEq, exists_eq_left']
    exact decide_eq_true_iff

theorem due_eq_false (timer : Option Stamp) (now : Stamp) : due timer now = false ↔ ¬hasExpired timer now := by
  rw [← due_iff, Bool.not_eq_true]

theorem afterMs_eq (t : Stamp) (ms : Nat) : afterMs t ms = t + BitVec.ofNat 32 (1000 * ms) := by
  rw [afterMs, Nat.mul_comm]

theorem State.deadlineFrom_eq (s : State) (i : Fin 4) :
    s.deadlineFrom i = s.timebase + BitVec.ofNat 32 (1000 * s.store.active.params.getD (24 + i.val) 0) := afterMs_eq _ _

/-! ## Holds -/

theorem State.hold_eq_withHeld (s : State) (b : Bool) (r : Role) : s.hold b r = s.withHeld b r := by cases r <;> rfl

/-! ## Causes and sets -/

theorem State.streamLate_iff (s : State) : s.streamLate = true ↔ ∃ i, (s.port i).state = .late := by
  unfold State.streamLate
  rw [Ports.any_iff]
  simp [State.port]

theorem causesOutOfRange_iff (set : Half) : causesOutOfRange set = true ↔ 512 ≤ set.toNat := by
  unfold causesOutOfRange
  rw [bne_iff_ne, ne_eq, ← BitVec.toNat_inj]
  simp only [BitVec.toNat_ushiftRight, Nat.shiftRight_eq_div_pow, BitVec.ofNat_eq_ofNat, BitVec.toNat_ofNat]
  omega

theorem setOutOfRange_iff (set : Half) : setOutOfRange set = true ↔ 256 ≤ set.toNat := by
  unfold setOutOfRange
  rw [bne_iff_ne, ne_eq, ← BitVec.toNat_inj]
  simp only [BitVec.toNat_ushiftRight, Nat.shiftRight_eq_div_pow, BitVec.ofNat_eq_ofNat, BitVec.toNat_ofNat]
  omega

theorem setAt_eq_operandSet (c : DirectiveCell) : setAt c.payload 0 = operandSet c := by
  unfold setAt operandSet halfAt byteAt
  generalize c.payload.getD 0 0 = a
  generalize c.payload.getD (0 + 1) 0 = b
  apply BitVec.eq_of_toNat_eq
  have ha := a.isLt
  have hb := b.isLt
  rw [BitVec.toNat_append, BitVec.toNat_ofNat, Nat.shiftLeft_eq, ← Nat.mul_comm (2 ^ 8) b.toNat,
    ← Nat.two_pow_add_eq_or_of_lt (by omega)]
  omega

/-! ## The bits on the wires (R146, R165) -/

@[simp] theorem lineByte_onLine (b : Byte) : lineByte (onLine b).bits = b := by revert b; decide

@[simp] theorem onLine_stop (b : Byte) : (onLine b).stop = true := rfl

@[simp] theorem linkByte_linkBits (b : Byte) : linkByte (linkBits b) = b := by revert b; decide

theorem linkBits_eq_overLink (b : Byte) : linkBits b = overLink b := by revert b; decide

@[simp] theorem linkBits_length (b : Byte) : (linkBits b).length = 8 := by simp [linkBits]

/-- Eight bits on the link are a byte, and the rest follows. -/
theorem linkBytes_linkBits_append (b : Byte) (rest : List Bool) :
    linkBytes (linkBits b ++ rest) = b :: linkBytes rest := by
  have h : linkBits b = [b.getMsbD 0, b.getMsbD 1, b.getMsbD 2, b.getMsbD 3, b.getMsbD 4, b.getMsbD 5, b.getMsbD 6,
    b.getMsbD 7] := rfl
  have h2 : linkBytes (linkBits b ++ rest) = linkByte (linkBits b) :: linkBytes rest := by rw [h]; rfl
  rw [h2, linkByte_linkBits]

/-- The bits of bytes on the link are those bytes. -/
theorem linkBytes_flatMap (bs : List Byte) : linkBytes (bs.flatMap linkBits) = bs := by
  induction bs with
  | nil => rfl
  | cons b bs ih => rw [List.flatMap_cons, linkBytes_linkBits_append, ih]

/-! ## Characters (R9, R168) -/

/-- An enabled port takes a byte from a character with its stop bit. -/
theorem State.receive_onLine (s : State) (i : Fin 4) (b : Byte) (h : (s.port i).enabled = true) :
    s.receive i (onLine b) = s.receiveByte i b := by simp [State.receive, h]

theorem State.receiveLine_cons (s : State) (i : Fin 4) (ch : Character) (l : List Character) :
    s.receiveLine i (ch :: l) = (s.receive i ch).receiveLine i l := rfl

theorem State.receiveLine_append (s : State) (i : Fin 4) (l m : List Character) :
    s.receiveLine i (l ++ m) = (s.receiveLine i l).receiveLine i m := List.foldl_append

/-- A DISABLED port receives nothing. -/
theorem State.receiveLine_disabled (s : State) (i : Fin 4) (l : List Character) (h : (s.port i).enabled = false) :
    s.receiveLine i l = s := by
  induction l with
  | nil => rfl
  | cons c l ih => rw [State.receiveLine_cons, State.receive, if_neg (by simp [h]), ih]

@[simp] theorem State.port_setRx (s : State) (i : Fin 4) (rx : Reception) :
    (s.setRx i rx).port i = { s.port i with rx := rx } := State.port_setPort_same _ _ _

@[simp] theorem State.setRx_setRx (s : State) (i : Fin 4) (a b : Reception) : (s.setRx i a).setRx i b = s.setRx i b := by
  simp [State.setRx]

theorem State.setRx_self (s : State) (i : Fin 4) (rx : Reception) (h : (s.port i).rx = rx) : s.setRx i rx = s := by
  have : ({ s.port i with rx := rx } : Port) = s.port i := by rw [← h]
  unfold State.setRx State.setPort
  rw [this]
  exact congrArg (fun p : Ports => { s with ports := p }) (Ports.set_get s.ports i)

/-- Body bytes short of the record's length are counted (R168). -/
theorem State.receiveLine_body (s : State) (i : Fin 4) (n : Nat) (got more : List Byte)
    (he : (s.port i).enabled = true) (hr : (s.port i).rx = .body n got) (hl : got.length + more.length < n) :
    s.receiveLine i (more.map onLine) = s.setRx i (.body n (got ++ more)) := by
  induction more generalizing s got with
  | nil =>
    rw [List.append_nil, State.setRx_self s i _ hr]
    rfl
  | cons b more ih =>
    simp only [List.length_cons] at hl
    rw [List.map_cons, State.receiveLine_cons, State.receive_onLine _ _ _ he]
    have h1 : s.receiveByte i b = s.setRx i (.body n (got ++ [b])) := by
      unfold State.receiveByte
      rw [hr]
      exact if_neg (by omega)
    rw [h1, ih _ (got ++ [b])]
    · simp
    · simpa [Port.enabled] using he
    · simp
    · simp; omega

/-- The last body byte completes the record: the port hunts again, and the body is checked (R9, R168). -/
theorem State.receiveLine_body_complete (s : State) (i : Fin 4) (n : Nat) (got more : List Byte)
    (he : (s.port i).enabled = true) (hr : (s.port i).rx = .body n got) (hne : more ≠ [])
    (hl : got.length + more.length = n) :
    s.receiveLine i (more.map onLine) = (s.setRx i .hunting).arrival i (got ++ more) := by
  obtain ⟨init, last, rfl⟩ : ∃ init last, more = init ++ [last] := ⟨_, _, (List.dropLast_append_getLast hne).symm⟩
  simp only [List.length_append, List.length_singleton] at hl
  rw [List.map_append, State.receiveLine_append, State.receiveLine_body s i n got init he hr (by omega)]
  rw [List.map_singleton, State.receiveLine_cons, State.receive_onLine _ _ _ (by simpa [Port.enabled] using he)]
  unfold State.receiveByte
  simp only [State.port_setRx]
  rw [if_pos (by simp; omega)]
  simp [State.receiveLine]

/-- The length byte and a whole body, 0 to 255 bytes long, complete a record (R168). -/
theorem State.receiveLine_length_complete (s : State) (i : Fin 4) (body : List Byte)
    (he : (s.port i).enabled = true) (hr : (s.port i).rx = .length) (hl : body.length ≤ 255) :
    s.receiveLine i ((BitVec.ofNat 8 body.length :: body).map onLine) = (s.setRx i .hunting).arrival i body := by
  rw [List.map_cons, State.receiveLine_cons, State.receive_onLine _ _ _ he]
  unfold State.receiveByte
  rw [hr]
  by_cases h0 : body = []
  · subst h0
    simp [State.receiveLine]
  · have hp : 0 < body.length := List.length_pos_iff.2 h0
    have hn : (BitVec.ofNat 8 body.length).toNat = body.length := by simp; omega
    have hne : BitVec.ofNat 8 body.length ≠ 0 := by
      intro h
      rw [h] at hn
      simp at hn
      omega
    dsimp only
    rw [if_neg hne, hn, State.receiveLine_body_complete _ i body.length [] body (by simpa [Port.enabled] using he)
      (by simp) h0 (by simp)]
    simp

/-- Bytes that are no start byte are passed over while the port hunts (R168). -/
theorem State.receiveLine_noise (s : State) (i : Fin 4) (noise : List Byte) (he : (s.port i).enabled = true)
    (hr : (s.port i).rx = .hunting) (hn : 0xA5 ∉ noise) : s.receiveLine i (noise.map onLine) = s := by
  induction noise with
  | nil => rfl
  | cons b noise ih =>
    simp only [List.mem_cons, not_or] at hn
    rw [List.map_cons, State.receiveLine_cons, State.receive_onLine _ _ _ he]
    have : s.receiveByte i b = s := by
      unfold State.receiveByte
      rw [hr]
      exact if_neg (fun h => hn.1 h.symm)
    rw [this, ih hn.2]

/-- A start byte, a length byte and a whole body complete a record on a port that hunts, whatever is passed over before (R168). -/
theorem State.receiveLine_record (s : State) (i : Fin 4) (line : List Character) (body : List Byte)
    (he : (s.port i).enabled = true) (hb : bringsRecord (s.port i).rx line body) :
    s.receiveLine i line = (s.setRx i .hunting).arrival i body := by
  obtain ⟨hlen, hb⟩ := hb
  cases hr : (s.port i).rx with
  | hunting =>
    rw [hr] at hb
    obtain ⟨noise, hn, rfl⟩ := hb
    rw [List.map_append, State.receiveLine_append, State.receiveLine_noise s i noise he hr hn, List.map_cons,
      State.receiveLine_cons, State.receive_onLine _ _ _ he]
    have : s.receiveByte i 0xA5 = s.setRx i .length := by
      unfold State.receiveByte
      rw [hr]
      exact if_pos rfl
    rw [this, State.receiveLine_length_complete _ i body (by simpa [Port.enabled] using he) (by simp) hlen]
    simp
  | length =>
    rw [hr] at hb
    subst hb
    exact State.receiveLine_length_complete s i body he hr hlen
  | body n got =>
    rw [hr] at hb
    obtain ⟨more, hne, rfl, hl, rfl⟩ := hb
    exact State.receiveLine_body_complete s i n got more he hr hne (by simpa using hl)

/-! ## The clocks of an exchange (R146) -/

theorem State.clockBytes_cons (s : State) (b : Byte) (bs : List Byte) :
    s.clockBytes (b :: bs) = (s.clockByte b).clockBytes bs := rfl

theorem State.clockBytes_append (s : State) (a b : List Byte) :
    s.clockBytes (a ++ b) = (s.clockBytes a).clockBytes b := List.foldl_append

/-- Without a served exchange nothing is shifted (R164). -/
theorem State.clockBytes_idle (s : State) (bs : List Byte) (h : s.link.exchange = none) : s.clockBytes bs = s := by
  induction bs with
  | nil => rfl
  | cons b bs ih =>
    have : s.clockByte b = s := by unfold State.clockByte; rw [h]
    rw [State.clockBytes_cons, this, ih]

/-- Bytes short of the 64th are counted and stored, and SDO carries the cell's bytes in turn (R146). -/
theorem State.clockBytes_short (s : State) (e : Exchange) (bs : List Byte) (h : s.link.exchange = some e)
    (hl : e.count + bs.length < 64) :
    s.clockBytes bs =
      { s with link := { s.link with
        exchange := some ⟨e.count + bs.length, e.cell, e.received ++ bs⟩
        sdo := s.link.sdo ++ (List.range bs.length).flatMap fun k => linkBits (e.cell.getD (e.count + k) 0) } } := by
  induction bs using List.reverseRecOn with
  | nil => simp [State.clockBytes, ← h]
  | append_singleton bs b ih =>
    simp only [List.length_append, List.length_singleton] at hl ⊢
    rw [State.clockBytes_append, ih (by omega), State.clockBytes_cons]
    have hc : e.count + bs.length < 64 := by omega
    simp [State.clockBytes, State.clockByte, State.shiftOut, State.setExchange, Exchange.out, hc,
      show ¬(64 ≤ e.count + bs.length) by omega, show e.count + bs.length ≠ 63 by omega, List.range_succ, Nat.add_assoc]

/-- After the 64th byte the part shifts out 0x00 and ignores what comes (R146). -/
theorem State.clockBytes_after (s : State) (e : Exchange) (bs : List Byte) (h : s.link.exchange = some e)
    (hc : 64 ≤ e.count) :
    s.clockBytes bs =
      { s with link := { s.link with sdo := s.link.sdo ++ List.replicate (8 * bs.length) false } } := by
  induction bs using List.reverseRecOn with
  | nil => simp [State.clockBytes]
  | append_singleton bs b ih =>
    rw [State.clockBytes_append, ih, State.clockBytes_cons]
    have h0 : linkBits 0#8 = List.replicate 8 false := by decide
    simp [State.clockBytes, State.clockByte, State.shiftOut, Exchange.out, h, hc, show ¬(e.count < 64) by omega, h0,
      Nat.mul_add, List.replicate_add]

/-! ## The taking of a directive (R147, R149, R150) -/

theorem State.reply_eq_answered (s : State) (k : Byte) (b : ReplyBody) : s.reply k b = s.answered k b := rfl

theorem Link.sent_reply (l : Link) : l.sent.reply = l.reply.filter fun r => decide (r.inFlight = false) := by
  unfold Link.sent
  cases l.reply with
  | none => rfl
  | some r => cases hr : r.inFlight <;> simp [hr, Option.filter]

/-- A whole cell clocked into an open exchange completes it, and the cell is taken on what is left (R146, R147). -/
theorem State.clockCell_open (s : State) (t : Stamp) (k : Byte) (c : DirectiveCell) (h : s.exchangeOpen)
    (hc : c.wellFormed = true) :
    (s.atTime t).clockCell k c = (s.afterCell t).takeCell (k :: c.length :: c.payload) := by
  obtain ⟨cell, h⟩ := h
  have hl : c.payload.length = 62 := by simpa [DirectiveCell.wellFormed] using hc
  obtain ⟨init, last, hp⟩ : ∃ init last, c.payload = init ++ [last] :=
    ⟨_, _, (List.dropLast_append_getLast (by intro hh; simp [hh] at hl)).symm⟩
  have hi : init.length = 61 := by rw [hp] at hl; simpa using hl
  unfold State.clockCell
  rw [hp, show k :: c.length :: (init ++ [last]) = (k :: c.length :: init) ++ [last] from rfl, State.clockBytes_append,
    State.clockBytes_short (s.atTime t) ⟨0, cell, []⟩ _ (by simpa using h) (by simp [hi]), State.clockBytes_cons]
  simp only [State.clockBytes, List.foldl_nil, State.clockByte, State.shiftOut, List.length_cons, hi, Nat.zero_add,
    Exchange.out, State.completeExchange]
  simp only [Nat.reduceAdd, Nat.reduceLeDiff, if_false, if_true, Nat.reduceLT]
  have e64 : ∀ f : Nat → List Bool, (List.range 64).flatMap f = (List.range 63).flatMap f ++ f 63 := fun f => by
    simp [List.range_succ]
  congr 1
  simp [State.afterCell, h, Link.sent, cellBits, e64, linkBits_eq_overLink]
  have := Link.sent_reply s.link
  simp only [Link.sent] at this
  simpa using this

/-- Outside an exchange a cell changes nothing but the moment. -/
theorem State.clockCell_idle (s : State) (k : Byte) (c : DirectiveCell) (h : s.link.exchange = none) :
    s.clockCell k c = s := State.clockBytes_idle s _ h

/-- A cell of a known kind with the length its kind requires is taken and answered. -/
theorem State.takeCell_known (s : State) (d : Directive) (n : Byte) (b : List Byte) (h : lengthFits d n = true) :
    s.takeCell (directiveCode d :: n :: b) = s.takeDirective d n b := by
  have hd : directiveOfCode (directiveCode d) = some d := by cases d <;> rfl
  simp [State.takeCell, hd, h]

/-- A cell of a known kind with another length is answered REFUSED_RANGE and changes nothing else. -/
theorem State.takeCell_refused (s : State) (d : Directive) (n : Byte) (b : List Byte) (h : lengthFits d n = false) :
    s.takeCell (directiveCode d :: n :: b) = s.answered (directiveCode d) .refusedRange := by
  have hd : directiveOfCode (directiveCode d) = some d := by cases d <;> rfl
  simp [State.takeCell, hd, h, State.reply_eq_answered]

/-- A directive with the length its kind requires is taken on the state after its cell (R147, R149). -/
theorem State.clockCell_taken (s : State) (t : Stamp) (c : DirectiveCell) (d : Directive) (h : s.exchangeOpen)
    (hc : c.wellFormed = true) (hl : lengthFits d c.length = true) :
    (s.atTime t).clockCell (directiveCode d) c = (s.afterCell t).takeDirective d c.length c.payload := by
  rw [State.clockCell_open s t _ c h hc, State.takeCell_known _ d _ _ hl]

/-- A directive of another length is answered REFUSED_RANGE (R149). -/
theorem State.clockCell_refused (s : State) (t : Stamp) (c : DirectiveCell) (d : Directive) (h : s.exchangeOpen)
    (hc : c.wellFormed = true) (hl : lengthFits d c.length = false) :
    (s.atTime t).clockCell (directiveCode d) c = (s.afterCell t).answered (directiveCode d) .refusedRange := by
  rw [State.clockCell_open s t _ c h hc, State.takeCell_refused _ d _ _ hl]

/-- A cell of a kind that names no directive is answered UNKNOWN and changes nothing else. -/
theorem State.takeCell_unknown (s : State) (k n : Byte) (b : List Byte) (h : directiveOfCode k = none) :
    s.takeCell (k :: n :: b) = s.answered k .unknown := by
  simp [State.takeCell, h, State.reply_eq_answered]

/-- The kinds that name a directive are those of the table of R166. -/
theorem directiveOfCode_none (k : Byte) : directiveOfCode k = none ↔ k ∉ directiveKinds := by revert k; decide

end Sys2Proof.Machine
end

