-- ==== Sys2Proof/Laws/Blocks.lean ====
section
/-! SUPPORT. What the shared operations of the blocks do, said once: scan record entries, waiting records and requests,
teardowns, the click line, and one step of an axis. -/

namespace Sys2Proof.Machine

/-- The entries kept of a record have slots 0..15, no slot twice, and each is an entry of the record (R10). -/
theorem keepContacts_spec (cs kept : List Contact) (hk : (kept.map (·.slot)).Nodup ∧ ∀ c ∈ kept, c.slot ≤ 15) :
    ((keepContacts kept cs).map (·.slot)).Nodup ∧ (∀ c ∈ keepContacts kept cs, c.slot ≤ 15) ∧
      (keepContacts kept cs).length ≤ kept.length + cs.length ∧ ∀ c ∈ keepContacts kept cs, c ∈ kept ∨ c ∈ cs := by
  induction cs generalizing kept with
  | nil => simp [keepContacts, hk]; exact hk.2
  | cons c cs ih =>
    unfold keepContacts
    split
    · obtain ⟨a, b, d, e⟩ := ih kept hk
      refine ⟨a, b, by simp; omega, fun x hx => ?_⟩
      rcases e x hx with h | h <;> simp [h]
    · next h =>
      simp only [Bool.or_eq_true, decide_eq_true_eq, List.any_eq_true, beq_iff_eq, not_or, not_exists, not_and] at h
      have := ih (kept ++ [c]) ⟨by
          rw [List.map_append, List.nodup_append]
          refine ⟨hk.1, by simp, ?_⟩
          intro a ha b hb
          simp only [List.map_cons, List.map_nil, List.mem_singleton] at hb
          subst hb
          obtain ⟨y, hy, rfl⟩ := List.mem_map.1 ha
          exact h.2 y hy, by
          intro x hx
          rcases List.mem_append.1 hx with hx | hx
          · exact hk.2 x hx
          · simp only [List.mem_singleton] at hx; subst hx; omega⟩
      obtain ⟨a, b, d, e⟩ := this
      refine ⟨a, b, by simp at d ⊢; omega, fun x hx => ?_⟩
      rcases e x hx with h | h
      · rcases List.mem_append.1 h with h | h
        · exact .inl h
        · simp at h; simp [h]
      · simp [h]

/-- A contact entry is brought into its ranges (R10). -/
theorem contactAt_in_range (sf : Surface) (b : List Byte) (i : Nat) :
    let c := contactAt (surfaceRange sf) b i
    c.pos.x ≤ (surfaceRange sf).x ∧ c.pos.y ≤ (surfaceRange sf).y ∧ c.major ≤ 255 ∧ c.minor ≤ 255 ∧
        c.strength ≤ 1023 := by
  have hb : ∀ j, byteAt b j ≤ 255 := fun j => by unfold byteAt; have := (b.getD j 0).isLt; omega
  refine ⟨?_, ?_, hb _, hb _, Nat.min_le_left _ _⟩
  · simp only [contactAt, toBorder]
    split
    · exact Nat.min_le_left _ _
    · split
      · dsimp only; split <;> simp
      · exact Nat.min_le_left _ _
  · simp only [contactAt, toBorder]
    split
    · exact Nat.min_le_left _ _
    · split
      · exact Nat.min_le_left _ _
      · dsimp only; split <;> simp

/-- The frame interval of R13. -/
theorem frameInterval_eq (l : Option Stamp) (t : Stamp) :
    frameInterval l t = (match l with | none => 32000 | some l => max 2000 (min 32000 (t - l).toNat)) := by
  cases l <;> rfl

/-- With no posture request pending the quiet pad is not judged (R127). -/
theorem State.judgeQuiet_of_not_pending (s : State) (h : s.posture.pending = false) : s.judgeQuiet = s := by simp
    [State.judgeQuiet, h]

/-- With no teardown waiting none is taken. -/
theorem State.takeWaits_of_none (s : State) (h : s.waits = ⟨false, false, []⟩) (r : Role) : s.takeWaits r = s := by
  cases s; simp only at h; subst h; cases r <;> rfl

/-- With no waiting record none begins. -/
theorem State.beginAll_of_no_waiting (s : State) (h : ∀ j, (s.port j).waiting = none) : s.beginAll = s := by
  have : s.readyPorts = [] := by simp [State.readyPorts, h]
  simp [State.beginAll, this]

/-- A surface loss of the pad: the engine at rest, a pressed button released with one change (R105). -/
theorem surfaceLoss_eq (e : Engine) (m : Motion) :
    surfaceLoss ⟨e, m, []⟩ =
        ⟨initialEngine, residuesAfterLoss e m, if e.button = .none then [] else [.button .none]⟩ := by
  obtain ⟨st, b, p, _⟩ := e
  cases st <;> cases b <;> cases p <;> rfl

/-- The teardown of the pad, in the words of Safety.lean (R32, R105). -/
theorem State.tearPad_eq (s : State) : s.tearPad = s.padEmptied := by
  unfold State.tearPad State.pads State.padEmptied Link.buttonReleased
  simp only [surfaceLoss_eq]
  split <;> rfl

/-- The teardown of the screen, in the words of Safety.lean (R32, R58). -/
theorem State.tearScreen_eq (s : State) : s.tearScreen = s.screenEmptied := by
  unfold State.tearScreen State.appendScreens State.screenEmptied cancelRecords touchOf
  simp only [beq_eq_decide]

/-- The teardown of the pen by its port, in the words of Safety.lean (R74). -/
theorem State.tearPen_port_eq (s : State) : s.tearPen .port = s.penForcedOut := by
  unfold State.tearPen State.pens State.penForcedOut penTeardownPort
  dsimp only
  split
  · rfl
  · simp only [PenWork.sample, Pen.startHold, afterMs_eq]
    by_cases h : s.store.active.penShadowHold = 0
    · simp [h, Pen.position, bne_comm]
    · have h1 : (s.store.active.penShadowHold != 0) = true := by simpa using h
      simp [h, h1, Pen.position, bne_comm]

/-- The most recently landed entry is one of the entries (R79). -/
theorem foldl_laterLanded_mem (now : Stamp) (es : List Entry) (e : Entry) : es.foldl
    (laterLanded now) e ∈ e :: es := by
  induction es generalizing e with
  | nil => simp
  | cons a es ih =>
    rw [List.foldl_cons]
    have h := ih (laterLanded now e a)
    have h2 : laterLanded now e a = e ∨ laterLanded now e a = a := by
      unfold laterLanded; dsimp only
      split
      · exact .inl rfl
      · split
        · exact .inr rfl
        · split <;> simp
    rcases List.mem_cons.1 h with h | h
    · rw [h]; rcases h2 with h2 | h2 <;> simp [h2]
    · simp [h]

/-- A press that finds no button held enters CLICKED with the chosen button (R102, R103). -/
theorem clickPress_eq (t : Tables) (now : Stamp) (es : List Entry) (e : Engine) (m : Motion)
    (hb : e.button = .none) (hs : e.state = .idle ∨ e.state = .touch ∨ e.state = .pointing ∨ e.state = .multi ∨
        e.state = .residual)
    (hcb : clickButton t now es ≠ .none) :
    clickPress t now es ⟨e, m, []⟩ = ⟨{ e with
            state := .clicked, button := clickButton t now es, pointer := (mostRecent now (fingerEntries es)).map
                (·.track), landingSet := []
            landingCentroid := none, landingSeparation := none, peakCount := 0, tapCandidate := false
            swipeDirection := none, swipeCount := none, lastCentroid := none, lastSeparation := none, vcx := 0
            vcy := 0 }, { m with pointerX := 0, pointerY := 0 }, [.button (clickButton t now es)]⟩ := by
  unfold clickPress
  generalize clickButton t now es = b at *
  generalize hq : (mostRecent now (fingerEntries es)).map (·.track) = q
  have h0 : e.state ≠ .clicked := by rcases hs with h | h | h | h | h <;> rw [h] <;> decide
  have hset : ∀ (e : Engine) (b : Button), e.button = .none → b ≠ .none → Work.setButton ⟨e, m, []⟩ b = ⟨{ e with button := b }, m, [.button b]⟩ := by
    intro e b h1 h2
    unfold Work.setButton; rw [if_neg (by rw [h1]; exact h2.symm)]; rfl
  have h1 : beforeClick ⟨e, m, []⟩ = ⟨e, m, []⟩ := by rcases hs with h | h | h | h | h <;> simp [beforeClick, h]
  rw [if_neg h0, h1, hset _ _ hb hcb]
  have hg : ∀ (e : Engine) (o : List Out), e.state ≠ .clicked → Work.goto ⟨e, m, o⟩ .clicked = ⟨{ e with state := .clicked }, m.clearPointer, o⟩ := by
    intro e o h; simp [Work.goto, h, GestureState.moves]
  simp only [Work.onEngine]
  rw [hg _ _ (by exact h0)]
  unfold Work.setPointer
  dsimp only
  by_cases hp : (clearForClick { e with button := b }).pointer = q
  · rw [if_pos hp]; simp only [← hp]; rfl
  · rw [if_neg hp]; rfl

/-- A release in CLICKED (R104). -/
theorem clickRelease_eq (es : List Entry) (e : Engine) (m : Motion) (hb : e.button ≠ .none)
    (hs : e.state = .clicked) :
    clickRelease es ⟨e, m, []⟩ = ⟨{ e with
            state := if fingerEntries es = [] then .idle else .residual, button := .none, pointer := none },
        { m with pointerX := 0, pointerY := 0 }, [.button .none]⟩ := by
  have hr : restState (fingerEntries es).length = if fingerEntries es = [] then .idle else .residual := by
    unfold restState; simp
  have hset : Work.setButton ⟨e, m, []⟩ .none = ⟨{ e with button := .none }, m, [.button .none]⟩ := by
    unfold Work.setButton; rw [if_neg hb]; rfl
  unfold clickRelease
  rw [if_pos hs, hset, hr]
  have hp : ∀ st, st ≠ GestureState.clicked → (Work.setPointer ⟨{ e with button := .none }, m, [.button .none]⟩ none).goto st =
      ⟨{ e with state := st, button := .none, pointer := none }, if st = .scrolling then m.clearPointer.clearScroll else m.clearPointer, [.button .none]⟩ := by
    intro st hst
    unfold Work.setPointer
    dsimp only
    by_cases hp : e.pointer = none
    · rw [if_pos hp]; simp [Work.goto, hs, GestureState.moves, hp, hst.symm]
    · rw [if_neg hp]; simp [Work.goto, hs, GestureState.moves, hst.symm, Motion.clearPointer]
  rw [hp _ (by split <;> decide)]
  split <;> rfl

/-- Stage 3 of Motion Transfer while the output is not clamped (R112). -/
theorem axisStep_of_unclamped (limit d g : Int) (r : Nat) (h1 : -limit ≤ (d * g + r) / 256)
    (h2 : (d * g + r) / 256 ≤ limit) :
    axisStep limit d g r = ((d * g + r) / 256, ((d * g + r) % 256).toNat) := by
  unfold axisStep; dsimp only
  rw [if_neg (by omega), if_neg (by omega)]

/-- The posture codes read back. -/
theorem postureOfCode_postureCode (p : Posture) : postureOfCode (postureCode p) = some p := by cases p <;> rfl

/-- What the Classifier hands on with an entry, whatever the verdict: the class before it, the position before the frame, and
whether the frame admitted it (R53). -/
theorem classify_handed (t : Tables) (sf : Surface) (count : Nat) (sn : Snapshot) (k : Tracked) :
    (classify t sf count sn k).before = k.entry.cls ∧ (classify t sf count sn k).prev = k.prev ∧
      (classify t sf count sn k).isNew = k.isNew := by
  unfold classify
  split <;> exact ⟨rfl, rfl, rfl⟩

end Sys2Proof.Machine
end

