-- ==== Sys2Proof/Laws/Link.lean ====
section
/-! SUPPORT. What the shared operations of the Report Link do, said once: the causes, the filling of a cell,
the four queues, and what grows and stays under hand-overs. -/

namespace Sys2Proof.Machine

/-- STREAM_LATE is pending exactly while a port is LATE (R8). -/
theorem State.streamLate_bit (s : State) : (if s.streamLate then causeBit .streamLate else 0) =
    (if ∃ i : Fin 4, (s.port i).state = .late then (4 : Half) else 0) := by
  by_cases h : s.streamLate = true
  · rw [if_pos h, if_pos ((State.streamLate_iff s).1 h)]; rfl
  · rw [if_neg h, if_neg (fun hh => h ((State.streamLate_iff s).2 hh))]

/-- The two level causes (R8, R129). -/
theorem State.levelCauses_eq (s : State) : s.levelCauses =
    ((if ∃ i : Fin 4, (s.port i).state = .late then (4 : Half) else 0) ||| (if s.posture.pending = true then (0x100 : Half) else 0)) := by
  unfold State.levelCauses
  rw [State.streamLate_bit]
  rfl

/-- The top cause is the lowest pending cause that is not masked, and 15 with none (R161). -/
theorem lowestCause_spec (x : Half) :
    ((∃ n < 9, x.getLsbD n = true) → x.getLsbD (lowestCause x) = true ∧ ∀ n < lowestCause x, x.getLsbD n = false) ∧
    ((∀ n < 9, x.getLsbD n = false) → lowestCause x = 15) := by
  unfold lowestCause
  constructor
  · rintro ⟨n, hn, hx⟩
    cases hf : (List.range 9).find? fun n => x.getLsbD n with
    | none =>
      rw [List.find?_eq_none] at hf
      exact absurd hx (by simpa using hf n (by simpa using hn))
    | some m =>
      have h1 := List.find?_some hf
      refine ⟨h1, fun k hk => ?_⟩
      simp only [Option.getD_some] at hk
      rw [List.find?_range_eq_some] at hf
      simpa using hf.2.2 k hk
  · intro h
    have : (List.range 9).find? (fun n => x.getLsbD n) = none := by
      rw [List.find?_eq_none]; intro n hn; simp at hn; simp [h n hn]
    rw [this]; rfl

/-- A set of causes 0..8 alone. -/
theorem causesOutOfRange_eq_false {x : Half} (h : x.toNat < 512) : causesOutOfRange x = false := by
  rw [← Bool.not_eq_true, causesOutOfRange_iff]; omega

/-- A set of tables 0..7 alone. -/
theorem setOutOfRange_eq_false {x : Half} (h : x.toNat < 256) : setOutOfRange x = false := by
  rw [← Bool.not_eq_true, setOutOfRange_iff]; omega

/-- How many records of one size fit: those that may be sent, within the space (R154). -/
theorem fitCount_eq {α} (size : Nat) (hs : 0 < size) (send : α → Bool) (l : List α) (space : Nat) :
    fitCount size send space l = min (l.takeWhile send).length (space / size) := by
  induction l generalizing space with
  | nil => simp [fitCount]
  | cons a l ih =>
    unfold fitCount
    by_cases h : send a = true
    · by_cases h2 : size ≤ space
      · simp only [h, h2, Bool.true_and, decide_true, if_true, ih, List.takeWhile_cons_of_pos, List.length_cons]
        rw [Nat.div_eq_sub_div hs h2]
        omega
      · have : space / size = 0 := Nat.div_eq_of_lt (by omega)
        simp [h, h2, this]
    · simp [h]

/-- How many records of one size fit when each may be sent (R154). -/
theorem fitCount_all {α} (size : Nat) (hs : 0 < size) (l : List α) (space : Nat) :
    fitCount size (fun _ => true) space l = min l.length (space / size) := by
  rw [fitCount_eq size hs]
  have : l.takeWhile (fun _ => true) = l := by induction l <;> simp_all
  rw [this]

/-- After a head of a queue has gone into flight, what still waits is the rest. -/
theorem any_waiting_onHead {α : Type} (n : Nat) (l : List α) (f : α → α) (fl : α → Bool) (hf : ∀ a, fl (f a) = true)
    (h : ∀ r ∈ l, fl r = false) (g : α → Bool) :
    (onHead n f l).any (fun r => g r && !fl r) = (l.drop n).any g := by
  unfold onHead
  rw [List.any_append]
  have h1 : ((l.take n).map f).any (fun r => g r && !fl r) = false := by
    rw [List.any_eq_false]; intro x hx
    obtain ⟨y, -, rfl⟩ := List.mem_map.1 hx
    simp [hf]
  rw [h1, Bool.false_or]
  rw [Bool.eq_iff_iff, List.any_eq_true, List.any_eq_true]
  constructor
  · rintro ⟨x, hx, hg⟩; simp at hg; exact ⟨x, hx, hg.1⟩
  · rintro ⟨x, hx, hg⟩; exact ⟨x, hx, by simp [hg, h x (List.mem_of_mem_drop hx)]⟩

/-- After a head of a queue has gone into flight, a record waits exactly when the head is not all. -/
theorem any_waiting_onHead_all {α : Type} (n : Nat) (l : List α) (f : α → α) (fl : α → Bool)
    (hf : ∀ a, fl (f a) = true) (h : ∀ r ∈ l, fl r = false) :
    (onHead n f l).any (fun r => !fl r) = decide (n < l.length) := by
  have := any_waiting_onHead n l f fl hf h (fun _ => true)
  simp only [Bool.true_and] at this
  rw [this]
  rw [Bool.eq_iff_iff, List.any_eq_true, decide_eq_true_iff]
  constructor
  · rintro ⟨x, hx, -⟩; have := List.length_pos_of_mem hx; simp at this; exact this
  · intro hn; exact ⟨(l.drop n)[0]'(by simp; exact hn), List.getElem_mem _, rfl⟩

/-- The reply placed first (R154). -/
theorem fillReply_eq (l : Link) : fillReply l = ⟨{ l with reply := l.reply.map fun r => { r with inFlight := true } },
    (match l.reply with | none => [] | some r => replyBytes r), 60 -
        (match l.reply with | none => [] | some r => replyBytes r : List Byte).length⟩ := by
  obtain ⟨r, _⟩ := l
  cases r <;> rfl

/-- The pen samples placed (R154). -/
theorem fillPen_eq (f : Fill) : fillPen f =
    ⟨{ f.link with pen := onHead (if 1 < f.link.ceiling then min f.link.pen.length (f.left / 12) else 0) (fun r => { r with inFlight := true }) f.link.pen },
    f.bytes ++ (f.link.pen.take (if 1 < f.link.ceiling then min f.link.pen.length (f.left / 12) else 0)).flatMap penSampleBytes,
    f.left - 12 * (if 1 < f.link.ceiling then min f.link.pen.length (f.left / 12) else 0)⟩ := by
  unfold fillPen
  split
  · rw [fitCount_all 12 (by decide)]
  · simp [onHead]

/-- The screen records placed (R154). -/
theorem fillScreen_eq (f : Fill) : fillScreen f =
    ⟨{ f.link with screen := onHead (if 2 < f.link.ceiling then min f.link.screen.length (f.left / 8) else 0) (fun r => { r with inFlight := true }) f.link.screen },
    f.bytes ++ (f.link.screen.take (if 2 < f.link.ceiling then min f.link.screen.length (f.left / 8) else 0)).flatMap touchRecordBytes,
    f.left - 8 * (if 2 < f.link.ceiling then min f.link.screen.length (f.left / 8) else 0)⟩ := by
  unfold fillScreen
  split
  · rw [fitCount_all 8 (by decide)]
  · simp [onHead]

/-- The pointer records placed, a placed tail closed (R154, R158). -/
theorem fillPointer_eq (f : Fill) : fillPointer f =
    ⟨{ f.link with pointer := onHead (if 3 < f.link.ceiling then min (f.link.pointer.takeWhile PointerRecord.sendable).length (f.left / 8) else 0) (fun r => { r with inFlight := true, isOpen := false }) f.link.pointer },
    f.bytes ++ (f.link.pointer.take (if 3 < f.link.ceiling then min (f.link.pointer.takeWhile PointerRecord.sendable).length (f.left / 8) else 0)).flatMap pointerRecordBytes,
    f.left - 8 * (if 3 < f.link.ceiling then min (f.link.pointer.takeWhile PointerRecord.sendable).length (f.left / 8) else 0)⟩ := by
  unfold fillPointer
  split
  · rw [fitCount_eq 8 (by decide)]
  · simp [onHead]

/-- The gesture records placed (R154). -/
theorem fillGesture_eq (f : Fill) : fillGesture f =
    ⟨{ f.link with gesture := onHead (if 4 < f.link.ceiling then min f.link.gesture.length (f.left / 4) else 0) (fun r => { r with inFlight := true }) f.link.gesture },
    f.bytes ++ (f.link.gesture.take (if 4 < f.link.ceiling then min f.link.gesture.length (f.left / 4) else 0)).flatMap (fun r => gestureBytes r.gesture),
    f.left - 4 * (if 4 < f.link.ceiling then min f.link.gesture.length (f.left / 4) else 0)⟩ := by
  unfold fillGesture
  split
  · rw [fitCount_all 4 (by decide)]
  · simp [onHead]

/-- A gesture record that arrives: appended with room, dropped without (R160). -/
theorem Link.appendGesture_spec (l : Link) (g : Gesture) :
    (l.gesture.length < 16 → (l.appendGesture g).gesture = l.gesture ++ [⟨g, false⟩]) ∧
    (16 ≤ l.gesture.length → (l.appendGesture g).gesture = l.gesture ∧ (l.appendGesture g).overrun.gesture = true) ∧
    l.latched &&& (l.appendGesture g).latched = l.latched ∧
    (l.appendGesture g).pen = l.pen ∧ (l.appendGesture g).screen = l.screen ∧ (l.appendGesture g).pointer =
        l.pointer ∧
    (l.appendGesture g).reply = l.reply ∧ (l.appendGesture g).masks = l.masks ∧ (l.appendGesture g).ceiling =
        l.ceiling ∧
    (l.appendGesture g).exchange = l.exchange ∧ (l.appendGesture g).restartWaiting = l.restartWaiting ∧
    (l.appendGesture g).sdo = l.sdo := by
  unfold Link.appendGesture gestureCapacity
  split
  · next h => refine ⟨fun _ => rfl, fun h2 => by omega, by simp, rfl, rfl, rfl, rfl, rfl, rfl, rfl, rfl, rfl⟩
  · next h =>
    refine ⟨fun h2 => by omega, fun h2 => ⟨rfl, rfl⟩, ?_, rfl, rfl, rfl, rfl, rfl, rfl, rfl, rfl, rfl⟩
    show l.latched &&& (l.latched ||| causeBit .overrun) = _
    ext i hi; simp; tauto

/-- What every hand-over to the pen, screen and pointer queues keeps: the latched causes only grow, and the gesture
queue, the reply, the settings and the exchange stay. -/
structure Link.Grown (l m : Link) : Prop where
  lat : l.latched &&& m.latched = l.latched
  reply : m.reply = l.reply
  gesture : m.gesture = l.gesture
  masks : m.masks = l.masks
  ceiling : m.ceiling = l.ceiling
  exchange : m.exchange = l.exchange
  restart : m.restartWaiting = l.restartWaiting
  seln : m.selnSeenHigh = l.selnSeenHigh
  og : m.overrun.gesture = l.overrun.gesture
  sdo : m.sdo = l.sdo

theorem Half.and_or_self (x y : Half) : x &&& (x ||| y) = x := by ext i hi; simp; tauto

theorem Link.Grown.refl (l : Link) : Link.Grown l l := ⟨by simp, rfl, rfl, rfl, rfl, rfl, rfl, rfl, rfl, rfl⟩

theorem Half.and_trans {a b c : Half} (h1 : a &&& b = a) (h2 : b &&& c = b) : a &&& c = a := by
  rw [← h1, BitVec.and_assoc, h2]

theorem Link.Grown.trans {l m n : Link} (h1 : Link.Grown l m) (h2 : Link.Grown m n) : Link.Grown l n :=
  ⟨Half.and_trans h1.lat h2.lat, h2.reply.trans h1.reply, h2.gesture.trans h1.gesture, h2.masks.trans h1.masks, h2.ceiling.trans h1.ceiling,
    h2.exchange.trans h1.exchange, h2.restart.trans h1.restart, h2.seln.trans h1.seln, h2.og.trans h1.og,
    h2.sdo.trans h1.sdo⟩

theorem Link.grown_appendPen (l : Link) (x : PenSample) : Link.Grown l (l.appendPen x) ∧ (l.appendPen x).screen =
    l.screen ∧ (l.appendPen x).pointer = l.pointer := by
  unfold Link.appendPen
  split
  · exact ⟨⟨by simp, rfl, rfl, rfl, rfl, rfl, rfl, rfl, rfl, rfl⟩, rfl, rfl⟩
  · exact ⟨⟨Half.and_or_self _ _, rfl, rfl, rfl, rfl, rfl, rfl, rfl, rfl, rfl⟩, rfl, rfl⟩

theorem Link.grown_pushScreen (l : Link) (x : TouchRecord) : Link.Grown l (l.pushScreen x) ∧ (l.pushScreen x).pen =
    l.pen ∧ (l.pushScreen x).pointer = l.pointer := by
  unfold Link.pushScreen
  split
  · exact ⟨⟨by simp, rfl, rfl, rfl, rfl, rfl, rfl, rfl, rfl, rfl⟩, rfl, rfl⟩
  · exact ⟨⟨Half.and_or_self _ _, rfl, rfl, rfl, rfl, rfl, rfl, rfl, rfl, rfl⟩, rfl, rfl⟩

theorem Link.grown_appendScreen (l : Link) (x : TouchRecord) : Link.Grown l (l.appendScreen x) ∧
    (l.appendScreen x).pen = l.pen ∧ (l.appendScreen x).pointer = l.pointer := by
  unfold Link.appendScreen
  split
  · split
    · exact ⟨⟨by simp, rfl, rfl, rfl, rfl, rfl, rfl, rfl, rfl, rfl⟩, rfl, rfl⟩
    · exact Link.grown_pushScreen l x
  · exact Link.grown_pushScreen l x

theorem Link.grown_openTail (l : Link) (b : Button) (c : Bool) : Link.Grown l (l.openTail b c) ∧
    (l.openTail b c).pen = l.pen ∧ (l.openTail b c).screen = l.screen := by
  unfold Link.openTail
  dsimp only
  split
  · exact ⟨⟨by simp, rfl, rfl, rfl, rfl, rfl, rfl, rfl, rfl, rfl⟩, rfl, rfl⟩
  · exact ⟨⟨Half.and_or_self _ _, rfl, rfl, rfl, rfl, rfl, rfl, rfl, rfl, rfl⟩, rfl, rfl⟩

theorem Link.grown_buttonChange (l : Link) (b : Button) : Link.Grown l (l.buttonChange b) ∧ (l.buttonChange b).pen =
    l.pen ∧ (l.buttonChange b).screen = l.screen := by
  unfold Link.buttonChange
  split
  · split
    · exact ⟨⟨by simp, rfl, rfl, rfl, rfl, rfl, rfl, rfl, rfl, rfl⟩, rfl, rfl⟩
    · have := Link.grown_openTail { l with pointer := changeTail (fun r => { r with isOpen := false }) l.pointer } b true
      exact ⟨⟨this.1.lat, this.1.reply, this.1.gesture, this.1.masks, this.1.ceiling, this.1.exchange, this.1.restart, this.1.seln,
        this.1.og, this.1.sdo⟩, this.2⟩
  · exact Link.grown_openTail l b true

theorem Link.grown_appendScreens (rs : List TouchRecord) (l : Link) : Link.Grown l (rs.foldl Link.appendScreen l) ∧
    (rs.foldl Link.appendScreen l).pen = l.pen ∧ (rs.foldl Link.appendScreen l).pointer = l.pointer := by
  induction rs generalizing l with
  | nil => exact ⟨Link.Grown.refl _, rfl, rfl⟩
  | cons r rs ih =>
    obtain ⟨a, b, c⟩ := ih (l.appendScreen r)
    obtain ⟨a', b', c'⟩ := Link.grown_appendScreen l r
    exact ⟨a'.trans a, b.trans b', c.trans c'⟩

/-- A teardown request of the pad leaves the pen and screen queues. -/
theorem State.grown_requestPad (s : State) : Link.Grown s.link s.requestPad.link ∧ s.requestPad.link.pen =
    s.link.pen ∧ s.requestPad.link.screen = s.link.screen := by
  unfold State.requestPad
  split
  · exact ⟨Link.Grown.refl _, rfl, rfl⟩
  · rw [State.tearPad_eq]; unfold State.padEmptied Link.buttonReleased
    dsimp only
    split
    · exact ⟨Link.Grown.refl _, rfl, rfl⟩
    · exact Link.grown_buttonChange _ _

/-- A teardown request of the screen leaves the pen and pointer queues. -/
theorem State.grown_requestScreen (s : State) : Link.Grown s.link s.requestScreen.link ∧ s.requestScreen.link.pen =
    s.link.pen ∧ s.requestScreen.link.pointer = s.link.pointer := by
  unfold State.requestScreen
  split
  · exact ⟨Link.Grown.refl _, rfl, rfl⟩
  · rw [State.tearScreen_eq]; exact Link.grown_appendScreens _ _

/-- A teardown request of the pen leaves the screen and pointer queues. -/
theorem State.grown_requestPen_closed (s : State) : Link.Grown s.link (s.requestPen .closed).link ∧
    (s.requestPen .closed).link.screen = s.link.screen ∧ (s.requestPen .closed).link.pointer = s.link.pointer := by
  unfold State.requestPen
  split
  · exact ⟨Link.Grown.refl _, rfl, rfl⟩
  · unfold State.tearPen State.pens penTeardownClosed
    dsimp only
    split
    · exact ⟨Link.Grown.refl _, rfl, rfl⟩
    · exact Link.grown_appendPen _ _

/-- A queue longer than its in-flight head has a record not in flight. -/
theorem exists_not_inFlight {n : Nat} {α : Type} (q : List α) (fl : α → Bool) (h : headInFlight n (q.map fl))
    (hn : n < q.length) : ∃ x ∈ q, fl x = false := by
  by_contra hc
  push Not at hc
  have : (q.map fl).count true = q.length := by
    rw [List.count_eq_length.2]
    · simp
    · intro b hb; obtain ⟨x, hx, rfl⟩ := List.mem_map.1 hb
      have := hc x hx; simpa using this.symm
  have := h.2; omega

/-- The place that findIdx? names splits a list. -/
theorem findIdx_split {α : Type} (p : α → Bool) (q : List α) (i : Nat) (h : q.findIdx? p = some i) :
    ∃ x, q = q.take i ++ x :: q.drop (i + 1) ∧ p x = true ∧ ∀ y ∈ q.take i, p y = false := by
  rw [List.findIdx?_eq_some_iff_getElem] at h
  obtain ⟨hi, h1, h2⟩ := h
  refine ⟨q[i], ?_, h1, ?_⟩
  · rw [← List.drop_eq_getElem_cons hi, List.take_append_drop]
  · intro y hy
    obtain ⟨j, hj, rfl⟩ := List.mem_iff_getElem.1 hy
    simp only [List.length_take] at hj
    rw [List.getElem_take]
    have := h2 j (by omega); simpa using this

/-- A MOVE takes the place of its track's newest record when that is a MOVE not in flight (R157). -/
theorem replaceMove_some (x : TouchRecord) (newer older : List TouchRecord) (m : TouchRecord)
    (hm : m.track = x.track) (hk : m.kind = .move) (hf : m.inFlight = false)
    (hn : ∀ y ∈ newer, y.track ≠ x.track) :
    replaceMove x (newer ++ m :: older) = some
        (newer ++ { m with pos := x.pos, major := x.major, minor := x.minor } :: older) := by
  induction newer with
  | nil => simp [replaceMove, hm, hk, hf]
  | cons a l ih =>
    rw [List.cons_append, replaceMove, if_neg (hn a (by simp)), ih (fun y hy => hn y (by simp [hy]))]; rfl

/-- Otherwise no record is replaced (R157). -/
theorem replaceMove_none (x : TouchRecord) (q : List TouchRecord)
    (h : ∀ newer older m, q = newer ++ m :: older → (∀ y ∈ newer, y.track ≠ x.track) → m.track = x.track →
    m.kind ≠ .move ∨ m.inFlight = true) :
    replaceMove x q = none := by
  induction q with
  | nil => rfl
  | cons a l ih =>
    rw [replaceMove]
    split
    · next ht =>
      have := h [] l a rfl (by simp) ht
      rw [if_neg]; rcases this with h | h <;> simp [h]
    · next ht =>
      rw [ih]
      · rfl
      · intro newer older m hq hn hm
        exact h (a :: newer) older m (by rw [hq]; rfl) (by intro y hy; rcases List.mem_cons.1 hy with rfl | hy; exact ht; exact hn y hy) hm

theorem clampInt_eq_max_min (lim x : Int) (h : 0 ≤ lim) : clampInt (-lim) lim x = max (-lim) (min lim x) := by
  unfold clampInt; split_ifs <;> omega

/-- Two records outside the in-flight head, all closed, are merged (R159). -/
theorem mergeOldest_spec (n : Nat) (q : List PointerRecord) (h : headInFlight n (q.map (·.inFlight)))
    (hl : n + 2 ≤ q.length) (ho : ∀ r ∈ q, r.isOpen = false) :
    ∃ head x y rest, q = head ++ x :: y :: rest ∧ (∀ r ∈ head, r.inFlight = true) ∧ x.inFlight = false ∧
        mergeOldest q = some (head ++ mergePointer x y :: rest) := by
  induction q generalizing n with
  | nil => simp at hl
  | cons a q ih =>
    cases q with
    | nil => simp at hl
    | cons b q =>
      obtain ⟨hp, hc⟩ := h
      rw [List.map_cons, List.pairwise_cons] at hp
      by_cases ha : a.inFlight = true
      · have hn : 0 < n := by rw [List.map_cons, ha, List.count_cons_self] at hc; omega
        obtain ⟨head, x, y, rest, e1, e2, e3, e4⟩ := ih (n - 1) ⟨hp.2, by rw [List.map_cons, ha, List.count_cons_self] at hc; omega⟩ (by simp at hl ⊢; omega) (fun r hr => ho r (by simp [hr]))
        refine ⟨a :: head, x, y, rest, by rw [e1]; rfl, ?_, e3, ?_⟩
        · intro r hr; rcases List.mem_cons.1 hr with rfl | hr
          · exact ha
          · exact e2 r hr
        · rw [mergeOldest, if_pos ha, e4]; rfl
      · have ha' : a.inFlight = false := by simpa using ha
        have hb : b.inFlight = false := by
          by_contra hb
          have := hp.1 b.inFlight (by simp) (by simpa using hb)
          rw [ha'] at this; simp at this
        refine ⟨[], a, b, q, rfl, by simp, ha', ?_⟩
        rw [mergeOldest, if_neg ha, if_pos (by simp [hb, ho a (by simp), ho b (by simp)])]; rfl

/-! ## The bytes of a report cell, in the words of Safety.lean (R165, R167, section 10.3) -/

theorem twoBytes_natCast (n : Nat) : twoBytes n = halfBytes n := by
  unfold twoBytes halfBytes byteOf
  rw [BitVec.ofInt_natCast, show ((n : Int) / 256) = ((n / 256 : Nat) : Int) by omega, BitVec.ofInt_natCast]

theorem twoBytes_eq (i : Int) : twoBytes i = signedHalfBytes i := by
  unfold twoBytes signedHalfBytes halfBytes byteOf
  congr 1
  · apply BitVec.eq_of_toNat_eq; simp; omega
  · congr 1; apply BitVec.eq_of_toNat_eq; simp; omega

/-- The bytes of a pen sample. -/
theorem penSampleBytes_eq (r : PenSample) : penSampleBytes r = penLayout r := by
  unfold penSampleBytes penLayout
  simp only [twoBytes_natCast, ← twoBytes_eq]
  obtain ⟨st, tip, pos, pr, tx, ty, b, g, e, f⟩ := r
  cases st <;> cases tip <;> cases b <;> cases g <;> cases e <;> rfl

/-- The bytes of a screen record. -/
theorem touchRecordBytes_eq (r : TouchRecord) : touchRecordBytes r = touchLayout r := by
  unfold touchRecordBytes touchLayout
  simp only [twoBytes_natCast]
  obtain ⟨k, _⟩ := r
  cases k <;> rfl

/-- The bytes of a pointer record. -/
theorem pointerRecordBytes_eq (r : PointerRecord) : pointerRecordBytes r = pointerLayout r := by
  unfold pointerRecordBytes pointerLayout
  simp only [← twoBytes_eq, byteOf]
  have h (a b : Int) : (((BitVec.ofInt 12 a).toNat + 4096 * (BitVec.ofInt 12 b).toNat : Nat) : Int) =
      a % 4096 + 4096 * (b % 4096) := by simp; omega
  have hd (n k : Nat) (i : Int) (hn : (n : Int) = i) : BitVec.ofNat 8 (n / k) = BitVec.ofInt 8 (i / k) := by
    subst hn; rw [← Int.natCast_ediv, BitVec.ofInt_natCast]
  have h0 (n : Nat) (i : Int) (hn : (n : Int) = i) : BitVec.ofNat 8 n = BitVec.ofInt 8 i := by
    subst hn; rw [BitVec.ofInt_natCast]
  rw [h0 _ _ (h r.motion.h r.motion.v), hd _ 256 _ (h r.motion.h r.motion.v), hd _ 65536 _ (h r.motion.h r.motion.v)]
  obtain ⟨b, d, c, _⟩ := r
  cases b <;> cases c <;> rfl

/-- The code of a posture as a byte. -/
theorem postureByte_eq (p : Posture) : postureByte p = byteOf (postureCode p) := by cases p <;> rfl

/-- The bytes of a gesture record. -/
theorem gestureBytes_eq (g : Gesture) : gestureBytes g = gestureLayout g := by
  cases g with
  | posture new old f => cases new <;> cases old <;> cases f <;> rfl
  | swipeBegin d n => cases d <;> rfl
  | swipeEnd d n => cases d <;> rfl
  | pinchEnd => rfl
  | scrollEnd => rfl

/-- The outcome code of a reply and its data. -/
theorem outcomeBytes_eq (b : ReplyBody) : byteOf (outcomeCode b) :: outcomeData b = outcomeLayout b := by
  cases b with
  | invalid t i r => cases r <;> rfl
  | stillActive s => simp only [outcomeData, outcomeLayout, twoBytes_natCast]; rfl
  | status r =>
    simp only [outcomeData, outcomeLayout, statusBytes, twoBytes_natCast, postureByte_eq]
    have hp : portByte = portLayout := by funext ⟨a, b⟩; cases a <;> cases b <;> rfl
    rw [hp]
    cases h : r.override with
    | none => rfl
    | some p => simp only [Option.map_some, Option.getD_some, postureByte_eq]; rfl
  | _ => rfl

/-- The bytes of a reply. -/
theorem replyBytes_eq (r : Reply) : replyBytes r = replyLayout r := by
  unfold replyBytes replyLayout
  rw [← outcomeBytes_eq]
  simp only [List.length_cons, byteOf, List.cons_append, List.nil_append]
  rw [show 4 + (outcomeData r.body).length = 3 + ((outcomeData r.body).length + 1) by omega]

end Sys2Proof.Machine
end

