-- ==== Sys2Proof/Laws/Tables.lean ====
section
/-! SUPPORT. What the shared operations of the Table Store do, said once: the commit validation, the copying of tables, the
two forms of an entry, the writing of entries, and the value of a curve. -/

namespace Sys2Proof.Machine

/-- A set passes when each of its tables does (R140). -/
theorem validateSet_none (t : Tables) (set : Half) : validateSet t set = none ↔
    ∀ id, set.getLsbD (tableCode id) = true → validate t id = none := by
  unfold validateSet
  rw [List.findSome?_eq_none_iff]
  constructor
  · intro h id hs
    have hm : id ∈ allTables := by cases id <;> decide
    have := h id hm
    simpa [inSet, hs] using this
  · intro h id _
    by_cases hs : inSet set id = true
    · rw [if_pos hs]; rw [h id hs]; rfl
    · rw [if_neg hs]

/-- A failing set names its first failing table (R140). -/
theorem validateSet_some (t : Tables) (set : Half) (id : TableId) (i : Nat) (r : Reason)
    (h : validateSet t set = some (id, i, r)) :
    set.getLsbD (tableCode id) = true ∧ validate t id = some (i, r) ∧
      ∀ id', set.getLsbD (tableCode id') = true → tableCode id' < tableCode id → validate t id' = none := by
  unfold validateSet at h
  rw [List.findSome?_eq_some_iff] at h
  obtain ⟨l1, a, l2, hl, hf, hn⟩ := h
  have hs : inSet set a = true := by
    by_contra hc; rw [if_neg hc] at hf; simp at hf
  rw [if_pos hs] at hf
  cases hv : validate t a with
  | none => rw [hv] at hf; simp at hf
  | some p =>
    rw [hv] at hf
    simp only [Option.map_some, Option.some.injEq, Prod.mk.injEq] at hf
    obtain ⟨rfl, rfl, rfl⟩ := hf
    refine ⟨hs, hv, fun id' h' hlt => ?_⟩
    have hm : id' ∈ l1 := by
      have hsorted : (allTables.map tableCode).Pairwise (· < ·) := by decide
      rw [hl, List.map_append, List.map_cons, List.pairwise_append] at hsorted
      have hm : id' ∈ allTables := by cases id' <;> decide
      rw [hl] at hm
      rcases List.mem_append.1 hm with hm | hm
      · exact hm
      · exfalso
        rcases List.mem_cons.1 hm with rfl | hm
        · omega
        · have := (List.pairwise_cons.1 hsorted.2.1).1 (tableCode id') (List.mem_map_of_mem hm)
          omega
    have := hn id' hm
    have hs' : inSet set id' = true := h'
    rw [if_pos hs'] at this
    simpa using this

/-- A check made entry by entry passes when it passes each entry. -/
theorem firstFailure_none {α : Type} (check : Nat → α → Option Reason) (k : Nat) (l : List α) :
    firstFailure check k l = none ↔ ∀ i a, l[i]? = some a → check (k + i) a = none := by
  induction l generalizing k with
  | nil => simp [firstFailure]
  | cons x l ih =>
    unfold firstFailure
    constructor
    · intro h i a hi
      cases hx : check k x with
      | some r => rw [hx] at h; simp at h
      | none =>
        rw [hx] at h
        cases i with
        | zero => simp at hi; subst hi; exact hx
        | succ i => have := (ih (k + 1)).1 h i a (by simpa using hi); rw [← this]; congr 1; omega
    · intro h
      have h0 := h 0 x rfl
      simp only [Nat.add_zero] at h0
      rw [h0]
      exact (ih (k + 1)).2 fun i a hi => by
        have := h (i + 1) a (by simpa using hi); rw [← this]; congr 1; omega

/-- The knot check of R142. -/
theorem checkKnots_none (l : List Knot) (k : Nat) : checkKnots k l = none ↔ (l.map (·.input)).Pairwise (· < ·) := by
  induction l generalizing k with
  | nil => simp [checkKnots]
  | cons a l ih =>
    cases l with
    | nil => simp [checkKnots]
    | cons b l =>
      unfold checkKnots
      rw [List.map_cons, List.pairwise_cons]
      constructor
      · intro h
        split at h
        · next hlt =>
          have := (ih _).1 h
          refine ⟨?_, this⟩
          intro x hx
          rw [List.map_cons] at hx this
          rcases List.mem_cons.1 hx with rfl | hx
          · exact hlt
          · exact lt_trans hlt ((List.pairwise_cons.1 this).1 x hx)
        · simp at h
      · rintro ⟨h1, h2⟩
        rw [if_pos (h1 b.input (by simp))]
        exact (ih _).2 h2

/-- The band check of R142. -/
theorem checkBands_none (l : List Boundary) (k : Nat) : checkBands k l = none ↔
      (∀ b ∈ l, b.fall ≤ b.rise) ∧ ∀ (k : Nat) (a b : Boundary), l[k]? = some a → l[k + 1]? = some b →
          a.rise < b.fall := by
  induction l generalizing k with
  | nil => simp [checkBands]
  | cons a l ih =>
    cases l with
    | nil => simp [checkBands]
    | cons b l =>
      unfold checkBands
      constructor
      · intro h
        split at h
        · next hlt =>
          simp only [Bool.and_eq_true, decide_eq_true_eq] at hlt
          have := (ih _).1 h
          refine ⟨?_, ?_⟩
          · intro x hx
            rcases List.mem_cons.1 hx with rfl | hx
            · exact hlt.1
            · exact this.1 x hx
          · intro j x y hx hy
            cases j with
            | zero => simp at hx hy; subst hx hy; exact hlt.2
            | succ j => exact this.2 j x y (by simpa using hx) (by simpa using hy)
        · simp at h
      · rintro ⟨h1, h2⟩
        rw [if_pos (by simp; exact ⟨h1 a (by simp), h2 0 a b rfl rfl⟩)]
        exact (ih _).2 ⟨fun x hx => h1 x (List.mem_cons_of_mem _ hx), fun j x y hx hy => h2 (j+1) x y (by simpa using hx) (by simpa using hy)⟩

/-- The rule checks of R141. -/
theorem checkRule_none (i : Nat) (r : Rule) : checkRule i r = none ↔
    (∀ x ∈ ([r.c1, r.c2, r.c3] : List Condition).take r.count,
          x.feature ≤ 13 ∧ (x.relation = .anyOf → 10 ≤ x.feature ∧ x.feature ≤ 13)) ∧
        (∀ p, r.prereq = some p → p < i) ∧ (r.verdict = .resting → r.scope = .pad) := by
  unfold checkRule
  have hu : r.used = ([r.c1, r.c2, r.c3] : List Condition).take r.count := rfl
  rw [hu]
  generalize ([r.c1, r.c2, r.c3] : List Condition).take r.count = us
  constructor
  · intro h
    split_ifs at h with h1 h2 h3 h4
    simp only [List.any_eq_true, not_exists, not_and, decide_eq_true_eq, Bool.and_eq_true, beq_iff_eq, Bool.not_eq_true', enumFeature, Bool.and_eq_false_iff, decide_eq_false_iff_not] at h1 h2
    refine ⟨fun x hx => ⟨by have := h1 x hx; omega, fun hr => ?_⟩, ?_, ?_⟩
    · have := h2 x hx hr; push Not at this; omega
    · intro p hp; rw [hp] at h3; simp at h3; exact h3
    · intro hv; simp at h4; exact h4 hv
  · rintro ⟨h1, h2, h3⟩
    rw [if_neg, if_neg, if_neg, if_neg]
    · simp; exact h3
    · cases hp : r.prereq with
      | none => simp
      | some p => have := h2 p hp; simp; omega
    · simp only [List.any_eq_true, not_exists, not_and, Bool.and_eq_true, beq_iff_eq, Bool.not_eq_true', enumFeature, Bool.and_eq_false_iff, decide_eq_false_iff_not]
      intro x hx hr
      have := (h1 x hx).2 hr; push Not; exact this
    · simp only [List.any_eq_true, not_exists, not_and, decide_eq_true_eq]
      intro x hx; have := (h1 x hx).1; omega

/-- A set copied between banks: the tables of the set from one, the others from the other (R143, R145). -/
theorem copySet_spec (set : Half) (src dst : Tables) (id : TableId) :
    (set.getLsbD (tableCode id) = true → sameTable (copySet set src dst) src id) ∧
    (set.getLsbD (tableCode id) = false → sameTable (copySet set src dst) dst id) := by
  have key : ∀ (l : List TableId) (d : Tables), l.Nodup →
      ((id ∈ l → inSet set id = true → sameTable (l.foldl (fun d t => if inSet set t then copyTable src d t else d) d) src id) ∧
       ((id ∉ l ∨ inSet set id = false) → sameTable (l.foldl (fun d t => if inSet set t then copyTable src d t else d) d) d id)) := by
    intro l
    induction l with
    | nil => intro d _; simp; cases id <;> rfl
    | cons a l ih =>
      intro d hn
      rw [List.nodup_cons] at hn
      rw [List.foldl_cons]
      obtain ⟨i1, i2⟩ := ih (if inSet set a then copyTable src d a else d) hn.2
      have other : ∀ d' : Tables, a ≠ id → sameTable d' (if inSet set a then copyTable src d a else d) id → sameTable d' d id := by
        intro d' hne h
        split at h
        · cases a <;> cases id <;> first | exact absurd rfl hne | exact h
        · exact h
      refine ⟨fun hm hs => ?_, fun h => ?_⟩
      · rcases List.mem_cons.1 hm with rfl | hm
        · have := i2 (.inl hn.1)
          rw [if_pos hs] at this ⊢
          cases id <;> exact this
        · exact i1 hm hs
      · by_cases ha : a = id
        · subst ha
          rcases h with h | h
          · simp at h
          · have := i2 (.inr h)
            rw [if_neg (by simp [h])] at this ⊢; exact this
        · apply other _ ha
          apply i2
          rcases h with h | h
          · left; simp at h; tauto
          · right; exact h
  obtain ⟨a, b⟩ := key allTables dst (by decide)
  have hm : id ∈ allTables := by cases id <;> decide
  exact ⟨a hm, fun h => b (.inr h)⟩

theorem byteOf_toNat (a : Byte) : byteOf a.toNat = a := by simp [byteOf]

theorem byteOf_inj {m n : Nat} (hm : m < 256) (hn : n < 256) : byteOf m = byteOf n ↔ m = n := by
  unfold byteOf; rw [← BitVec.toNat_inj]; simp; omega

theorem toNat_byteOf {m : Nat} (hm : m < 256) : (byteOf m).toNat = m := by simp [byteOf]; omega

theorem halfBytes_of (a b : Byte) : halfBytes (a.toNat + 256 * b.toNat) = [a, b] := by
  have := a.isLt; have := b.isLt
  unfold halfBytes byteOf
  congr 1
  · apply BitVec.eq_of_toNat_eq; simp; omega
  · congr 1; apply BitVec.eq_of_toNat_eq; simp; omega

theorem halfBytes_inj {m n : Nat} (hm : m < 65536) (hn : n < 65536) : halfBytes m = halfBytes n ↔ m = n := by
  unfold halfBytes byteOf
  constructor
  · intro h
    simp only [List.cons.injEq, and_true, ← BitVec.toNat_inj, BitVec.toNat_ofNat] at h
    omega
  · rintro rfl; rfl

theorem half_lt (a b : Byte) : a.toNat + 256 * b.toNat < 65536 := by
  have := a.isLt; have := b.isLt; omega

theorem clampNat_flag (lo hi v : Nat) : (clampNat lo hi v).2 = false ↔ (clampNat lo hi v).1 = v := by
  unfold clampNat; split_ifs <;> simp <;> omega

theorem clampNat_range (lo hi v : Nat) (h : lo ≤ hi) : lo ≤ (clampNat lo hi v).1 ∧ (clampNat lo hi v).1 ≤ hi := by
  unfold clampNat; split_ifs <;> simp <;> omega

theorem clampNat_id (lo hi v : Nat) (h1 : lo ≤ v) (h2 : v ≤ hi) : clampNat lo hi v = (v, false) := by
  unfold clampNat; rw [if_neg (by omega), if_neg (by omega)]

theorem halfBytes_clamp_iff (hi : Nat) (hh : hi < 65536) (a b : Byte) :
    (clampNat 0 hi (a.toNat + 256 * b.toNat)).2 = false ↔ halfBytes (clampNat 0 hi (a.toNat + 256 * b.toNat)).1 =
        [a, b] := by
  rw [clampNat_flag, ← halfBytes_of a b, halfBytes_inj (by have := (clampNat_range 0 hi (a.toNat + 256 * b.toNat) (by omega)).2; omega) (half_lt a b)]

theorem flagOf_byte (a : Byte) : (flagOf a.toNat).2 = false ↔ byteOf (flagBit (flagOf a.toNat).1 1) = a := by
  revert a; decide

theorem scopeOf_byte (a : Byte) : (scopeOf a.toNat).2 = false ↔ byteOf (scopeCode (scopeOf a.toNat).1) = a := by
  revert a; decide

theorem relationOf_byte (a : Byte) : (relationOf a.toNat).2 = false ↔ byteOf (relationCode (relationOf a.toNat).1) =
    a := by
  revert a; decide

theorem verdictOf_byte (a : Byte) : (verdictOf a.toNat).2 = false ↔ byteOf (verdictCode (verdictOf a.toNat).1) =
    a := by
  revert a; decide

theorem zoneFunctionOf_byte (a : Byte) : (zoneFunctionOf a.toNat).2 = false ↔ byteOf
    (zoneFunctionCode (zoneFunctionOf a.toNat).1) = a := by
  revert a; decide

theorem prereqOf_byte (a : Byte) : (prereqOf a.toNat).2 = false ↔
    (match (prereqOf a.toNat).1 with | none => 0xFF | some p => byteOf p) = a := by
  revert a; decide

theorem count_byte (a : Byte) : (clampNat 0 3 a.toNat).2 = false ↔ byteOf (clampNat 0 3 a.toNat).1 = a := by
  revert a; decide

theorem exists_cons_of_succ_le {n : Nat} {b : List Byte} (h : n + 1 ≤ b.length) : ∃ a t, b = a :: t ∧
    n ≤ t.length := by
  cases b with
  | nil => simp at h
  | cons a t => exact ⟨a, t, rfl, by simpa using h⟩

theorem append_eq_append_iff {α : Type} {a a' b b' : List α} (h : b.length = b'.length) : a ++ b = a' ++ b' ↔ a =
    a' ∧ b = b' :=
  ⟨fun e => List.append_inj' e h, fun ⟨h1, h2⟩ => by rw [h1, h2]⟩

theorem conditionOf_bytes (b : List Byte) (i : Nat) (a0 a1 a2 a3 : Byte) (h0 : b.getD i 0 = a0)
    (h1 : b.getD (i+1) 0 = a1) (h2 : b.getD (i+2) 0 = a2) (h3 : b.getD (i+3) 0 = a3) :
    ((conditionOf b i).2 = false ↔ conditionBytes (conditionOf b i).1 = [a0, a1, a2, a3]) ∧
        (conditionOf b i).1.inRange := by
  have hh : halfAt b (i + 2) = a2.toNat + 256 * a3.toNat := by simp only [halfAt, byteAt, h2, Nat.add_assoc, Nat.reduceAdd, h3]
  simp only [conditionOf, byteAt, hh, h0, h1, conditionBytes, byteOf_toNat, halfBytes_of, Condition.inRange]
  refine ⟨?_, ?_, ?_⟩
  · rw [relationOf_byte]; simp
  · have := a0.isLt; omega
  · have := half_lt a2 a3; omega

/-- A rule read from bytes is in range, and is not clamped exactly when its bytes are those (R138, R169). -/
theorem ruleOf_bytes (b : List Byte) (h : 17 ≤ b.length) :
    ((ruleOf b).2 = false ↔ ruleBytes (ruleOf b).1 = b.take 17) ∧ (ruleOf b).1.inRange := by
  obtain ⟨a0, b, rfl, h0⟩ := exists_cons_of_succ_le h
  obtain ⟨a1, b, rfl, h1⟩ := exists_cons_of_succ_le h0
  obtain ⟨a2, b, rfl, h2⟩ := exists_cons_of_succ_le h1
  obtain ⟨a3, b, rfl, h3⟩ := exists_cons_of_succ_le h2
  obtain ⟨a4, b, rfl, h4⟩ := exists_cons_of_succ_le h3
  obtain ⟨a5, b, rfl, h5⟩ := exists_cons_of_succ_le h4
  obtain ⟨a6, b, rfl, h6⟩ := exists_cons_of_succ_le h5
  obtain ⟨a7, b, rfl, h7⟩ := exists_cons_of_succ_le h6
  obtain ⟨a8, b, rfl, h8⟩ := exists_cons_of_succ_le h7
  obtain ⟨a9, b, rfl, h9⟩ := exists_cons_of_succ_le h8
  obtain ⟨a10, b, rfl, h10⟩ := exists_cons_of_succ_le h9
  obtain ⟨a11, b, rfl, h11⟩ := exists_cons_of_succ_le h10
  obtain ⟨a12, b, rfl, h12⟩ := exists_cons_of_succ_le h11
  obtain ⟨a13, b, rfl, h13⟩ := exists_cons_of_succ_le h12
  obtain ⟨a14, b, rfl, h14⟩ := exists_cons_of_succ_le h13
  obtain ⟨a15, b, rfl, h15⟩ := exists_cons_of_succ_le h14
  obtain ⟨a16, rest, rfl, h16⟩ := exists_cons_of_succ_le h15
  generalize hb : (a0 :: a1 :: a2 :: a3 :: a4 :: a5 :: a6 :: a7 :: a8 :: a9 :: a10 :: a11 :: a12 :: a13 :: a14 :: a15 :: a16 :: rest) = b
  obtain ⟨c1, r1⟩ := conditionOf_bytes b 5 a5 a6 a7 a8 (by subst hb; rfl) (by subst hb; rfl) (by subst hb; rfl) (by subst hb; rfl)
  obtain ⟨c2, r2⟩ := conditionOf_bytes b 9 a9 a10 a11 a12 (by subst hb; rfl) (by subst hb; rfl) (by subst hb; rfl) (by subst hb; rfl)
  obtain ⟨c3, r3⟩ := conditionOf_bytes b 13 a13 a14 a15 a16 (by subst hb; rfl) (by subst hb; rfl) (by subst hb; rfl) (by subst hb; rfl)
  have e0 : byteAt b 0 = a0.toNat := by subst hb; rfl
  have e1 : byteAt b 1 = a1.toNat := by subst hb; rfl
  have e2 : byteAt b 2 = a2.toNat := by subst hb; rfl
  have e3 : byteAt b 3 = a3.toNat := by subst hb; rfl
  have e4 : byteAt b 4 = a4.toNat := by subst hb; rfl
  have et : b.take 17 = [a0, a1, a2, a3, a4] ++ [a5, a6, a7, a8] ++ [a9, a10, a11, a12] ++ [a13, a14, a15, a16] := by subst hb; rfl
  refine ⟨?_, ?_⟩
  · rw [et]
    simp only [ruleOf, e0, e1, e2, e3, e4, Bool.or_eq_false_iff, ruleBytes, c1, c2, c3, flagOf_byte, scopeOf_byte, count_byte, prereqOf_byte, verdictOf_byte]
    have hl : ∀ c : Condition, (conditionBytes c).length = 4 := fun c => by simp [conditionBytes, halfBytes]
    rw [append_eq_append_iff (by rw [hl]; rfl), append_eq_append_iff (by rw [hl]; rfl), append_eq_append_iff (by rw [hl]; rfl)]
    simp only [List.cons.injEq, and_true]
    tauto
  · simp only [ruleOf, e0, e1, e2, e3, e4, Rule.inRange]
    refine ⟨(clampNat_range 0 3 _ (by omega)).2, r1, r2, r3, ?_⟩
    intro p hp
    unfold prereqOf at hp
    split_ifs at hp <;> simp at hp <;> omega

/-- The same of a zone. -/
theorem zoneOf_bytes (b : List Byte) (h : 10 ≤ b.length) :
    ((zoneOf b).2 = false ↔ zoneBytes (zoneOf b).1 = b.take 10) ∧ (zoneOf b).1.inRange := by
  obtain ⟨a0, b, rfl, h0⟩ := exists_cons_of_succ_le h
  obtain ⟨a1, b, rfl, h1⟩ := exists_cons_of_succ_le h0
  obtain ⟨a2, b, rfl, h2⟩ := exists_cons_of_succ_le h1
  obtain ⟨a3, b, rfl, h3⟩ := exists_cons_of_succ_le h2
  obtain ⟨a4, b, rfl, h4⟩ := exists_cons_of_succ_le h3
  obtain ⟨a5, b, rfl, h5⟩ := exists_cons_of_succ_le h4
  obtain ⟨a6, b, rfl, h6⟩ := exists_cons_of_succ_le h5
  obtain ⟨a7, b, rfl, h7⟩ := exists_cons_of_succ_le h6
  obtain ⟨a8, b, rfl, h8⟩ := exists_cons_of_succ_le h7
  obtain ⟨a9, rest, rfl, h9⟩ := exists_cons_of_succ_le h8
  generalize hb : (a0 :: a1 :: a2 :: a3 :: a4 :: a5 :: a6 :: a7 :: a8 :: a9 :: rest) = b
  have e0 : byteAt b 0 = a0.toNat := by subst hb; rfl
  have e1 : byteAt b 1 = a1.toNat := by subst hb; rfl
  have e2 : halfAt b 2 = a2.toNat + 256 * a3.toNat := by subst hb; rfl
  have e4 : halfAt b 4 = a4.toNat + 256 * a5.toNat := by subst hb; rfl
  have e6 : halfAt b 6 = a6.toNat + 256 * a7.toNat := by subst hb; rfl
  have e8 : halfAt b 8 = a8.toNat + 256 * a9.toNat := by subst hb; rfl
  have et : b.take 10 = [a0, a1] ++ [a2, a3] ++ [a4, a5] ++ [a6, a7] ++ [a8, a9] := by subst hb; rfl
  refine ⟨?_, ?_⟩
  · rw [et]
    simp only [zoneOf, e0, e1, e2, e4, e6, e8, Bool.or_eq_false_iff, zoneBytes, flagOf_byte, zoneFunctionOf_byte, halfBytes_clamp_iff 8191 (by decide), halfBytes_clamp_iff 5119 (by decide)]
    have hl : ∀ c, (halfBytes c).length = 2 := fun c => by simp [halfBytes]
    rw [append_eq_append_iff (by rw [hl]; rfl), append_eq_append_iff (by rw [hl]; rfl), append_eq_append_iff (by rw [hl]; rfl), append_eq_append_iff (by rw [hl]; rfl)]
    simp only [List.cons.injEq, and_true]
  · simp only [zoneOf, Zone.inRange]
    exact ⟨(clampNat_range 0 _ _ (by omega)).2, (clampNat_range 0 _ _ (by omega)).2, (clampNat_range 0 _ _ (by omega)).2, (clampNat_range 0 _ _ (by omega)).2⟩

/-- The same of a knot. -/
theorem knotOf_bytes (m : Nat) (hm : m < 65536) (b : List Byte) (h : 4 ≤ b.length) :
    ((knotOf m b).2 = false ↔ knotBytes (knotOf m b).1 = b.take 4) ∧ (knotOf m b).1.inRange m := by
  obtain ⟨a0, b, rfl, h0⟩ := exists_cons_of_succ_le h
  obtain ⟨a1, b, rfl, h1⟩ := exists_cons_of_succ_le h0
  obtain ⟨a2, b, rfl, h2⟩ := exists_cons_of_succ_le h1
  obtain ⟨a3, rest, rfl, h3⟩ := exists_cons_of_succ_le h2
  generalize hb : (a0 :: a1 :: a2 :: a3 :: rest) = b
  have e0 : halfAt b 0 = a0.toNat + 256 * a1.toNat := by subst hb; rfl
  have e2 : halfAt b 2 = a2.toNat + 256 * a3.toNat := by subst hb; rfl
  have et : b.take 4 = [a0, a1] ++ [a2, a3] := by subst hb; rfl
  refine ⟨?_, ?_⟩
  · rw [et]
    simp only [knotOf, e0, e2, Bool.or_eq_false_iff, knotBytes, halfBytes_clamp_iff 4095 (by decide), halfBytes_clamp_iff m hm]
    rw [append_eq_append_iff (by simp [halfBytes])]
  · simp only [knotOf, Knot.inRange]
    exact ⟨(clampNat_range 0 _ _ (by omega)).2, (clampNat_range 0 _ _ (by omega)).2⟩

/-- The same of a boundary. -/
theorem boundaryOf_bytes (b : List Byte) (h : 4 ≤ b.length) :
    ((boundaryOf b).2 = false ↔ boundaryBytes (boundaryOf b).1 = b.take 4) ∧ (boundaryOf b).1.inRange := by
  obtain ⟨a0, b, rfl, h0⟩ := exists_cons_of_succ_le h
  obtain ⟨a1, b, rfl, h1⟩ := exists_cons_of_succ_le h0
  obtain ⟨a2, b, rfl, h2⟩ := exists_cons_of_succ_le h1
  obtain ⟨a3, rest, rfl, h3⟩ := exists_cons_of_succ_le h2
  generalize hb : (a0 :: a1 :: a2 :: a3 :: rest) = b
  have e0 : halfAt b 0 = a0.toNat + 256 * a1.toNat := by subst hb; rfl
  have e2 : halfAt b 2 = a2.toNat + 256 * a3.toNat := by subst hb; rfl
  have et : b.take 4 = [a0, a1] ++ [a2, a3] := by subst hb; rfl
  refine ⟨?_, ?_⟩
  · rw [et]
    simp only [boundaryOf, e0, e2, Bool.or_eq_false_iff, boundaryBytes, halfBytes_clamp_iff 359 (by decide)]
    rw [append_eq_append_iff (by simp [halfBytes])]
  · simp only [boundaryOf, Boundary.inRange]
    exact ⟨(clampNat_range 0 _ _ (by omega)).2, (clampNat_range 0 _ _ (by omega)).2⟩

theorem paramSpecs_range : ∀ r ∈ paramSpecs, r.lo ≤ r.hi ∧ r.hi < 65536 := by decide

/-- The same of a parameter slot. -/
theorem paramOf_bytes (slot : Nat) (b : List Byte) (h : 2 ≤ b.length) :
    ((paramOf slot b).2 = false ↔ halfBytes (paramOf slot b).1 = b.take 2) ∧ paramInRange slot
        (paramOf slot b).1 := by
  obtain ⟨a0, b, rfl, h0⟩ := exists_cons_of_succ_le h
  obtain ⟨a1, rest, rfl, h1⟩ := exists_cons_of_succ_le h0
  generalize hb : (a0 :: a1 :: rest) = b
  have e0 : halfAt b 0 = a0.toNat + 256 * a1.toNat := by subst hb; rfl
  have et : b.take 2 = [a0, a1] := by subst hb; rfl
  unfold paramOf paramInRange
  rw [et, e0]
  cases hs : paramSpecs[slot]? with
  | none => simp [halfBytes_of]
  | some r =>
    obtain ⟨h1, h2⟩ := paramSpecs_range r (List.mem_of_getElem? hs)
    have hr := clampNat_range r.lo r.hi (a0.toNat + 256 * a1.toNat) h1
    dsimp only
    refine ⟨?_, ?_⟩
    · rw [clampNat_flag, ← halfBytes_of a0 a1, halfBytes_inj (by omega) (half_lt a0 a1)]
    · simpa using hr

theorem signedWordBytes_of (a0 a1 a2 a3 : Byte) :
    signedWordBytes (BitVec.ofNat 32 (a0.toNat + 256 * a1.toNat + 65536 * (a2.toNat + 256 * a3.toNat))).toInt =
        [a0, a1, a2, a3] := by
  have h0 := a0.isLt; have h1 := a1.isLt; have h2 := a2.isLt; have h3 := a3.isLt
  unfold signedWordBytes
  rw [BitVec.ofInt_toInt]
  simp only [BitVec.toNat_ofNat]
  rw [Nat.mod_eq_of_lt (by omega)]
  have e1 : halfBytes (a0.toNat + 256 * a1.toNat + 65536 * (a2.toNat + 256 * a3.toNat)) = [a0, a1] := by
    rw [← halfBytes_of a0 a1]; unfold halfBytes byteOf
    congr 1
    · apply BitVec.eq_of_toNat_eq; simp; omega
    · congr 1; apply BitVec.eq_of_toNat_eq; simp; omega
  rw [e1, show (a0.toNat + 256 * a1.toNat + 65536 * (a2.toNat + 256 * a3.toNat)) / 65536 = a2.toNat + 256 * a3.toNat by omega, halfBytes_of]
  rfl

theorem signedWordBytes_inj {x y : Int} (hx : -2147483648 ≤ x ∧ x < 2147483648)
    (hy : -2147483648 ≤ y ∧ y < 2147483648) :
    signedWordBytes x = signedWordBytes y ↔ x = y := by
  constructor
  · intro h
    unfold signedWordBytes at h
    dsimp only at h
    rw [append_eq_append_iff (by simp [halfBytes])] at h
    have l1 := (BitVec.ofInt 32 x).isLt
    have l2 := (BitVec.ofInt 32 y).isLt
    have h2 := (halfBytes_inj (by omega) (by omega)).1 h.2
    have h1 := h.1
    unfold halfBytes byteOf at h1
    simp only [List.cons.injEq, and_true, ← BitVec.toNat_inj, BitVec.toNat_ofNat] at h1
    have : BitVec.ofInt 32 x = BitVec.ofInt 32 y := by apply BitVec.eq_of_toNat_eq; omega
    have := congrArg BitVec.toInt this
    rw [BitVec.toInt_ofInt, BitVec.toInt_ofInt] at this
    simp only [Int.bmod_def] at this
    omega
  · rintro rfl; rfl

/-- The same of a calibration value. -/
theorem calibrationOf_bytes (i : Nat) (b : List Byte) (h : 4 ≤ b.length) :
    ((calibrationOf i b).2 = false ↔ signedWordBytes (calibrationOf i b).1 = b.take 4) ∧ calibrationInRange i
        (calibrationOf i b).1 := by
  obtain ⟨a0, b, rfl, h0⟩ := exists_cons_of_succ_le h
  obtain ⟨a1, b, rfl, h1⟩ := exists_cons_of_succ_le h0
  obtain ⟨a2, b, rfl, h2⟩ := exists_cons_of_succ_le h1
  obtain ⟨a3, rest, rfl, h3⟩ := exists_cons_of_succ_le h2
  generalize hb : (a0 :: a1 :: a2 :: a3 :: rest) = b
  have e0 : signedWordAt b 0 = (BitVec.ofNat 32 (a0.toNat + 256 * a1.toNat + 65536 * (a2.toNat + 256 * a3.toNat))).toInt := by subst hb; rfl
  have et : b.take 4 = [a0, a1, a2, a3] := by subst hb; rfl
  have hr : (calibrationRange i).1 ≤ (calibrationRange i).2 ∧ -2147483648 ≤ (calibrationRange i).1 ∧ (calibrationRange i).2 < 2147483648 := by
    unfold calibrationRange; split <;> simp
  have hv : -2147483648 ≤ signedWordAt b 0 ∧ signedWordAt b 0 < 2147483648 := by
    rw [e0]
    generalize BitVec.ofNat 32 _ = v
    have := BitVec.le_toInt v; have := @BitVec.toInt_lt 32 v
    simp at *; omega
  have hc : (calibrationRange i).1 ≤ (calibrationOf i b).1 ∧ (calibrationOf i b).1 ≤ (calibrationRange i).2 := by
    simp only [calibrationOf, clampInt]; split_ifs <;> omega
  refine ⟨?_, hc⟩
  rw [et, ← signedWordBytes_of, ← e0, signedWordBytes_inj (by omega) hv]
  simp [calibrationOf]

/-- One entry written: the bank stays in range, other tables and entries stay, and the entry reads back as sent
exactly when nothing was clamped (R138). -/
theorem writeEntry_spec (t : Tables) (id : TableId) (i : Nat) (b : List Byte) (ht : t.inRange) (hi : i < tableSize id)
    (hb : entrySize id ≤ b.length) :
    (writeEntry t id i b).1.inRange ∧
    (∀ id', id' ≠ id → sameTable (writeEntry t id i b).1 t id') ∧
    (∀ j, j ≠ i → (tableBytes (writeEntry t id i b).1 id)[j]? = (tableBytes t id)[j]?) ∧
    ((writeEntry t id i b).2 = false ↔
        (tableBytes (writeEntry t id i b).1 id)[i]? = some (b.take (entrySize id))) := by
  obtain ⟨l, r1, r2, r3, r4, r5, r6, r7, r8⟩ := ht
  have hl : (tableBytes t id).length = tableSize id := l id (by cases id <;> decide)
  have memset : ∀ {α : Type} (xs : List α) (x : α) (P : α → Prop), P x → (∀ y ∈ xs, P y) → ∀ y ∈ xs.set i x, P y := by
    intro α xs x P hx h y hy
    rcases List.mem_or_eq_of_mem_set hy with h1 | rfl
    · exact h y h1
    · exact hx
  have getset : ∀ {α : Type} (xs : List α) (x : α) (f : α → List Byte) , (∀ j, j ≠ i → ((xs.set i x).map f)[j]? = (xs.map f)[j]?) ∧
      (i < xs.length → ((xs.set i x).map f)[i]? = some (f x)) := by
    intro α xs x f
    refine ⟨fun j hj => ?_, fun hl => ?_⟩
    · rw [List.getElem?_map, List.getElem?_map, List.getElem?_set_ne (Ne.symm hj)]
    · rw [List.getElem?_map, List.getElem?_set_self hl]; rfl
  have lset : ∀ {α : Type} (xs : List α) (x : α) (f : α → List Byte), ((xs.set i x).map f).length = (xs.map f).length := by
    intro α xs x f; simp
  cases id
  case rules =>
    obtain ⟨e1, e2⟩ := ruleOf_bytes b hb
    have hli : i < t.rules.length := by simp [tableBytes, tableSize] at hl hi; omega
    obtain ⟨g1, g2⟩ := getset t.rules (ruleOf b).1 ruleBytes
    refine ⟨⟨?_, memset _ _ _ e2 r1, r2, r3, r4, r5, r6, r7, r8⟩, ?_, g1, ?_⟩
    · intro id' h'; rw [← l id' h']; cases id' <;> first | rfl | exact lset _ _ _
    · intro id' h'; cases id' <;> first | rfl | exact absurd rfl h'
    · show (ruleOf b).2 = false ↔ ((t.rules.set i (ruleOf b).1).map ruleBytes)[i]? = _
      rw [g2 hli, e1]; simp [entrySize]
  case zones =>
    obtain ⟨e1, e2⟩ := zoneOf_bytes b hb
    have hli : i < t.zones.length := by simp [tableBytes, tableSize] at hl hi; omega
    obtain ⟨g1, g2⟩ := getset t.zones (zoneOf b).1 zoneBytes
    refine ⟨⟨?_, r1, memset _ _ _ e2 r2, r3, r4, r5, r6, r7, r8⟩, ?_, g1, ?_⟩
    · intro id' h'; rw [← l id' h']; cases id' <;> first | rfl | exact lset _ _ _
    · intro id' h'; cases id' <;> first | rfl | exact absurd rfl h'
    · show (zoneOf b).2 = false ↔ ((t.zones.set i (zoneOf b).1).map zoneBytes)[i]? = _
      rw [g2 hli, e1]; simp [entrySize]
  case pointerCurve =>
    obtain ⟨e1, e2⟩ := knotOf_bytes 2047 (by decide) b hb
    have hli : i < t.pointerCurve.length := by simp [tableBytes, tableSize] at hl hi; omega
    obtain ⟨g1, g2⟩ := getset t.pointerCurve (knotOf 2047 b).1 knotBytes
    refine ⟨⟨?_, r1, r2, memset _ _ _ e2 r3, r4, r5, r6, r7, r8⟩, ?_, g1, ?_⟩
    · intro id' h'; rw [← l id' h']; cases id' <;> first | rfl | exact lset _ _ _
    · intro id' h'; cases id' <;> first | rfl | exact absurd rfl h'
    · show (knotOf 2047 b).2 = false ↔ ((t.pointerCurve.set i (knotOf 2047 b).1).map knotBytes)[i]? = _
      rw [g2 hli, e1]; simp [entrySize]
  case scrollCurve =>
    obtain ⟨e1, e2⟩ := knotOf_bytes 2047 (by decide) b hb
    have hli : i < t.scrollCurve.length := by simp [tableBytes, tableSize] at hl hi; omega
    obtain ⟨g1, g2⟩ := getset t.scrollCurve (knotOf 2047 b).1 knotBytes
    refine ⟨⟨?_, r1, r2, r3, memset _ _ _ e2 r4, r5, r6, r7, r8⟩, ?_, g1, ?_⟩
    · intro id' h'; rw [← l id' h']; cases id' <;> first | rfl | exact lset _ _ _
    · intro id' h'; cases id' <;> first | rfl | exact absurd rfl h'
    · show (knotOf 2047 b).2 = false ↔ ((t.scrollCurve.set i (knotOf 2047 b).1).map knotBytes)[i]? = _
      rw [g2 hli, e1]; simp [entrySize]
  case pressureCurve =>
    obtain ⟨e1, e2⟩ := knotOf_bytes 4095 (by decide) b hb
    have hli : i < t.pressureCurve.length := by simp [tableBytes, tableSize] at hl hi; omega
    obtain ⟨g1, g2⟩ := getset t.pressureCurve (knotOf 4095 b).1 knotBytes
    refine ⟨⟨?_, r1, r2, r3, r4, memset _ _ _ e2 r5, r6, r7, r8⟩, ?_, g1, ?_⟩
    · intro id' h'; rw [← l id' h']; cases id' <;> first | rfl | exact lset _ _ _
    · intro id' h'; cases id' <;> first | rfl | exact absurd rfl h'
    · show (knotOf 4095 b).2 = false ↔ ((t.pressureCurve.set i (knotOf 4095 b).1).map knotBytes)[i]? = _
      rw [g2 hli, e1]; simp [entrySize]
  case bands =>
    obtain ⟨e1, e2⟩ := boundaryOf_bytes b hb
    have hli : i < t.bands.length := by simp [tableBytes, tableSize] at hl hi; omega
    obtain ⟨g1, g2⟩ := getset t.bands (boundaryOf b).1 boundaryBytes
    refine ⟨⟨?_, r1, r2, r3, r4, r5, memset _ _ _ e2 r6, r7, r8⟩, ?_, g1, ?_⟩
    · intro id' h'; rw [← l id' h']; cases id' <;> first | rfl | exact lset _ _ _
    · intro id' h'; cases id' <;> first | rfl | exact absurd rfl h'
    · show (boundaryOf b).2 = false ↔ ((t.bands.set i (boundaryOf b).1).map boundaryBytes)[i]? = _
      rw [g2 hli, e1]; simp [entrySize]
  case params =>
    obtain ⟨e1, e2⟩ := paramOf_bytes i b hb
    have hli : i < t.params.length := by simp [tableBytes, tableSize] at hl hi; omega
    obtain ⟨g1, g2⟩ := getset t.params (paramOf i b).1 halfBytes
    refine ⟨⟨?_, r1, r2, r3, r4, r5, r6, ?_, r8⟩, ?_, g1, ?_⟩
    · intro id' h'; rw [← l id' h']; cases id' <;> first | rfl | exact lset _ _ _
    · intro j hj v hv
      by_cases hji : j = i
      · subst hji
        have : (t.params.set j (paramOf j b).1)[j]? = some v := hv
        rw [List.getElem?_set_self hli] at this
        simp at this; subst this; exact e2
      · apply r7 j hj v
        have : (t.params.set i (paramOf i b).1)[j]? = some v := hv
        rwa [List.getElem?_set_ne (Ne.symm hji)] at this
    · intro id' h'; cases id' <;> first | rfl | exact absurd rfl h'
    · show (paramOf i b).2 = false ↔ ((t.params.set i (paramOf i b).1).map halfBytes)[i]? = _
      rw [g2 hli, e1]; simp [entrySize]
  case calibration =>
    obtain ⟨e1, e2⟩ := calibrationOf_bytes i b hb
    have hli : i < t.calibration.length := by simp [tableBytes, tableSize] at hl hi; omega
    obtain ⟨g1, g2⟩ := getset t.calibration (calibrationOf i b).1 signedWordBytes
    refine ⟨⟨?_, r1, r2, r3, r4, r5, r6, r7, ?_⟩, ?_, g1, ?_⟩
    · intro id' h'; rw [← l id' h']; cases id' <;> first | rfl | exact lset _ _ _
    · intro j hj v hv
      by_cases hji : j = i
      · subst hji
        have : (t.calibration.set j (calibrationOf j b).1)[j]? = some v := hv
        rw [List.getElem?_set_self hli] at this
        simp at this; subst this; exact e2
      · apply r8 j hj v
        have : (t.calibration.set i (calibrationOf i b).1)[j]? = some v := hv
        rwa [List.getElem?_set_ne (Ne.symm hji)] at this
    · intro id' h'; cases id' <;> first | rfl | exact absurd rfl h'
    · show (calibrationOf i b).2 = false ↔ ((t.calibration.set i (calibrationOf i b).1).map signedWordBytes)[i]? = _
      rw [g2 hli, e1]; simp [entrySize]

theorem sameTable_trans {t u v : Tables} {id : TableId} (h1 : sameTable t u id) (h2 : sameTable u v id) :
    sameTable t v id := by
  cases id <;> exact Eq.trans h1 h2

/-- A run of entries written: the same of each, with the lowest clamped index (R138). -/
theorem writeEntries_spec (id : TableId) (b : List Byte) (n i off : Nat) (t : Tables) (ht : t.inRange)
    (hi : i + n ≤ tableSize id)
    (hb : off + n * entrySize id ≤ b.length) :
    let w := writeEntries id b n i off t
    w.1.inRange ∧ (∀ id', id' ≠ id → sameTable w.1 t id') ∧
    (∀ j, j < i ∨ i + n ≤ j → (tableBytes w.1 id)[j]? = (tableBytes t id)[j]?) ∧
    (w.2 = none → ∀ k < n, (tableBytes w.1 id)[i + k]? = some ((b.drop (off + k * entrySize id)).take (entrySize id))) ∧
    ∀ m, w.2 = some m → ∃ k < n, m = i + k ∧ (tableBytes w.1 id)[m]? ≠ some
        ((b.drop (off + k * entrySize id)).take (entrySize id)) ∧
      ∀ k' < k, (tableBytes w.1 id)[i + k']? = some ((b.drop (off + k' * entrySize id)).take (entrySize id)) := by
  induction n generalizing i off t with
  | zero => simp [writeEntries, ht]; intro id' _; cases id' <;> rfl
  | succ n ih =>
    have hm : (n + 1) * entrySize id = n * entrySize id + entrySize id := Nat.succ_mul _ _
    obtain ⟨a1, a2, a3, a4⟩ := writeEntry_spec t id i (b.drop off) ht (by omega) (by rw [List.length_drop]; omega)
    obtain ⟨b1, b2, b3, b4, b5⟩ := ih (i + 1) (off + entrySize id) _ a1 (by omega) (by omega)
    dsimp only
    simp only [writeEntries]
    have hfirst := b3 i (.inl (by omega))
    have hk : ∀ k, off + entrySize id + k * entrySize id = off + (k + 1) * entrySize id := fun k => by rw [Nat.succ_mul]; omega
    refine ⟨b1, fun id' h' => sameTable_trans (b2 id' h') (a2 id' h'), ?_, ?_, ?_⟩
    · intro j hj; rw [b3 j (by omega), a3 j (by omega)]
    · intro hn k hk'
      split at hn
      · simp at hn
      · next hw =>
        cases k with
        | zero => refine Eq.trans hfirst ?_; simpa using a4.1 (by simpa using hw)
        | succ k => have := b4 hn k (by omega); rw [hk] at this; rw [← this]; congr 1; omega
    · intro m hm'
      split at hm'
      · next hw =>
        simp at hm'; subst hm'
        refine ⟨0, by omega, rfl, ?_, by omega⟩
        rw [hfirst, Nat.zero_mul, Nat.add_zero]
        intro hc; have := a4.2 hc; rw [this] at hw; simp at hw
      · next hw =>
        obtain ⟨k, hk1, rfl, hk3, hk4⟩ := b5 m hm'
        refine ⟨k + 1, by omega, by omega, ?_, ?_⟩
        · rw [hk] at hk3; exact hk3
        · intro k' hk'
          cases k' with
          | zero => refine Eq.trans hfirst ?_; simpa using a4.1 (by simpa using hw)
          | succ k' => have := hk4 k' (by omega); rw [hk] at this; rw [← this]; congr 1; omega

theorem conditionOf_conditionBytes (c : Condition) (h : c.inRange) (b : List Byte) (i : Nat) (r : List Byte)
    (hb : b.drop i = conditionBytes c ++ r) : conditionOf b i = (c, false) := by
  obtain ⟨f, rel, o⟩ := c
  obtain ⟨h1, h2⟩ := h
  have g : ∀ k, b.getD (i + k) 0 = (b.drop i).getD k 0 := by intro k; simp [List.getD_eq_getElem?_getD]
  have g0 : b.getD i 0 = (b.drop i).getD 0 0 := g 0
  simp only at h1 h2
  have g1 := g 1; have g2 := g 2; have g3 := g 3
  rw [hb] at g0 g1 g2 g3
  simp only [conditionBytes, halfBytes, List.cons_append, List.nil_append, List.getD_cons_zero, List.getD_cons_succ] at g0 g1 g2 g3
  have e0 : byteAt b i = f := by unfold byteAt; rw [g0, toNat_byteOf (by omega)]
  have e1 : byteAt b (i + 1) = relationCode rel := by unfold byteAt; rw [g1, toNat_byteOf (by cases rel <;> decide)]
  have e2 : halfAt b (i + 2) = o := by
    simp only [halfAt, byteAt, Nat.add_assoc, Nat.reduceAdd]; rw [g2, g3]; simp [byteOf]; omega
  simp only [conditionOf, e0, e1, e2]
  cases rel <;> rfl

theorem halfAt_halfBytes (n : Nat) (hn : n < 65536) (b : List Byte) (i : Nat) (r : List Byte)
    (hb : b.drop i = halfBytes n ++ r) : halfAt b i = n := by
  have g : ∀ k, b.getD (i + k) 0 = (b.drop i).getD k 0 := by intro k; simp [List.getD_eq_getElem?_getD]
  have g0 : b.getD i 0 = (b.drop i).getD 0 0 := g 0
  have g1 := g 1
  rw [hb] at g0 g1
  simp only [halfBytes, List.cons_append, List.nil_append, List.getD_cons_zero, List.getD_cons_succ] at g0 g1
  simp only [halfAt, byteAt]; rw [g0, g1]; simp [byteOf]; omega

/-- A rule in range reads back from its bytes (R169). -/
theorem ruleOf_ruleBytes (x : Rule) (h : x.inRange) (r : List Byte) : ruleOf (ruleBytes x ++ r) = (x, false) := by
  obtain ⟨h1, h2, h3, h4, h5⟩ := h
  obtain ⟨en, sc, n, c1, c2, c3, pr, v⟩ := x
  simp only at h1 h2 h3 h4 h5
  have hl : ∀ c : Condition, conditionBytes c = [byteOf c.feature, byteOf (relationCode c.relation), byteOf c.operand, byteOf (c.operand / 256)] := fun c => rfl
  have e1 := conditionOf_conditionBytes c1 h2 (ruleBytes ⟨en, sc, n, c1, c2, c3, pr, v⟩ ++ r) 5 (conditionBytes c2 ++ conditionBytes c3 ++ r) (by simp [ruleBytes, hl])
  have e2 := conditionOf_conditionBytes c2 h3 (ruleBytes ⟨en, sc, n, c1, c2, c3, pr, v⟩ ++ r) 9 (conditionBytes c3 ++ r) (by simp [ruleBytes, hl])
  have e3 := conditionOf_conditionBytes c3 h4 (ruleBytes ⟨en, sc, n, c1, c2, c3, pr, v⟩ ++ r) 13 r (by simp [ruleBytes, hl])
  have b0 : byteAt (ruleBytes ⟨en, sc, n, c1, c2, c3, pr, v⟩ ++ r) 0 = flagBit en 1 := by cases en <;> rfl
  have b1 : byteAt (ruleBytes ⟨en, sc, n, c1, c2, c3, pr, v⟩ ++ r) 1 = scopeCode sc := by cases sc <;> rfl
  have b2 : byteAt (ruleBytes ⟨en, sc, n, c1, c2, c3, pr, v⟩ ++ r) 2 = n := by
    show (byteOf n).toNat = n; exact toNat_byteOf (by omega)
  have b3 : byteAt (ruleBytes ⟨en, sc, n, c1, c2, c3, pr, v⟩ ++ r) 3 = (pr.getD 255) := by
    cases pr with
    | none => rfl
    | some p => show (byteOf p).toNat = p; exact toNat_byteOf (by have := h5 p rfl; omega)
  have b4 : byteAt (ruleBytes ⟨en, sc, n, c1, c2, c3, pr, v⟩ ++ r) 4 = verdictCode v := by cases v <;> rfl
  have f0 : flagOf (flagBit en 1) = (en, false) := by cases en <;> rfl
  have f1 : scopeOf (scopeCode sc) = (sc, false) := by cases sc <;> rfl
  have f2 : clampNat 0 3 n = (n, false) := clampNat_id _ _ _ (by omega) h1
  have f3 : prereqOf (pr.getD 255) = (pr, false) := by
    cases pr with
    | none => rfl
    | some p => have := h5 p rfl; unfold prereqOf; rw [Option.getD_some]; rw [if_neg (by omega), if_pos this]
  have f4 : verdictOf (verdictCode v) = (v, false) := by cases v <;> rfl
  simp only [ruleOf, b0, b1, b2, b3, b4, e1, e2, e3, f0, f1, f2, f3, f4]; rfl

theorem zoneOf_zoneBytes (x : Zone) (h : x.inRange) (r : List Byte) : zoneOf (zoneBytes x ++ r) = (x, false) := by
  obtain ⟨en, fn, x0, y0, x1, y1⟩ := x
  obtain ⟨h1, h2, h3, h4⟩ := h
  simp only at h1 h2 h3 h4
  have e2 := halfAt_halfBytes x0 (by omega) (zoneBytes ⟨en, fn, x0, y0, x1, y1⟩ ++ r) 2 (halfBytes y0 ++ halfBytes x1 ++ halfBytes y1 ++ r) (by simp [zoneBytes])
  have e4 := halfAt_halfBytes y0 (by omega) (zoneBytes ⟨en, fn, x0, y0, x1, y1⟩ ++ r) 4 (halfBytes x1 ++ halfBytes y1 ++ r) (by simp [zoneBytes, halfBytes])
  have e6 := halfAt_halfBytes x1 (by omega) (zoneBytes ⟨en, fn, x0, y0, x1, y1⟩ ++ r) 6 (halfBytes y1 ++ r) (by simp [zoneBytes, halfBytes])
  have e8 := halfAt_halfBytes y1 (by omega) (zoneBytes ⟨en, fn, x0, y0, x1, y1⟩ ++ r) 8 r (by simp [zoneBytes, halfBytes])
  have b0 : byteAt (zoneBytes ⟨en, fn, x0, y0, x1, y1⟩ ++ r) 0 = flagBit en 1 := by cases en <;> rfl
  have b1 : byteAt (zoneBytes ⟨en, fn, x0, y0, x1, y1⟩ ++ r) 1 = zoneFunctionCode fn := by cases fn <;> rfl
  have f0 : flagOf (flagBit en 1) = (en, false) := by cases en <;> rfl
  have f1 : zoneFunctionOf (zoneFunctionCode fn) = (fn, false) := by cases fn <;> rfl
  simp only [zoneOf, b0, b1, e2, e4, e6, e8, f0, f1, clampNat_id _ _ _ (Nat.zero_le _) h1, clampNat_id _ _ _ (Nat.zero_le _) h2, clampNat_id _ _ _ (Nat.zero_le _) h3, clampNat_id _ _ _ (Nat.zero_le _) h4]; rfl

theorem knotOf_knotBytes (m : Nat) (hm : m < 65536) (x : Knot) (h : x.inRange m) (r : List Byte) : knotOf m
    (knotBytes x ++ r) = (x, false) := by
  obtain ⟨a, b⟩ := x
  obtain ⟨h1, h2⟩ := h
  simp only at h1 h2
  have e0 := halfAt_halfBytes a (by omega) (knotBytes ⟨a, b⟩ ++ r) 0 (halfBytes b ++ r) (by simp [knotBytes])
  have e2 := halfAt_halfBytes b (by omega) (knotBytes ⟨a, b⟩ ++ r) 2 r (by simp [knotBytes, halfBytes])
  simp only [knotOf, e0, e2, clampNat_id _ _ _ (Nat.zero_le _) h1, clampNat_id _ _ _ (Nat.zero_le _) h2]; rfl

theorem boundaryOf_boundaryBytes (x : Boundary) (h : x.inRange) (r : List Byte) : boundaryOf
    (boundaryBytes x ++ r) = (x, false) := by
  obtain ⟨a, b⟩ := x
  obtain ⟨h1, h2⟩ := h
  simp only at h1 h2
  have e0 := halfAt_halfBytes a (by omega) (boundaryBytes ⟨a, b⟩ ++ r) 0 (halfBytes b ++ r) (by simp [boundaryBytes])
  have e2 := halfAt_halfBytes b (by omega) (boundaryBytes ⟨a, b⟩ ++ r) 2 r (by simp [boundaryBytes, halfBytes])
  simp only [boundaryOf, e0, e2, clampNat_id _ _ _ (Nat.zero_le _) h1, clampNat_id _ _ _ (Nat.zero_le _) h2]; rfl

theorem paramOf_halfBytes (i v : Nat) (hi : i < 28) (h : paramInRange i v) (r : List Byte) : paramOf i
    (halfBytes v ++ r) = (v, false) := by
  have hs : ∃ q, paramSpecs[i]? = some q := ⟨paramSpecs[i]'(by simpa [paramSpecs] using hi), List.getElem?_eq_getElem _⟩
  obtain ⟨q, hq⟩ := hs
  have hr := h q hq
  have := paramSpecs_range q (List.mem_of_getElem? hq)
  have e0 := halfAt_halfBytes v (by omega) (halfBytes v ++ r) 0 r (by simp)
  simp only [paramOf, hq, e0, clampNat_id _ _ _ hr.1 hr.2]

theorem calibrationOf_signedWordBytes (i : Nat) (v : Int) (h : calibrationInRange i v) (r : List Byte) :
    calibrationOf i (signedWordBytes v ++ r) = (v, false) := by
  have hr : -2147483648 ≤ (calibrationRange i).1 ∧ (calibrationRange i).2 < 2147483648 := by
    unfold calibrationRange; split <;> simp
  obtain ⟨h1, h2⟩ := h
  have hlt := (BitVec.ofInt 32 v).isLt
  have e0 : halfAt (signedWordBytes v ++ r) 0 = (BitVec.ofInt 32 v).toNat % 65536 := by
    simp [halfAt, byteAt, signedWordBytes, halfBytes, byteOf]; omega
  have e2 : halfAt (signedWordBytes v ++ r) 2 = (BitVec.ofInt 32 v).toNat / 65536 := by
    simp [halfAt, byteAt, signedWordBytes, halfBytes, byteOf]; omega
  have ev : signedWordAt (signedWordBytes v ++ r) 0 = v := by
    unfold signedWordAt
    rw [e0, e2, show (BitVec.ofInt 32 v).toNat % 65536 + 65536 * ((BitVec.ofInt 32 v).toNat / 65536) = (BitVec.ofInt 32 v).toNat by omega]
    rw [BitVec.ofNat_toNat, BitVec.setWidth_eq, BitVec.toInt_ofInt]
    simp only [Int.bmod_def]; omega
  have hc : clampInt (calibrationRange i).1 (calibrationRange i).2 v = v := by
    unfold clampInt; rw [if_neg (by omega), if_neg (by omega)]
  simp only [calibrationOf, ev, hc]
  simp

theorem getD_of_take {n i : Nat} {a b : List Byte} (h : a.take n = b.take n) (hi : i < n) : a.getD i 0 =
    b.getD i 0 := by
  have h1 : (a.take n)[i]? = (b.take n)[i]? := by rw [h]
  rw [List.getElem?_take_of_lt hi, List.getElem?_take_of_lt hi] at h1
  rw [List.getD_eq_getElem?_getD, List.getD_eq_getElem?_getD, h1]

theorem byteAt_of_take {n i : Nat} {a b : List Byte} (h : a.take n = b.take n) (hi : i < n) : byteAt a i =
    byteAt b i := by
  unfold byteAt; rw [getD_of_take h hi]

theorem take_eq_take_of_le {n m : Nat} {a b : List Byte} (h : a.take n = b.take n) (hm : m ≤ n) : a.take m =
    b.take m := by
  have := congrArg (List.take m) h
  rwa [List.take_take, List.take_take, Nat.min_eq_left hm] at this

/-- An entry depends on its own bytes alone. -/
theorem writeEntry_take (t : Tables) (id : TableId) (i : Nat) (a b : List Byte)
    (h : a.take (entrySize id) = b.take (entrySize id)) :
    writeEntry t id i a = writeEntry t id i b := by
  have hb : ∀ {n : Nat}, a.take n = b.take n → ∀ j, j < n → a.getD j 0 = b.getD j 0 := fun h j hj => getD_of_take h hj
  cases id <;> simp only [entrySize] at h <;> have g := hb h
  · have : ruleOf a = ruleOf b := by
      unfold ruleOf conditionOf halfAt byteAt
      rw [g 0 (by decide), g 1 (by decide), g 2 (by decide), g 3 (by decide), g 4 (by decide), g 5 (by decide)]
      simp only [Nat.reduceAdd]
      rw [g 6 (by decide), g 7 (by decide), g 8 (by decide), g 9 (by decide), g 10 (by decide), g 11 (by decide), g 12 (by decide), g 13 (by decide), g 14 (by decide), g 15 (by decide), g 16 (by decide)]
    simp only [writeEntry, this]
  · have : zoneOf a = zoneOf b := by
      unfold zoneOf halfAt byteAt
      simp only [Nat.reduceAdd]
      rw [g 0 (by decide), g 1 (by decide), g 2 (by decide), g 3 (by decide), g 4 (by decide), g 5 (by decide), g 6 (by decide), g 7 (by decide), g 8 (by decide), g 9 (by decide)]
    simp only [writeEntry, this]
  · have : ∀ m, knotOf m a = knotOf m b := by
      intro m; unfold knotOf halfAt byteAt
      simp only [Nat.reduceAdd]
      rw [g 0 (by decide), g 1 (by decide), g 2 (by decide), g 3 (by decide)]
    simp only [writeEntry, this]
  · have : ∀ m, knotOf m a = knotOf m b := by
      intro m; unfold knotOf halfAt byteAt
      simp only [Nat.reduceAdd]
      rw [g 0 (by decide), g 1 (by decide), g 2 (by decide), g 3 (by decide)]
    simp only [writeEntry, this]
  · have : ∀ m, knotOf m a = knotOf m b := by
      intro m; unfold knotOf halfAt byteAt
      simp only [Nat.reduceAdd]
      rw [g 0 (by decide), g 1 (by decide), g 2 (by decide), g 3 (by decide)]
    simp only [writeEntry, this]
  · have : boundaryOf a = boundaryOf b := by
      unfold boundaryOf halfAt byteAt
      simp only [Nat.reduceAdd]
      rw [g 0 (by decide), g 1 (by decide), g 2 (by decide), g 3 (by decide)]
    simp only [writeEntry, this]
  · have : ∀ i, paramOf i a = paramOf i b := by
      intro i; unfold paramOf halfAt byteAt
      simp only [Nat.reduceAdd]
      rw [g 0 (by decide), g 1 (by decide)]
    simp only [writeEntry, this]
  · have : ∀ i, calibrationOf i a = calibrationOf i b := by
      intro i; unfold calibrationOf signedWordAt halfAt byteAt
      simp only [Nat.reduceAdd]
      rw [g 0 (by decide), g 1 (by decide), g 2 (by decide), g 3 (by decide)]
    simp only [writeEntry, this]

/-- A run of entries depends on its own bytes alone. -/
theorem writeEntries_take (id : TableId) (a b : List Byte) (n i off : Nat) (t : Tables)
    (h : a.take (off + n * entrySize id) = b.take (off + n * entrySize id)) :
    writeEntries id a n i off t = writeEntries id b n i off t := by
  induction n generalizing i off t with
  | zero => rfl
  | succ n ih =>
    have hm : (n + 1) * entrySize id = n * entrySize id + entrySize id := Nat.succ_mul _ _
    have h1 : (a.drop off).take (entrySize id) = (b.drop off).take (entrySize id) := by
      have := congrArg (List.drop off) (take_eq_take_of_le h (show off + entrySize id ≤ off + (n + 1) * entrySize id by omega))
      rwa [List.drop_take, List.drop_take, Nat.add_sub_cancel_left] at this
    rw [writeEntries, writeEntries, writeEntry_take _ _ _ _ _ h1]
    rw [ih _ _ _ (by rw [show off + entrySize id + n * entrySize id = off + (n + 1) * entrySize id by omega]; exact h)]

/-- A segment of a curve stays between its two outputs (R67, R111). -/
theorem segment_between (ao bo ai bi v : Nat) (lo hi : Nat) (h1 : lo ≤ ao) (h2 : ao ≤ hi) (h3 : lo ≤ bo)
    (h4 : bo ≤ hi) (ha : ai ≤ v) (hb : v < bi) :
    (lo : Int) ≤ ao + Int.tdiv (((bo : Int) - ao) * ((v : Int) - ai)) ((bi : Int) - ai) ∧
      (ao : Int) + Int.tdiv (((bo : Int) - ao) * ((v : Int) - ai)) ((bi : Int) - ai) ≤ hi := by
  have hd : (0 : Int) < (bi : Int) - ai := by omega
  have hv0 : (0 : Int) ≤ (v : Int) - ai := by omega
  have hv1 : (v : Int) - ai ≤ (bi : Int) - ai := by omega
  generalize (v : Int) - ai = x at *
  generalize (bi : Int) - ai = d at *
  by_cases hs : ao ≤ bo
  · have hp : (0 : Int) ≤ (bo : Int) - ao := by omega
    have e0 : 0 ≤ ((bo : Int) - ao) * x := mul_nonneg hp hv0
    have e : Int.tdiv (((bo : Int) - ao) * x) d = (((bo : Int) - ao) * x) / d := Int.tdiv_eq_ediv_of_nonneg e0
    have l0 : 0 ≤ (((bo : Int) - ao) * x) / d := Int.ediv_nonneg e0 hd.le
    have l1 : (((bo : Int) - ao) * x) / d ≤ (bo : Int) - ao := by
      apply Int.ediv_le_of_le_mul hd; exact mul_le_mul_of_nonneg_left hv1 hp
    rw [e]; omega
  · have hp : (0 : Int) ≤ (ao : Int) - bo := by omega
    have e0 : 0 ≤ ((ao : Int) - bo) * x := mul_nonneg hp hv0
    have e : Int.tdiv (((bo : Int) - ao) * x) d = - ((((ao : Int) - bo) * x) / d) := by
      rw [show ((bo : Int) - ao) * x = -(((ao : Int) - bo) * x) by ring, Int.neg_tdiv, Int.tdiv_eq_ediv_of_nonneg e0]
    have l0 : 0 ≤ (((ao : Int) - bo) * x) / d := Int.ediv_nonneg e0 hd.le
    have l1 : (((ao : Int) - bo) * x) / d ≤ (ao : Int) - bo := by
      apply Int.ediv_le_of_le_mul hd; exact mul_le_mul_of_nonneg_left hv1 hp
    rw [e]; omega

/-- A curve stays within any range that holds its outputs (R67, R111). -/
theorem curveValue_between (ks : List Knot) (hne : ks ≠ []) (lo hi : Nat)
    (h : ∀ k ∈ ks, lo ≤ k.output ∧ k.output ≤ hi) (v : Nat) :
    (lo : Int) ≤ curveValue ks v ∧ curveValue ks v ≤ hi := by
  induction ks with
  | nil => exact absurd rfl hne
  | cons a l ih =>
    have ha := h a (by simp)
    cases l with
    | nil => simp only [curveValue]; omega
    | cons b l =>
      have hb := h b (by simp)
      rw [curveValue]
      split
      · omega
      · split
        · exact segment_between _ _ _ _ _ _ _ ha.1 ha.2 hb.1 hb.2 (by omega) (by omega)
        · exact ih (by simp) (fun k hk => h k (List.mem_cons_of_mem _ hk))

/-- A signed 32-bit field as two 16-bit fields. -/
theorem signedWordBytes_eq (v : Int) : signedWordBytes v = twoBytes v ++ twoBytes (v / 65536) := by
  unfold signedWordBytes twoBytes halfBytes byteOf
  simp only [List.cons_append, List.nil_append, List.cons.injEq, and_true]
  refine ⟨?_, ?_, ?_, ?_⟩ <;> apply BitVec.eq_of_toNat_eq <;> simp <;> omega

/-- The bytes of a condition. -/
theorem conditionBytes_eq (c : Condition) : conditionBytes c = conditionLayout c := by
  unfold conditionBytes conditionLayout
  rw [twoBytes_natCast]
  obtain ⟨f, r, o⟩ := c
  cases r <;> rfl

/-- The bytes of a rule. -/
theorem ruleBytes_eq (r : Rule) : ruleBytes r = ruleLayout r := by
  unfold ruleBytes ruleLayout
  simp only [conditionBytes_eq]
  obtain ⟨e, sc, n, c1, c2, c3, p, v⟩ := r
  cases e <;> cases sc <;> cases p <;> cases v <;> rfl

/-- The bytes of a zone. -/
theorem zoneBytes_eq (z : Zone) : zoneBytes z = zoneLayout z := by
  unfold zoneBytes zoneLayout
  simp only [twoBytes_natCast]
  obtain ⟨e, f, a, b, c, d⟩ := z
  cases e <;> cases f <;> rfl

/-- The bytes of every entry of a table. -/
theorem tableBytes_eq (t : Tables) (id : TableId) : tableBytes t id = tableLayout t id := by
  cases id <;>
    simp [tableBytes, tableLayout, ruleBytes_eq, zoneBytes_eq, knotBytes, boundaryBytes, signedWordBytes_eq, twoBytes_natCast]

end Sys2Proof.Machine
end

