-- ==== Sys2Proof/Laws/Gestures.lean ====
section
/-! SUPPORT. What the Pad Gesture Engine reads of a pad frame, its departures, and a click press, said once
(R79 to R81, R102, R103). -/

namespace Sys2Proof.Machine

theorem PadView.fingers_eq (v : PadView) : v.fingers = fingersOf v := by
  unfold PadView.fingers fingersOf; apply List.filter_congr; intro c _; rw [Bool.eq_iff_iff]; simp

theorem PadView.staying_eq (v : PadView) : v.staying = stayingOf v := by
  unfold PadView.staying stayingOf; rw [PadView.fingers_eq]; apply List.filter_congr; intro c _; rw [Bool.eq_iff_iff]; simp

theorem PadView.landings_eq (v : PadView) : v.landings = landedOf v := by
  unfold PadView.landings landedOf; rw [PadView.fingers_eq]; apply List.filter_congr; intro c _; rw [Bool.eq_iff_iff]; simp

/-- Without a landing every finger stayed. -/
theorem stayingOf_of_landedOf_nil (v : PadView) (h : landedOf v = []) : stayingOf v = fingersOf v := by
  unfold landedOf at h; unfold stayingOf
  rw [List.filter_eq_nil_iff] at h
  rw [List.filter_eq_self]
  intro c hc; simpa using h c hc

theorem tapLimits_iff (t : Tables) (l : Entry) : tapLimits t l = true ↔ withinTap t l := by simp [tapLimits, withinTap]

theorem PadView.mem_lifts (v : PadView) (l : Entry) : l ∈ v.lifts ↔ l ∈ v.lifted ∧ l.cls = .finger
    := by simp [PadView.lifts]

/-- The pointer contact lifted. -/
theorem liftOfPointer_some (v : PadView) (e : Engine) (l : Entry) (h : lifts v l) (hp : e.pointer = some l.track)
    : liftOfPointer v e = some l := by
  unfold liftOfPointer
  have hmem : l ∈ v.lifts := (PadView.mem_lifts v l).2 ⟨h.1, h.2.1⟩
  have : (v.lifts.find? fun x => e.pointer == some x.track).isSome = true := by
    rw [List.find?_isSome]; exact ⟨l, hmem, by simp [hp]⟩
  obtain ⟨x, hx⟩ := Option.isSome_iff_exists.1 this
  have h1 := (PadView.mem_lifts v x).1 (List.mem_of_find?_eq_some hx)
  have h2 : x.track = l.track := by have := List.find?_some hx; simp [hp] at this; exact this.symm
  rw [hx, h.2.2 x h1.1 h1.2 h2]

/-- The pointer contact not lifted. -/
theorem liftOfPointer_none (v : PadView) (e : Engine) (h : ∀ l ∈ v.lifted, l.cls = .finger
    → e.pointer ≠ some l.track) : liftOfPointer v e = none := by
  unfold liftOfPointer
  rw [List.find?_eq_none]
  intro x hx; have := (PadView.mem_lifts v x).1 hx
  simpa using h x this.1 this.2

/-- The pointer contact withdrawn. -/
theorem pointerWithdrawn_iff (v : PadView) (e : Engine) : pointerWithdrawn v e = true ↔ ∃ p, e.pointer = some p
    ∧ withdraws v p := by
  unfold pointerWithdrawn PadView.withdrawals withdraws
  simp only [List.any_eq_true, List.mem_filter, Bool.and_eq_true, beq_iff_eq, bne_iff_ne]
  constructor
  · rintro ⟨c, ⟨h1, h2, h3⟩, h4⟩; exact ⟨_, h4, c, h1, h2, h3, rfl⟩
  · rintro ⟨p, h4, c, h1, h2, h3, rfl⟩; exact ⟨c, ⟨h1, h2, h3⟩, h4⟩

/-- The pointer contact departed (R81). -/
theorem pointerGone_iff (v : PadView) (e : Engine) : ((liftOfPointer v e).isSome || pointerWithdrawn v e) = true
    ↔ pointerGone v e := by
  rw [Bool.or_eq_true, pointerWithdrawn_iff]
  unfold pointerGone liftOfPointer
  simp only [List.find?_isSome, PadView.mem_lifts, beq_iff_eq]
  constructor
  · rintro (⟨l, ⟨h1, h2⟩, h3⟩ | ⟨p, h1, h2⟩)
    · exact ⟨_, h3, .inl ⟨l, h1, h2, rfl⟩⟩
    · exact ⟨p, h1, .inr h2⟩
  · rintro ⟨p, hp, ⟨l, h1, h2, rfl⟩ | h⟩
    · exact .inl ⟨l, ⟨h1, h2⟩, hp⟩
    · exact .inr ⟨p, hp, h⟩

/-- A frame that lands nothing passes stage 2 outside MULTI. -/
theorem stage2_of_no_landing (now : Stamp) (v : PadView) (w : Work) (h : landedOf v = []) (hs : w.e.state ≠ .multi)
    : stage2 now v w = w := by
  unfold stage2 retake; rw [PadView.landings_eq, h]; simp [hs]

/-- The state that a drag ends in (R88, R90). -/
theorem restState_eq (v : PadView) (h : landedOf v = []) : restState v.staying.length = if fingersOf v
    = [] then .idle else .residual := by
  rw [PadView.staying_eq, stayingOf_of_landedOf_nil v h]; unfold restState; simp

/-- A frame that lands nothing and departs from its state into one without thresholds is its departure alone (R81). -/
theorem padFrame_of_departure (t : Tables) (now : Stamp) (dt : Nat) (v : PadView) (e : Engine) (m : Motion) (w : Work)
    (hl : landedOf v = []) (h1 : stage1 t now v ⟨e, m, []⟩ = w) (h2 : w.e.state ≠ e.state)
    (h3 : w.e.state ≠ .multi) (h4 : w.e.state ≠ .touch) : padFrame t now dt v e m = w := by
  unfold padFrame
  rw [h1, stage2_of_no_landing now v w hl h3]
  have : stage3 t v w = w := by
    unfold stage3
    cases hh : w.e.state <;> simp_all
  rw [this]
  unfold stage4; rw [if_pos h2]

theorem PadView.withdrawals_isEmpty (v : PadView) : v.withdrawals.isEmpty = true ↔ ∀ p, ¬withdraws v p := by
  unfold PadView.withdrawals withdraws
  rw [List.isEmpty_iff, List.filter_eq_nil_iff]
  simp only [Bool.and_eq_true, beq_iff_eq, bne_iff_ne, not_exists, not_and]
  constructor
  · intro h p c hc h1 h2; exact fun _ => h c hc h1 h2
  · intro h c hc h1 h2; exact h _ c hc h1 h2 rfl

/-- A contact of the pair has departed (R96, R97). -/
theorem pairDeparted_iff (v : PadView) (e : Engine) (hl : landedOf v = []) :
    pairDeparted v e = true ↔ ∃ id ∈ e.landingSet, ∀ c ∈ fingersOf v, c.entry.track ≠ id := by
  unfold pairDeparted tracks
  rw [PadView.staying_eq, stayingOf_of_landedOf_nil v hl]
  simp only [List.any_eq_true, Bool.not_eq_true', List.contains_eq_mem, List.mem_map, decide_eq_false_iff_not,
      not_exists, not_and]

/-- The most recently landed entry (R79). -/
theorem mostRecent_eq (now : Stamp) (es : List Entry) (x : Entry) (h : mostRecentlyLanded now es x)
    : mostRecent now es = some x := by
  obtain ⟨hm, hall⟩ := h
  have key : ∀ (l : List Entry) (a : Entry), (∀ y ∈ l, y ∈ es) → a ∈ es → (x = a ∨ x ∈ l) → l.foldl
      (laterLanded now) a = x := by
    have st1 : ∀ y ∈ es, laterLanded now x y = x := by
      intro y hy
      unfold laterLanded elapsed
      rcases hall y hy with rfl | h | ⟨h1, h2⟩
      · simp
      · dsimp only; rw [if_pos h]
      · dsimp only
        rw [h1]; simp; omega
    have st2 : ∀ y ∈ es, laterLanded now y x = x := by
      intro y hy
      unfold laterLanded elapsed
      rcases hall y hy with rfl | h | ⟨h1, h2⟩
      · simp
      · dsimp only; rw [if_neg (by omega), if_pos h]
      · dsimp only
        rw [h1]; simp; omega
    intro l
    induction l with
    | nil => intro a _ _ h; rcases h with rfl | h; rfl; simp at h
    | cons b l ih =>
      intro a hl ha h
      rw [List.foldl_cons]
      have hb := hl b (by simp)
      have hcl : laterLanded now a b = a ∨ laterLanded now a b = b := by
        unfold laterLanded; dsimp only; split
        · exact .inl rfl
        · split
          · exact .inr rfl
          · split
            · exact .inr rfl
            · exact .inl rfl
      refine ih _ (fun y hy => hl y (by simp [hy])) (by rcases hcl with h | h <;> rw [h] <;> assumption) ?_
      rcases h with rfl | h
      · exact .inl (st1 b hb).symm
      · rcases List.mem_cons.1 h with rfl | h
        · exact .inl (st2 a ha).symm
        · exact .inr h
  cases es with
  | nil => simp at hm
  | cons a l =>
    simp only [mostRecent]
    rw [key l a (by intro y hy; simp [hy]) (by simp) (by simpa using hm)]

/-- A press in any state but CLICKED: what is under way ends, and the chosen button is held (R102, R103). -/
theorem clickPress_spec (t : Tables) (now : Stamp) (es : List Entry) (e : Engine) (m : Motion) (l : Link) (hso
    : e.sound) (hs : e.state ≠ .clicked)
    (b : Button) (hb : clickButton t now es = b) (hcb : b ≠ .none) (p : Option Nat) (hp : (mostRecent now
        (fingerEntries es)).map (·.track) = p) :
    let w := clickPress t now es ⟨e, m, []⟩
    let ended : Link :=
          match e.state with
          | .coasting => l.appendGesture .scrollEnd
          | .scrolling => l.appendGesture .scrollEnd
          | .pinching => l.appendGesture .pinchEnd
          | .swiping => l.appendGesture (.swipeEnd (e.swipeDirection.getD .left) (e.swipeCount.getD 0))
          | .tapWait => l.buttonChange .none
          | _ => l
    w.e = { e with
              state := .clicked, button := b, pointer := p, landingSet := []
              landingCentroid := none, landingSeparation := none, peakCount := 0, tapCandidate := false
              swipeDirection := none, swipeCount := none, lastCentroid := none, lastSeparation := none
              tapGapTimer := none, coastTimer := none, vcx := 0, vcy := 0 } ∧
    w.m = { m with pointerX := 0, pointerY := 0 } ∧
    l.takeAll w.out = if e.state ≠ .tapWait ∧ e.button = b then ended else ended.buttonChange b := by
  obtain ⟨st, bt, pt, a1, a2, a3, a4, a5, a6, a7, a8, a9, a10, a11, a12, a13⟩ := e
  obtain ⟨s1, s2, s3, s4, s5⟩ := hso
  simp only at s1 s2 s3 s4 s5 hs
  dsimp only
  unfold clickPress
  rw [if_neg hs, hb, hp]
  have hcb' : ¬Button.none = b := fun h => hcb h.symm
  cases st <;> simp only [reduceCtorEq, iff_true, iff_false, Bool.not_eq_true, Option.isSome_eq_false_iff,
      Option.isNone_iff_eq_none, not_true, ne_eq, not_false_eq_true, buttonFits] at s1 s2 s3 hs
  all_goals
    by_cases hbb : bt = b <;> by_cases hpp : pt = p <;>
    simp_all [beforeClick, endCoast, endSwipe, Engine.direction, Work.record, Work.setButton, Work.onEngine,
        Work.goto, Work.setPointer, clearForClick, Engine.clearLanding, GestureState.moves, Motion.clearPointer,
            Link.takeAll, Link.take]

end Sys2Proof.Machine
end

