-- ==== Sys2Proof/Laws/Together.lean ====
section
/-! SUPPORT. What several blocks do together, said once: the posture switch and a posture request (R125, R130), and the beginning of
a frame and of the waiting records (R13, R143). -/

namespace Sys2Proof.Machine

/-! ## The switch (R130) -/

theorem padLive_iff (p : Posture) : padLive p = true ↔ p = .laptop := by simp [padLive]

theorem screenLive_iff (p : Posture) : screenLive p = true ↔ p ≠ .closed := by simp [screenLive]

theorem padLive_leaves (old new : Posture) :
    (padLive old && !padLive new) = true ↔ old = .laptop ∧ new ≠ .laptop := by simp [padLive]

theorem screenLive_leaves (old new : Posture) :
    (screenLive old && !screenLive new) = true ↔ old ≠ .closed ∧ new = .closed := by simp [screenLive]

/-- A teardown of the pad requested, in the words of Safety.lean (R32). -/
theorem State.requestPad_eq (s : State) : s.requestPad = s.padAsked := by
  unfold State.requestPad State.padAsked; rw [State.tearPad_eq]

/-- A teardown of the screen requested (R32). -/
theorem State.requestScreen_eq (s : State) : s.requestScreen = s.screenAsked := by
  unfold State.requestScreen State.screenAsked; rw [State.tearScreen_eq]

/-- A teardown of the pen taken (R74, R75). -/
theorem State.tearPen_eq (s : State) (k : PenTeardown) :
    s.tearPen k = s.penTorn k := by
  cases k
  · exact State.tearPen_port_eq s
  · unfold State.tearPen State.pens penTeardownClosed State.penTorn State.penClosed State.penForcedOut
    dsimp only
    by_cases ho : s.pen.state = .out
    · simp [ho]
    · simp [ho, PenWork.sample, Pen.position, bne_comm (a := PenState.out), bne_comm (a := s.pen.tip)]

/-- A teardown of the pen requested (R74, R75). -/
theorem State.requestPen_eq (s : State) (k : PenTeardown) : s.requestPen k = s.penAsked k := by
  unfold State.requestPen State.penAsked; rw [State.tearPen_eq]

/-- The teardowns that a switch requests, in the words of Safety.lean (R130, R132). -/
theorem State.leaveUse_eq (s : State) (old new : Posture) : s.leaveUse old new =
    let a : State := if old = .laptop ∧ new ≠ .laptop then s.padAsked else s
    if old ≠ .closed ∧ new = .closed then a.screenAsked.penAsked .closed else a := by
  unfold State.leaveUse
  simp only [padLive_leaves, screenLive_leaves, State.requestPen_eq, State.requestScreen_eq, State.requestPad_eq]
  split <;> simp_all

/-- A teardown asked for neither reads nor writes the click line. -/
theorem State.padAsked_sampleClick (s : State) : s.padAsked.sampleClick = s.sampleClick.padAsked := by
  unfold State.padAsked State.sampleClick; dsimp only; split <;> rfl

theorem State.screenAsked_sampleClick (s : State) : s.screenAsked.sampleClick = s.sampleClick.screenAsked := by
  unfold State.screenAsked State.sampleClick; dsimp only; split <;> rfl

theorem State.penAsked_closed_sampleClick (s : State) :
    (s.penAsked .closed).sampleClick = s.sampleClick.penAsked .closed := by
  unfold State.penAsked State.sampleClick State.penTorn State.penClosed State.penForcedOut
  dsimp only
  split
  · rfl
  · split <;> rfl

theorem State.leaveUse_sampleClick (s : State) (old new : Posture) :
    (s.leaveUse old new).sampleClick = s.sampleClick.leaveUse old new := by
  rw [State.leaveUse_eq, State.leaveUse_eq]
  dsimp only
  split <;> split <;>
    simp only [State.padAsked_sampleClick, State.screenAsked_sampleClick, State.penAsked_closed_sampleClick]

/-- The teardowns that a switch requests keep the gesture queue and what else a hand-over keeps. -/
theorem State.grown_leaveUse (s : State) (old new : Posture) : Link.Grown s.link (s.leaveUse old new).link := by
  unfold State.leaveUse
  cases padLive old && !padLive new <;> cases screenLive old && !screenLive new <;>
    simp only [if_true, if_false, Bool.false_eq_true]
  · exact Link.Grown.refl _
  · exact (State.grown_requestScreen _).1.trans (State.grown_requestPen_closed _).1
  · exact (State.grown_requestPad _).1
  · exact ((State.grown_requestPad _).1.trans (State.grown_requestScreen _).1).trans (State.grown_requestPen_closed _).1

/-- The switch to the requested posture (R130, R131). -/
theorem State.switch_spec (s : State) (forced : Bool) : s.switchedTo forced (s.switch forced) := by
  have et : s.switch forced =
      let w := State.leaveUse { s with
        posture := { s.posture with actual := s.posture.requested, pending := false, deferral := none }
        aux := { s.aux with accepted :=
          if s.posture.actual ≠ .laptop ∧ s.posture.requested = .laptop then s.pins.click else s.aux.accepted } }
        s.posture.actual s.posture.requested
      { w with
        link := (w.link.appendGesture (.posture s.posture.requested s.posture.actual forced)).latch .postureChanged } := by
    unfold State.switch
    by_cases h : s.posture.actual ≠ .laptop ∧ s.posture.requested = .laptop
    · have h' : (padLive s.posture.switched.actual && !padLive s.posture.actual) = true := by
        simp [padLive, PostureControl.switched, h]
      simp only [h', if_true, State.leaveUse_sampleClick, if_pos h]
      rfl
    · have h' : (padLive s.posture.switched.actual && !padLive s.posture.actual) = false := by
        simpa [padLive, PostureControl.switched, and_comm] using h
      simp only [h', if_false, Bool.false_eq_true, if_neg h]
      rfl
  rw [et]
  unfold State.switchedTo
  extract_lets old new _ _ v a c w
  have hw : w = c := State.leaveUse_eq _ _ _
  have hg : c.link.gesture = s.link.gesture := by rw [← hw]; exact (State.grown_leaveUse _ _ _).gesture
  rw [hw]
  unfold Link.appendGesture gestureCapacity
  rw [← hg]
  refine ⟨fun h => ?_, fun h => ?_⟩
  · rw [if_pos h]; rfl
  · rw [if_neg (by omega)]
    have hl : (c.link.latched ||| causeBit .overrun) ||| causeBit .postureChanged = c.link.latched ||| 0x88 := by
      rw [BitVec.or_assoc]; rfl
    simp only [Link.latch, hl]
    rfl

theorem State.quiet_iff (s : State) : s.quiet = true ↔ s.isQuiet := by
  simp [State.quiet, State.isQuiet, and_assoc]

/-- The judgement of quiet (R127). -/
theorem State.judgeQuiet_spec (u : State) : u.judged u.judgeQuiet := by
  unfold State.judged State.judgeQuiet
  refine ⟨fun hp hq => ?_, fun h => ?_⟩
  · rw [if_pos (by simp [hp, (State.quiet_iff u).2 hq])]
    exact State.switch_spec u false
  · rw [if_neg]
    rw [Bool.and_eq_true, State.quiet_iff]
    rcases h with h | h
    · simp [h]
    · simp [h]

/-- A teardown that a port or FLUSH_SURFACE asks for, in the words of Safety.lean (R32, R127). -/
theorem State.askTeardown_spec (u : State) (r : Role) : u.tearsDown r (u.askTeardown r) := by
  have e : u.requestRole r = u.teardownAsked r := by
    cases r <;> simp only [State.requestRole, State.teardownAsked, State.requestPad_eq, State.requestScreen_eq,
      State.requestPen_eq]
  unfold State.tearsDown State.askTeardown
  rw [e]
  refine ⟨fun hf hr => ?_, fun h => ?_⟩
  · rw [if_pos ⟨hr, hf⟩]
    exact State.judgeQuiet_spec _
  · rw [if_neg]
    rintro ⟨hr, hf⟩
    rcases h with h | ⟨h1, h2⟩
    · rw [hf] at h; cases h
    · exact hr.elim h1 h2

/-- A posture requested (R125). -/
theorem State.request_spec (s : State) (p : Posture) : s.requested p (s.request p) := by
  unfold State.requested State.request judgeRequest
  refine ⟨fun h => ?_, fun h hq => ?_, fun h hq => ?_⟩
  · rw [if_pos h, h]
  · rw [if_neg h, if_pos ((State.quiet_iff s).2 hq)]
    exact State.switch_spec _ false
  · rw [if_neg h, if_neg (fun hh => hq ((State.quiet_iff s).1 hh))]
    by_cases hp : s.posture.pending = true
    · rw [if_pos hp]; simp [hp]
    · rw [if_neg hp]; simp [hp, afterMs_eq, Tables.postureWait, Tables.param]

/-- The posture of a band is the one of the table of R124. -/
theorem bandPosture_eq {band : Nat} {deck : Option Deck} {p : Posture} (h : postureOfBand band deck p) :
    bandPosture band deck = p := by
  rcases h with ⟨rfl, rfl⟩ | ⟨rfl, rfl⟩ | ⟨rfl, h, rfl⟩ | ⟨rfl, h, rfl⟩ | ⟨rfl, rfl⟩ <;> simp_all [bandPosture]

/-! ## Frames (R13, R143) -/

/-- The mapping of a raw pen position, in the words of Safety.lean (R19). -/
theorem mapPen_eq (t : Tables) (p : Point) : mapPen t p = screenPosition t p := by
  have h (lo hi x : Int) (hle : lo ≤ hi) : clampInt lo hi x = max lo (min hi x) := by
    unfold clampInt; split_ifs <;> omega
  simp [mapPen, mapAxis, screenPosition, h]

/-- The whole work of a frame, handed to the owner of its role (R13). -/
theorem State.frameWork_spec (v : State) (f : Frame) (loss : Bool) :
    v.worked f loss (v.frameWork f.role loss f.stamp f.dt f.record) := by
  obtain ⟨role, record, stamp, dt⟩ := f
  cases role <;> cases record <;> simp only [State.worked, State.frameWork] <;> try rfl
  · rw [← mapPen_eq]; rfl
  rename_i r
  refine ⟨fun h => ?_, fun h p hp => ?_⟩
  · unfold State.auxFrameWork State.noteKeys
    by_cases hk : r.keys = 0
    · cases ho : v.posture.override
      · exact absurd ho h
      · simp [hk, ho]
    · cases ho : v.posture.override
      · exact absurd ho h
      · simp [hk, ho, Nat.pos_of_ne_zero hk, afterMs_eq]
  · have := bandPosture_eq hp
    unfold State.auxFrameWork State.noteKeys
    by_cases hk : r.keys = 0
    · simp only [hk, h, this, Nat.lt_irrefl, if_false, if_true]
      exact State.request_spec _ p
    · simp only [hk, h, this, Nat.pos_of_ne_zero hk, if_false, if_true, afterMs_eq]
      exact State.request_spec _ p

/-- The beginning of a frame on a port (R13, R14). -/
theorem State.beginFrame_spec (s : State) (i : Fin 4) (x : Stamped) : s.begins i x (s.beginFrame i x) := by
  unfold State.begins
  have h := State.frameWork_spec (s.setPort i { s.port i with
    lastStamp := some x.stamp, waiting := none
    lossMark := (s.port i).lossMark && (s.port i).role != .pen
    frame := some ⟨(s.port i).role, x.record, x.stamp, frameInterval (s.port i).lastStamp x.stamp⟩ })
    ⟨(s.port i).role, x.record, x.stamp, frameInterval (s.port i).lastStamp x.stamp⟩ (s.port i).lossMark
  have e : s.beginFrame i x = State.frameWork (s.setPort i { s.port i with
      lastStamp := some x.stamp, waiting := none
      lossMark := (s.port i).lossMark && (s.port i).role != .pen
      frame := some ⟨(s.port i).role, x.record, x.stamp, frameInterval (s.port i).lastStamp x.stamp⟩ })
      (s.port i).role (s.port i).lossMark x.stamp (frameInterval (s.port i).lastStamp x.stamp) x.record := by
    unfold State.beginFrame
    have : (if (s.port i).role = .pen then false else (s.port i).lossMark) =
        ((s.port i).lossMark && (s.port i).role != .pen) := by cases (s.port i).role <;> simp
    simp only [this]
  rw [e]
  simp only [frameInterval_eq] at h ⊢
  exact h

/-- A port LATE or DOWN again takes the change to LIVE (R5, R13). -/
theorem State.reviveIfStalled_eq (s : State) (i : Fin 4) : s.reviveIfStalled i = s.unstalled i := by
  unfold State.reviveIfStalled State.unstalled State.revive State.released
  split
  · simp only [State.deadlineFrom_eq]
    split
    · cases (s.port i).role <;> rfl
    · rfl
  · rfl

/-- A port that looks at its waiting buffer (R13, R14). -/
theorem State.beginWaiting_spec (s : State) (i : Fin 4) : s.beginsWaiting i (s.beginWaiting i) := by
  unfold State.beginsWaiting State.beginWaiting
  refine ⟨fun h => ?_, fun x hx hf => ?_⟩
  · rcases h with h | h
    · simp [h]
    · cases hw : (s.port i).waiting
      · simp [hw]
      · simp [hw, Option.isSome_iff_ne_none.2 h]
  · simp only [hx, hf, Option.isSome_none, Bool.false_eq_true, if_false]
    refine ⟨fun h => ?_, fun h => ?_⟩
    · simp [h, State.setPort]
    · simp only [h, Bool.not_true, Bool.false_eq_true, if_false, State.reviveIfStalled_eq]
      exact State.beginFrame_spec _ i x

/-- The teardowns that wait for a completion, in the words of Safety.lean (R32, R74, R75). -/
theorem State.takeWaits_eq (s : State) (r : Role) : s.takeWaits r = s.tornDown r := by
  have : State.tearPen = State.penTorn := funext fun v => funext fun k => State.tearPen_eq v k
  unfold State.takeWaits State.tornDown
  cases r <;> simp only [State.tearPad_eq, State.tearScreen_eq, this]

/-- The switch leaves a waiting RESTART as it is. -/
@[simp] theorem State.switch_restartWaiting (s : State) (b : Bool) :
    (s.switch b).link.restartWaiting = s.link.restartWaiting := by
  unfold State.switch
  dsimp only
  split <;> exact ((Link.appendGesture_spec _ _).2.2.2.2.2.2.2.2.2.2.1).trans (State.grown_leaveUse _ _ _).restart

/-- Teardowns leave a waiting RESTART as it is. -/
@[simp] theorem State.tornDown_restartWaiting (s : State) (r : Role) :
    (s.tornDown r).link.restartWaiting = s.link.restartWaiting := by
  have hf (v : State) : v.penForcedOut.link.restartWaiting = v.link.restartWaiting := by
    unfold State.penForcedOut
    split
    · rfl
    · exact (Link.grown_appendPen _ _).1.restart
  have hp (k : PenTeardown) (v : State) : (v.penTorn k).link.restartWaiting = v.link.restartWaiting := by
    cases k
    · exact hf v
    · exact hf v
  unfold State.tornDown
  cases r <;> dsimp only
  · split
    · unfold State.padEmptied Link.buttonReleased
      dsimp only
      split
      · rfl
      · exact (Link.grown_buttonChange _ _).1.restart
    · rfl
  · split
    · exact (Link.grown_appendScreens _ _).1.restart
    · rfl
  · generalize s.waits.pen = ks
    have (v : State) : (ks.foldl State.penTorn v).link.restartWaiting = v.link.restartWaiting := by
      induction ks generalizing v with
      | nil => rfl
      | cons k ks ih => exact (ih _).trans (hp k v)
    exact this _

@[simp] theorem State.tornDown_ports (s : State) (r : Role) : (s.tornDown r).ports = s.ports := by
  rw [← State.takeWaits_eq, State.takeWaits_ports]
@[simp] theorem State.tornDown_store (s : State) (r : Role) : (s.tornDown r).store = s.store := by
  rw [← State.takeWaits_eq, State.takeWaits_store]

/-- The completion of a frame is what ends the frame, which keeps the tables, the other ports and a waiting RESTART; then the port
goes on (R13). -/
theorem State.complete_spec (s : State) (i : Fin 4) (f : Frame) (h : (s.port i).frame = some f) :
    ∃ c, s.frameEnded i f.role c ∧ c.ports = s.ports.set i { s.port i with frame := none } ∧ c.store = s.store ∧
      c.link.restartWaiting = s.link.restartWaiting ∧ s.complete i = c.settle i := by
  unfold State.complete State.frameEnded State.takeWaiting
  rw [h]
  dsimp only
  rw [State.takeWaits_eq]
  have hq (q : Port) : State.port ((s.setPort i q).tornDown f.role) i = q := by
    unfold State.port; rw [State.tornDown_ports]; exact Ports.get_set_same _ _ _
  rw [hq, ← State.hold_eq_withHeld]
  have hj (u : State) : u.judgeQuiet.link.restartWaiting = u.link.restartWaiting := by
    unfold State.judgeQuiet; split <;> simp
  have key : ∀ b : State, b = (if (s.port i).state = .late ∧ (s.port i).role = f.role
      then (State.tornDown { s with ports := s.ports.set i { s.port i with frame := none } } f.role).hold true f.role
      else State.tornDown { s with ports := s.ports.set i { s.port i with frame := none } } f.role) →
      b.ports = s.ports.set i { s.port i with frame := none } ∧ b.store = s.store ∧
        b.link.restartWaiting = s.link.restartWaiting := by
    rintro b rfl
    split <;> simp
  by_cases hr : f.role = .pad ∨ f.role = .pen
  · rw [if_pos hr]
    refine ⟨_, ⟨fun _ => State.judgeQuiet_spec _, fun h1 h2 => (hr.elim h1 h2).elim⟩, ?_, ?_, ?_, rfl⟩
    · rw [State.judgeQuiet_ports]; exact (key _ rfl).1
    · rw [State.judgeQuiet_store]; exact (key _ rfl).2.1
    · rw [hj]; exact (key _ rfl).2.2
  · rw [if_neg hr]
    exact ⟨_, ⟨fun h => (hr h).elim, fun _ _ => rfl⟩, (key _ rfl).1, (key _ rfl).2.1, (key _ rfl).2.2, rfl⟩

/-- An arrangement of a list holds the list's elements. -/
theorem arrange_perm {α : Type} (n : Nat) (l : List α) : (arrange n l).Perm l := by
  induction l generalizing n with
  | nil => exact List.Perm.refl _
  | cons a l ih =>
    unfold arrange
    refine (List.perm_insertIdx a _ ?_).trans ((ih _).cons a)
    rw [(ih _).length_eq]
    exact Nat.le_of_lt_succ (Nat.mod_lt n (Nat.succ_pos l.length))

theorem State.foldl_beginWaiting (s : State) (order : List (Fin 4)) :
    s.beginInTurn (order.foldl State.beginWaiting s) order := by
  induction order generalizing s with
  | nil => rfl
  | cons i order ih => exact ⟨s.beginWaiting i, s.beginWaiting_spec i, ih _⟩

theorem State.mem_readyPorts (s : State) (i : Fin 4) :
    i ∈ s.readyPorts ↔ (s.port i).waiting ≠ none ∧ (s.port i).frame = none := by
  have : i ∈ ([0, 1, 2, 3] : List (Fin 4)) := by fin_cases i <;> simp
  simp [State.readyPorts, this, Option.isSome_iff_ne_none]

/-- Every port with a waiting record and no frame in processing begins it, in some order (R143, R145). -/
theorem State.beginAll_spec (s : State) : s.beginsEach s.beginAll := by
  have hn : s.readyPorts.Nodup := List.Nodup.filter _ (by decide)
  have hm := s.mem_readyPorts
  unfold State.beginsEach State.beginAll
  generalize s.readyPorts = ready at hn hm ⊢
  match ready, hn, hm with
  | [], hn, hm => exact ⟨[], hn, hm, rfl⟩
  | [i], hn, hm => exact ⟨[i], hn, hm, s.beginWaiting i, s.beginWaiting_spec i, rfl⟩
  | i :: j :: rest, hn, hm =>
    have hp := arrange_perm (Config.beginOrder s.freeCount) (i :: j :: rest)
    refine ⟨arrange (Config.beginOrder s.freeCount) (i :: j :: rest), hp.nodup_iff.2 hn, fun k => ?_, ?_⟩
    · rw [hp.mem_iff, hm k]
    · rw [if_pos (by rw [hp.length_eq]; simp)]
      exact State.foldl_beginWaiting _ _

end Sys2Proof.Machine
end

