-- ==== Sys2Proof/Laws/Tracking.lean ====
section
/-! SUPPORT. What the Contact Tracker's parts do, said once: the track ids, the review, and the admission (R22 to
R30). -/

namespace Sys2Proof.Machine

/-! ## Track ids and admission (R26, R27) -/

/-- The track id after another, as the rule counts (R27). -/
theorem nextTrack_eq (id : Nat) (h1 : 1 ≤ id) (h2 : id ≤ 255) : nextTrack id = id % 255 + 1 := by
  unfold nextTrack; split <;> omega

/-- Which ids are taken depends on the held ones as a set. -/
theorem takesIds_congr (ids : List Nat) : ∀ (h h' : List Nat) (c n : Nat), (∀ x, x ∈ h ↔ x ∈ h') →
    (takesIds h c n ids ↔ takesIds h' c n ids) := by
  induction ids with
  | nil => intros; rfl
  | cons i ids ih =>
    intro h h' c n hx
    simp only [takesIds, hx]
    rw [ih (i :: h) (i :: h') _ _ (by intro x; simp [hx])]

/-- The id that is taken: the first from the counter on that is free (R27). -/
theorem freeTrack_spec (used : List Nat) : ∀ (fuel n : Nat), 1 ≤ n → n ≤ 255 →
    (∃ k < fuel, (n - 1 + k) % 255 + 1 ∉ used) →
    (∃ k < fuel, freeTrack used fuel n = (n - 1 + k) % 255 + 1 ∧ ∀ j < k, (n - 1 + j) % 255 + 1 ∈ used)
        ∧ freeTrack used fuel n ∉ used := by
  intro fuel
  induction fuel with
  | zero => rintro n - - ⟨k, hk, -⟩; omega
  | succ f ih =>
    intro n h1 h2 hex
    have hn : (n - 1 + 0) % 255 + 1 = n := by omega
    unfold freeTrack
    by_cases hu : n ∈ used
    · rw [if_pos (by simpa using hu), nextTrack_eq n h1 h2]
      have hs : ∀ k, (n % 255 + 1 - 1 + k) % 255 + 1 = (n - 1 + (k + 1)) % 255 + 1 := by intro k; omega
      obtain ⟨⟨k, hk, e, hj⟩, hnot⟩ := ih (n % 255 + 1) (by omega) (by omega) (by
        obtain ⟨k, hk, hh⟩ := hex
        cases k with
        | zero => rw [hn] at hh; exact absurd hu hh
        | succ k => exact ⟨k, by omega, by rw [hs]; exact hh⟩)
      refine ⟨⟨k + 1, by omega, by rw [e, hs], fun j hj' => ?_⟩, hnot⟩
      cases j with
      | zero => rw [hn]; exact hu
      | succ j => rw [← hs]; exact hj j (by omega)
    · rw [if_neg (by simpa using hu)]
      exact ⟨⟨0, by omega, hn.symm, by omega⟩, hu⟩

/-- Fewer than 255 held ids leave one free (R27). -/
theorem exists_free_track (used : List Nat) (h : used.length < 255) (n : Nat) : ∃ k < 255,
    (n - 1 + k) % 255 + 1 ∉ used := by
  by_contra hc
  push Not at hc
  have hnd : ((List.range 255).map fun k => (n - 1 + k) % 255 + 1).Nodup := by
    rw [List.nodup_map_iff_inj_on List.nodup_range]
    intro a ha b hb hab
    simp only [List.mem_range] at ha hb
    omega
  have : ((List.range 255).map fun k => (n - 1 + k) % 255 + 1) ⊆ used := by
    intro x hx
    obtain ⟨k, hk, rfl⟩ := List.mem_map.1 hx
    exact hc k (List.mem_range.1 hk)
  have := (List.subperm_of_subset hnd this).length_le
  simp at this
  omega

theorem mem_insertTracked (t k : Tracked) (us : List Tracked) : k ∈ insertTracked t us ↔ k = t ∨ k ∈ us := by
  induction us with
  | nil => simp [insertTracked]
  | cons u us ih =>
    unfold insertTracked
    split
    · simp
    · simp only [List.mem_cons, ih]; tauto

theorem insertTracked_length (t : Tracked) (us : List Tracked) : (insertTracked t us).length = us.length + 1 := by
  induction us with
  | nil => rfl
  | cons u us ih => unfold insertTracked; split <;> simp [ih]

/-- An entry put in its place keeps the ascending slots. -/
theorem insertTracked_sorted (t : Tracked) (us : List Tracked) (h : (us.map (·.entry.slot)).Pairwise (· < ·))
    (hn : ∀ k ∈ us, k.entry.slot ≠ t.entry.slot) : ((insertTracked t us).map (·.entry.slot)).Pairwise (· < ·) := by
  induction us with
  | nil => simp [insertTracked]
  | cons u us ih =>
    unfold insertTracked
    simp only [List.map_cons, List.pairwise_cons, List.mem_map, forall_exists_index, and_imp,
        forall_apply_eq_imp_iff₂] at h
    split
    · next hlt =>
      simp only [List.map_cons, List.pairwise_cons, List.mem_map, List.mem_cons, forall_exists_index, and_imp,
          forall_eq_or_imp]
      refine ⟨⟨hlt, ?_⟩, ?_, h.2⟩
      · rintro a x hx rfl; have := h.1 x hx; omega
      · rintro a x hx rfl; exact h.1 x hx
    · next hlt =>
      simp only [List.map_cons, List.pairwise_cons, List.mem_map, mem_insertTracked]
      refine ⟨?_, ih h.2 (fun k hk => hn k (by simp [hk]))⟩
      rintro a ⟨x, rfl | hx, rfl⟩
      · have := hn u (by simp); omega
      · exact h.1 x hx

/-- The admission of contacts in turn: as many as the surface has room for, each with its track id (R26, R27). -/
theorem admit_spec (others : List Nat) (zoneOf : Point → Option Nat) (stamp : Stamp) (L : List Contact) :
    ∀ (T : List Tracked) (n : Nat), (T.map (·.entry.slot)).Pairwise (· < ·) → (L.map (·.slot)).Nodup →
      (∀ c ∈ L, ∀ k ∈ T, k.entry.slot ≠ c.slot) → T.length ≤ 10 →
      let a := L.foldl (admitOne others zoneOf stamp) ⟨T, n⟩
      let tk := L.take (10 - T.length)
      (a.entries.map (·.entry.slot)).Pairwise (· < ·) ∧ a.entries.length = T.length + tk.length ∧
      ∃ ids : List Nat, ids.length = tk.length ∧
        (∀ k, k ∈ a.entries ↔ k ∈ T ∨ ∃ x ∈ tk.zip ids, k = ⟨admitted x.2 (zoneOf x.1.pos) stamp x.1, x.1.pos, true⟩) ∧
        (others.length ≤ 10 → 1 ≤ n → n ≤ 255 → takesIds (others ++ T.map (·.entry.track)) n a.nextId ids) := by
  induction L with
  | nil => intro T n h1 h2 h3 h4; exact ⟨h1, by simp, [], by simp, by simp, by intros; rfl⟩
  | cons c L ih =>
    intro T n h1 h2 h3 h4
    dsimp only
    rw [List.foldl_cons]
    by_cases hl : T.length < 10
    · have hst : admitOne others zoneOf stamp ⟨T, n⟩ c =
        ⟨insertTracked ⟨admitted (freeTrack (others ++ T.map (·.entry.track)) 255 n) (zoneOf c.pos) stamp c, c.pos,
            true⟩ T,
          nextTrack (freeTrack (others ++ T.map (·.entry.track)) 255 n)⟩ := by
        unfold admitOne; exact if_pos hl
      rw [hst]
      generalize hid : freeTrack (others ++ T.map (·.entry.track)) 255 n = id
      simp only [List.map_cons, List.nodup_cons, List.mem_map, not_exists, not_and] at h2
      obtain ⟨a1, a2, ids, a3, a4, a5⟩ := ih (insertTracked ⟨admitted id (zoneOf c.pos) stamp c, c.pos, true⟩ T)
          (nextTrack id)
        (insertTracked_sorted _ _ h1 (fun k hk => h3 c (by simp) k hk)) h2.2 (by
          intro d hd k hk
          rcases (mem_insertTracked _ _ _).1 hk with rfl | hk
          · exact fun e => h2.1 d hd e.symm
          · exact h3 d (by simp [hd]) k hk) (by rw [insertTracked_length]; omega)
      rw [insertTracked_length] at a2 a3 a4
      have htk : (c :: L).take (10 - T.length) = c :: L.take (10 - (T.length + 1)) := by
        rw [show 10 - T.length = (10 - (T.length + 1)) + 1 by omega, List.take_succ_cons]
      rw [htk]
      refine ⟨a1, by rw [a2]; simp; omega, id :: ids, by simp [a3], fun k => ?_, fun b1 b2 b3 => ?_⟩
      · rw [a4, mem_insertTracked]
        simp only [List.zip_cons_cons, List.mem_cons, exists_eq_or_imp]
        tauto
      · have hf := freeTrack_spec (others ++ T.map (·.entry.track)) 255 n b2 b3 (exists_free_track _ (by simp; omega) n)
        rw [hid] at hf
        obtain ⟨⟨k, hk, e, hj⟩, hnot⟩ := hf
        refine ⟨⟨k, hk, e, hj⟩, hnot, ?_⟩
        have hnx : nextTrack id = id % 255 + 1 := nextTrack_eq id (by omega) (by omega)
        have := a5 b1 (by omega) (by omega)
        rw [hnx] at this ⊢
        refine (takesIds_congr ids _ _ _ _ ?_).1 this
        intro x
        simp only [List.mem_append, List.mem_map, List.mem_cons, mem_insertTracked]
        constructor
        · rintro (h | ⟨y, rfl | hy, rfl⟩)
          · exact .inr (.inl h)
          · exact .inl rfl
          · exact .inr (.inr ⟨y, hy, rfl⟩)
        · rintro (rfl | h | ⟨y, hy, rfl⟩)
          · exact .inr ⟨_, .inl rfl, rfl⟩
          · exact .inl h
          · exact .inr ⟨y, .inr hy, rfl⟩
    · have hst : admitOne others zoneOf stamp ⟨T, n⟩ c = ⟨T, n⟩ := by unfold admitOne; exact if_neg hl
      rw [hst]
      have := ih T n h1 (by simp at h2; exact h2.2) (fun d hd => h3 d (by simp [hd])) h4
      have h10 : 10 - T.length = 0 := by omega
      simp only [h10, List.take_zero] at this ⊢
      exact this

/-! ## The review (R22 to R25) -/

/-- The review of one entry: split, updated, counted missing, or lifted (R22 to R25). -/
theorem reviewEntry_cases (g j cs st e) :
    (∃ c, contactWithSlot cs e.slot = some c ∧ j < chebyshev e.pos c.pos ∧ reviewEntry g j cs st e = .split e) ∨
    (∃ c, contactWithSlot cs e.slot = some c ∧ chebyshev e.pos c.pos ≤ j ∧ reviewEntry g j cs st e = .kept
        ⟨updateEntry st e c, e.pos, false⟩) ∨
    (contactWithSlot cs e.slot = none ∧ e.liftFrames + 1 ≤ g ∧
      reviewEntry g j cs st e = .kept ⟨{ e with presence := .lifting, liftFrames := e.liftFrames + 1 }, e.pos, false⟩) ∨
    (contactWithSlot cs e.slot = none ∧ g < e.liftFrames + 1 ∧ reviewEntry g j cs st e = .lifted e) := by
  unfold reviewEntry
  cases h : contactWithSlot cs e.slot with
  | none =>
    by_cases h2 : e.liftFrames + 1 ≤ g
    · exact .inr (.inr (.inl ⟨rfl, h2, by simp [h2]⟩))
    · exact .inr (.inr (.inr ⟨rfl, by omega, by simp [h2]⟩))
  | some c =>
    by_cases h2 : j < chebyshev e.pos c.pos
    · exact .inl ⟨c, rfl, h2, by simp [h2]⟩
    · exact .inr (.inl ⟨c, rfl, by omega, by simp [h2]⟩)

theorem mem_keptOf (rs : List Reviewed) (k : Tracked) : k ∈ keptOf rs ↔ .kept k ∈ rs := by
  unfold keptOf
  simp only [List.mem_filterMap]
  constructor
  · rintro ⟨r, hr, h⟩
    cases r <;> simp at h
    subst h; exact hr
  · intro h; exact ⟨_, h, rfl⟩

theorem mem_liftedOf (rs : List Reviewed) (e : Entry) : e ∈ liftedOf rs ↔ .lifted e ∈ rs ∨ .split e ∈ rs := by
  unfold liftedOf
  simp only [List.mem_filterMap]
  constructor
  · rintro ⟨r, hr, h⟩
    cases r <;> simp at h <;> subst h <;> simp [hr]
  · rintro (h | h) <;> exact ⟨_, h, rfl⟩

theorem mem_splitSlots (rs : List Reviewed) (n : Nat) : n ∈ splitSlots rs ↔ ∃ e, .split e ∈ rs ∧ e.slot = n := by
  unfold splitSlots
  simp only [List.mem_filterMap]
  constructor
  · rintro ⟨r, hr, h⟩
    cases r <;> simp at h
    exact ⟨_, hr, h⟩
  · rintro ⟨e, h, rfl⟩; exact ⟨_, h, rfl⟩

theorem filterMap_map_sublist {α β γ : Type} (f : α → Option β) (g : β → γ) (h : α → γ) (l : List α) (H : ∀ a ∈ l,
    ∀ b, f a = some b → g b = h a) :
    ((l.filterMap f).map g).Sublist (l.map h) := by
  induction l with
  | nil => simp
  | cons a l ih =>
    rw [List.filterMap_cons]
    have := ih (fun x hx => H x (by simp [hx]))
    cases hf : f a with
    | none => simpa using this.cons _
    | some b =>
      simp only [List.map_cons, H a (by simp) b hf]
      exact this.cons_cons _

/-- The entries that stay keep their order of slots. -/
theorem keptOf_slots_sublist (g j cs st) (es : List Entry) :
    ((keptOf (es.map (reviewEntry g j cs st))).map (·.entry.slot)).Sublist (es.map (·.slot)) := by
  unfold keptOf
  rw [List.filterMap_map]
  refine filterMap_map_sublist _ _ _ _ ?_
  intro e he b hb
  rcases reviewEntry_cases g j cs st e with ⟨c, h1, h2, h3⟩ | ⟨c, h1, h2, h3⟩ | ⟨h1, h2, h3⟩ | ⟨h1, h2, h3⟩ <;>
    simp only [Function.comp, h3, Option.some.injEq, reduceCtorEq] at hb <;> subst hb <;> rfl

/-- The lifted entries stand in their order. -/
theorem liftedOf_sublist (g j cs st) (es : List Entry) : (liftedOf (es.map (reviewEntry g j cs st))).Sublist es := by
  induction es with
  | nil => simp [liftedOf]
  | cons e es ih =>
    unfold liftedOf at ih ⊢
    rw [List.map_cons, List.filterMap_cons]
    rcases reviewEntry_cases g j cs st e with ⟨c, h1, h2, h3⟩ | ⟨c, h1, h2, h3⟩ | ⟨h1, h2, h3⟩ | ⟨h1, h2, h3⟩ <;>
      rw [h3] <;> dsimp only
    · exact ih.cons_cons _
    · exact ih.cons _
    · exact ih.cons _
    · exact ih.cons_cons _

/-- A slot marked for re-admission left its place free. -/
theorem keptOf_splitSlots_length (g j cs st) (es : List Entry) :
    (keptOf (es.map (reviewEntry g j cs st))).length + (splitSlots (es.map
        (reviewEntry g j cs st))).length ≤ es.length := by
  induction es with
  | nil => simp [keptOf, splitSlots]
  | cons e es ih =>
    unfold keptOf splitSlots at ih ⊢
    rw [List.map_cons, List.filterMap_cons, List.filterMap_cons]
    rcases reviewEntry_cases g j cs st e with ⟨c, h1, h2, h3⟩ | ⟨c, h1, h2, h3⟩ | ⟨h1, h2, h3⟩ | ⟨h1, h2, h3⟩ <;>
      rw [h3] <;> simp only [List.length_cons] <;> omega

theorem splitSlots_nodup (g j cs st) (es : List Entry) (h : (es.map (·.slot)).Pairwise (· < ·)) : (splitSlots
    (es.map (reviewEntry g j cs st))).Nodup := by
  have : (splitSlots (es.map (reviewEntry g j cs st))).Sublist (es.map (·.slot)) := by
    clear h
    induction es with
    | nil => simp [splitSlots]
    | cons e es ih =>
      unfold splitSlots at ih ⊢
      rw [List.map_cons, List.filterMap_cons, List.map_cons]
      rcases reviewEntry_cases g j cs st e with ⟨c, h1, h2, h3⟩ | ⟨c, h1, h2, h3⟩ | ⟨h1, h2, h3⟩ | ⟨h1, h2, h3⟩ <;>
      rw [h3] <;> dsimp only
      · exact ih.cons_cons _
      · exact ih.cons _
      · exact ih.cons _
      · exact ih.cons _
  exact this.nodup (h.imp fun h => Nat.ne_of_lt h)

theorem contactWithSlot_slot (cs : List Contact) (n : Nat) (c : Contact) (h : contactWithSlot cs n = some c)
    : c.slot = n := by
  have := List.find?_some h; simpa using this

theorem contactWithSlot_isSome (cs : List Contact) (n : Nat) : (contactWithSlot cs n).isSome = true ↔ ∃ c ∈ cs,
    c.slot = n := by
  simp [contactWithSlot, List.find?_isSome]

theorem mem_bySlot (cs : List Contact) (c : Contact) : c ∈ bySlot cs ↔ c.slot < 16 ∧ contactWithSlot cs c.slot
    = some c := by
  unfold bySlot
  simp only [List.mem_filterMap, List.mem_range]
  constructor
  · rintro ⟨n, hn, h⟩
    have := contactWithSlot_slot _ _ _ h
    subst this; exact ⟨hn, h⟩
  · rintro ⟨h1, h2⟩; exact ⟨_, h1, h2⟩

theorem bySlot_slots (cs : List Contact) : (bySlot cs).map (·.slot) = (List.range 16).filter fun n =>
    (contactWithSlot cs n).isSome := by
  unfold bySlot
  generalize List.range 16 = l
  induction l with
  | nil => rfl
  | cons a l ih =>
    rw [List.filterMap_cons, List.filter_cons]
    cases h : contactWithSlot cs a with
    | none => simpa using ih
    | some c => simp [ih, contactWithSlot_slot _ _ _ h]

theorem bySlot_filter_slots (cs : List Contact) (p : Nat → Bool) :
    ((bySlot cs).filter fun c => p c.slot).map (·.slot) = (List.range 16).filter fun n =>
        (contactWithSlot cs n).isSome && p n := by
  have : ((bySlot cs).filter fun c => p c.slot).map (·.slot) = ((bySlot cs).map (·.slot)).filter p := by
    rw [List.filter_map]; rfl
  rw [this, bySlot_slots, List.filter_filter]
  congr 1; funext n; rw [Bool.and_comm]

/-- The slots that stage 2 takes, in its order (R26). -/
theorem admissionOrder_slots (cs : List Contact) (sp : List Nat) (kept : List Tracked) :
    (admissionOrder cs sp kept).map (·.slot) =
      ((List.range 16).filter fun n => (contactWithSlot cs n).isSome && sp.contains n) ++
      ((List.range 16).filter fun n => (contactWithSlot cs n).isSome && (!sp.contains n && !kept.any (·.entry.slot
          == n))) := by
  unfold admissionOrder
  rw [List.map_append]
  rw [bySlot_filter_slots cs (fun n => sp.contains n), bySlot_filter_slots cs (fun n => !sp.contains n && !kept.any
      (·.entry.slot == n))]

end Sys2Proof.Machine
end

