-- ==== Sys2Proof/Tests/Slice0.lean ====
section
/-! SUPPORT. Tests of the model: ill-formed commands, the spec's worked examples, and for each statement that has hypotheses a
concrete state and operands that meet them (a witness). -/

namespace Sys2Proof.Tests

open Sys2Proof.Machine

/-! ## Small states -/

/-- The state that a command leaves. -/
def after (c : Instr) (s : State) : State :=
  match exec c s with
  | .next t => t
  | .fault _ => s
  | .refused _ => s

/-- A directive cell with a length byte, its payload filled up to 62 bytes. -/
def cell (length : Byte) (payload : List Byte) : DirectiveCell :=
  ⟨length, payload ++ List.replicate (62 - payload.length) 0⟩

/-- A LIVE port of a role, its deadline at 40 ms. -/
def livePort (r : Role) : Port := ⟨r, .live, none, some 40000, none, false, none, .hunting⟩

/-- Every port LIVE, in LAPTOP. -/
def s0 : State := { State.reset with ports := ⟨livePort .pad, livePort .screen, livePort .pen, livePort .aux⟩ }

/-- A frame of a role in processing. -/
def someFrame (r : Role) : Frame := ⟨r, .contacts [], 0, 32000⟩

/-- A port with a frame in processing. -/
def busyPort (r : Role) : Port := { livePort r with frame := some (someFrame r) }

/-- Every port LIVE, the pad with a frame in processing. -/
def padBusy : State := s0.setPort 0 (busyPort .pad)

/-- The state in a posture, nothing pending. -/
def inPosture (p : Posture) (s : State) : State := { s with posture := { s.posture with actual := p, requested := p } }

/-- The state during an exchange of which nothing is clocked yet. -/
def inExchange (s : State) : State :=
  { s with
    pins := { s.pins with selnLow := true }
    link := { s.link with exchange := some ⟨0, List.replicate 64 0, []⟩ } }

/-- A PRESENT entry. -/
def entry (track slot : Nat) (p : Point) (c : Machine.Class) : Entry where
  track := track
  slot := slot
  presence := .present
  held := false
  liftFrames := 0
  pos := p
  landing := p
  zone := some 0
  touchDown := 0
  age := 0
  travel := 0
  major := 12
  minor := 10
  strength := 100
  cls := c
  palmRun := 0
  reported := .none

/-- A contact. -/
def contact (slot x y : Nat) : Contact := ⟨slot, ⟨x, y⟩, 12, 10, 100⟩

/-- A pen sample, not in flight. -/
def penSample (st : PenState) (edge inFlight : Bool) : PenSample :=
  ⟨st, .pen, ⟨8040, 5010⟩, 0, 10, -5, false, false, edge, inFlight⟩

/-- A screen record, not in flight. -/
def touch (k : TouchKind) (track : Nat) : TouchRecord := ⟨k, track, ⟨9000, 4100⟩, 12, 10, false⟩

/-- A closed pointer record. -/
def closedRecord (dx : Int) (inFlight : Bool) : PointerRecord := ⟨.primary, ⟨dx, 0, 0, 0, 0⟩, false, false, inFlight⟩

/-- The engine in a gesture state. -/
def engineIn (st : GestureState) (b : Button) (p : Option Nat) : Engine :=
  { initialEngine with state := st, button := b, pointer := p }

/-- The bytes of a CONTACTS body with one entry: slot 15 at the pad's far corner, full axes and strength, in contact. -/
def cornerBody : List Byte := [1, 1, 15, 0xFF, 0x1F, 0xFF, 0x13, 255, 255, 0xFF, 0x03, 0]

/-- A PEN body in range at raw (16384, 16384), raw pressure 90. -/
def penBody : List Byte := [2, 1, 0x00, 0x40, 0x00, 0x40, 90, 0, 10, 0xFB, 0, 0]

/-- An AUX body: hinge 200, deck DOWN, one keystroke. -/
def auxBody : List Byte := [3, 200, 0, 1, 1]

/-- A record as it comes on the line of a port: 0xA5, the length byte, the body. -/
def record (body : List Byte) : List Character := (0xA5 :: BitVec.ofNat 8 body.length :: body).map onLine

/-- A character with its stop bit missing. -/
def broken : Character := { onLine 0 with stop := false }

/-! ## Ill-formed commands -/

theorem test_wf_refuses_characters :
    (Instr.scanRecordArrival 0 0 [⟨List.replicate 7 true, true⟩]).wellFormed = false ∧
      (Instr.scanRecordArrival 0 0 [broken]).wellFormed = false ∧ (Instr.scanRecordArrival 0 0 []).wellFormed = false ∧
      (Instr.interByteGap 0 0 [⟨List.replicate 9 true, true⟩]).wellFormed = false ∧
      (Instr.scanRecordArrival 0 0 (record auxBody)).wellFormed = true ∧ (Instr.interByteGap 0 0 []).wellFormed = true := by
  decide

theorem test_wf_refuses_framing :
    (Instr.framingError 0 0 []).wellFormed = false ∧ (Instr.framingError 0 0 [onLine 0]).wellFormed = false ∧
      (Instr.framingError 0 0 [broken, broken]).wellFormed = false ∧
      (Instr.framingError 0 0 [onLine 0xA5, broken]).wellFormed = true := by
  decide

theorem test_wf_refuses_truncation_after_cell :
    (Instr.exchangeTruncated 0 (List.replicate 512 true)).wellFormed = false ∧
      (Instr.exchangeTruncated 0 (List.replicate 511 true)).wellFormed = true := by
  decide +kernel

theorem test_wf_refuses_short_cell :
    ([Instr.poll 0, .readStatus 0, .clearCauses 0, .setMask 0, .setCeiling 0, .writeTable 0, .readTable 0,
      .commitTables 0, .discardShadow 0, .setPort 0, .setPosture 0, .flushSurface 0, .restart 0].all fun f =>
        !(f ⟨0, List.replicate 61 0⟩).wellFormed && !(f ⟨0, List.replicate 63 0⟩).wellFormed &&
          (f (cell 0 [])).wellFormed) = true := by
  decide

theorem test_wf_refuses_known_kind :
    (Instr.unknown 0 0x30 (cell 0 [])).wellFormed = false ∧ (Instr.unknown 0 0x31 (cell 0 [])).wellFormed = true ∧
      (Instr.unknown 0 0x31 ⟨0, []⟩).wellFormed = false := by
  decide

theorem test_no_word_spells_a_command : decodeTableWord 8 0x22 = none ∧ s0.withFetchWord 8 0x22 = s0 := ⟨rfl, rfl⟩

/-! ## The wires -/

/-- Section 1, R165: on a port's line the least significant bit comes first, on the link the most significant. -/
theorem test_bit_orders :
    lineByte [true, false, true, false, false, true, false, false] = 0x25 ∧
      linkBytes [true, false, true, false, false, true, false, false, true] = [0xA4] ∧
      linkBits 0xA4 = [true, false, true, false, false, true, false, false] := by
  decide

/-- R168: noise before the start byte is passed over, and 0xA5 within a body is data. -/
theorem test_hunting :
    ((after (.scanRecordArrival 9 3 ([0x01, 0x05].map onLine ++ record [3, 0xA5, 0, 1, 0])) s0).aux.hinge,
      ((after (.scanRecordArrival 9 3 ((record auxBody).take 5)) s0).port 3).rx) = (some 165, .body 5 [3, 200, 0]) := by
  decide +kernel

/-- R146, R165: SDO carries the cell's bits, and 0x00 after the 64th byte. -/
theorem test_sdo :
    let s := inExchange s0
    let e : State := { s with link := { s.link with exchange := some ⟨0, 0xA4 :: List.replicate 63 0xFF, []⟩ } }
    (after (.exchangeTruncated 0 (List.replicate 9 true)) e).link.sdo = linkBits 0xA4 ++ [true] ∧
      (after (.selnRelease 1 (List.replicate 8 true)) (after (.poll 0 (cell 0 [])) e)).link.sdo.drop 504 =
        List.replicate 8 true ++ List.replicate 8 false := by
  decide +kernel

/-- R147, R166: the kind byte of a cell picks the directive: 0x04 is SET_CEILING, and 0x05 names none. -/
theorem test_kind_byte :
    (after (.unknown 0 0x04 (cell 1 [3])) (inExchange s0)).link.ceiling = 3 ∧
      (after (.unknown 0 0x05 (cell 1 [3])) (inExchange s0)).link.reply = some ⟨0x05, .unknown, false⟩ := by
  decide +kernel

/-! ## The spec's worked examples -/

/-- 01, Example: calibration figures. -/
theorem test_calibration :
    [mapPen defaultTables ⟨0, 0⟩, mapPen defaultTables ⟨16384, 16384⟩, mapPen defaultTables ⟨32767, 32767⟩] =
        [⟨0, 0⟩, ⟨8192, 5120⟩, ⟨16383, 10239⟩] ∧
      mapAxis 32767 33000 (-120) 16383 = 16379 ∧ mapAxis 120 33000 (-120) 16383 = 0 := by
  decide

/-- 02, Example: lift grace and a contact that returns: the rows of 8 and 40 ms. -/
theorem test_lift_grace :
    ((trackFrame 1 1280 (fun _ => none) [] 2 [contact 2 1040 1010] 8000 [entry 1 2 ⟨1000, 1000⟩ .finger]).entries.map
        fun k => (k.entry.age, k.entry.travel)) = [(8, 40)] ∧
      (trackFrame 1 1280 (fun _ => none) [] 2 [] 40000
        [{ entry 1 2 ⟨1000, 1000⟩ .finger with presence := .lifting, liftFrames := 1 }]).lifted.length = 1 := by
  decide

/-- 02, Example: a jump split on the screen. -/
theorem test_jump_split :
    let h := trackFrame 1 2048 (fun _ => none) [] 31 [contact 4 9000 4100] 0 [entry 30 4 ⟨3000, 4000⟩ .finger]
    h.lifted.map (·.track) = [30] ∧ h.entries.map (·.entry.track) = [31] ∧ h.nextId = 32 := by
  decide

/-- 02, Example: id assignment near the wrap: with 254, 1 and 2 held, the ids taken are 255 and 3. -/
theorem test_id_wrap :
    let h := trackFrame 1 2048 (fun _ => none) [254, 1, 2] 254 [contact 0 9 9, contact 1 99 99] 0 []
    h.entries.map (·.entry.track) = [255, 3] ∧ h.nextId = 4 := by
  decide

/-- 04, Example: a pressure curve. -/
theorem test_pressure_curve :
    ([0, 40, 45, 70, 120, 600, 3500, 4095].map
      (curveValue [⟨0, 0⟩, ⟨40, 0⟩, ⟨200, 600⟩, ⟨1000, 1800⟩, ⟨3000, 3600⟩, ⟨4095, 3400⟩])) =
      [0, 0, 18, 112, 300, 1200, 3509, 3400] := by
  decide

/-- 05, Example: two fingers, scroll or pinch: the scroll row, and the pinch row. -/
theorem test_scroll_or_pinch :
    let judged (a b : Point) : GestureState :=
      (evalTwo defaultTables
        ⟨[⟨entry 1 0 a .finger, a, false, .finger, true⟩, ⟨entry 2 1 b .finger, b, false, .finger, true⟩], []⟩
        ⟨{ engineIn .multi .none none with
            landingSet := [1, 2], landingCentroid := some ⟨2500, 2000⟩, landingSeparation := some 1000 },
          initialMotion, []⟩).e.state
    [judged ⟨2000, 2180⟩ ⟨3000, 2170⟩, judged ⟨1900, 2000⟩ ⟨3110, 2010⟩, judged ⟨1950, 2060⟩ ⟨3050, 2060⟩,
      judged ⟨1800, 1800⟩ ⟨3200, 1800⟩] = [.scrolling, .pinching, .multi, .pinching] := by
  decide

/-- The curve of the examples of 06. -/
def exampleCurve : Tables :=
  { defaultTables with pointerCurve :=
      [⟨0, 128⟩, ⟨16, 256⟩, ⟨48, 512⟩, ⟨96, 640⟩, ⟨160, 768⟩, ⟨256, 896⟩, ⟨512, 1024⟩, ⟨1024, 960⟩] }

/-- 06, Example: one pointer frame. -/
theorem test_one_pointer_frame :
    pointerInput exampleCurve { initialMotion with pointerX := 100, pointerY := 30 } 37 (-12) 8000 =
      ({ initialMotion with pointerX := 156, pointerY := 254 }, ⟨68, -23, 0, 0, 0⟩) := by
  decide

/-- 06, Example: a falling segment and a clamp. -/
theorem test_clamped_flick :
    speedOf 180 40 2000 = 800 ∧ curveValue exampleCurve.pointerCurve 800 = 988 ∧
      curveValue exampleCurve.pointerCurve 700 = 1001 ∧ speedOf 3000 0 2000 = 4095 ∧
      pointerInput exampleCurve initialMotion 180 40 2000 = (initialMotion, ⟨127, 127, 0, 0, 0⟩) := by
  decide

/-- 06, Example: a full coast, its first and last steps; and the velocity of Example: a scroll that coasts. -/
theorem test_coast :
    [300, 271, 245, 64, 8].map (decayed defaultTables) = [271, 245, 222, 58, 7] ∧ coastVelocity 163 8000 = 163 := by
  decide

/-- 06, Example: a pinch. -/
theorem test_pinch : [pinchStep 1210 1250, pinchStep 1250 1300, pinchStep 1300 1280] = [33, 40, -15] := by decide

/-- 07, Example: a hinge sweep with the default bands. -/
theorem test_hinge_sweep :
    ([(1, 100), (1, 190), (1, 196), (2, 188), (2, 184), (1, 355), (3, 345), (3, 339), (2, 3), (0, 10), (0, 12)].map
      fun x => bandMove defaultTables.bands x.2 x.1) = [1, 1, 2, 2, 1, 3, 3, 2, 0, 0, 1] ∧
      [bandPosture 2 (some .down), bandPosture 2 (some .edge), bandPosture 2 (some .up)] = [.stand, .tent, .tent] := by
  decide

/-- 08, Example: a commit refused, corrected and swapped: rule 2 with prerequisite 2. -/
theorem test_commit_invalid :
    ((after (.commitTables 0 (cell 2 [0x41, 0])) (inExchange { s0 with store := { s0.store with shadow :=
      { defaultTables with rules := defaultTables.rules.set 2 { defaultRule with prereq := some 2 } } } })).link.reply.map
        (·.body)) = some (.invalid 0 2 .prereqOrder) := by
  decide +kernel

/-- 09, Example: filling, truncation and a replaced MOVE: what the fill takes of each queue, and the flags. -/
theorem test_fill_example :
    let l : Link := { initialLink true with
      latched := 0
      pen := [penSample .hover true false, penSample .hover false false]
      screen := [touch .down 31, touch .move 30, touch .move 31, touch .up 29, touch .move 31]
      pointer := [closedRecord 0 false, ⟨.primary, ⟨5, 0, 0, 0, 0⟩, false, true, false⟩]
      gesture := [⟨.scrollEnd, false⟩, ⟨.posture .tent .laptop false, false⟩] }
    let t := after (.exchangeBegin 0) { s0 with link := l }
    (t.link.exchange.map fun e => e.cell.take 4) = some [0x01, 60, 15, 0x11] ∧
      t.link.screen.map (·.inFlight) = [true, true, true, true, false] ∧
      t.link.pointer.map (·.inFlight) = [false, false] ∧ t.link.gesture.map (·.inFlight) = [true, false] ∧
      t.attention = true := by
  decide +kernel

/-- 10, Example: one report cell. -/
theorem test_report_cell :
    let l : Link := { initialLink true with
      latched := 0
      reply := some ⟨0x04, .done, false⟩
      pen := [penSample .hover true false]
      screen := [touch .move 31]
      pointer := [⟨.primary, ⟨5, -3, 0, 0, 0⟩, true, true, false⟩] }
    ((after (.exchangeBegin 0) (inPosture .tablet { s0 with link := l })).link.exchange.map (·.cell)) =
      some ([0x01, 32, 15, 0x40, 0x10, 4, 0x04, 0, 0x20, 0x21, 0x68, 0x1F, 0x92, 0x13, 0, 0, 10, 0, 0xFB, 0xFF,
        0x31, 31, 0x28, 0x23, 0x04, 0x10, 12, 10, 0x45, 0x05, 0xFD, 0, 0, 0, 0, 0] ++ List.replicate 28 0) := by
  decide +kernel

/-- 11.2: an AUX frame, hinge 200, deck DOWN, at 150 ms in TAP_WAIT: band 2, STAND requested, the deferral timer to 1650. -/
theorem test_posture_pending :
    let s := { s0 with engine := { engineIn .tapWait .primary none with tapGapTimer := some 332000 } }
    (after (.scanRecordArrival 150000 3 (record auxBody)) s).posture =
      ⟨2, .laptop, .stand, none, true, some 1650000⟩ := by
  decide +kernel

/-- 11.2, No second touch: the TapGap expiry at 332 releases PRIMARY, and the switch is made, not forced. -/
theorem test_switch_at_tapgap :
    let s := { s0 with
      engine := { engineIn .tapWait .primary none with tapGapTimer := some 332000 }
      posture := ⟨2, .laptop, .stand, none, true, some 1650000⟩ }
    let t := after (.tapGapExpiry 332000) s
    t.posture = ⟨2, .stand, .stand, none, false, none⟩ ∧ t.engine.button = .none ∧
      t.link.gesture = [⟨.posture .stand .laptop false, false⟩] := by
  decide +kernel

/-- 11.3: the coast expiry at 48 under CoastDecay 200. -/
theorem test_coast_expiry :
    let s := { s0 with
      engine := { engineIn .coasting .none none with coastTimer := some 48000, vcy := 150 }
      store := { s0.store with active := { defaultTables with params := defaultTables.params.set 13 200 } } }
    (after (.coastExpiry 48000) s).engine.vcy = 117 ∧
      (after (.coastExpiry 48000) s).engine.coastTimer = some 56000 := by
  decide +kernel

/-- 11.4: the two deadline expiries of a pad port during a click-drag. -/
theorem test_late_then_down :
    let s := { s0.setPort 0 { livePort .pad with deadline := some 540000 } with
      contacts := ⟨[entry 60 0 ⟨3000, 2500⟩ .finger], [], 61⟩, engine := engineIn .clicked .primary (some 60) }
    let t := after (.deadlineExpiry 540000 0) s
    let u := after (.deadlineExpiry 580000 0) t
    ((t.port 0).state, (t.port 0).deadline, t.contacts.pad.map (·.held)) = (.late, some 580000, [true]) ∧
      ((u.port 0).state, u.contacts.pad, u.engine, u.causes) = (.down, [], initialEngine, 3) := by
  decide +kernel

/-- 11.5: UP 119 of a full queue removes MOVE 113, and DOWN 120 then the pair of track 100. -/
theorem test_screen_overflow :
    let pairs := (List.range' 101 18).flatMap fun n => [touch .down n, touch .up n]
    let l := { initialLink true with screen := [touch .down 100, touch .up 100] ++ pairs ++ [touch .move 119, touch .up 119] }
    let m := (l.appendScreen (touch .down 120))
    (m.screen.length, m.screen.head?, m.screen.getLast?) = (40, some (touch .down 100), some (touch .down 120)) ∧
      (m.appendScreen (touch .up 120)).screen.head? = some (touch .down 101) ∧ m.overrun.screen = true := by
  decide +kernel

/-- 10.5, R138: a TapMax of 30 written to slot 0 is clamped to 40, and the reply names index 0. -/
theorem test_write_clamps :
    let t := after (.writeTable 0 (cell 5 [6, 0, 1, 30, 0])) (inExchange s0)
    t.store.shadow.tapMax = 40 ∧ t.store.active.tapMax = 180 ∧ t.link.reply = some ⟨0x10, .clamped 0, false⟩ := by
  decide +kernel

/-! ## Witnesses of the hypotheses -/

theorem witness_StepRunsFrontCommand : State.reset.pending = [] := rfl

/-- A record as a hunting port takes it. -/
theorem record_brings (body : List Byte) (h : body.length ≤ 255) : bringsRecord .hunting (record body) body :=
  ⟨h, [], by decide, rfl⟩

theorem witness_bringsRecord :
    bringsRecord .hunting (([0x00, 0xFF] ++ 0xA5 :: 5 :: auxBody).map onLine) auxBody ∧
      bringsRecord .hunting (record (List.replicate 255 0xA5)) (List.replicate 255 0xA5) ∧
      bringsRecord .hunting (record []) [] ∧ bringsRecord .length ((5 :: auxBody).map onLine) auxBody ∧
      bringsRecord (.body 5 [3, 200, 0, 1]) [onLine 1] auxBody :=
  ⟨⟨by decide, _, by decide, rfl⟩, record_brings _ (Nat.le_of_eq List.length_replicate), record_brings [] (by decide), ⟨by decide, rfl⟩,
    by decide, [1], by decide, rfl, rfl, rfl⟩

theorem witness_ResetReleaseSamplesLines :
    (after (.hardReset 0) s0).pins.resetnLow = true ∧ s0.pins.resetnLow = false := ⟨rfl, rfl⟩

theorem witness_RecordChecks :
    (cornerBody.length = 2 + 10 * 1 ∧ cornerBody[0]? = some 1 ∧ cornerBody[1]? = some (BitVec.ofNat 8 1) ∧
      parseBody .pad cornerBody = some (.contacts [⟨15, ⟨8191, 5119⟩, 255, 255, 1023⟩])) ∧
      parseBody .screen [1, 0] = some (.contacts []) ∧ (penBody.length = 12 ∧ penBody[0]? = some 2) ∧
      auxBody.length = 5 ∧ auxBody[0]? = some 3 := by
  decide

theorem witness_BadRecordLatchesFrameBad :
    (s0.port 0).enabled = true ∧ (State.reset.port 0).enabled = false ∧ parseBody (s0.port 0).role auxBody = none ∧
      parseBody (s0.port 0).role [] = none ∧ bringsRecord (s0.port 0).rx (record auxBody) auxBody ∧
      bringsRecord (s0.port 0).rx (record []) [] ∧ (s0.port 0).rx = .hunting ∧ (0xA5 : Byte) ∉ ([0, 0xFF] : List Byte) ∧
      ([] : List Byte).length < (1 : Byte).toNat ∧ broken.stop = false ∧
      ((after (.scanRecordArrival 0 0 (record auxBody)) s0).port 0).rx = .hunting ∧
      ((after (.scanRecordArrival 0 0 [onLine 0xA5]) s0).port 0).rx ≠ .hunting := by
  refine ⟨by decide, by decide, by decide, by decide, record_brings _ (by decide), record_brings _ (by decide),
    by decide, by decide, by decide, rfl, by decide +kernel, by decide +kernel⟩

theorem witness_ArrivalWithoutFrame :
    ((s0.port 0).enabled = true ∧ bringsRecord (s0.port 0).rx (record [1, 0]) [1, 0] ∧
      parseBody (s0.port 0).role [1, 0] = some (.contacts [])) ∧
      roleLive (inPosture .stand s0).posture.actual (s0.port 0).role = false ∧
      (roleLive padBusy.posture.actual (padBusy.port 0).role = true ∧ (padBusy.port 0).frame ≠ none) ∧
      { s0.store with pendingCommit := 1 }.pendingCommit ≠ 0 ∧
      { s0.link with restartWaiting := true }.restartWaiting = true := by
  refine ⟨⟨by decide, record_brings _ (by decide), by decide⟩, by decide, by decide, by decide, by decide⟩

theorem witness_PenArrivalBeginsFrame :
    s0.ready 2 ∧ (s0.port 2).role = .pen ∧ bringsRecord (s0.port 2).rx (record penBody) penBody ∧
      parseBody .pen penBody = some (.pen ⟨true, ⟨16384, 16384⟩, 90, 10, -5, false, false⟩) :=
  ⟨by unfold State.ready; decide, rfl, record_brings _ (by decide), by decide⟩

theorem witness_ContactArrivalBeginsFrame :
    (∀ i : Fin 4, bringsRecord (s0.port i).rx (record [1, 0]) [1, 0]) ∧
      (s0.ready 0 ∧ (s0.port 0).role = .pad ∧ parseBody .pad [1, 0] = some (.contacts [])) ∧
      s0.ready 1 ∧ (s0.port 1).role = .screen ∧ parseBody .screen [1, 0] = some (.contacts []) := by
  refine ⟨fun i => ?_, by unfold State.ready; decide⟩
  have : (s0.port i).rx = .hunting := by revert i; decide
  rw [this]
  exact record_brings _ (by decide)

theorem witness_AuxArrivalBeginsFrame :
    (s0.ready 3 ∧ (s0.port 3).role = .aux ∧ bringsRecord (s0.port 3).rx (record auxBody) auxBody ∧
      parseBody .aux auxBody = some (.aux ⟨200, .down, 1⟩)) ∧
      s0.posture.override = none ∧ { s0.posture with override := some .tent }.override ≠ none ∧
      postureOfBand (bandMove defaultTables.bands 200 1) (some .down) .stand ∧ postureOfBand 2 none .tent ∧
      postureOfBand 0 none .closed ∧ postureOfBand 1 none .laptop ∧ postureOfBand 3 none .tablet := by
  refine ⟨⟨by unfold State.ready; decide, rfl, record_brings _ (by decide), by decide⟩, rfl, by decide, ?_⟩
  unfold postureOfBand
  decide

/-- A pen record in range at the origin. -/
def penIn (eraser : Bool) (raw : Nat) : PenRecord := ⟨true, ⟨0, 0⟩, raw, 0, 0, eraser, false⟩

theorem witness_PenFrameByTable :
    (initialPen.state = .out ∧ { penIn false 0 with inRange := false }.inRange = false ∧ (penIn false 0).inRange = true) ∧
      (let p : Pen := { initialPen with state := .contact, lastPos := some ⟨1, 1⟩ };
        p.state ≠ .out ∧ tipOf (penIn false 40).eraser = p.tip ∧ tipOf (penIn true 40).eraser ≠ p.tip ∧
          tipTest defaultTables .contact 40 = .contact ∧ tipTest defaultTables .contact 39 = .hover ∧
          tipTest defaultTables .hover 60 = .contact ∧ tipTest defaultTables .hover 59 = .hover) := by
  decide

theorem witness_TrackerReviewsEveryEntry :
    let e := entry 1 15 ⟨1000, 1000⟩ .finger
    surfaceSound [e] ∧ [contact 15 2280 1000].find? (fun c => c.slot == e.slot) = some (contact 15 2280 1000) ∧
      chebyshev e.pos ⟨2280, 1000⟩ = 1280 ∧ chebyshev e.pos ⟨2281, 1000⟩ = 1281 ∧
      ([] : List Contact).find? (fun c => c.slot == e.slot) = none ∧
      e.liftFrames + 1 ≤ 1 ∧ 1 < { e with liftFrames := 1 }.liftFrames + 1 ∧
      (∀ c ∈ [contact 15 2280 1000], c.slot ≤ 15) ∧ ([contact 15 2280 1000].map (·.slot)).Nodup ∧
      (List.range 10).length ≤ 10 ∧ 1 ≤ 255 := by
  unfold surfaceSound
  decide

/-- A rule that gives its verdict to every entry. -/
def always (v : Verdict) : Tables :=
  { defaultTables with rules := defaultTables.rules.set 0 { defaultRule with enabled := true, verdict := v } }

/-- A snapshot with no pen and no keystroke. -/
def calm : Snapshot := ⟨0, none, false, .out, none, .laptop⟩

theorem witness_ClassesFollowVerdicts :
    (let e := entry 1 0 ⟨0, 0⟩ .finger;
      [.finger, .resting, .palm, .ignore].map (fun v => verdictOn (always v) .pad 1 calm e) =
        [.finger, .resting, .palm, .ignore] ∧ e.presence = .present ∧ e.cls ≠ .rejected) ∧
      { entry 1 0 ⟨0, 0⟩ .finger with presence := .lifting }.presence = .lifting ∧
      entryZoneFunction { defaultTables with zones := [⟨true, .dead, 0, 0, 9, 9⟩] } .pad (entry 1 0 ⟨0, 0⟩ .finger) = .dead ∧
      entryZoneFunction defaultTables .pad (entry 1 0 ⟨0, 0⟩ .finger) ≠ .dead ∧
      (∀ i : Nat, (i = 0) ↔ ∃ r : Rule, (always .palm).rules[i]? = some r ∧ r.enabled = true ∧
        (r.scope = .both ∨ (r.scope = .pad ∧ Surface.pad = .pad) ∨ (r.scope = .screen ∧ Surface.pad = .screen)) ∧
        (∀ x ∈ ([r.c1, r.c2, r.c3] : List Condition).take r.count, x.holds (fun _ => 0) = true) ∧
        ∀ p, r.prereq = some p → p < i ∧ p = 0) ∧
      ∀ i : Nat, False ↔ ∃ r : Rule, defaultTables.rules[i]? = some r ∧ r.enabled = true := by
  refine ⟨by decide, by decide, by decide, by decide, fun i => ⟨?_, ?_⟩, fun i => ⟨False.elim, ?_⟩⟩
  · rintro rfl
    exact ⟨_, rfl, rfl, .inl rfl, by simp [defaultRule], by simp [defaultRule]⟩
  · rintro ⟨r, hr, he, -⟩
    match i with
    | 0 => rfl
    | i + 1 =>
      have hm : r ∈ List.replicate 31 defaultRule := List.mem_of_getElem? (i := i) (by simpa [always, defaultTables] using hr)
      rw [List.eq_of_mem_replicate hm] at he
      cases he
  · rintro ⟨r, hr, he⟩
    have hm : r ∈ List.replicate 32 defaultRule := List.mem_of_getElem? hr
    rw [List.eq_of_mem_replicate hm] at he
    cases he

theorem witness_ScreenReportingTable :
    let c (judged : Bool) (r : Reported) (k : Machine.Class) : Classified :=
      ⟨{ entry 1 0 ⟨0, 0⟩ k with reported := r }, ⟨0, 0⟩, false, .finger, judged⟩
    (c false .none .finger).judged = false ∧ (c true .opened .rejected).judged = true ∧
      (c true .opened .rejected).entry.reported = .opened ∧ (c true .opened .suspect).entry.cls = .suspect ∧
      (c true .none .finger).entry.reported = .none ∧ (c true .closed .rejected).entry.reported = .closed := by
  decide

/-- A contact of a pad frame, with its class before the verdict. -/
def seen (e : Entry) (before : Machine.Class) : Classified := ⟨e, e.pos, false, before, true⟩

/-- A finger of track 1 at its tap limits, with another age and travel. -/
def finger (age travel : Nat) : Entry := { entry 1 0 ⟨9, 9⟩ .finger with age := age, travel := travel }

/-- A pad frame in which that finger is lifted and another of track 2 stays, or none. -/
def lifting (age travel : Nat) (other : Bool) : PadView :=
  ⟨if other then [seen (entry 2 1 ⟨99, 9⟩ .finger) .finger] else [], [finger age travel]⟩

/-- A pad frame in which it is withdrawn. -/
def withdrawing : PadView := ⟨[seen (entry 1 0 ⟨9, 9⟩ .rejected) .finger], []⟩

/-- A pad frame in which fingers of tracks 1 to 4 and more stay, and the given ones land. -/
def holding (stay : Nat) (land : List Nat) : PadView :=
  ⟨(List.range' 1 stay).map (fun n => seen (entry n n ⟨9, 9⟩ .finger) .finger) ++
    land.map fun n => seen (entry n n ⟨9, 9⟩ .finger) .undecided, []⟩

/-- The departures: nothing lands in these frames, the limits are those of the default tables, and a pointer contact that is
lifted or withdrawn is gone. -/
theorem witness_LiftInTouchTaps_departures :
    (∀ b, landedOf (lifting 179 96 b) = []) ∧ landedOf withdrawing = [] ∧
      (∀ b, lifts (lifting 179 96 b) (finger 179 96)) ∧ withinTap defaultTables (finger 179 96) ∧
      ¬withinTap defaultTables (finger 180 96) ∧ ¬withinTap defaultTables (finger 179 97) ∧
      withdraws withdrawing 1 ∧ (∀ l ∈ withdrawing.lifted, l.cls = .finger → l.track ≠ 1) ∧
      (∀ st b o, pointerGone (lifting 179 96 o) (engineIn st b (some 1))) ∧
      (∀ st b, pointerGone withdrawing (engineIn st b (some 1))) ∧
      (fingersOf (lifting 179 96 false) = [] ∧ fingersOf (lifting 179 96 true) ≠ []) ∧
      (∀ l ∈ (lifting 179 96 false).lifted, l.cls = .finger → withinTap defaultTables l) ∧
      (∀ p, ¬withdraws (lifting 179 96 false) p) ∧
      (∃ id ∈ [1, 2], ∀ c ∈ fingersOf (lifting 179 96 true), c.entry.track ≠ id) ∧
      (defaultTables.coastStart ≤ (64 * 8000 / 8000 : Int).natAbs ∧ (63 * 8000 / 8000 : Int).natAbs < defaultTables.coastStart) ∧
      (fingersOf (holding 2 [])).length < 3 ∧
      mostRecentlyLanded 5 ((fingersOf (lifting 179 96 true)).map (·.entry)) (entry 2 1 ⟨99, 9⟩ .finger) := by
  refine ⟨by decide, by decide, ?_, ?_, ?_, ?_, ?_, by decide, fun st b o => ⟨1, rfl, .inl ?_⟩, fun st b => ⟨1, rfl, .inr ?_⟩,
    by decide, ?_, ?_, by decide, by decide, by decide, ?_⟩
  · unfold lifts; decide
  · unfold withinTap; decide
  · unfold withinTap; decide
  · unfold withinTap; decide
  · unfold withdraws; decide
  · revert o; decide
  · unfold withdraws; decide
  · unfold withinTap; decide
  · rintro p ⟨c, hc, -⟩
    simp [lifting] at hc
  · unfold mostRecentlyLanded; decide

/-- The landings: nothing departs in these frames, and one, two or five fingers are there. -/
theorem witness_LiftInTouchTaps_landings :
    (∀ n ≤ 5, nothingDeparts (holding n [6])) ∧ nothingDeparts (holding 0 [6, 7]) ∧
      (landedOf (holding 1 [6]) ≠ [] ∧ ((holding 5 [6]).entries.map (·.entry.track)).Nodup) ∧
      (0 < defaultTables.scrollStart ∧ 0 < defaultTables.swipeStart) ∧
      landedOf (holding 0 [6]) = [seen (entry 6 6 ⟨9, 9⟩ .finger) .undecided] ∧ 2 ≤ (landedOf (holding 0 [6, 7])).length ∧
      ((fingersOf (holding 1 [6])).length = 2 ∧ (fingersOf (holding 3 [6])).length = 4 ∧
        5 ≤ (fingersOf (holding 4 [6])).length) ∧
      (true = true ↔ GestureState.touch ≠ .pointing ∧ ∀ c ∈ fingersOf (holding 1 [6]), withinTap defaultTables c.entry) ∧
      (defaultTables.tapSlop < (finger 0 97).travel ∧ (finger 700 96).travel ≤ defaultTables.tapSlop ∧
        defaultTables.holdMin ≤ (finger 700 96).age ∧ (finger 699 96).age < defaultTables.holdMin) ∧
      mostRecentlyLanded 5 ((landedOf (holding 0 [6, 7])).map (·.entry)) (entry 7 7 ⟨9, 9⟩ .finger) ∧
      mostRecentlyLanded 5 ((fingersOf (holding 1 [6])).map (·.entry)) (entry 6 6 ⟨9, 9⟩ .finger) ∧
      stayingOf (holding 1 [6]) ≠ [] ∧ ∀ n ∈ some 3, n ≤ (stayingOf (holding 3 [6])).length := by
  refine ⟨?_, ?_, by decide, by decide, by decide, by decide, by decide, ?_, by decide, ?_, ?_, by decide, by decide⟩
  · unfold nothingDeparts; decide
  · unfold nothingDeparts; decide
  · unfold withinTap; decide
  · unfold mostRecentlyLanded; decide
  · unfold mostRecentlyLanded; decide

/-- The thresholds: TOUCH with its pointer contact, and MULTI with one to five fingers, a centroid or a separation that has
moved by the limits of the default tables. -/
theorem witness_LiftInTouchTaps_thresholds :
    (nothingDeparts (holding 1 []) ∧ landedOf (holding 1 []) = [] ∧
      (seen (entry 1 1 ⟨9, 9⟩ .finger) .finger) ∈ (holding 1 []).entries ∧
      (engineIn .touch .none (some 1)).pointer = some (entry 1 1 ⟨9, 9⟩ .finger).track) ∧
      (∀ n ∈ [1, 2, 3, 4, 5], stayingOf (holding n []) ≠ [] ∧ (fingersOf (holding n [])).length = n) ∧
      ((∀ l ∈ (holding 2 []).lifted, l.cls = .finger → withinTap defaultTables l) ∧ ∀ p, ¬withdraws (holding 2 []) p) ∧
      ((fingersOf (holding 2 [])).map (·.entry.track) ≠ [1] ∧ (fingersOf (holding 2 [])).map (·.entry.track) = [1, 2]) ∧
      (centroidOf (fingersOf (holding 2 [])) = ⟨9, 9⟩ ∧ separationOf (fingersOf (holding 2 [])) = 0) ∧
      (defaultTables.pinchStart ≤ ((0 : Int) - 192).natAbs ∧ 160 < ((0 : Int) - 192).natAbs) ∧
      (((0 : Int) - 191).natAbs < defaultTables.pinchStart ∧ defaultTables.scrollStart ≤ 160 ∧ 159 < defaultTables.scrollStart) ∧
      (defaultTables.swipeStart ≤ ((9 : Int) - 649).natAbs ∧ ((9 : Int) - 648).natAbs < defaultTables.swipeStart) := by
  refine ⟨⟨?_, by decide, by decide, rfl⟩, by decide, ⟨?_, ?_⟩, by decide, by decide, by decide, by decide, by decide⟩
  · unfold nothingDeparts; decide
  · unfold withinTap; decide
  · rintro p ⟨c, hc, h1, h2, -⟩
    simp [holding, seen, entry] at hc
    rcases hc with ⟨a, -, rfl⟩
    exact h2 rfl

/-- A pad frame that lifts the finger of track 1 and lands one of a track, newly admitted. -/
def turning (track : Nat) : PadView :=
  ⟨[{ seen (entry track 6 ⟨9, 9⟩ .finger) .undecided with isNew := true }], [finger 179 96]⟩

/-- A tap and the next touch in one frame drag, and the end of a swipe and a landing in one frame touch (R81). -/
theorem test_departure_then_landing :
    (let w := padFrame defaultTables 5 8000 (turning 6) (engineIn .touch .none (some 1)) initialMotion;
      w.e.state = .tapDrag ∧ w.e.pointer = some 6 ∧ w.out = [.button .primary]) ∧
      let e : Engine := { engineIn .swiping .none none with swipeDirection := some .left, swipeCount := some 3 }
      let w := padFrame defaultTables 5 8000 (turning 6) e initialMotion
      w.e.state = .touch ∧ w.e.pointer = some 6 ∧ w.out = [.gesture (.swipeEnd .left 3)] := by
  decide

/-- The turnovers: a finger lands in the frame that lifts the pointer contact, a finger of a pair or the last finger, under a
track id of its own or under the id set free. -/
theorem witness_LiftInTouchTaps_turnovers :
    (∀ n ∈ [1, 6], landedOf (turning n) ≠ [] ∧ ((turning n).entries.map (·.entry.track)).Nodup ∧ stayingOf (turning n) = [] ∧
      ∀ l ∈ (turning n).lifted, ∀ c ∈ (turning n).entries, c.entry.track = l.track → c.isNew = true ∧ c.before ≠ .finger) ∧
      0 < defaultTables.scrollStart ∧ (∀ st b, pointerGone (turning 6) (engineIn st b (some 1))) ∧
      (∃ id ∈ [1, 2], ∀ c ∈ stayingOf (turning 6), c.entry.track ≠ id) ∧ (∃ n ∈ some 3, (stayingOf (turning 6)).length < n) ∧
      mostRecentlyLanded 5 ((fingersOf (turning 6)).map (·.entry)) (entry 6 6 ⟨9, 9⟩ .finger) ∧
      (engineIn .clicked .primary none).pointer ≠ some 6 := by
  refine ⟨by decide, by decide, fun st b => ⟨1, rfl, .inl (by decide)⟩, by decide, by decide, ?_, by decide⟩
  unfold mostRecentlyLanded; decide

/-- The motion: a pointer contact that stays, or is still the most recently landed finger, a pair that stays, one of it LIFTING or
none. -/
theorem witness_LiftInTouchTaps_motion :
    (∀ st b, ¬pointerGone (holding 2 []) (engineIn st b (some 1))) ∧ ((holding 2 []).entries.map (·.entry.track)).Nodup ∧
      (let c := seen (entry 1 1 ⟨9, 9⟩ .finger) .finger;
        c ∈ (holding 2 []).entries ∧ c.isNew = false ∧ c.before ≠ .suspect ∧ c.entry.presence = .present) ∧
      { seen (entry 1 1 ⟨9, 9⟩ .finger) .suspect with isNew := true }.isNew = true ∧
      (∀ id ∈ [1, 2], ∃ c ∈ stayingOf (holding 2 []), c.entry.track = id) ∧
      (¬∃ c ∈ fingersOf (holding 2 []), c.entry.presence = .lifting) ∧
      (∃ c ∈ fingersOf ⟨[seen { entry 1 0 ⟨9, 9⟩ .finger with presence := .lifting } .finger], []⟩, c.entry.presence = .lifting) ∧
      landedOf (holding 0 []) = [] ∧ stayingOf (holding 1 []) ≠ [] ∧ (∀ n ∈ some 2, n ≤ (stayingOf (holding 2 [])).length) ∧
      mostRecentlyLanded 5 ((fingersOf (holding 0 [6, 7])).map (·.entry)) (entry 7 7 ⟨9, 9⟩ .finger) := by
  refine ⟨fun st b => ?_, by decide, by decide, rfl, by decide, by decide, by decide, by decide, by decide, by decide, ?_⟩
  rotate_left
  · unfold mostRecentlyLanded; decide
  rintro ⟨p, -, ⟨l, hl, -⟩ | ⟨c, hc, h1, h2, -⟩⟩
  · simp [holding] at hl
  · simp [holding, seen, entry] at hc
    rcases hc with ⟨a, -, rfl⟩
    exact h2 rfl

theorem witness_DeadlineMakesPortLate :
    hasExpired (s0.port 0).deadline 40000 ∧ (s0.port 0).state = .live ∧ ¬hasExpired (s0.port 0).deadline 39999 ∧
      (State.reset.port 0).state ≠ .live ∧ (State.reset.port 0).state ≠ .late := by
  refine ⟨(due_iff _ _).1 (by decide), by decide, (due_eq_false _ _).1 (by decide), by decide, by decide⟩

/-- Every port LATE, with or without frames in processing. -/
def late (busy : Bool) : State :=
  { s0 with ports := s0.ports.map fun p =>
      { p with state := .late, frame := if busy then some (someFrame p.role) else none } }

theorem witness_DeadlineMakesPortDown :
    (∀ busy, ∀ i, hasExpired ((late busy).port i).deadline 40000 ∧ ((late busy).port i).state = .late) ∧
      (((late false).port 0).role = .pad ∧ ((late false).port 1).role = .screen ∧ ((late false).port 2).role = .pen ∧
        ((late false).port 3).role = .aux) ∧
      (∀ r ∈ [Role.pad, .screen, .pen], (late false).ports.frameOf r = false ∧ (late true).ports.frameOf r = true) ∧
      let s := { late false with posture := ⟨2, .laptop, .stand, none, true, some 99⟩ }
      s.posture.pending = true ∧ s.isQuiet ∧ ¬State.isQuiet { s with pen := { s.pen with state := .contact } } := by
  unfold State.isQuiet
  refine ⟨fun busy i => ⟨(due_iff _ _).1 ?_, ?_⟩, by decide, by decide, by decide⟩ <;> revert busy i <;> decide

theorem witness_FrameCompletionFreesPort :
    (s0.port 0).frame = none ∧ (padBusy.port 0).frame = some (someFrame .pad) ∧
      (padBusy.store.pendingCommit = 0 ∧ padBusy.link.restartWaiting = false) ∧ (padBusy.port 0).waiting = none ∧
      (∀ st ∈ [PortState.live, .late, .down], ∀ p ∈ [Posture.laptop, .stand],
        let s := inPosture p (padBusy.setPort 0 { busyPort .pad with state := st, waiting := some ⟨.contacts [], 9⟩ })
        (s.port 0).frame = some (someFrame .pad) ∧ (s.port 0).waiting = some ⟨.contacts [], 9⟩ ∧
          roleLive s.posture.actual (s.port 0).role = (p == .laptop)) ∧
      (let s := padBusy.setPort 1 (busyPort .screen);
        (s.port 0).frame = some (someFrame .pad) ∧ ∃ j, j ≠ 0 ∧ (s.port j).frame ≠ none) ∧
      let s := { padBusy with waits := ⟨true, false, []⟩, posture := ⟨2, .laptop, .stand, none, true, some 99⟩ }
      (s.port 0).frame = some (someFrame .pad) ∧ s.waits.pad = true ∧ s.posture.pending = true ∧ s.isQuiet := by
  unfold State.isQuiet
  decide

/-- A pad teardown that waited is taken at the completion, and the quiet it leaves makes the pending switch (R32, R127, R131). -/
theorem test_waiting_teardown_then_switch :
    let s : State :=
      { padBusy with
        waits := ⟨true, false, []⟩
        contacts := ⟨[entry 1 0 ⟨9, 9⟩ .resting], [], 2⟩
        posture := ⟨2, .laptop, .stand, none, true, some 99⟩ }
    let t := after (.frameCompletion 5 0) s
    t.contacts.pad = [] ∧ t.waits.pad = false ∧ t.posture.actual = .stand ∧ t.posture.pending = false ∧
      t.link.gesture = [⟨.posture .stand .laptop false, false⟩] := by
  decide

theorem witness_LastCompletionSwapsTables :
    let s := { padBusy with store := { padBusy.store with pendingCommit := 0x81 } }
    (s.port 0).frame = some (someFrame .pad) ∧ (∀ j, j ≠ 0 → (s.port j).frame = none) ∧
      (∀ j, (s.port j).waiting = none) ∧ s.store.pendingCommit ≠ 0 ∧ s.link.restartWaiting = false := by
  decide

theorem witness_RestartTakesEffect :
    ((inExchange s0).exchangeOpen ∧ (cell 0 []).wellFormed = true ∧ (cell 0 []).length = 0 ∧
        ∀ j, ((inExchange s0).port j).frame = none) ∧
      ((inExchange padBusy).exchangeOpen ∧ ∃ j, ((inExchange padBusy).port j).frame ≠ none) ∧
      (let s := { padBusy with link := { padBusy.link with restartWaiting := true } };
        (s.port 0).frame = some (someFrame .pad) ∧ (∀ j, j ≠ 0 → (s.port j).frame = none) ∧
          s.link.restartWaiting = true) :=
  ⟨⟨⟨_, rfl⟩, by decide, by decide, by decide⟩, ⟨⟨_, rfl⟩, by decide⟩, by decide⟩

theorem witness_ClickEdgeStartsDebounce :
    s0.pins.resetnLow = false ∧ (after (.hardReset 0) s0).pins.resetnLow = true := ⟨rfl, rfl⟩

/-- The click line and the accepted level, the debounce timer at 5 ms. -/
def clicking (line accepted : ClickLevel) (e : Engine) : State :=
  { s0 with
    pins := { s0.pins with click := line }
    aux := { s0.aux with accepted := accepted, debounce := some 5000 }
    engine := e
    contacts := ⟨[entry 1 0 ⟨9, 9⟩ .finger, entry 2 1 ⟨999, 9⟩ .finger], [], 3⟩ }

theorem witness_DebouncedClickActs :
    (∀ a b e, hasExpired (clicking a b e).aux.debounce 5000 ∧ (clicking a b e).posture.actual = .laptop) ∧
      (clicking .pressed .pressed initialEngine).pins.click = (clicking .pressed .pressed initialEngine).aux.accepted ∧
      (inPosture .stand (clicking .pressed .released initialEngine)).posture.actual ≠ .laptop ∧
      (∀ st ∈ [GestureState.idle, .multi, .scrolling, .pinching, .swiping, .residual], (engineIn st .none none).sound) ∧
      (∀ st ∈ [GestureState.touch, .pointing], (engineIn st .none (some 1)).sound) ∧
      (∀ st ∈ [GestureState.holdDrag, .tapDrag], (engineIn st .primary (some 1)).sound) ∧
      { engineIn .tapWait .primary none with tapGapTimer := some 9 }.sound ∧
      { engineIn .coasting .none none with coastTimer := some 9 }.sound ∧
      (clicking .released .pressed (engineIn .clicked .middle none)).engine.button ≠ .none ∧
      (clicking .released .pressed initialEngine).engine.state ≠ .clicked ∧
      (let fingers := (clicking .pressed .released initialEngine).contacts.pad.filter fun e => e.cls = .finger;
        2 ≤ fingers.length ∧ mostRecentlyLanded 5000 fingers (entry 2 1 ⟨999, 9⟩ .finger)) ∧
      ([] : List Entry).length ≤ 1 ∧ [entry 1 0 ⟨9, 9⟩ .resting].length ≤ 1 ∧
      mostRecentlyLanded 5000 [entry 1 0 ⟨9, 9⟩ .resting] (entry 1 0 ⟨9, 9⟩ .resting) := by
  refine ⟨fun _ _ _ => ⟨⟨5000, rfl, by decide⟩, rfl⟩, by decide, by decide, ?_, ?_, ?_, ?_, ?_, by decide, by decide, ?_,
    by decide, by decide, ?_⟩
  all_goals first
    | (unfold mostRecentlyLanded; decide)
    | simp [Engine.sound, engineIn, initialEngine, buttonFits, mayPoint]

theorem witness_QuietTimersExpire :
    let s := { s0 with keyQuiet := some 9, pen := { s0.pen with shadowTimer := some 9, shadowLive := true } }
    hasExpired s.keyQuiet 9 ∧ ¬hasExpired s.keyQuiet 8 ∧ hasExpired s.pen.shadowTimer 9 ∧ ¬hasExpired s.pen.shadowTimer 8 :=
  ⟨⟨9, rfl, by decide⟩, (due_eq_false _ _).1 (by decide), ⟨9, rfl, by decide⟩, (due_eq_false _ _).1 (by decide)⟩

theorem witness_TapGapExpiryReleasesPrimary :
    let s := { s0 with engine := { engineIn .tapWait .primary none with tapGapTimer := some 9 } }
    let u := { s with posture := ⟨2, .laptop, .stand, none, true, some 99⟩ }
    let v := { u with contacts := { u.contacts with pad := [entry 1 0 ⟨9, 9⟩ .resting] } }
    hasExpired s.engine.tapGapTimer 9 ∧ ¬hasExpired s.engine.tapGapTimer 8 ∧ s.engine.state = .tapWait ∧
      s.engine.button = .primary ∧ s.posture.pending = false ∧ u.posture.pending = true ∧ u.contacts.pad = [] ∧
      u.pen.state ≠ .contact ∧ v.posture.pending = true ∧ v.contacts.pad ≠ [] :=
  ⟨⟨9, rfl, by decide⟩, (due_eq_false _ _).1 (by decide), rfl, rfl, rfl, rfl, rfl, by decide, rfl, by decide⟩

/-- A coast at a vertical velocity. -/
def coasting (v : Int) : State :=
  { s0 with engine := { engineIn .coasting .none none with coastTimer := some 9, vcy := v } }

theorem witness_CoastExpiryStepsAndEnds :
    (∀ v, hasExpired (coasting v).engine.coastTimer 9 ∧ (coasting v).engine.state = .coasting) ∧
      velocitySize 0 (decayed defaultTables 8) < defaultTables.coastStop ∧
      defaultTables.coastStop ≤ velocitySize 0 (decayed defaultTables 9) ∧
      s0.store.active.params.getD 13 0 ≤ 254 ∧ (coasting 8).engine.vcy ≠ 0 ∧
      { (coasting 8).engine with vcx := -1 }.vcx ≠ 0 :=
  ⟨fun _ => ⟨⟨9, rfl, by decide⟩, rfl⟩, by decide, by decide, by decide, by decide, by decide⟩

/-- A request pending, its deferral timer at 9. -/
def deferred (old new : Posture) : State := { s0 with posture := ⟨1, old, new, some new, true, some 9⟩ }

theorem witness_DeferralExpiryForcesSwitch :
    (∀ a b, hasExpired (deferred a b).posture.deferral 9 ∧ ¬hasExpired (deferred a b).posture.deferral 8) ∧
      (deferred .laptop .closed).link.gesture.length < 16 ∧
      16 ≤ { s0.link with gesture := List.replicate 16 ⟨.scrollEnd, false⟩ }.gesture.length ∧
      (∀ r, (deferred .laptop .closed).ports.frameOf r = false) ∧ padBusy.ports.frameOf .pad = true ∧
      (deferred .laptop .closed).posture.requested = .closed ∧ (deferred .stand .laptop).posture.actual ≠ .laptop ∧
      (deferred .laptop .stand).posture.requested ≠ .closed :=
  ⟨fun _ _ => ⟨⟨9, rfl, by decide⟩, (due_eq_false _ _).1 (show due (some 9) 8 = false by decide)⟩, by decide, by decide,
    fun r => by cases r <;> decide, by decide, rfl, by decide, by decide⟩

theorem witness_ExchangeBeginFillsCell :
    (s0.pins.selnLow = false ∧ s0.pins.resetnLow = false ∧ s0.link.selnSeenHigh = true ∧ s0.link.nothingInFlight) ∧
      (after (.hardReset 0) s0).pins.resetnLow = true ∧
      { s0.link with selnSeenHigh := false }.selnSeenHigh = false ∧
      (∃ r ∈ [closedRecord 0 false], r.isOpen = false) ∧ 1 < s0.link.ceiling := by
  refine ⟨⟨rfl, rfl, rfl, ?_⟩, rfl, rfl, by decide, by decide⟩
  unfold Link.nothingInFlight
  decide

theorem witness_TruncationReturnsRecords :
    (inExchange s0).pins.selnLow = true ∧ (inExchange s0).pins.resetnLow = false ∧
      (inExchange s0).link.exchange = some ⟨0, List.replicate 64 0, []⟩ ∧ (List.replicate 511 true).length < 512 :=
  ⟨rfl, rfl, rfl, by rw [List.length_replicate]; decide⟩

theorem witness_SelnReleaseEndsExchange :
    (let s := (inExchange s0).afterCell 0;
      s.pins.selnLow = true ∧ s.pins.resetnLow = false ∧ ∃ e, s.link.exchange = some e ∧ 64 ≤ e.count) ∧
      (let s := { s0 with pins := { s0.pins with selnLow := true } };
        s.link.exchange = none ∧ s.pins.selnLow = true ∧ s.pins.resetnLow = false) ∧
      (let s := after (.hardReset 0) (inExchange s0);
        s.link.exchange = none ∧ s.pins.selnLow = true ∧ s.pins.resetnLow = true) ∧ s0.pins.selnLow = false :=
  ⟨⟨rfl, rfl, _, rfl, by decide⟩, ⟨rfl, rfl, rfl⟩, ⟨rfl, rfl, rfl⟩, rfl⟩

/-- Each directive statement's first hypothesis, with the payload length that its kind requires. -/
theorem witness_directives :
    (inExchange s0).exchangeOpen ∧ (∀ n, (cell n [1, 0, 0, 1]).wellFormed = true) ∧ (cell 0 []).length = 0 ∧
      (cell 1 [1]).length = 1 ∧ (cell 2 [8, 1]).length = 2 ∧ (cell 3 [0, 0, 0]).length = 3 ∧
      (cell 4 [0, 0, 0, 1]).length = 4 ∧ (cell 0 []).length.toNat ≠ 1 :=
  ⟨⟨_, rfl⟩, fun _ => rfl, rfl, rfl, rfl, rfl, rfl, by decide⟩

theorem witness_ClearCausesKeepsLevelCauses :
    (operandSet (cell 2 [0xFF, 1])).toNat < 512 ∧ 512 ≤ (operandSet (cell 2 [0, 2])).toNat := by decide

theorem witness_SetMaskAndCeiling :
    (∃ n < 9, s0.causes.getLsbD n = true ∧ (operandSet (cell 2 [0xFE, 1])).getLsbD n = false) ∧
      (∀ n < 9, s0.causes.getLsbD n = true → (operandSet (cell 2 [1, 0])).getLsbD n = true) ∧
      (operandSet (cell 2 [0xFF, 1])).toNat < 512 ∧ 512 ≤ (operandSet (cell 2 [0, 2])).toNat ∧
      (1 ≤ operandByte (cell 1 [1]) 0 ∧ operandByte (cell 1 [5]) 0 ≤ 5) ∧ operandByte (cell 1 []) 0 = 0 ∧
      5 < operandByte (cell 1 [6]) 0 ∧ { s0.link with ceiling := 1 }.ceiling = 1 := by
  decide

/-- The default tables lie in their field ranges (R136). -/
theorem defaultTables_inRange : defaultTables.inRange := by
  refine ⟨by decide, ?_, ?_, ?_, ?_, ?_, ?_, ?_, ?_⟩
  · unfold Rule.inRange Condition.inRange; decide
  · unfold Zone.inRange; decide
  · unfold Knot.inRange; decide
  · unfold Knot.inRange; decide
  · unfold Knot.inRange; decide
  · unfold Boundary.inRange; decide
  · unfold paramInRange; decide
  · unfold calibrationInRange; decide

theorem witness_WriteTableWritesShadow :
    (inExchange s0).store.shadow.inRange ∧ (cell 5 [6, 27, 1, 4, 0]).payload.length = 62 ∧
      (let c := cell 5 [6, 27, 1, 4, 0];
        tableOfCode (operandByte c 0) = some .params ∧ 0 < operandByte c 2 ∧ operandByte c 2 ≤ tableMax .params ∧
          operandByte c 1 + operandByte c 2 ≤ tableSize .params ∧ c.length.toNat = 3 + operandByte c 2 * entrySize .params) ∧
      tableOfCode (operandByte (cell 5 [8]) 0) = none ∧ operandByte (cell 3 [6]) 2 = 0 ∧
      tableMax .params < operandByte (cell 33 [6, 0, 15]) 2 ∧
      (0x40#16).getLsbD (tableCode .params) = true ∧ s0.store.pendingCommit.getLsbD (tableCode .params) = false :=
  ⟨defaultTables_inRange, by decide, by decide, by decide, by decide, by decide, by decide, by decide⟩

theorem witness_ReadTableReturnsEntries :
    (1 < operandByte (cell 4 [2, 0, 0, 1]) 0 ∧ 7 < operandByte (cell 4 [0, 8, 0, 1]) 1) ∧
      (let c := cell 4 [1, 7, 3, 4];
        tableOfCode (operandByte c 1) = some .calibration ∧ operandByte c 0 ≤ 1 ∧ operandByte c 2 < tableSize .calibration) ∧
      tableSize .calibration ≤ operandByte (cell 4 [1, 7, 4, 4]) 2 ∧ s0.store.active.inRange :=
  ⟨by decide, by decide, by decide, defaultTables_inRange⟩

theorem witness_TableEntriesReadBack :
    defaultTables.inRange ∧ { defaultTables with calibration := [1, 131071, -16384, 16383] }.inRange := by
  refine ⟨defaultTables_inRange, ?_⟩
  obtain ⟨-, h1, h2, h3, h4, h5, h6, h7, -⟩ := defaultTables_inRange
  refine ⟨by decide, h1, h2, h3, h4, h5, h6, h7, ?_⟩
  unfold calibrationInRange
  decide

theorem witness_CommitTablesPendsOrSwaps :
    (let s := inExchange { s0 with store := { s0.store with shadow := { defaultTables with
        zones := [⟨true, .pointer, 1, 0, 0, 0⟩] } } };
      ∃ id, (operandSet (cell 2 [0xFF, 0])).getLsbD (tableCode id) = true ∧ validate s.store.shadow id ≠ none) ∧
      (∀ id, (operandSet (cell 2 [0xFF, 0])).getLsbD (tableCode id) = true → validate s0.store.shadow id = none) ∧
      (operandSet (cell 2 [0xFF, 0]) ≠ 0 ∧ (operandSet (cell 2 [0xFF, 0])).toNat < 256) ∧
      operandSet (cell 2 []) = 0 ∧ 256 ≤ (operandSet (cell 2 [0, 1])).toNat ∧
      (∃ j, (padBusy.port j).frame ≠ none) ∧ (∀ j, (s0.port j).frame = none) ∧ (∀ j, (s0.port j).waiting = none) ∧
      s0.link.restartWaiting = false :=
  ⟨⟨.zones, by decide, by decide⟩, fun id => by cases id <;> decide, by decide, by decide, by decide, ⟨0, by decide⟩,
    by decide, by decide, rfl⟩

theorem witness_DiscardShadowCancels :
    operandSet (cell 2 [1, 0]) ≠ 0 ∧ (operandSet (cell 2 [0xFF, 0])).toNat < 256 ∧ operandSet (cell 2 []) = 0 ∧
      256 ≤ (operandSet (cell 2 [0, 1])).toNat ∧ (∀ j, (s0.port j).waiting = none) ∧
      (1 : Half) &&& ~~~operandSet (cell 2 [1, 0]) = 0 ∧ (0x81 : Half) &&& ~~~operandSet (cell 2 [1, 0]) ≠ 0 ∧
      s0.link.restartWaiting = false ∧ { s0.link with restartWaiting := true }.restartWaiting = true := by
  decide

theorem witness_SetPortTable :
    (3 < operandByte (cell 3 [4, 0, 0]) 0 ∧ 4 < operandByte (cell 3 [0, 5, 0]) 1 ∧ 1 < operandByte (cell 3 [0, 0, 2]) 2) ∧
      (let c := cell 3 [3, 4, 1];
        operandByte c 0 = (3 : Fin 4).val ∧ operandByte c 1 = roleCode .unused ∧ operandByte c 2 = 1) ∧
      ((s0.port 0).enabled = true ∧ (s0.port 0).role ≠ .screen ∧ (s0.port 0).role = .pad) ∧
      operandByte (cell 3 [0, 0, 0]) 2 = 0 ∧
      (∀ i : Fin 4, (s0.port i).enabled = true ∧ (s0.port i).role ≠ .unused) ∧
      (State.reset.port 3).enabled = false ∧
      (∃ j, j ≠ 3 ∧ ((s0.port j).enabled = true ∧ (s0.port j).role = .pad)) ∧
      (∃ f, (padBusy.port 0).frame = some f ∧ f.role = .pad) ∧
      ∀ j, j ≠ 3 → (State.reset.port j).enabled = false ∧ (State.reset.port j).frame = none :=
  ⟨by decide, by decide, by decide, by decide, by decide, by decide, by decide, ⟨_, rfl, rfl⟩, by decide⟩

theorem witness_SetPostureRequests :
    (4 < operandByte (cell 1 [5]) 0 ∧ operandByte (cell 1 [254]) 0 ≠ 255) ∧ operandByte (cell 1 [255]) 0 = 255 ∧
      operandByte (cell 1 [4]) 0 = postureCode .tablet ∧ Posture.laptop = s0.posture.actual ∧
      (Posture.closed ≠ s0.posture.actual ∧ s0.isQuiet) ∧ postureOfBand s0.posture.band s0.aux.deck .laptop ∧
      ¬State.isQuiet { s0 with contacts := { s0.contacts with pad := [entry 1 0 ⟨0, 0⟩ .resting] } } := by
  unfold postureOfBand State.isQuiet
  decide

theorem witness_FlushSurfaceTearsDown :
    1 < operandByte (cell 1 [2]) 0 ∧ operandByte (cell 1 [0]) 0 = 0 ∧ operandByte (cell 1 [1]) 0 = 1 ∧
      s0.ports.frameOf .pad = false ∧ padBusy.ports.frameOf .pad = true ∧
      s0.ports.frameOf .screen = false ∧ (s0.setPort 1 (busyPort .screen)).ports.frameOf .screen = true := by
  decide

theorem witness_DirectiveDecoding :
    (inExchange s0).exchangeOpen ∧ (cell 0 []).wellFormed = true ∧ (0x05 : Byte) ∉ directiveKinds ∧
      (cell 1 []).length.toNat ≠ 0 ∧ 62 < (cell 63 []).length.toNat ∧
      (tableOfCode (operandByte (cell 5 [6, 0, 2]) 0) = some .params ∧
        (cell 5 [6, 0, 2]).length.toNat ≠ 3 + operandByte (cell 5 [6, 0, 2]) 2 * entrySize .params) ∧
      (cell 0 []).length = 0 ∧ (∀ r ∈ (some ⟨0x22, .done, true⟩ : Option Reply), r.inFlight = true) ∧
      s0.link.exchange = none ∧ ∃ e, ((inExchange s0).afterCell 0).link.exchange = some e ∧ 64 ≤ e.count :=
  ⟨⟨_, rfl⟩, by decide, by decide, by decide, by decide, by decide, by decide, by decide, rfl, _, rfl, by decide⟩

theorem witness_BytesAfterPayloadIgnored :
    let c := cell 1 [3]
    let d := cell 1 [3, 9]
    c.wellFormed = true ∧ d.wellFormed = true ∧ c.length = d.length ∧
      c.payload.take c.length.toNat = d.payload.take c.length.toNat ∧ c ≠ d ∧
      (∀ e, (inExchange s0).link.exchange = some e → (e.count = 0 ∧ e.received = []) ∨ 64 ≤ e.count) ∧
      ∀ e, ((inExchange s0).afterCell 0).link.exchange = some e → (e.count = 0 ∧ e.received = []) ∨ 64 ≤ e.count := by
  refine ⟨by decide, by decide, by decide, by decide, by decide, fun e h => ?_, fun e h => ?_⟩ <;> cases h <;> decide

theorem witness_ResiduePaysEveryStep :
    (255 : Nat) ≤ 255 ∧ -127 ≤ (37 * 472 + 100 : Int) / 256 ∧ (37 * 472 + 100 : Int) / 256 ≤ 127 ∧
      ((0 : Int) ≤ 127 ∧ 127 < (64 * 512 + 0 : Int) / 256 ∧ (-64 * 512 - 1 + 0 : Int) / 256 < -127) ∧
      ∀ k < [((40, 389) : Int × Int), (70, 536)].length, ∃ x, [((40, 389) : Int × Int), (70, 536)][k]? = some x ∧
        -2047 ≤ (x.1 * x.2 + (axisRun 2047 ([((40, 389) : Int × Int), (70, 536)].take k) 255).2) / 256 ∧
        (x.1 * x.2 + (axisRun 2047 ([((40, 389) : Int × Int), (70, 536)].take k) 255).2) / 256 ≤ 2047 := by
  refine ⟨by decide, by decide, by decide, by decide, fun k hk => ?_⟩
  match k, hk with
  | 0, _ => exact ⟨_, rfl, by decide, by decide⟩
  | 1, _ => exact ⟨_, rfl, by decide, by decide⟩

theorem witness_ConditionRelations :
    let e := { entry 1 0 ⟨16383, 10239⟩ .finger with zone := some 7, major := 255, minor := 255 }
    (65535 ≤ 65535 ∧ 16 ≤ feature .pad 16 calm e 6) ∧ (∀ z ∈ e.zone, z ≤ 7) ∧ e.major ≤ 255 ∧ e.minor ≤ 255 ∧
      e.pos.x ≤ 16383 ∧ e.pos.y ≤ 16383 ∧
      ∀ a ∈ ({ calm with shadow := some (⟨0, 0⟩, ⟨0, 1, 0, 1⟩) } : Snapshot).shadow, a.1.x ≤ 16383 ∧ a.1.y ≤ 16383 := by
  decide

theorem witness_BandIndexSettles : defaultTables.bands.length = 3 ∧ checkBands 0 defaultTables.bands = none ∧ 3 ≤ 3 := by
  decide

theorem witness_CurveStaysBetweenKnots :
    defaultTables.pressureCurve ≠ [] ∧ checkKnots 0 defaultTables.pressureCurve = none ∧
      (∀ k ∈ defaultTables.pressureCurve, 0 ≤ k.output ∧ k.output ≤ 4095) ∧
      defaultTables.pressureCurve[4]? = some ⟨3276, 3276⟩ ∧ defaultTables.pressureCurve[5]? = some ⟨4095, 4095⟩ := by
  decide

/-- A full pen queue: 5 samples in flight, then 27 of which every one is an edge, or none. -/
def fullPen (edge : Bool) : Link :=
  { initialLink true with
    pen := List.replicate 5 (penSample .hover false true) ++ List.replicate 27 (penSample .hover edge false) }

theorem witness_PenQueueOverflow :
    (fullPen true).pen.length = 32 ∧ headInFlight 5 ((fullPen true).pen.map (·.inFlight)) ∧
      headInFlight 5 ((fullPen false).pen.map (·.inFlight)) ∧ (initialLink true).pen.length < 32 := by
  unfold headInFlight
  decide +kernel

theorem witness_ScreenQueueOverflow :
    (let l : Link := { initialLink true with screen := [touch .down 1] ++ touch .move 1 :: [touch .down 2] };
      l.screen = [touch .down 1] ++ touch .move 1 :: [touch .down 2] ∧ (touch .move 1).kind = .move ∧
        (touch .move 1).inFlight = false ∧ ∀ y ∈ [touch .down 2], y.track ≠ (touch .move 1).track) ∧
      (let l : Link := { initialLink true with
          screen := [touch .down 1] ++ touch .move 1 :: List.replicate 38 (touch .down 2) };
        l.screen.length = 40 ∧ (touch .up 3).kind ≠ .move ∧
          ∀ y ∈ [touch .down 1], y.kind ≠ .move ∨ y.inFlight = true) ∧
      (let older := [{ touch .move 1 with inFlight := true }, touch .down 3];
        let newer := List.replicate 35 (touch .down 4);
        (older ++ touch .down 1 :: [touch .down 2] ++ touch .up 1 :: newer).length = 40 ∧
          (∀ y ∈ older ++ touch .down 1 :: [touch .down 2] ++ touch .up 1 :: newer, y.kind ≠ .move ∨ y.inFlight = true) ∧
          (∀ y ∈ [touch .down 2], y.track = 1 → y.kind ≠ .up ∧ y.kind ≠ .cancel) ∧
          ∀ y ∈ touch .down 1 :: [touch .down 2] ++ touch .up 1 :: newer, y.track = 3 → y.kind ≠ .up ∧ y.kind ≠ .cancel) := by
  decide

/-- A full pointer queue: 7 records in flight, then 5. -/
def fullPointer : Link :=
  { initialLink true with
    pointer := List.replicate 7 (closedRecord 100 true) ++ List.replicate 5 (closedRecord 100 false) }

theorem witness_PointerQueueMerges :
    fullPointer.pointer.length = 12 ∧ headInFlight 7 (fullPointer.pointer.map (·.inFlight)) ∧
      (∀ r ∈ fullPointer.pointer.dropLast, r.isOpen = false) ∧ (initialLink true).pointer.length < 12 ∧
      (∀ y ∈ fullPointer.pointer.getLast?, y.isOpen = false) ∧
      (let r : PointerRecord := ⟨.none, ⟨0, 0, 0, 0, 0⟩, false, true, false⟩;
        r.isOpen = true ∧ r.motion = ⟨0, 0, 0, 0, 0⟩ ∧ r.change = false ∧ ({ r with change := true }).change = true ∧
          ((initialLink true).openTail .none false).pointer = [] ++ [r]) := by
  unfold headInFlight
  decide

theorem witness_GestureQueueDrops :
    let l : Link := { initialLink true with gesture := List.replicate 15 ⟨.scrollEnd, false⟩ }
    l.gesture.length ≤ 16 ∧ l.gesture.length + [Gesture.pinchEnd].length ≤ 16 ∧
      16 < l.gesture.length + [Gesture.pinchEnd, .scrollEnd].length := by
  decide

/-- Every port LIVE, an entry on each surface, the engine in TOUCH, and a command waiting. -/
def running : State :=
  { s0 with
    contacts := ⟨[entry 1 0 ⟨9, 9⟩ .finger], [{ entry 255 15 ⟨16383, 10239⟩ .finger with reported := .opened }], 255⟩
    engine := engineIn .touch .none (some 1)
    pending := [.setMask 3 (cell 2 [1, 0])] }

theorem witness_StepKeepsContactTable : running.contacts.sound ∧ ∃ t, step running = .next t := by
  refine ⟨?_, _, rfl⟩
  unfold Contacts.sound surfaceSound
  decide

theorem witness_StepKeepsTablesValid : running.store.sound ∧ ∃ t, step running = .next t :=
  ⟨⟨by decide, by decide, by decide, defaultTables_inRange, defaultTables_inRange⟩, _, rfl⟩

theorem witness_StepKeepsQueues : running.linkSound ∧ ∃ t, step running = .next t := by
  refine ⟨?_, _, rfl⟩
  simp [State.linkSound, running, s0, State.reset, initialLink, Link.withinCapacity, headInFlight, Link.nothingInFlight]

theorem witness_StepKeepsGestureTable : running.engine.sound ∧ ∃ t, step running = .next t := by
  refine ⟨?_, _, rfl⟩
  simp [Engine.sound, buttonFits, mayPoint, running, engineIn, initialEngine]

theorem witness_StepKeepsPosture :
    (deferred .laptop .stand).posture.sound ∧ ∃ t, step (deferred .laptop .stand) = .next t := by
  refine ⟨?_, _, rfl⟩
  unfold PostureControl.sound
  decide

theorem witness_StepKeepsSurfacesFed : running.feedSound ∧ ∃ t, step running = .next t := by
  have hrx : ∀ i : Fin 4, (running.port i).rx = .hunting := by decide
  refine ⟨⟨⟨by decide, by decide, by decide, fun i _ => hrx i, fun i n bs h => ?_, fun h => absurd h (by decide)⟩, ?_⟩, _, rfl⟩
  · rw [hrx i] at h
    cases h
  unfold State.fed
  decide

theorem witness_StepKeepsValuesInRange :
    running.motionSound ∧ running.link.settingsSound ∧ running.link.cellSound ∧ ∃ t, step running = .next t := by
  refine ⟨?_, ?_, ?_, _, rfl⟩
  · simp [State.motionSound, within, running, s0, State.reset, initialMotion, initialLink]
  · unfold Link.settingsSound; decide
  · unfold Link.cellSound; decide

end Sys2Proof.Tests
end

section
/-! The relations of a rule condition (R45): what each relation says of a feature value, and the features behind the examples
of section 3.4. -/

namespace Sys2Proof.Machine

/-! ## The relations -/

section Relations

variable (feature operand : Nat) (f : Nat → Nat)

theorem Condition.holds_eq_iff : (⟨feature, .eq, operand⟩ : Condition).holds f = true ↔ f feature = operand :=
  beq_iff_eq

theorem Condition.holds_ne_iff : (⟨feature, .ne, operand⟩ : Condition).holds f = true ↔ f feature ≠ operand :=
  bne_iff_ne

theorem Condition.holds_lt_iff : (⟨feature, .lt, operand⟩ : Condition).holds f = true ↔ f feature < operand :=
  decide_eq_true_iff

theorem Condition.holds_ge_iff : (⟨feature, .ge, operand⟩ : Condition).holds f = true ↔ operand ≤ f feature :=
  decide_eq_true_iff

theorem Condition.holds_anyOf : (⟨feature, .anyOf, operand⟩ : Condition).holds f = operand.testBit (f feature) := rfl

theorem Condition.holds_anyOf_iff :
    (⟨feature, .anyOf, operand⟩ : Condition).holds f = true ↔ operand / 2 ^ f feature % 2 = 1 := by
  rw [Condition.holds_anyOf, Nat.testBit_eq_decide_div_mod_eq, decide_eq_true_iff]

/-- An operand has 16 bits, so a set names no value above 15. -/
theorem Condition.holds_anyOf_of_high (hop : operand ≤ 65535) (hv : 16 ≤ f feature) :
    (⟨feature, .anyOf, operand⟩ : Condition).holds f = false := by
  have hlt : operand < 2 ^ f feature := calc
    operand < 2 ^ 16 := by omega
    _ ≤ 2 ^ f feature := Nat.pow_le_pow_right (by decide) hv
  rw [Condition.holds_anyOf, Nat.testBit_lt_two_pow hlt]

/-- A set of one code. -/
theorem Condition.holds_anyOf_two_pow_iff (code : Nat) :
    (⟨feature, .anyOf, 2 ^ code⟩ : Condition).holds f = true ↔ f feature = code := by
  rw [Condition.holds_anyOf, Nat.testBit_two_pow, decide_eq_true_iff, eq_comm]

end Relations

/-! ## The features of the examples -/

theorem penStateCode_mem_inRange_iff (p : PenState) : (0x0006 : Nat).testBit (penStateCode p) = true ↔ p ≠ .out := by
  cases p <;> decide

theorem postureCode_mem_touch_iff (p : Posture) :
    (0x001C : Nat).testBit (postureCode p) = true ↔ p = .stand ∨ p = .tent ∨ p = .tablet := by
  cases p <;> decide

/-- Only the pad has zones, and 15 is no zone's index (R43). -/
theorem zoneOfEntry_eq_iff (sf : Surface) (e : Entry) {z : Nat} (hz : z ≠ 15) :
    zoneOfEntry sf e = z ↔ sf = .pad ∧ e.zone = some z := by
  cases sf with
  | pad => cases h : e.zone <;> simp [zoneOfEntry, h, hz.symm]
  | screen => simp [zoneOfEntry, hz.symm]

theorem zoneOfEntry_eq_fifteen_iff (sf : Surface) (e : Entry) (hz : ∀ z ∈ e.zone, z ≤ 7) :
    zoneOfEntry sf e = 15 ↔ sf = .screen ∨ e.zone = none := by
  cases sf with
  | pad =>
    cases h : e.zone with
    | none => simp [zoneOfEntry, h]
    | some z =>
      have hz7 : z ≤ 7 := hz z h
      have hne : z ≠ 15 := by omega
      simp [zoneOfEntry, h, hne]
  | screen => simp [zoneOfEntry]

/-- Both axes of a contact have one byte. -/
theorem areaOf_lt (e : Entry) (hmajor : e.major ≤ 255) (hminor : e.minor ≤ 255) : areaOf e < 65535 := calc
  e.major * e.minor ≤ 255 * 255 := Nat.mul_le_mul hmajor hminor
  _ < 65535 := by decide

theorem chebyshev_le {p q : Point} {n : Nat} (hpx : p.x ≤ n) (hpy : p.y ≤ n) (hqx : q.x ≤ n) (hqy : q.y ≤ n) :
    chebyshev p q ≤ n := by
  unfold chebyshev
  omega

/-- A distance on the screen stays below the value that stands for no distance (R42). -/
theorem penDistOf_eq_max_iff (sf : Surface) (sn : Snapshot) (e : Entry) (hx : e.pos.x ≤ 16383) (hy : e.pos.y ≤ 16383)
    (hanchor : ∀ a ∈ sn.shadow, a.1.x ≤ 16383 ∧ a.1.y ≤ 16383) :
    penDistOf sf sn e = 65535 ↔ sf = .pad ∨ sn.shadow = none := by
  cases sf with
  | pad => simp [penDistOf]
  | screen =>
    cases h : sn.shadow with
    | none => simp [penDistOf, h]
    | some a =>
      obtain ⟨hax, hay⟩ := hanchor a h
      have hdist : chebyshev e.pos a.1 ≤ 16383 := chebyshev_le hx hy hax hay
      have hne : chebyshev e.pos a.1 ≠ 65535 := by omega
      simp [penDistOf, h, hne]

/-! ## The statement -/

/-- Settles O46: each relation by its lemma, and each example by the relation and the feature it tests. -/
theorem conditionRelations : Obligations.ConditionRelations := by
  refine ⟨fun feature operand f => ⟨Condition.holds_eq_iff .., Condition.holds_ne_iff .., Condition.holds_lt_iff ..,
    Condition.holds_ge_iff .., Condition.holds_anyOf_iff .., Condition.holds_anyOf_of_high feature operand f⟩,
    fun sf count sn e => ⟨?penState, ?zoneOne, ?noZone, ?posture, ?area, ?penDist⟩⟩
  case penState => exact penStateCode_mem_inRange_iff sn.penState
  case zoneOne => exact (Condition.holds_anyOf_two_pow_iff 10 _ 1).trans (zoneOfEntry_eq_iff sf e (by decide))
  case noZone =>
    exact fun hz => (Condition.holds_anyOf_two_pow_iff 10 _ 15).trans (zoneOfEntry_eq_fifteen_iff sf e hz)
  case posture => exact postureCode_mem_touch_iff sn.posture
  case area =>
    intro hmajor hminor
    rw [← Bool.not_eq_true, Condition.holds_ge_iff, Nat.not_le]
    exact areaOf_lt e hmajor hminor
  case penDist =>
    exact fun hx hy hanchor => (Condition.holds_eq_iff 8 65535 _).trans (penDistOf_eq_max_iff sf sn e hx hy hanchor)

end Sys2Proof.Machine
end

section
/-! READ_TABLE returns entries of the bank it names (R139). -/

namespace Sys2Proof.Machine

theorem mem_allTables (id : TableId) : id ∈ allTables := by cases id <;> decide

/-! ## The directive, case by case -/

section ReadTable

variable {s : State} {bank table first count : Nat} {id : TableId}

/-- The answer of READ_TABLE; the state stays as it is. -/
theorem takeReadTable_entries {t : Tables} (hbank : bankOf s.store bank = some t) (htable : tableOfCode table = some id)
    (hfirst : first < tableSize id) :
    takeReadTable bank table first count s = (s, .entries bank table first
      (((tableBytes t id).drop first).take (min (min count (tableSize id - first)) (tableMax id)))) := by
  simp [takeReadTable, hbank, htable, hfirst]

theorem takeReadTable_refused_code (h : bankOf s.store bank = none ∨ tableOfCode table = none) :
    takeReadTable bank table first count s = (s, .refusedRange) := by
  unfold takeReadTable
  split
  next hbank htable => simp [hbank, htable] at h
  next => rfl

theorem takeReadTable_refused_first (htable : tableOfCode table = some id) (hfirst : tableSize id ≤ first) :
    takeReadTable bank table first count s = (s, .refusedRange) := by
  unfold takeReadTable
  rw [htable]
  split
  next hid =>
    obtain rfl := Option.some.inj hid
    exact if_neg (Nat.not_lt.mpr hfirst)
  next => rfl

theorem bankOf_of_le_one (st : Store) (h : bank ≤ 1) :
    bankOf st bank = some (if bank = 0 then st.active else st.shadow) := by
  obtain rfl | rfl : bank = 0 ∨ bank = 1 := by omega
  · rfl
  · rfl

theorem bankOf_of_one_lt (st : Store) (h : 1 < bank) : bankOf st bank = none := by
  obtain ⟨n, rfl⟩ : ∃ n, bank = n + 2 := ⟨bank - 2, by omega⟩
  rfl

theorem tableOfCode_of_seven_lt (h : 7 < table) : tableOfCode table = none := List.getElem?_eq_none h

/-- READ_TABLE as a command: its four payload bytes are bank, table, first index and count (R139, R166). -/
theorem exec_readTable (τ : Stamp) (c : DirectiveCell) (hopen : s.exchangeOpen) (hwf : c.wellFormed = true)
    (hlen : c.length = 4) :
    exec (.readTable τ c) s = .next ((s.afterCell τ).answer .readTable
      (takeReadTable (operandByte c 0) (operandByte c 1) (operandByte c 2) (operandByte c 3))) :=
  congrArg Host.Outcome.next (State.clockCell_taken s τ c .readTable hopen hwf (by rw [hlen]; rfl))

end ReadTable

/-! ## The statement -/

/-- Settles O35: the cell is taken as READ_TABLE of its four operands, and the cases are those of `takeReadTable`. -/
theorem readTableReturnsEntries : Obligations.ReadTableReturnsEntries := by
  intro τ c s hopen hwf hlen u first count
  have hexec := exec_readTable τ c hopen hwf hlen
  have hrefused (h : takeReadTable (operandByte c 0) (operandByte c 1) first count u = (u, .refusedRange)) :
      exec (.readTable τ c) s = .next (u.answered 0x11 .refusedRange) := by
    rw [hexec, State.answer, h]; rfl
  refine ⟨fun hcode => hrefused (takeReadTable_refused_code
    (hcode.imp (bankOf_of_one_lt _) tableOfCode_of_seven_lt)), fun id htable hbank =>
      ⟨fun hfirst => hrefused (takeReadTable_refused_first htable hfirst), fun hfirst => ?_⟩⟩
  have hread := takeReadTable_entries (s := u) (count := count) (bankOf_of_le_one s.store hbank) htable hfirst
  refine ⟨_, by rw [hexec, State.answer, hread]; rfl, fun hrange => ?length, fun k hk => ?entry⟩
  case length =>
    rw [List.length_take, List.length_drop, hrange.1 id (mem_allTables id)]
    omega
  case entry =>
    rw [List.length_take] at hk
    rw [List.getElem?_take_of_lt (by omega), List.getElem?_drop]

end Sys2Proof.Machine
end

section
/-! Every step keeps the Table Store sound (R135): banks copied table by table, entries written from any bytes, what each write
of the store keeps, and the directives and events that make these writes. -/

namespace Sys2Proof.Machine

/-! ## Banks in range and valid (R135, R138) -/

section Banks

variable {t u v : Tables} {id : TableId}

theorem sameTable_refl (t : Tables) (id : TableId) : sameTable t t id := by cases id <;> rfl

/-- The validation of a table reads that table alone (R141, R142). -/
theorem validate_congr (h : sameTable t u id) : validate t id = validate u id := by
  cases id
  case params => exact congrArg (fun ps => checkParams { t with params := ps }) h
  case calibration => rfl
  all_goals exact congrArg _ h

theorem tableBytes_congr (h : sameTable t u id) : tableBytes t id = tableBytes u id := by
  cases id <;> exact congrArg _ h

theorem Tables.inRange_of_sameTable (ht : t.inRange) (hu : u.inRange)
    (h : ∀ id, sameTable v t id ∨ sameTable v u id) : v.inRange := by
  obtain ⟨tlen, trules, tzones, tpointer, tscroll, tpressure, tbands, tparams, tcal⟩ := ht
  obtain ⟨ulen, urules, uzones, upointer, uscroll, upressure, ubands, uparams, ucal⟩ := hu
  refine ⟨fun id hid => ?_, ?_, ?_, ?_, ?_, ?_, ?_, ?_, ?_⟩
  · rcases h id with h | h
    · rw [tableBytes_congr h, tlen id hid]
    · rw [tableBytes_congr h, ulen id hid]
  · rcases h .rules with h | h <;> rw [show v.rules = _ from h] <;> assumption
  · rcases h .zones with h | h <;> rw [show v.zones = _ from h] <;> assumption
  · rcases h .pointerCurve with h | h <;> rw [show v.pointerCurve = _ from h] <;> assumption
  · rcases h .scrollCurve with h | h <;> rw [show v.scrollCurve = _ from h] <;> assumption
  · rcases h .pressureCurve with h | h <;> rw [show v.pressureCurve = _ from h] <;> assumption
  · rcases h .bands with h | h <;> rw [show v.bands = _ from h] <;> assumption
  · rcases h .params with h | h <;> rw [show v.params = _ from h] <;> assumption
  · rcases h .calibration with h | h <;> rw [show v.calibration = _ from h] <;> assumption

/-- Each table of a copied set comes from one bank or the other. -/
theorem sameTable_copySet (set : Half) (src dst : Tables) (id : TableId) :
    sameTable (copySet set src dst) src id ∨ sameTable (copySet set src dst) dst id := by
  cases hid : set.getLsbD (tableCode id)
  case true => exact .inl ((copySet_spec set src dst id).1 hid)
  case false => exact .inr ((copySet_spec set src dst id).2 hid)

theorem Tables.inRange_copySet (set : Half) (ht : t.inRange) (hu : u.inRange) : (copySet set t u).inRange :=
  Tables.inRange_of_sameTable ht hu (sameTable_copySet set t u)

end Banks

/-! ## Entries written from any bytes (R138)

Bytes that were not received count 0, so a payload of any length writes the entries that the payload followed by zeros
writes. -/

section Written

variable (t : Tables) (id : TableId) (b : List Byte)

theorem byteAt_append_zeros (n i : Nat) : byteAt (b ++ List.replicate n 0) i = byteAt b i := by
  unfold byteAt
  simp only [List.getD_eq_getElem?_getD, List.getElem?_append, List.getElem?_replicate]
  split
  next => rfl
  next h =>
    rw [List.getElem?_eq_none (Nat.not_lt.mp h)]
    split <;> rfl

theorem writeEntry_append_zeros (n i : Nat) : writeEntry t id i (b ++ List.replicate n 0) = writeEntry t id i b := by
  have hhalf (k : Nat) : halfAt (b ++ List.replicate n 0) k = halfAt b k := by
    simp only [halfAt, byteAt_append_zeros]
  cases id <;> simp only [writeEntry, ruleOf, conditionOf, zoneOf, knotOf, boundaryOf, paramOf, calibrationOf,
    signedWordAt, byteAt_append_zeros, hhalf]

theorem writeEntry_keeps (i : Nat) (ht : t.inRange) (hi : i < tableSize id) :
    (writeEntry t id i b).1.inRange ∧ ∀ id', id' ≠ id → sameTable (writeEntry t id i b).1 t id' := by
  rw [← writeEntry_append_zeros t id b (entrySize id) i]
  obtain ⟨hrange, hothers, -⟩ := writeEntry_spec t id i (b ++ List.replicate (entrySize id) 0) ht hi (by simp)
  exact ⟨hrange, hothers⟩

theorem writeEntries_keeps (n i off : Nat) (ht : t.inRange) (hi : i + n ≤ tableSize id) :
    (writeEntries id b n i off t).1.inRange ∧
      ∀ id', id' ≠ id → sameTable (writeEntries id b n i off t).1 t id' := by
  induction n generalizing i off t with
  | zero => exact ⟨ht, fun id' _ => sameTable_refl t id'⟩
  | succ n ih =>
    obtain ⟨hfirst, hfirstOthers⟩ := writeEntry_keeps t id (b.drop off) i ht (by omega)
    obtain ⟨hrest, hrestOthers⟩ := ih _ (i + 1) (off + entrySize id) hfirst (by omega)
    exact ⟨hrest, fun id' hne => sameTable_trans (hrestOthers id' hne) (hfirstOthers id' hne)⟩

end Written

/-! ## What the Table Store keeps (R135) -/

theorem validate_defaultTables (id : TableId) : validate defaultTables id = none := by cases id <;> decide

theorem initialStore_sound : initialStore.sound := by
  have hrange : defaultTables.inRange := by
    simp only [Tables.inRange, Rule.inRange, Condition.inRange, Zone.inRange, Knot.inRange, Boundary.inRange,
      paramInRange, calibrationInRange]
    decide
  exact ⟨fun id _ => validate_defaultTables id, fun id _ _ => validate_defaultTables id, by decide, hrange, hrange⟩

theorem setOutOfRange_eq_false_iff (set : Half) : setOutOfRange set = false ↔ set.toNat < 2 ^ 8 := by
  rw [← Bool.not_eq_true, setOutOfRange_iff, Nat.not_le]
  rfl

theorem setOutOfRange_or {a b : Half} (ha : setOutOfRange a = false) (hb : setOutOfRange b = false) :
    setOutOfRange (a ||| b) = false := by
  rw [setOutOfRange_eq_false_iff] at *
  rw [BitVec.toNat_or]
  exact Nat.or_lt_two_pow ha hb

theorem setOutOfRange_and_left {a : Half} (b : Half) (ha : setOutOfRange a = false) :
    setOutOfRange (a &&& b) = false := by
  rw [setOutOfRange_eq_false_iff] at *
  rw [BitVec.toNat_and]
  exact Nat.and_le_left.trans_lt ha

section Sound

variable {st : Store}

/-- Nothing pending: the shadow need only be in range. -/
theorem Store.sound_of_pendingCommit_zero {active shadow : Tables} (hactive : ∀ id, validate active id = none)
    (hrange : active.inRange) (hshadow : shadow.inRange) : (⟨active, shadow, 0⟩ : Store).sound :=
  ⟨fun id _ => hactive id, fun id _ hid => by simp [inSet] at hid,
    (setOutOfRange_eq_false_iff 0).2 (by decide), hrange, hshadow⟩

/-- A bank at its defaults but for CALIBRATION, as a hard reset leaves it (R134). -/
theorem defaultTables_with_calibration {t : Tables} (ht : t.inRange) :
    (∀ id, validate { defaultTables with calibration := t.calibration } id = none) ∧
      { defaultTables with calibration := t.calibration }.inRange := by
  obtain ⟨-, -, -, hdefault, -⟩ := initialStore_sound
  have hsame (id : TableId) (hid : id ≠ .calibration) :
      sameTable { defaultTables with calibration := t.calibration } defaultTables id := by
    cases id
    case calibration => exact absurd rfl hid
    all_goals exact rfl
  refine ⟨fun id => ?_, Tables.inRange_of_sameTable hdefault ht fun id => ?_⟩
  · by_cases hid : id = .calibration
    · rw [hid]; rfl
    · exact (validate_congr (hsame id hid)).trans (validate_defaultTables id)
  · by_cases hid : id = .calibration
    · rw [hid]; exact .inr rfl
    · exact .inl (hsame id hid)

theorem Store.sound_swapped (h : st.sound) :
    (⟨copySet st.pendingCommit st.shadow st.active, st.shadow, 0⟩ : Store).sound := by
  obtain ⟨hactive, hpending, -, hactiveRange, hshadowRange⟩ := h
  refine Store.sound_of_pendingCommit_zero (fun id => ?_) (Tables.inRange_copySet _ hshadowRange hactiveRange)
    hshadowRange
  obtain ⟨hin, hout⟩ := copySet_spec st.pendingCommit st.shadow st.active id
  cases hid : st.pendingCommit.getLsbD (tableCode id)
  case true => rw [validate_congr (hin hid), hpending id (mem_allTables id) hid]
  case false => rw [validate_congr (hout hid), hactive id (mem_allTables id)]

theorem Store.sound_shadow_copied (h : st.sound) : { st with shadow := st.active, pendingCommit := 0 }.sound := by
  obtain ⟨hactive, -, -, hrange, -⟩ := h
  exact Store.sound_of_pendingCommit_zero (fun id => hactive id (mem_allTables id)) hrange hrange

theorem Store.sound_committed {set : Half} (h : st.sound) (hset : setOutOfRange set = false)
    (hvalid : validateSet st.shadow set = none) : { st with pendingCommit := st.pendingCommit ||| set }.sound := by
  obtain ⟨hactive, hpending, hpendingSet, hranges⟩ := h
  refine ⟨hactive, fun id hmem hid => ?_, setOutOfRange_or hpendingSet hset, hranges⟩
  rw [inSet, BitVec.getLsbD_or, Bool.or_eq_true] at hid
  rcases hid with hid | hid
  · exact hpending id hmem hid
  · exact (validateSet_none _ _).1 hvalid id hid

/-- A discarded table is no longer pending, and every other table keeps its shadow (R145). -/
theorem Store.sound_discarded (set : Half) (h : st.sound) :
    { st with shadow := copySet set st.active st.shadow, pendingCommit := st.pendingCommit &&& ~~~set }.sound := by
  obtain ⟨hactive, hpending, hpendingSet, hactiveRange, hshadowRange⟩ := h
  refine ⟨hactive, fun id hmem hid => ?_, setOutOfRange_and_left _ hpendingSet, hactiveRange,
    Tables.inRange_copySet set hactiveRange hshadowRange⟩
  rcases sameTable_copySet set st.active st.shadow id with hcopied | hcopied
  · exact (validate_congr hcopied).trans (hactive id hmem)
  · rw [inSet, BitVec.getLsbD_and, Bool.and_eq_true] at hid
    exact (validate_congr hcopied).trans (hpending id hmem hid.1)

/-- The shadow of a table that is not pending may be written (R137). -/
theorem Store.sound_written {id : TableId} {shadow : Tables} (h : st.sound) (hid : inSet st.pendingCommit id = false)
    (hrange : shadow.inRange) (hothers : ∀ id', id' ≠ id → sameTable shadow st.shadow id') :
    { st with shadow := shadow }.sound := by
  obtain ⟨hactive, hpending, hpendingSet, hactiveRange, -⟩ := h
  refine ⟨hactive, fun id' hmem hid' => ?_, hpendingSet, hactiveRange, hrange⟩
  have hne : id' ≠ id := fun heq => absurd hid' (by simp [heq, hid])
  exact (validate_congr (hothers id' hne)).trans (hpending id' hmem hid')

end Sound

/-! ## The directives and events that write the Table Store -/

section Steps

variable {s : State}

theorem State.swap_sound (h : s.store.sound) : s.swap.store.sound := by
  rw [State.swap, State.beginAll_store, State.latch_store]
  exact Store.sound_swapped h

theorem State.restartEffect_sound (h : s.store.sound) : s.restartEffect.store.sound := Store.sound_shadow_copied h

theorem State.settle_sound (i : Fin 4) (h : s.store.sound) : (s.settle i).store.sound := by
  unfold State.settle
  split
  next =>
    split
    · exact h
    · exact State.restartEffect_sound h
  next =>
    split
    next =>
      split
      · exact h
      · exact State.swap_sound h
    next => rwa [State.beginWaiting_store]

theorem State.complete_sound (i : Fin 4) (h : s.store.sound) : (s.complete i).store.sound := by
  unfold State.complete
  split
  next => exact h
  next =>
    apply State.settle_sound
    dsimp only
    split <;> simpa using h

/-- A pending table is refused, so a write never touches a shadow that must stay valid (R137). -/
theorem takeWriteTable_sound (n : Nat) (b : List Byte) (h : s.store.sound) : (takeWriteTable n b s).1.store.sound := by
  unfold takeWriteTable
  dsimp only
  split
  next => exact h
  next tid _ =>
    split
    next => exact h
    next hfits =>
      push Not at hfits
      unfold writeShadow
      split
      next => exact h
      next hfree =>
        have ⟨_, _, _, _, hshadow⟩ := h
        obtain ⟨hrange, hothers⟩ := writeEntries_keeps s.store.shadow tid b (byteAt b 2) (byteAt b 1) 3 hshadow (by omega)
        exact Store.sound_written h (by simpa using hfree) hrange hothers

theorem takeReadTable_store (bank table first count : Nat) :
    (takeReadTable bank table first count s).1.store = s.store := by
  unfold takeReadTable
  (repeat' split) <;> rfl

theorem State.commit_sound {set : Half} (h : s.store.sound) (hset : setOutOfRange set = false)
    (hvalid : validateSet s.store.shadow set = none) : (s.commit set).store.sound := by
  have hcommitted := Store.sound_committed h hset hvalid
  unfold State.commit
  dsimp only
  split
  · exact hcommitted
  · exact State.swap_sound hcommitted

theorem takeCommit_sound (set : Half) (h : s.store.sound) : (takeCommit set s).1.store.sound := by
  unfold takeCommit
  split
  next => exact h
  next hset =>
    rw [not_or, Bool.not_eq_true] at hset
    split
    next => exact h
    next hvalid => exact State.commit_sound h hset.2 hvalid

theorem State.discard_sound (set : Half) (h : s.store.sound) : (s.discard set).store.sound := by
  have hdiscarded := Store.sound_discarded set h
  unfold State.discard
  dsimp only
  split
  · exact hdiscarded
  · rwa [State.beginAll_store]

theorem takeDiscard_sound (set : Half) (h : s.store.sound) : (takeDiscard set s).1.store.sound := by
  unfold takeDiscard
  split
  · exact h
  · exact State.discard_sound set h

theorem takeRestart_sound (h : s.store.sound) : (takeRestart s).1.store.sound := by
  unfold takeRestart
  dsimp only
  split
  · exact h
  · exact State.restartEffect_sound h

theorem setPortRow_store (i : Fin 4) (r : Role) (enable : Bool) : (setPortRow i r enable s).1.store = s.store := by
  unfold setPortRow
  dsimp only
  (repeat' split) <;> simp

theorem takeSetPort_store (port role enable : Nat) : (takeSetPort port role enable s).1.store = s.store := by
  unfold takeSetPort
  (repeat' split) <;> simp [setPortRow_store]

theorem takeSetPosture_store (code : Nat) : (takeSetPosture code s).1.store = s.store := by
  unfold takeSetPosture postureReply
  (repeat' split) <;> simp

theorem takeFlush_store (code : Nat) : (takeFlush code s).1.store = s.store := by
  unfold takeFlush
  split <;> simp

theorem takeClearCauses_store (set : Half) : (takeClearCauses set s).1.store = s.store := by
  unfold takeClearCauses
  split <;> rfl

theorem takeSetMask_store (set : Half) : (takeSetMask set s).1.store = s.store := by
  unfold takeSetMask
  split <;> rfl

theorem takeSetCeiling_store (n : Nat) : (takeSetCeiling n s).1.store = s.store := by
  unfold takeSetCeiling
  split <;> rfl

theorem State.takeDirective_sound (d : Directive) (n : Byte) (b : List Byte) (h : s.store.sound) :
    (s.takeDirective d n b).store.sound := by
  unfold State.takeDirective State.answer
  cases d
  case poll => exact h
  case readStatus => exact h
  case clearCauses => rwa [State.reply_store, takeClearCauses_store]
  case setMask => rwa [State.reply_store, takeSetMask_store]
  case setCeiling => rwa [State.reply_store, takeSetCeiling_store]
  case writeTable => exact takeWriteTable_sound _ _ h
  case readTable => rwa [State.reply_store, takeReadTable_store]
  case commitTables => exact takeCommit_sound _ h
  case discardShadow => exact takeDiscard_sound _ h
  case setPort => rwa [State.reply_store, takeSetPort_store]
  case setPosture => rwa [State.reply_store, takeSetPosture_store]
  case flushSurface => rwa [State.reply_store, takeFlush_store]
  case restart => exact takeRestart_sound h

theorem State.takeCell_sound (cell : List Byte) (h : s.store.sound) : (s.takeCell cell).store.sound := by
  unfold State.takeCell
  dsimp only
  split
  next => exact h
  next =>
    split
    · exact State.takeDirective_sound _ _ _ h
    · exact h

theorem State.clockByte_sound (b : Byte) (h : s.store.sound) : (s.clockByte b).store.sound := by
  unfold State.clockByte
  split
  next => exact h
  next =>
    dsimp only
    split
    next => exact h
    next =>
      split
      · exact State.takeCell_sound _ h
      · exact h

theorem State.clockBytes_sound (bs : List Byte) (h : s.store.sound) : (s.clockBytes bs).store.sound := by
  induction bs generalizing s with
  | nil => exact h
  | cons b bs ih => exact ih (State.clockByte_sound b h)

theorem State.clockBits_sound (bits : List Bool) (h : s.store.sound) : (s.clockBits bits).store.sound := by
  rw [State.clockBits, State.clockPart_store]
  exact State.clockBytes_sound _ h

theorem State.hardReset_sound (h : s.store.sound) : s.hardReset.store.sound := by
  obtain ⟨-, -, -, hactive, hshadow⟩ := h
  obtain ⟨hvalid, hrange⟩ := defaultTables_with_calibration hactive
  exact Store.sound_of_pendingCommit_zero hvalid hrange (defaultTables_with_calibration hshadow).2

theorem State.releaseReset_store : s.releaseReset.store = s.store := by
  unfold State.releaseReset
  split <;> rfl

end Steps

/-- The resets, a frame's completion and the taking of a directive cell write the store; no other command does. -/
theorem exec_keeps_store_sound (i : Instr) {s t : State} (h : s.store.sound) (hexec : exec i s = .next t) :
    t.store.sound := by
  cases i
  case powerOnReset => cases Host.Outcome.next.inj hexec; exact initialStore_sound
  case hardReset => cases Host.Outcome.next.inj hexec; exact State.hardReset_sound h
  case resetnRelease => cases Host.Outcome.next.inj hexec; rwa [State.releaseReset_store]
  case frameCompletion => cases Host.Outcome.next.inj hexec; exact State.complete_sound _ h
  case exchangeTruncated | selnRelease =>
    cases Host.Outcome.next.inj hexec
    rw [State.releaseSeln_store]
    exact State.clockBits_sound _ h
  case poll | readStatus | clearCauses | setMask | setCeiling | writeTable | readTable | commitTables | discardShadow
      | setPort | setPosture | flushSurface | restart | unknown =>
    cases Host.Outcome.next.inj hexec
    exact State.clockBytes_sound _ h
  case scanRecordArrival | framingError | interByteGap | deadlineExpiry | clicknEdge | clickDebounceExpiry
      | keystrokeQuietExpiry | tapGapExpiry | coastExpiry | shadowHoldExpiry | deferralExpiry | exchangeBegin =>
    cases Host.Outcome.next.inj hexec
    simpa using h

/-- Settles O54: an idle step changes nothing, and any other carries out a command. -/
theorem stepKeepsTablesValid : Obligations.StepKeepsTablesValid := by
  refine ⟨validate_defaultTables, fun s t h hstep => ?_⟩
  unfold step at hstep
  split at hstep
  next => cases hstep; exact h
  next rest _ => exact exec_keeps_store_sound (s := { s with pending := rest }) _ h hstep

end Sys2Proof.Machine
end

section
/-! CLEAR_CAUSES clears event causes and names the level causes that stay (R152). -/

namespace Sys2Proof.Machine

/-! ## The directive, case by case -/

section ClearCauses

variable {s : State} {set : Half}

/-- The taking of a cell touches neither the ports nor the posture, on which the level causes depend (R8, R129). -/
theorem State.levelCauses_afterCell (τ : Stamp) : (s.afterCell τ).levelCauses = s.levelCauses := rfl

theorem takeClearCauses_refused (h : 512 ≤ set.toNat) : takeClearCauses set s = (s, .refusedRange) :=
  if_pos ((causesOutOfRange_iff set).2 h)

/-- The answer of CLEAR_CAUSES: only the latched causes and the overrun flags change. -/
theorem takeClearCauses_cleared (h : set.toNat < 512) :
    takeClearCauses set s =
      ({ s with link := { s.link with
          latched := s.link.latched &&& ~~~set
          overrun := if set.getLsbD 3 = true then clearOverrun else s.link.overrun } },
        if s.levelCauses &&& set = 0 then .done else .stillActive (s.levelCauses &&& set)) := by
  rw [takeClearCauses, causesOutOfRange_eq_false h]
  rfl

/-- CLEAR_CAUSES as a command: its payload is the set (R152, R166). -/
theorem exec_clearCauses (τ : Stamp) (c : DirectiveCell) (hopen : s.exchangeOpen) (hwf : c.wellFormed = true)
    (hlen : c.length = 2) :
    exec (.clearCauses τ c) s =
      .next ((s.afterCell τ).answer .clearCauses (takeClearCauses (operandSet c))) := by
  rw [← setAt_eq_operandSet]
  exact congrArg Host.Outcome.next (State.clockCell_taken s τ c .clearCauses hopen hwf (by rw [hlen]; rfl))

end ClearCauses

/-! ## The statement -/

/-- Settles O32: the cell is taken as CLEAR_CAUSES of its set, and the two cases are those of `takeClearCauses`. -/
theorem clearCausesKeepsLevelCauses : Obligations.ClearCausesKeepsLevelCauses := by
  intro τ c s hopen hwf hlen u late waits left
  rw [exec_clearCauses τ c hopen hwf hlen, State.answer]
  refine ⟨fun hset => ?cleared, fun hset => ?refused⟩
  case cleared =>
    have hleft : s.levelCauses &&& operandSet c = left := by rw [State.levelCauses_eq]
    rw [takeClearCauses_cleared hset, State.levelCauses_afterCell, hleft]
    rfl
  case refused =>
    rw [takeClearCauses_refused hset]
    rfl

end Sys2Proof.Machine
end

section
/-! The overflow of the pen queue (R156): which sample a full queue gives up, and where GAP goes. -/

namespace Sys2Proof.Machine

/-! ## The sample that is given up -/

/-- The oldest sample not in flight without an edge mark, or, where every sample is in flight or an edge, the oldest not in
flight. -/
theorem penVictim_spec {q : List PenSample} (hfree : ∃ y ∈ q, y.inFlight = false) :
    ∃ i gone, penVictim q = some i ∧ q = q.take i ++ gone :: q.drop (i + 1) ∧ gone.inFlight = false ∧
      (gone.edge = false → ∀ y ∈ q.take i, y.inFlight = true ∨ y.edge = true) ∧
      (gone.edge = true →
        (∀ y ∈ q.take i, y.inFlight = true) ∧ ∀ y ∈ q, y.inFlight = true ∨ y.edge = true) := by
  unfold penVictim
  cases hplain : q.findIdx? (fun y => !y.inFlight && !y.edge) with
  | some i =>
    obtain ⟨gone, hsplit, hgone, hbefore⟩ := findIdx_split _ _ _ hplain
    simp only [Bool.and_eq_true, Bool.not_eq_true'] at hgone
    obtain ⟨hgoneFree, hgonePlain⟩ := hgone
    exact ⟨i, gone, rfl, hsplit, hgoneFree, fun _ y hy => by simpa [or_iff_not_imp_left] using hbefore y hy,
      fun hedge => absurd hedge (by simp [hgonePlain])⟩
  | none =>
    have hedges : ∀ y ∈ q, y.inFlight = true ∨ y.edge = true := by
      simpa [or_iff_not_imp_left] using List.findIdx?_eq_none_iff.1 hplain
    cases hany : q.findIdx? (fun y => !y.inFlight) with
    | some i =>
      obtain ⟨gone, hsplit, hgone, hbefore⟩ := findIdx_split _ _ _ hany
      refine ⟨i, gone, rfl, hsplit, by simpa using hgone, fun _ y hy => hedges y (List.mem_of_mem_take hy),
        fun _ => ⟨fun y hy => by simpa using hbefore y hy, hedges⟩⟩
    | none =>
      obtain ⟨y, hy, hyfree⟩ := hfree
      have hyflight : y.inFlight = true := by simpa using List.findIdx?_eq_none_iff.1 hany y hy
      exact absurd (hyfree.symm.trans hyflight) (by decide)

/-! ## The arriving sample -/

section AppendPen

variable {l : Link} {x : PenSample}

theorem Link.appendPen_of_room (h : l.pen.length < 32) : l.appendPen x = { l with pen := l.pen ++ [x] } := if_pos h

theorem Link.appendPen_of_full (h : l.pen.length = 32) :
    l.appendPen x = { l with
      pen := penMakeRoom l.pen x
      latched := l.latched ||| 8
      overrun := { l.overrun with pen := true } } :=
  if_neg (by rw [h]; decide)

/-- GAP goes to the sample after the hole, which is the arriving one when the newest sample is given up. -/
theorem penMakeRoom_of_victim {q : List PenSample} {i : Nat} (h : penVictim q = some i) :
    ∃ next rest, q.drop (i + 1) ++ [x] = next :: rest ∧
      penMakeRoom q x = q.take i ++ { next with gap := true } :: rest := by
  obtain ⟨next, rest, hnext⟩ := List.exists_cons_of_ne_nil (List.concat_ne_nil x (q.drop (i + 1)))
  exact ⟨next, rest, hnext, by simp only [penMakeRoom, h, hnext, markGap]⟩

end AppendPen

/-! ## The statement -/

/-- Settles O49: of 32 samples some are not in flight, so that a full queue always gives one up. -/
theorem penQueueOverflow : Obligations.PenQueueOverflow := by
  refine fun l x => ⟨Link.appendPen_of_room, fun hfull hhead => ?_⟩
  have hfree : ∃ y ∈ l.pen, y.inFlight = false := exists_not_inFlight _ _ hhead (by omega)
  obtain ⟨i, gone, hvictim, hsplit, hgone, hplain, hedge⟩ := penVictim_spec hfree
  obtain ⟨next, rest, hnext, hroom⟩ := penMakeRoom_of_victim (x := x) hvictim
  exact ⟨l.pen.take i, l.pen.drop (i + 1), gone, next, rest, hsplit, hnext, hgone, hplain, hedge,
    by rw [Link.appendPen_of_full hfull, hroom]⟩

end Sys2Proof.Machine
end

section
/-! A full gesture queue drops what arrives (R160). -/

namespace Sys2Proof.Machine

/-- What the loss of a gesture record leaves behind: the overrun flag and OVERRUN (R160). -/
def Link.gestureLost (l : Link) : Link :=
  { l with latched := l.latched ||| 8, overrun := { l.overrun with gesture := true } }

section AppendGesture

variable {l : Link}

/-- The flag and the cause do not count the losses. -/
theorem Link.gestureLost_gestureLost : l.gestureLost.gestureLost = l.gestureLost := by
  simp [Link.gestureLost, BitVec.or_assoc]

theorem Link.appendGesture_of_room {g : Gesture} (h : l.gesture.length < 16) :
    l.appendGesture g = { l with gesture := l.gesture ++ [⟨g, false⟩] } := if_pos h

theorem Link.appendGesture_of_full {g : Gesture} (h : l.gesture.length = 16) : l.appendGesture g = l.gestureLost :=
  if_neg (by rw [h]; decide)

/-! ## Records that arrive in turn -/

theorem Link.appendGestures_of_room {arriving : List Gesture} (h : l.gesture.length + arriving.length ≤ 16) :
    arriving.foldl Link.appendGesture l = { l with gesture := l.gesture ++ arriving.map (⟨·, false⟩) } := by
  induction arriving generalizing l with
  | nil => simp
  | cons g gs ih =>
    rw [List.length_cons] at h
    rw [List.foldl_cons, Link.appendGesture_of_room (by omega), ih (by simp; omega)]
    simp

theorem Link.appendGestures_of_full {arriving : List Gesture} (h : l.gesture.length = 16) (hne : arriving ≠ []) :
    arriving.foldl Link.appendGesture l = l.gestureLost := by
  induction arriving generalizing l with
  | nil => contradiction
  | cons g gs ih =>
    rw [List.foldl_cons, Link.appendGesture_of_full h]
    by_cases hgs : gs = []
    · rw [hgs]; rfl
    · rw [ih (l := l.gestureLost) h hgs, Link.gestureLost_gestureLost]

end AppendGesture

/-! ## The statement -/

/-- Settles O52: the records that find room fill the queue, and the others find it full. -/
theorem gestureQueueDrops : Obligations.GestureQueueDrops := by
  intro l arriving hcap kept
  refine ⟨fun hroom => ?room, fun hover => ?full⟩
  case room =>
    have hall : arriving.take (16 - l.gesture.length) = arriving := List.take_of_length_le (by omega)
    rw [Link.appendGestures_of_room hroom, ← hall]
  case full =>
    have hfilled : (arriving.take (16 - l.gesture.length)).foldl Link.appendGesture l =
        { l with gesture := l.gesture ++ kept } :=
      Link.appendGestures_of_room (by rw [List.length_take]; omega)
    have hleft : arriving.drop (16 - l.gesture.length) ≠ [] := by
      rw [ne_eq, List.drop_eq_nil_iff]
      omega
    calc arriving.foldl Link.appendGesture l
      _ = (arriving.drop (16 - l.gesture.length)).foldl Link.appendGesture { l with gesture := l.gesture ++ kept } := by
          rw [← hfilled, ← List.foldl_append, List.take_append_drop]
      _ = Link.gestureLost { l with gesture := l.gesture ++ kept } :=
          Link.appendGestures_of_full (by simp [kept]; omega) hleft

end Sys2Proof.Machine
end

section
/-! EXCHANGE_TRUNCATED returns every record and latches LINK_ERROR (R148). -/

namespace Sys2Proof.Machine

/-! ## The bits of a cell (R146) -/

/-- Eight bits are a byte, and what is left at the end is none. -/
theorem linkBytes_length : ∀ bits : List Bool, (linkBytes bits).length = bits.length / 8
  | _ :: _ :: _ :: _ :: _ :: _ :: _ :: _ :: rest => by
    simp only [linkBytes, List.length_cons, linkBytes_length rest]
    omega
  | [] | [_] | [_, _] | [_, _, _] | [_, _, _, _] | [_, _, _, _, _] | [_, _, _, _, _, _] | [_, _, _, _, _, _, _] => by
    simp [linkBytes]

/-- Bits from the front of equally long blocks: `n` whole blocks, then bits of the next. -/
theorem take_flatMap_range {α : Type} {f : Nat → List α} {m n r N : Nat} (hlen : ∀ k, (f k).length = m)
    (hn : n < N) (hr : r ≤ m) :
    ((List.range N).flatMap f).take (m * n + r) = (List.range n).flatMap f ++ (f n).take r := by
  obtain ⟨j, rfl⟩ : ∃ j, N = n + 1 + j := Nat.exists_eq_add_of_le hn
  have hblocks : ((List.range n).flatMap f).length = m * n := by simp [List.length_flatMap, hlen, Nat.mul_comm]
  rw [List.range_add, List.range_succ, List.flatMap_append, List.flatMap_append, List.append_assoc,
    List.flatMap_singleton, ← hblocks, List.take_length_add_append,
    List.take_append_of_le_length (hr.trans_eq (hlen n).symm)]

theorem cellBits_take {n r : Nat} (cell : List Byte) (hn : n < 64) (hr : r ≤ 8) :
    (cellBits cell).take (8 * n + r) =
      ((List.range n).flatMap fun k => linkBits (cell.getD k 0)) ++ (linkBits (cell.getD n 0)).take r := by
  simp only [linkBits_eq_overLink]
  exact take_flatMap_range (fun k => by simp [overLink]) hn hr

/-! ## The clocks before the 64th byte, and the release of SELn -/

section Truncation

variable {s : State}

theorem State.clockPart_of_exchange {e : Exchange} (n : Nat) (h : s.link.exchange = some e) :
    s.clockPart n = s.shiftOut ((linkBits e.out).take n) := by
  rw [State.clockPart, h]

/-- SDO carries the cell's bits one by one; only whole bytes are counted and stored. -/
theorem State.clockBits_short {cell : List Byte} {bits : List Bool} (h : s.link.exchange = some ⟨0, cell, []⟩)
    (hbits : bits.length < 512) :
    s.clockBits bits =
      { s with link := { s.link with
        exchange := some ⟨bits.length / 8, cell, linkBytes bits⟩
        sdo := s.link.sdo ++ (cellBits cell).take bits.length } } := by
  have hbytes : bits.length / 8 < 64 := by omega
  have hsdo := cellBits_take cell hbytes (Nat.mod_lt bits.length (by decide : 8 > 0)).le
  rw [Nat.div_add_mod] at hsdo
  rw [State.clockBits, State.clockBytes_short s _ _ h (by simpa [linkBytes_length] using hbytes),
    State.clockPart_of_exchange _ rfl, hsdo]
  simp [State.shiftOut, Exchange.out, linkBytes_length, hbytes]

theorem State.exchanging_of_exchange {e : Exchange} (h : s.link.exchange = some e) :
    s.exchanging = decide (e.count < 64) := by
  rw [State.exchanging, h]

/-- SELn rises on an exchange short of its 64th byte (R148). -/
theorem State.releaseSeln_of_exchanging (hseln : s.pins.selnLow = true) (hreset : s.pins.resetnLow = false)
    (h : s.exchanging = true) :
    s.releaseSeln =
      { s with
        pins := { s.pins with selnLow := false }
        link := { s.link.returned with
          latched := s.link.latched ||| 0x20
          exchange := none
          selnSeenHigh := true } } := by
  have hstill : State.exchanging { s with pins := { s.pins with selnLow := false } } = true := h
  rw [State.releaseSeln, if_pos hseln]
  dsimp only
  rw [if_neg (by rw [hreset]; decide), if_pos hstill]
  rfl

end Truncation

/-! ## The statement -/

/-- Settles O29: fewer than 512 bits leave the exchange short of its 64th byte, so that the release truncates it. -/
theorem truncationReturnsRecords : Obligations.TruncationReturnsRecords := by
  intro τ cell bits s hseln hreset hexchange hbits
  have hclocked := State.clockBits_short (s := s.atTime τ) hexchange hbits
  have hshort : ((s.atTime τ).clockBits bits).exchanging = true := by
    rw [State.exchanging_of_exchange (congrArg (·.link.exchange) hclocked), decide_eq_true_iff]
    exact Nat.div_lt_of_lt_mul hbits
  have hrelease := State.releaseSeln_of_exchanging (by simpa using hseln) (by simpa using hreset) hshort
  calc exec (.exchangeTruncated τ bits) s
    _ = .next ((s.atTime τ).clockBits bits).releaseSeln := rfl
    _ = _ := by rw [hrelease, hclocked]; rfl

end Sys2Proof.Machine
end

section
/-! One induction over what a step does. A predicate of the State that the shared operations of the blocks keep is kept by every
step; each invariant then says what it is about the operations it depends on. -/

namespace Sys2Proof.Machine

/-- The surfaces, the engine, Motion Transfer, the link and the two lines that govern it are the same in two states. -/
structure SameWork (s t : State) : Prop where
  contacts : t.contacts = s.contacts := by rfl
  engine : t.engine = s.engine := by rfl
  motion : t.motion = s.motion := by rfl
  link : t.link = s.link := by rfl
  selnLow : t.pins.selnLow = s.pins.selnLow := by rfl
  resetnLow : t.pins.resetnLow = s.pins.resetnLow := by rfl

/-- A predicate of the surfaces, the engine, Motion Transfer and the link that the shared operations of the blocks keep. -/
structure KeptByOperations (P : State → Prop) : Prop where
  congr : ∀ {s t : State}, P s → SameWork s t → P t
  latch : ∀ {s : State} {c : Cause}, c ≠ .streamLate → c ≠ .posturePending → P s → P (s.latch c)
  hold : ∀ {s : State} (b : Bool) (r : Role), P s → P (s.hold b r)
  tearPad : ∀ {s : State}, P s → P s.tearPad
  tearScreen : ∀ {s : State}, P s → P s.tearScreen
  pens : ∀ {s : State} {f : Pen → PenWork}, (∀ x ∈ (f s.pen).out, x.inFlight = false) → P s → P (s.pens f)
  padFrameWork : ∀ {s : State} {stamp : Stamp} {dt : Nat} {cs : List Contact},
    2000 ≤ dt → dt ≤ 32000 → P s → P (s.padFrameWork stamp dt cs)
  screenFrameWork : ∀ {s : State} {stamp : Stamp} {cs : List Contact}, P s → P (s.screenFrameWork stamp cs)
  appendGesture : ∀ {s : State} (g : Gesture), P s → P { s with link := s.link.appendGesture g }
  press : ∀ {s : State} (t : Tables) (now : Stamp), P s → P (s.pads (clickPress t now s.contacts.pad))
  release : ∀ {s : State}, P s → P (s.pads (clickRelease s.contacts.pad))
  tapGap : ∀ {s : State}, P s → P (s.pads tapGapExpired)
  coast : ∀ {s : State} (t : Tables), s.engine.coastTimer.isSome = true → P s → P (s.pads (coastExpired t))
  restartEffect : ∀ {s : State}, P s → P s.restartEffect
  masks : ∀ {s : State} {set : Half}, set.toNat < 512 → P s → P { s with link := { s.link with masks := set } }
  ceiling : ∀ {s : State} {n : Nat}, 1 ≤ n → n ≤ 5 → P s → P { s with link := { s.link with ceiling := n } }
  clearCauses : ∀ {s : State} (set : Half), P s → P (takeClearCauses set s).1
  restartWaiting : ∀ {s : State}, P s → P { s with link := { s.link with restartWaiting := true } }
  reply : ∀ {s : State} {k : Byte} {b : ReplyBody}, (replyBytes ⟨k, b, false⟩).length ≤ 60 → P s → P (s.reply k b)
  shiftOut : ∀ {s : State} (bits : List Bool), P s → P (s.shiftOut bits)
  countByte : ∀ {s : State} {e : Exchange} (b : Byte), s.link.exchange = some e → e.count < 63 → P s →
    P (s.setExchange { e with count := e.count + 1, received := e.received ++ [b] })
  completeExchange : ∀ {s : State} {e : Exchange}, s.link.exchange = some e → e.count = 63 → P s → P s.completeExchange
  assertSeln : ∀ {s : State}, P s → P s.assertSeln
  releaseSeln : ∀ {s : State}, P s → P s.releaseSeln
  powerOn : ∀ {s : State}, P s → P s.powerOn
  hardReset : ∀ {s : State}, P s → P s.hardReset
  releaseReset : ∀ {s : State}, P s → P s.releaseReset

namespace KeptByOperations

variable {P : State → Prop} {s : State}

/-! ## Teardowns, the switch and posture requests -/

theorem setPort (hP : KeptByOperations P) (i : Fin 4) (p : Port) (h : P s) : P (s.setPort i p) :=
  hP.congr h {}

theorem tearPen (hP : KeptByOperations P) (k : PenTeardown) (h : P s) : P (s.tearPen k) := by
  cases k with
  | port => exact hP.pens (by unfold penTeardownPort; split <;> simp [PenWork.sample]) h
  | closed => exact hP.pens (by unfold penTeardownClosed; split <;> simp [PenWork.sample]) h

theorem requestPad (hP : KeptByOperations P) (h : P s) : P s.requestPad := by
  unfold State.requestPad
  split
  · exact hP.congr h {}
  · exact hP.tearPad h

theorem requestScreen (hP : KeptByOperations P) (h : P s) : P s.requestScreen := by
  unfold State.requestScreen
  split
  · exact hP.congr h {}
  · exact hP.tearScreen h

theorem requestPen (hP : KeptByOperations P) (k : PenTeardown) (h : P s) : P (s.requestPen k) := by
  unfold State.requestPen
  split
  · exact hP.congr h {}
  · exact hP.tearPen k h

theorem requestRole (hP : KeptByOperations P) (r : Role) (h : P s) : P (s.requestRole r) := by
  cases r with
  | pad => exact hP.requestPad h
  | screen => exact hP.requestScreen h
  | pen => exact hP.requestPen .port h
  | aux => exact h
  | unused => exact h

theorem takeWaits (hP : KeptByOperations P) (r : Role) (h : P s) : P (s.takeWaits r) := by
  cases r with
  | pad =>
    rw [State.takeWaits]
    split
    · exact hP.tearPad (hP.congr h {})
    · exact h
  | screen =>
    rw [State.takeWaits]
    split
    · exact hP.tearScreen (hP.congr h {})
    · exact h
  | pen =>
    exact List.foldlRecOn (motive := P) s.waits.pen State.tearPen (hP.congr h {})
      fun u hu k _ => hP.tearPen k hu
  | aux => exact h
  | unused => exact h

theorem leaveUse (hP : KeptByOperations P) (old new : Posture) (h : P s) : P (s.leaveUse old new) := by
  have hpad : P (if padLive old && !padLive new then s.requestPad else s) := by
    split
    · exact hP.requestPad h
    · exact h
  unfold State.leaveUse
  dsimp only
  split
  · exact hP.requestPen .closed (hP.requestScreen hpad)
  · exact hpad

theorem switch (hP : KeptByOperations P) (forced : Bool) (h : P s) : P (s.switch forced) := by
  unfold State.switch
  dsimp only
  refine hP.latch (c := .postureChanged) (by decide) (by decide) (hP.appendGesture _ ?_)
  have hleft := hP.leaveUse (s := { s with posture := s.posture.switched }) s.posture.actual s.posture.switched.actual
    (hP.congr h {})
  split
  · exact hP.congr hleft {}
  · exact hleft

theorem judgeQuiet (hP : KeptByOperations P) (h : P s) : P s.judgeQuiet := by
  unfold State.judgeQuiet
  split
  · exact hP.switch false h
  · exact h

theorem askTeardown (hP : KeptByOperations P) (r : Role) (h : P s) : P (s.askTeardown r) := by
  unfold State.askTeardown
  split
  · exact hP.judgeQuiet (hP.requestRole r h)
  · exact hP.requestRole r h

theorem request (hP : KeptByOperations P) (r : Posture) (h : P s) : P (s.request r) := by
  unfold State.request
  split
  · exact hP.congr h {}
  · exact hP.switch false (hP.congr h {})

/-! ## Frames -/

theorem noteKeys (hP : KeptByOperations P) (stamp : Stamp) (keys : Nat) (h : P s) : P (s.noteKeys stamp keys) :=
  hP.congr h ⟨by simp, by simp, by simp, by simp, by simp, by simp⟩

theorem auxFrameWork (hP : KeptByOperations P) (stamp : Stamp) (r : AuxRecord) (h : P s) :
    P (s.auxFrameWork stamp r) := by
  have hnoted := hP.noteKeys (s := { s with aux := { s.aux with hinge := some r.hinge, deck := some r.deck } })
    stamp r.keys (hP.congr h {})
  unfold State.auxFrameWork
  dsimp only
  split
  · exact hP.request _ (hP.congr hnoted {})
  · exact hP.congr hnoted {}

/-- No sample of a pen frame is in flight (R62). -/
theorem penFrame_out_not_inFlight (t : Tables) (now : Stamp) (loss : Bool) (p : Pen) (r : PenRecord) :
    ∀ x ∈ (penFrame t now loss p r).out, x.inFlight = false := by
  unfold penFrame
  dsimp only
  split
  · split
    · simp [penEntry, PenWork.sample]
    · simp
  · split
    · split
      · simp [penTip, PenWork.sample]
      · simp [penEndChange, PenWork.sample]
    · simp [penLeave, PenWork.sample]

theorem frameWork (hP : KeptByOperations P) (role : Role) (loss : Bool) (stamp : Stamp) {dt : Nat} (r : ScanRecord)
    (hlow : 2000 ≤ dt) (hhigh : dt ≤ 32000) (h : P s) : P (s.frameWork role loss stamp dt r) := by
  unfold State.frameWork
  split
  · exact hP.padFrameWork hlow hhigh h
  · exact hP.screenFrameWork h
  · exact hP.pens (f := fun p => penFrame _ _ _ p _) (penFrame_out_not_inFlight _ _ _ _ _) h
  · exact hP.auxFrameWork stamp _ h
  · exact h

theorem frameInterval_bounds (last : Option Stamp) (stamp : Stamp) :
    2000 ≤ frameInterval last stamp ∧ frameInterval last stamp ≤ 32000 := by
  cases last with
  | none => simp [frameInterval]
  | some l => simp [frameInterval]

theorem beginFrame (hP : KeptByOperations P) (i : Fin 4) (r : Stamped) (h : P s) : P (s.beginFrame i r) := by
  obtain ⟨hlow, hhigh⟩ := frameInterval_bounds (s.port i).lastStamp r.stamp
  exact hP.frameWork _ _ _ _ hlow hhigh (hP.setPort i _ h)

theorem revive (hP : KeptByOperations P) (i : Fin 4) (h : P s) : P (s.revive i) := by
  unfold State.revive
  dsimp only
  split
  · exact hP.hold _ _ (hP.setPort i _ h)
  · exact hP.setPort i _ h

theorem accept (hP : KeptByOperations P) (i : Fin 4) (r : ScanRecord) (h : P s) : P (s.accept i r) := by
  have hrevived := hP.revive i h
  unfold State.accept
  dsimp only
  split
  · exact hrevived
  · split
    · exact hP.beginFrame i _ hrevived
    · exact hP.setPort i _ hrevived

theorem arrival (hP : KeptByOperations P) (i : Fin 4) (body : List Byte) (h : P s) : P (s.arrival i body) := by
  unfold State.arrival
  split
  · exact hP.latch (by decide) (by decide) h
  · exact hP.accept i _ h

theorem receiveByte (hP : KeptByOperations P) (i : Fin 4) (b : Byte) (h : P s) : P (s.receiveByte i b) := by
  unfold State.receiveByte
  split
  · split
    · exact hP.setPort i _ h
    · exact h
  · split
    · exact hP.arrival i _ (hP.setPort i _ h)
    · exact hP.setPort i _ h
  · split
    · exact hP.arrival i _ (hP.setPort i _ h)
    · exact hP.setPort i _ h

theorem breakRecord (hP : KeptByOperations P) (i : Fin 4) (h : P s) : P (s.breakRecord i) := by
  unfold State.breakRecord
  split
  · exact h
  · exact hP.latch (by decide) (by decide) (hP.setPort i _ h)
  · exact hP.latch (by decide) (by decide) (hP.setPort i _ h)

theorem receive (hP : KeptByOperations P) (i : Fin 4) (ch : Character) (h : P s) : P (s.receive i ch) := by
  unfold State.receive
  split
  · split
    · exact hP.receiveByte i _ h
    · exact hP.breakRecord i h
  · exact h

theorem receiveLine (hP : KeptByOperations P) (i : Fin 4) (line : List Character) (h : P s) : P (s.receiveLine i line) :=
  List.foldlRecOn (motive := P) line _ h fun _ hu ch _ => hP.receive i ch hu

theorem gap (hP : KeptByOperations P) (i : Fin 4) (h : P s) : P (s.gap i) := by
  unfold State.gap
  split
  · exact hP.breakRecord i h
  · exact h

theorem beginWaiting (hP : KeptByOperations P) (i : Fin 4) (h : P s) : P (s.beginWaiting i) := by
  have hrevived : P (s.reviveIfStalled i) := by
    unfold State.reviveIfStalled
    split
    · exact hP.revive i h
    · exact h
  unfold State.beginWaiting
  dsimp only
  split
  · exact h
  · split
    · exact h
    · split
      · exact hP.setPort i _ h
      · exact hP.beginFrame i _ hrevived

theorem beginAll (hP : KeptByOperations P) (h : P s) : P s.beginAll := by
  unfold State.beginAll
  split
  · exact h
  · exact hP.beginWaiting _ h
  · exact List.foldlRecOn (motive := P) _ _ (hP.congr h {}) fun _ hu i _ => hP.beginWaiting i hu

theorem swap (hP : KeptByOperations P) (h : P s) : P s.swap :=
  hP.beginAll (hP.latch (by decide) (by decide) (hP.congr h {}))

theorem settle (hP : KeptByOperations P) (i : Fin 4) (h : P s) : P (s.settle i) := by
  unfold State.settle
  split
  · split
    · exact h
    · exact hP.restartEffect h
  · split
    · split
      · exact h
      · exact hP.swap h
    · exact hP.beginWaiting i h

theorem takeWaiting (hP : KeptByOperations P) (i : Fin 4) (role : Role) (h : P s) : P (s.takeWaiting i role) := by
  have htaken := hP.takeWaits role h
  unfold State.takeWaiting
  dsimp only
  split
  · exact hP.hold _ _ htaken
  · exact htaken

theorem complete (hP : KeptByOperations P) (i : Fin 4) (h : P s) : P (s.complete i) := by
  unfold State.complete
  split
  · exact h
  · dsimp only
    have htaken := fun f : Frame => hP.takeWaiting i f.role (hP.setPort i { s.port i with frame := none } h)
    refine hP.settle i ?_
    split
    · exact hP.judgeQuiet (htaken _)
    · exact htaken _

theorem deadline (hP : KeptByOperations P) (i : Fin 4) (h : P s) : P (s.deadline i) := by
  have hlate : P (s.goLate i) := by
    unfold State.goLate
    dsimp only
    split
    · exact hP.setPort i _ h
    · exact hP.hold _ _ (hP.setPort i _ h)
  have hdown : P (s.goDown i) :=
    hP.askTeardown _ (hP.latch (c := .streamDown) (by decide) (by decide) (hP.setPort i _ h))
  unfold State.deadline
  dsimp only
  split
  · split
    · exact hlate
    · exact hdown
    · exact h
    · exact h
    · exact h
  · exact h

/-! ## The directives -/

theorem takeCommit (hP : KeptByOperations P) (set : Half) (h : P s) : P (takeCommit set s).1 := by
  have hset : P { s with store := { s.store with pendingCommit := s.store.pendingCommit ||| set } } :=
    hP.congr h {}
  unfold Machine.takeCommit
  split
  · exact h
  · split
    · exact h
    · unfold State.commit
      dsimp only
      split
      · exact hset
      · exact hP.swap hset

theorem takeDiscard (hP : KeptByOperations P) (set : Half) (h : P s) : P (takeDiscard set s).1 := by
  have hset : P { s with store := { s.store with
      shadow := copySet set s.store.active s.store.shadow, pendingCommit := s.store.pendingCommit &&& ~~~set } } :=
    hP.congr h {}
  unfold Machine.takeDiscard
  split
  · exact h
  · unfold State.discard
    dsimp only
    split
    · exact hset
    · exact hP.beginAll hset

theorem takeWriteTable (hP : KeptByOperations P) (n : Nat) (b : List Byte) (h : P s) : P (takeWriteTable n b s).1 := by
  unfold Machine.takeWriteTable
  dsimp only
  split
  · exact h
  · split
    · exact h
    · unfold writeShadow
      split
      · exact h
      · exact hP.congr h {}

theorem takeSetPort (hP : KeptByOperations P) (port role enable : Nat) (h : P s) :
    P (takeSetPort port role enable s).1 := by
  have hrow (i : Fin 4) (r : Role) (on : Bool) : P (setPortRow i r on s).1 := by
    unfold setPortRow
    dsimp only
    split
    · split
      · exact h
      · split
        · exact h
        · exact hP.askTeardown _ (hP.setPort i _ h)
    · split
      · split
        · exact h
        · exact hP.setPort i _ h
      · exact hP.setPort i _ h
  unfold Machine.takeSetPort
  split
  · split
    · exact hrow _ _ _
    · split
      · exact hrow _ _ _
      · exact h
  · exact h

theorem takeSetPosture (hP : KeptByOperations P) (code : Nat) (h : P s) : P (takeSetPosture code s).1 := by
  unfold Machine.takeSetPosture postureReply
  dsimp only
  split
  · exact hP.request _ (hP.congr h {})
  · split
    · exact h
    · exact hP.request _ (hP.congr h {})

theorem takeFlush (hP : KeptByOperations P) (code : Nat) (h : P s) : P (takeFlush code s).1 := by
  unfold Machine.takeFlush
  split
  · exact h
  · exact hP.askTeardown .pad h
  · exact hP.askTeardown .screen h

theorem takeRestart (hP : KeptByOperations P) (h : P s) : P (takeRestart s).1 := by
  unfold Machine.takeRestart
  dsimp only
  split
  · exact hP.restartWaiting h
  · exact hP.restartEffect (hP.restartWaiting h)

theorem takeSetMask (hP : KeptByOperations P) (set : Half) (h : P s) : P (takeSetMask set s).1 := by
  unfold Machine.takeSetMask
  split
  · exact h
  next hset => exact hP.masks (Nat.not_le.1 fun hge => hset ((causesOutOfRange_iff set).2 hge)) h

theorem takeSetCeiling (hP : KeptByOperations P) (n : Nat) (h : P s) : P (takeSetCeiling n s).1 := by
  unfold Machine.takeSetCeiling
  split
  next hn => exact hP.ceiling hn.1 hn.2 h
  · exact h

end KeptByOperations

/-! ## The size of a reply (section 10.3) -/

/-- The outcome data of a reply leaves room for its four first bytes in the 60 of a cell (R150). -/
def ReplyBody.fits (b : ReplyBody) : Prop := (outcomeData b).length ≤ 56

theorem replyBytes_length_le {b : ReplyBody} (k : Byte) (h : b.fits) : (replyBytes ⟨k, b, false⟩).length ≤ 60 := by
  unfold ReplyBody.fits at h
  simp only [replyBytes, List.length_append, List.length_cons, List.length_nil]
  omega

section Replies

variable (s : State)

theorem entry_length {t : Tables} {id : TableId} {b : List Byte} (h : b ∈ tableBytes t id) : b.length = entrySize id := by
  cases id
  all_goals
    obtain ⟨x, -, rfl⟩ := List.mem_map.1 h
    rfl

theorem tableMax_mul_entrySize_le (id : TableId) : tableMax id * entrySize id ≤ 52 := by cases id <;> decide

theorem takeReadTable_fits (bank table first count : Nat) : (takeReadTable bank table first count s).2.fits := by
  unfold takeReadTable
  split
  next t id _ _ =>
    split
    next =>
      set es := ((tableBytes t id).drop first).take (min (min count (tableSize id - first)) (tableMax id))
      have hcount : es.length ≤ tableMax id := (List.length_take_le _ _).trans (Nat.min_le_right _ _)
      have hsize : es.flatten.length = es.length * entrySize id := by
        rw [List.length_flatten, List.map_congr_left (g := fun _ => entrySize id)
          fun b hb => entry_length (List.mem_of_mem_drop (List.mem_of_mem_take hb)), List.map_const',
          List.sum_replicate, smul_eq_mul]
      have hbytes : es.length * entrySize id ≤ 52 :=
        (Nat.mul_le_mul_right _ hcount).trans (tableMax_mul_entrySize_le id)
      simp only [ReplyBody.fits, outcomeData, List.length_append, List.length_cons, List.length_nil, hsize]
      omega
    next => simp [ReplyBody.fits, outcomeData]
  next => simp [ReplyBody.fits, outcomeData]

theorem takeClearCauses_fits (set : Half) : (takeClearCauses set s).2.fits := by
  unfold takeClearCauses
  dsimp only
  (repeat' split) <;> simp [ReplyBody.fits, outcomeData, halfBytes]

theorem takeSetMask_fits (set : Half) : (takeSetMask set s).2.fits := by
  unfold takeSetMask
  split <;> simp [ReplyBody.fits, outcomeData]

theorem takeSetCeiling_fits (n : Nat) : (takeSetCeiling n s).2.fits := by
  unfold takeSetCeiling
  split <;> simp [ReplyBody.fits, outcomeData]

theorem takeWriteTable_fits (n : Nat) (b : List Byte) : (takeWriteTable n b s).2.fits := by
  unfold takeWriteTable writeShadow
  dsimp only
  (repeat' split) <;> simp [ReplyBody.fits, outcomeData]

theorem takeCommit_fits (set : Half) : (takeCommit set s).2.fits := by
  unfold takeCommit
  (repeat' split) <;> simp [ReplyBody.fits, outcomeData]

theorem takeDiscard_fits (set : Half) : (takeDiscard set s).2.fits := by
  unfold takeDiscard
  split <;> simp [ReplyBody.fits, outcomeData]

theorem takeSetPort_fits (port role enable : Nat) : (takeSetPort port role enable s).2.fits := by
  unfold takeSetPort setPortRow
  dsimp only
  (repeat' split) <;> simp [ReplyBody.fits, outcomeData]

theorem takeSetPosture_fits (code : Nat) : (takeSetPosture code s).2.fits := by
  unfold takeSetPosture postureReply
  dsimp only
  (repeat' split) <;> simp [ReplyBody.fits, outcomeData]

theorem takeFlush_fits (code : Nat) : (takeFlush code s).2.fits := by
  unfold takeFlush
  split <;> simp [ReplyBody.fits, outcomeData]

theorem takeReadStatus_fits : (takeReadStatus s).2.fits := by
  simp [takeReadStatus, ReplyBody.fits, outcomeData, statusBytes, State.statusReport, Ports.toList, halfBytes]

end Replies

/-! ## The exchange and the step -/

namespace KeptByOperations

variable {P : State → Prop} {s : State}

theorem answer (hP : KeptByOperations P) (d : Directive) {act : State → State × ReplyBody} (hbody : (act s).2.fits)
    (h : P (act s).1) : P (s.answer d act) :=
  hP.reply (replyBytes_length_le _ hbody) h

theorem takeDirective (hP : KeptByOperations P) (d : Directive) (n : Byte) (b : List Byte) (h : P s) :
    P (s.takeDirective d n b) := by
  cases d with
  | poll => exact h
  | readStatus => exact hP.answer _ (takeReadStatus_fits s) h
  | clearCauses => exact hP.answer _ (takeClearCauses_fits s _) (hP.clearCauses _ h)
  | setMask => exact hP.answer _ (takeSetMask_fits s _) (hP.takeSetMask _ h)
  | setCeiling => exact hP.answer _ (takeSetCeiling_fits s _) (hP.takeSetCeiling _ h)
  | writeTable => exact hP.answer _ (takeWriteTable_fits s _ _) (hP.takeWriteTable _ _ h)
  | readTable =>
    refine hP.answer _ (takeReadTable_fits s _ _ _ _) (hP.congr h ?_)
    unfold takeReadTable
    (repeat' split) <;> exact {}
  | commitTables => exact hP.answer _ (takeCommit_fits s _) (hP.takeCommit _ h)
  | discardShadow => exact hP.answer _ (takeDiscard_fits s _) (hP.takeDiscard _ h)
  | setPort => exact hP.answer _ (takeSetPort_fits s _ _ _) (hP.takeSetPort _ _ _ h)
  | setPosture => exact hP.answer _ (takeSetPosture_fits s _) (hP.takeSetPosture _ h)
  | flushSurface => exact hP.answer _ (takeFlush_fits s _) (hP.takeFlush _ h)
  | restart => exact hP.answer _ (by simp [Machine.takeRestart, ReplyBody.fits, outcomeData]) (hP.takeRestart h)

theorem takeCell (hP : KeptByOperations P) (cell : List Byte) (h : P s) : P (s.takeCell cell) := by
  unfold State.takeCell
  dsimp only
  split
  · exact hP.reply (replyBytes_length_le _ (by simp [ReplyBody.fits, outcomeData])) h
  · split
    · exact hP.takeDirective _ _ _ h
    · exact hP.reply (replyBytes_length_le _ (by simp [ReplyBody.fits, outcomeData])) h

theorem clockByte (hP : KeptByOperations P) (b : Byte) (h : P s) : P (s.clockByte b) := by
  unfold State.clockByte
  split
  next => exact h
  next e he =>
    have hshifted := hP.shiftOut (linkBits e.out) h
    dsimp only
    split
    next => exact hshifted
    next =>
      split
      next hlast => exact hP.takeCell _ (hP.completeExchange he hlast hshifted)
      next => exact hP.countByte b he (by omega) hshifted

theorem clockBytes (hP : KeptByOperations P) (bs : List Byte) (h : P s) : P (s.clockBytes bs) :=
  List.foldlRecOn (motive := P) bs _ h fun _ hu b _ => hP.clockByte b hu

theorem clockBits (hP : KeptByOperations P) (bits : List Bool) (h : P s) : P (s.clockBits bits) := by
  have hbytes := hP.clockBytes (linkBytes bits) h
  unfold State.clockBits State.clockPart
  split
  · exact hbytes
  · exact hP.shiftOut _ hbytes

theorem debounced (hP : KeptByOperations P) (h : P s) : P s.debounced := by
  unfold State.debounced
  dsimp only
  split
  · split
    · exact hP.congr h {}
    · have hsampled : P (State.sampleClick { s with aux := { s.aux with debounce := none } }) := hP.congr h {}
      split
      · unfold State.click
        split
        · exact hP.judgeQuiet (hP.press _ _ hsampled)
        · exact hP.judgeQuiet (hP.release hsampled)
      · exact hsampled
  · exact h

theorem tapGapExpiry (hP : KeptByOperations P) (h : P s) : P s.tapGap := by
  unfold State.tapGap
  split
  · exact hP.judgeQuiet (hP.tapGap h)
  · exact h

theorem coastExpiry (hP : KeptByOperations P) (h : P s) : P s.coast := by
  unfold State.coast
  split
  next hdue =>
    obtain ⟨e, he, -⟩ := (due_iff _ _).1 hdue
    exact hP.judgeQuiet (hP.coast _ (by rw [he]; rfl) h)
  next => exact h

theorem clickEdge (hP : KeptByOperations P) (e : ClickEdge) (h : P s) : P (s.clickEdge e) := by
  unfold State.clickEdge
  dsimp only
  split <;> exact hP.congr h {}

theorem keysQuiet (hP : KeptByOperations P) (h : P s) : P s.keysQuiet := by
  unfold State.keysQuiet
  split <;> exact hP.congr h {}

theorem shadowEnd (hP : KeptByOperations P) (h : P s) : P s.shadowEnd := by
  unfold State.shadowEnd
  split <;> exact hP.congr h {}

theorem deferralEnd (hP : KeptByOperations P) (h : P s) : P s.deferralEnd := by
  unfold State.deferralEnd
  split
  · exact hP.switch true h
  · exact h

theorem exec (hP : KeptByOperations P) (c : Instr) {t : State} (h : P s) (hexec : exec c s = .next t) : P t := by
  have hτ (τ : Stamp) : P (s.atTime τ) := hP.congr h {}
  cases c
  case powerOnReset τ => cases hexec; exact hP.powerOn (hτ τ)
  case hardReset τ => cases hexec; exact hP.hardReset (hτ τ)
  case resetnRelease τ => cases hexec; exact hP.releaseReset (hτ τ)
  case scanRecordArrival τ i line => cases hexec; exact hP.receiveLine i line (hτ τ)
  case framingError τ i line => cases hexec; exact hP.receiveLine i line (hτ τ)
  case interByteGap τ i line => cases hexec; exact hP.gap i (hP.receiveLine i line (hτ τ))
  case deadlineExpiry τ i => cases hexec; exact hP.deadline i (hτ τ)
  case frameCompletion τ i => cases hexec; exact hP.complete i (hτ τ)
  case clicknEdge τ e => cases hexec; exact hP.clickEdge e (hτ τ)
  case clickDebounceExpiry τ => cases hexec; exact hP.debounced (hτ τ)
  case keystrokeQuietExpiry τ => cases hexec; exact hP.keysQuiet (hτ τ)
  case tapGapExpiry τ => cases hexec; exact hP.tapGapExpiry (hτ τ)
  case coastExpiry τ => cases hexec; exact hP.coastExpiry (hτ τ)
  case shadowHoldExpiry τ => cases hexec; exact hP.shadowEnd (hτ τ)
  case deferralExpiry τ => cases hexec; exact hP.deferralEnd (hτ τ)
  case exchangeBegin τ => cases hexec; exact hP.assertSeln (hτ τ)
  case exchangeTruncated τ bits | selnRelease τ bits => cases hexec; exact hP.releaseSeln (hP.clockBits bits (hτ τ))
  case poll τ c | readStatus τ c | clearCauses τ c | setMask τ c | setCeiling τ c | writeTable τ c | readTable τ c
      | commitTables τ c | discardShadow τ c | setPort τ c | setPosture τ c | flushSurface τ c | restart τ c
      | unknown τ kind c =>
    cases hexec
    exact hP.clockBytes _ (hτ τ)

/-- A predicate that the operations keep is kept by every step. -/
theorem step (hP : KeptByOperations P) {t : State} (h : P s) (hstep : step s = .next t) : P t := by
  unfold Machine.step at hstep
  split at hstep
  next => cases hstep; exact h
  next rest _ => exact hP.exec (s := { s with pending := rest }) _ (hP.congr h {}) hstep

end KeptByOperations

end Sys2Proof.Machine
end

section
/-! Every step keeps the engine as its gesture state implies (section 5, head table): the table row by row, and each stage of a pad
frame, timer and click against it. -/

namespace Sys2Proof.Machine

/-! ## What an engine operation leaves in the engine -/

@[simp] theorem Work.setButton_e (w : Work) (b : Button) : (w.setButton b).e = { w.e with button := b } := by
  unfold Work.setButton
  split
  next h => rw [← h]
  next => rfl

@[simp] theorem Work.setPointer_e (w : Work) (p : Option Nat) : (w.setPointer p).e = { w.e with pointer := p } := by
  unfold Work.setPointer
  split
  next h => rw [← h]
  next => rfl

@[simp] theorem Work.goto_e (w : Work) (st : GestureState) : (w.goto st).e = { w.e with state := st } := rfl
@[simp] theorem Work.record_e (w : Work) (g : Gesture) : (w.record g).e = w.e := rfl
@[simp] theorem Work.onEngine_e (w : Work) (f : Engine → Engine) : (w.onEngine f).e = f w.e := rfl
@[simp] theorem Work.addMotion_e (w : Work) (d : Delta) : (w.addMotion d).e = w.e := rfl

/-! ## The table, row by row -/

/-- The states that hold no button, no timer and no pointer contact. -/
def GestureState.bare : GestureState → Prop
  | .idle => True
  | .multi => True
  | .scrolling => True
  | .pinching => True
  | .swiping => True
  | .residual => True
  | .touch => False
  | .pointing => False
  | .holdDrag => False
  | .tapWait => False
  | .tapDrag => False
  | .clicked => False
  | .coasting => False

section Rows

variable {e : Engine}

theorem Engine.sound_bare (h : e.state.bare) :
    e.sound ↔ e.button = .none ∧ e.tapGapTimer = none ∧ e.coastTimer = none ∧ e.pointer = none := by
  cases hs : e.state <;> simp [hs, GestureState.bare, Engine.sound, buttonFits, mayPoint] at h ⊢

theorem Engine.sound_touching (h : e.state = .touch ∨ e.state = .pointing) :
    e.sound ↔ e.button = .none ∧ e.tapGapTimer = none ∧ e.coastTimer = none ∧ e.pointer.isSome = true := by
  rcases h with hs | hs <;> simp [hs, Engine.sound, buttonFits, mayPoint]

theorem Engine.sound_dragging (h : e.state = .holdDrag ∨ e.state = .tapDrag) :
    e.sound ↔ e.button = .primary ∧ e.tapGapTimer = none ∧ e.coastTimer = none ∧ e.pointer.isSome = true := by
  rcases h with hs | hs <;> simp [hs, Engine.sound, buttonFits, mayPoint]

theorem Engine.sound_tapWait (h : e.state = .tapWait) :
    e.sound ↔ e.button = .primary ∧ e.tapGapTimer.isSome = true ∧ e.coastTimer = none ∧ e.pointer = none := by
  simp [h, Engine.sound, buttonFits, mayPoint]

theorem Engine.sound_clicked (h : e.state = .clicked) :
    e.sound ↔ e.button ≠ .none ∧ e.tapGapTimer = none ∧ e.coastTimer = none := by
  simp [h, Engine.sound, buttonFits, mayPoint]

theorem Engine.sound_coasting (h : e.state = .coasting) :
    e.sound ↔ e.button = .none ∧ e.tapGapTimer = none ∧ e.coastTimer.isSome = true ∧ e.pointer = none := by
  simp [h, Engine.sound, buttonFits, mayPoint]

theorem restState_bare (n : Nat) : (restState n).bare := by
  unfold restState
  split <;> trivial

/-- What the engine's fields of the table are not about keeps it sound. -/
theorem Engine.sound_congr {e' : Engine} (h : e.sound) (hstate : e'.state = e.state) (hbutton : e'.button = e.button)
    (hpointer : e'.pointer = e.pointer) (htap : e'.tapGapTimer = e.tapGapTimer)
    (hcoast : e'.coastTimer = e.coastTimer) : e'.sound := by
  unfold Engine.sound at h ⊢
  rwa [hstate, hbutton, hpointer, htap, hcoast]

end Rows

/-! ## Stage 1 -/

section Departures

variable {t : Tables} {now : Stamp} {v : PadView} {w : Work}

theorem departTouch_sound (hs : w.e.state = .touch) (h : w.e.sound) : (departTouch t now v w).e.sound := by
  obtain ⟨hbutton, htap, hcoast, -⟩ := (Engine.sound_touching (.inl hs)).1 h
  have hidle : ((w.setPointer none).goto .idle).e.sound :=
    (Engine.sound_bare (by trivial)).2 ⟨by simpa, by simpa, by simpa, by simp⟩
  unfold departTouch
  split
  · split
    · exact (Engine.sound_tapWait (by rfl)).2 ⟨by simp, by simp, by simpa, by simp⟩
    · exact hidle
  · split
    · exact hidle
    · exact h

theorem departPointing_sound (hs : w.e.state = .pointing) (h : w.e.sound) : (departPointing v w).e.sound := by
  obtain ⟨hbutton, htap, hcoast, -⟩ := (Engine.sound_touching (.inr hs)).1 h
  unfold departPointing
  split
  · exact (Engine.sound_bare (by trivial)).2 ⟨by simpa, by simpa, by simpa, by simp⟩
  · exact h

theorem endDrag_sound (htap : w.e.tapGapTimer = none) (hcoast : w.e.coastTimer = none) (hbutton : w.e.button = .none)
    (n : Nat) : ((w.setPointer none).goto (restState n)).e.sound :=
  (Engine.sound_bare (by exact restState_bare n)).2 ⟨by simpa, by simpa, by simpa, by simp⟩

theorem departHoldDrag_sound (hs : w.e.state = .holdDrag) (h : w.e.sound) : (departHoldDrag v w).e.sound := by
  obtain ⟨-, htap, hcoast, -⟩ := (Engine.sound_dragging (.inl hs)).1 h
  unfold departHoldDrag
  split
  · exact endDrag_sound (by simpa) (by simpa) (by simp) _
  · exact h

theorem departTapDrag_sound (hs : w.e.state = .tapDrag) (h : w.e.sound) : (departTapDrag t v w).e.sound := by
  obtain ⟨-, htap, hcoast, -⟩ := (Engine.sound_dragging (.inr hs)).1 h
  unfold departTapDrag
  split
  · dsimp only
    split
    · exact endDrag_sound (by simpa) (by simpa) (by simp) _
    · exact endDrag_sound (by simpa) (by simpa) (by simp) _
  · split
    · exact endDrag_sound (by simpa) (by simpa) (by simp) _
    · exact h

theorem multiTap_e (peak : Nat) (hbutton : w.e.button = .none) : (multiTap peak w).e = w.e := by
  unfold multiTap
  split
  · simp [← hbutton]
  · split
    · simp [← hbutton]
    · rfl

/-- The end of a MULTI episode (R92). -/
theorem endMulti_sound (v : PadView) (hs : w.e.state = .multi) (h : w.e.sound) :
    (if v.staying.isEmpty then
      ((if w.e.tapCandidate then multiTap w.e.peakCount w else w).onEngine Engine.clearLanding).goto .idle
    else w).e.sound := by
  have hbare : w.e.state.bare := by rw [hs]; trivial
  obtain ⟨hbutton, htap, hcoast, hpointer⟩ := (Engine.sound_bare hbare).1 h
  have htapped : (if w.e.tapCandidate then multiTap w.e.peakCount w else w).e = w.e := by
    split
    · exact multiTap_e _ hbutton
    · rfl
  split
  · rw [Work.goto_e, Work.onEngine_e, htapped]
    exact (Engine.sound_bare (by trivial)).2 ⟨hbutton, htap, hcoast, hpointer⟩
  · exact h

theorem departMulti_sound (hs : w.e.state = .multi) (h : w.e.sound) : (departMulti t v w).e.sound := by
  refine endMulti_sound (w := if (v.lifts.any (fun l => !tapLimits t l) || !v.withdrawals.isEmpty) = true
    then w.onEngine fun e => { e with tapCandidate := false } else w) v ?_ ?_
  · split <;> exact hs
  · split
    · exact Engine.sound_congr h rfl rfl rfl rfl rfl
    · exact h

theorem endScroll_sound (hbutton : w.e.button = .none) (htap : w.e.tapGapTimer = none) (hcoast : w.e.coastTimer = none)
    (hpointer : w.e.pointer = none) : (endScroll t now w).e.sound := by
  unfold endScroll
  dsimp only
  split
  · exact (Engine.sound_coasting (by rfl)).2 ⟨hbutton, htap, rfl, hpointer⟩
  · exact (Engine.sound_bare (by trivial)).2 ⟨hbutton, htap, hcoast, hpointer⟩

theorem departScrolling_sound (hs : w.e.state = .scrolling) (h : w.e.sound) :
    (departScrolling t now v w).e.sound := by
  have hbare : w.e.state.bare := by rw [hs]; trivial
  obtain ⟨hbutton, htap, hcoast, hpointer⟩ := (Engine.sound_bare hbare).1 h
  unfold departScrolling
  dsimp only
  split
  · split
    · exact endScroll_sound hbutton htap hcoast hpointer
    · exact (Engine.sound_bare (by trivial)).2 ⟨hbutton, htap, hcoast, hpointer⟩
  · exact h

theorem departPinching_sound (hs : w.e.state = .pinching) (h : w.e.sound) : (departPinching v w).e.sound := by
  have hbare : w.e.state.bare := by rw [hs]; trivial
  obtain ⟨hbutton, htap, hcoast, hpointer⟩ := (Engine.sound_bare hbare).1 h
  unfold departPinching
  split
  · exact (Engine.sound_bare (by exact restState_bare _)).2 ⟨hbutton, htap, hcoast, hpointer⟩
  · exact h

theorem departSwiping_sound (hs : w.e.state = .swiping) (h : w.e.sound) : (departSwiping v w).e.sound := by
  have hbare : w.e.state.bare := by rw [hs]; trivial
  obtain ⟨hbutton, htap, hcoast, hpointer⟩ := (Engine.sound_bare hbare).1 h
  unfold departSwiping
  split
  · exact (Engine.sound_bare (by exact restState_bare _)).2 ⟨hbutton, htap, hcoast, hpointer⟩
  · exact h

/-- In CLICKED the pointer contact is free. -/
theorem setPointer_clicked_sound (p : Option Nat) (hs : w.e.state = .clicked) (h : w.e.sound) :
    (w.setPointer p).e.sound := by
  rw [Work.setPointer_e]
  exact (Engine.sound_clicked (by exact hs)).2 ((Engine.sound_clicked hs).1 h)

theorem departClicked_sound (hs : w.e.state = .clicked) (h : w.e.sound) : (departClicked now v w).e.sound := by
  unfold departClicked
  split
  · exact setPointer_clicked_sound _ hs h
  · exact h

theorem departResidual_sound (hs : w.e.state = .residual) (h : w.e.sound) : (departResidual v w).e.sound := by
  have hbare : w.e.state.bare := by rw [hs]; trivial
  unfold departResidual
  split
  · exact (Engine.sound_bare (by trivial)).2 ((Engine.sound_bare hbare).1 h)
  · exact h

theorem stage1_sound (h : w.e.sound) : (stage1 t now v w).e.sound := by
  unfold stage1
  split
  next => exact h
  next hs => exact departTouch_sound hs h
  next hs => exact departPointing_sound hs h
  next hs => exact departHoldDrag_sound hs h
  next => exact h
  next hs => exact departTapDrag_sound hs h
  next hs => exact departMulti_sound hs h
  next hs => exact departScrolling_sound hs h
  next hs => exact departPinching_sound hs h
  next hs => exact departSwiping_sound hs h
  next hs => exact departClicked_sound hs h
  next hs => exact departResidual_sound hs h
  next => exact h

/-! ## Stage 2 -/

theorem enterMulti_sound (candidate : Bool) (hbutton : w.e.button = .none) (htap : w.e.tapGapTimer = none)
    (hcoast : w.e.coastTimer = none) : (enterMulti candidate w).e.sound :=
  (Engine.sound_bare (by trivial)).2 ⟨by simpa [enterMulti, Engine.clearLanding], by simpa [enterMulti, Engine.clearLanding],
    by simpa [enterMulti, Engine.clearLanding], by simp [enterMulti, Engine.clearLanding]⟩

theorem landIdle_sound (hs : w.e.state = .idle) (h : w.e.sound) : (landIdle v w).e.sound := by
  have hbare : w.e.state.bare := by rw [hs]; trivial
  obtain ⟨hbutton, htap, hcoast, -⟩ := (Engine.sound_bare hbare).1 h
  unfold landIdle
  split
  · exact h
  · exact (Engine.sound_touching (.inl (by rfl))).2 ⟨by simpa, by simpa, by simpa, by simp⟩
  · exact enterMulti_sound true hbutton htap hcoast

theorem endCoast_sound (hs : w.e.state = .coasting) (h : w.e.sound) : (endCoast w).e.sound := by
  obtain ⟨hbutton, htap, -, hpointer⟩ := (Engine.sound_coasting hs).1 h
  exact (Engine.sound_bare (by trivial)).2 ⟨hbutton, htap, rfl, hpointer⟩

theorem mostRecent_isSome (now : Stamp) {es : List Entry} (h : es ≠ []) : (mostRecent now es).isSome = true := by
  cases es with
  | nil => exact absurd rfl h
  | cons e es => rfl

theorem landTapWait_sound (hl : v.landings ≠ []) (hs : w.e.state = .tapWait) (h : w.e.sound) :
    (landTapWait now v w).e.sound := by
  obtain ⟨hbutton, -, hcoast, -⟩ := (Engine.sound_tapWait hs).1 h
  have hrecent := mostRecent_isSome now (es := v.landings.map (·.entry)) (by simpa using hl)
  exact (Engine.sound_dragging (.inr (by rfl))).2 ⟨by simpa [landTapWait], by simp [landTapWait], by simpa [landTapWait],
    by simpa [landTapWait] using hrecent⟩

theorem landings_sound (hl : v.landings ≠ []) (h : w.e.sound) : (landings now v w).e.sound := by
  unfold landings
  split
  next hs => exact landIdle_sound hs h
  next hs =>
    obtain ⟨hbutton, htap, hcoast, -⟩ := (Engine.sound_touching (.inl hs)).1 h
    exact enterMulti_sound true hbutton htap hcoast
  next hs =>
    obtain ⟨hbutton, htap, hcoast, -⟩ := (Engine.sound_touching (.inr hs)).1 h
    exact enterMulti_sound false hbutton htap hcoast
  next => exact h
  next hs => exact landTapWait_sound hl hs h
  next => exact h
  next => exact h
  next => exact h
  next => exact h
  next => exact h
  next hs => exact setPointer_clicked_sound _ hs h
  next => exact h
  next hs => exact landIdle_sound rfl (endCoast_sound hs h)

theorem retake_sound (h : w.e.sound) : (retake v w).e.sound := by
  unfold retake
  dsimp only
  split
  · exact Engine.sound_congr h rfl rfl rfl rfl rfl
  · exact h

theorem stage2_sound (h : w.e.sound) : (stage2 now v w).e.sound := by
  unfold stage2
  apply retake_sound
  split
  next => exact h
  next hl => exact landings_sound (by simpa using hl) h

/-! ## Stages 3 and 4 -/

theorem evalTouch_sound (hs : w.e.state = .touch) (h : w.e.sound) : (evalTouch t v w).e.sound := by
  obtain ⟨hbutton, htap, hcoast, hpointer⟩ := (Engine.sound_touching (.inl hs)).1 h
  unfold evalTouch
  split
  · exact h
  · split
    · exact (Engine.sound_touching (.inr (by rfl))).2 ⟨hbutton, htap, hcoast, hpointer⟩
    · split
      · exact (Engine.sound_dragging (.inl (by rfl))).2 ⟨by simp, by simpa, by simpa, by simpa⟩
      · exact h

theorem spoilCandidate_sound (h : w.e.sound) : (spoilCandidate t v w).e.sound := by
  unfold spoilCandidate
  split
  · exact Engine.sound_congr h rfl rfl rfl rfl rfl
  · exact h

theorem evalMulti_sound (hs : w.e.state = .multi) (h : w.e.sound) : (evalMulti t v w).e.sound := by
  have hbare : w.e.state.bare := by rw [hs]; trivial
  have hfields := (Engine.sound_bare hbare).1 h
  have habandon : (abandonMulti w).e.sound := (Engine.sound_bare (by trivial)).2 hfields
  unfold evalMulti
  dsimp only
  split
  · exact habandon
  · split
    · split
      · exact spoilCandidate_sound h
      · exact habandon
    · split
      · unfold evalTwo
        dsimp only
        split
        · exact (Engine.sound_bare (by trivial)).2 hfields
        · split
          · exact (Engine.sound_bare (by trivial)).2 hfields
          · exact spoilCandidate_sound h
      · split
        · exact h
        · unfold evalSwipe
          split
          · exact (Engine.sound_bare (by trivial)).2 hfields
          · exact spoilCandidate_sound h

theorem stage3_sound (h : w.e.sound) : (stage3 t v w).e.sound := by
  unfold stage3
  split
  next => exact h
  next hs => exact evalTouch_sound hs h
  next => exact h
  next => exact h
  next => exact h
  next => exact h
  next hs => exact evalMulti_sound hs h
  next => exact h
  next => exact h
  next => exact h
  next => exact h
  next => exact h
  next => exact h

/-- Motion changes no field of the table. -/
theorem stage4_sound (dt : Nat) (before : Engine) (h : w.e.sound) : (stage4 t dt v before w).e.sound := by
  unfold stage4
  split
  · exact h
  · split
    · split
      · exact h
      · unfold movePointer
        split
        · exact h
        · split <;> exact h
    · split
      · unfold moveScroll
        dsimp only
        split <;> exact Engine.sound_congr h rfl rfl rfl rfl rfl
      · split
        · unfold movePinch
          dsimp only
          split <;> exact Engine.sound_congr h rfl rfl rfl rfl rfl
        · exact h

theorem padFrame_sound {dt : Nat} {e : Engine} {m : Motion} (h : e.sound) : (padFrame t now dt v e m).e.sound :=
  stage4_sound dt e (stage3_sound (stage2_sound (stage1_sound h)))

end Departures

/-! ## Timers and clicks -/

section Events

variable {t : Tables} {w : Work}

theorem tapGapExpired_sound (h : w.e.sound) : (tapGapExpired w).e.sound := by
  unfold tapGapExpired
  dsimp only
  split
  next hs =>
    have hwait : w.e.state = .tapWait := hs
    obtain ⟨-, -, hcoast, hpointer⟩ := (Engine.sound_tapWait hwait).1 h
    exact (Engine.sound_bare (by trivial)).2 ⟨by simp, by simp, by simpa, by simpa⟩
  next hs =>
    have hstopped : w.e.tapGapTimer = none := by
      obtain ⟨-, htap, -⟩ := h
      exact Option.isSome_eq_false_iff.1 (Bool.not_eq_true _ ▸ mt htap.1 hs) |> Option.isNone_iff_eq_none.1
    exact Engine.sound_congr h rfl rfl rfl hstopped.symm rfl

theorem coastExpired_sound (htimer : w.e.coastTimer.isSome = true) (h : w.e.sound) : (coastExpired t w).e.sound := by
  have hs : w.e.state = .coasting := by
    obtain ⟨-, -, hcoast, -⟩ := h
    exact hcoast.1 htimer
  obtain ⟨hbutton, htap, -, hpointer⟩ := (Engine.sound_coasting hs).1 h
  unfold coastExpired
  dsimp only
  split
  · exact endCoast_sound (w := w.addMotion _) hs h
  · exact (Engine.sound_coasting (by exact hs)).2 ⟨hbutton, htap, by simpa using htimer, hpointer⟩

theorem clickButton_ne_none (t : Tables) (now : Stamp) (es : List Entry) : clickButton t now es ≠ .none := by
  unfold clickButton
  (repeat' split) <;> decide

/-- What a click press ends runs no timer any more. -/
theorem beforeClick_timers (h : w.e.sound) :
    (beforeClick w).e.tapGapTimer = none ∧ (beforeClick w).e.coastTimer = none := by
  obtain ⟨-, htap, hcoast, -⟩ := h
  cases hs : w.e.state <;> simp [beforeClick, endCoast, endSwipe, hs] at htap hcoast ⊢ <;> simp [htap, hcoast]

theorem clickPress_sound (now : Stamp) (es : List Entry) (h : w.e.sound) : (clickPress t now es w).e.sound := by
  unfold clickPress
  split
  · exact h
  · obtain ⟨htap, hcoast⟩ := beforeClick_timers h
    exact (Engine.sound_clicked (by simp)).2 ⟨by simpa [clearForClick, Engine.clearLanding] using clickButton_ne_none t now es,
      by simpa [clearForClick, Engine.clearLanding], by simpa [clearForClick, Engine.clearLanding]⟩

theorem clickRelease_sound (es : List Entry) (h : w.e.sound) : (clickRelease es w).e.sound := by
  unfold clickRelease
  split
  next hs =>
    obtain ⟨-, htap, hcoast⟩ := (Engine.sound_clicked hs).1 h
    exact endDrag_sound (by simpa) (by simpa) (by simp) _
  next => exact h

end Events

theorem initialEngine_sound : initialEngine.sound := (Engine.sound_bare (by trivial)).2 ⟨rfl, rfl, rfl, rfl⟩

/-! ## The statement -/

/-- The operations that work on the engine are the pad frame, the two timers, the click line and surface loss. -/
theorem engine_sound_kept : KeptByOperations fun s => s.engine.sound where
  congr h same := by rwa [same.engine]
  latch _ _ h := h
  hold b r h := by rwa [State.hold_engine]
  tearPad _ := initialEngine_sound
  tearScreen h := h
  pens _ h := h
  padFrameWork _ _ h := padFrame_sound h
  screenFrameWork h := h
  appendGesture _ h := h
  press _ _ h := clickPress_sound _ _ h
  release h := clickRelease_sound _ h
  tapGap h := tapGapExpired_sound h
  coast _ htimer h := coastExpired_sound htimer h
  restartEffect _ := initialEngine_sound
  masks _ h := h
  ceiling _ _ h := h
  clearCauses set h := by
    unfold takeClearCauses
    split <;> exact h
  restartWaiting h := h
  reply _ h := h
  shiftOut _ h := h
  countByte _ _ _ h := h
  completeExchange _ _ h := h
  assertSeln h := by rwa [State.assertSeln_engine]
  releaseSeln h := by rwa [State.releaseSeln_engine]
  powerOn _ := initialEngine_sound
  hardReset _ := initialEngine_sound
  releaseReset h := by
    unfold State.releaseReset
    split <;> exact h

/-- Settles O56: the engine is written by a pad frame, a timer, a click, a surface loss and the resets, and each keeps the head
table of chapter 5. -/
theorem stepKeepsGestureTable : Obligations.StepKeepsGestureTable := fun _ _ => engine_sound_kept.step

end Sys2Proof.Machine
end

section
/-! Every step keeps the posture request and its deferral timer in agreement (section 7.1): what a request and a switch leave, and
the events that make them. -/

namespace Sys2Proof.Machine

/-! ## A request, a switch and the band (R123, R125, R130) -/

theorem PostureControl.switched_sound {p : PostureControl} (hband : p.band ≤ 3) : p.switched.sound := by
  simp [PostureControl.switched, PostureControl.sound, hband]

theorem PostureControl.restarted_sound {p : PostureControl} (h : p.sound) : p.restarted.sound := by
  obtain ⟨-, -, hband⟩ := h
  simp [PostureControl.restarted, PostureControl.sound, hband]

/-- A step from a boundary that exists stays within the bands. -/
theorem bandStep_le (bands : List Boundary) (angle : Nat) {band : Nat} (h : band ≤ 3) : bandStep bands angle band ≤ 3 := by
  unfold bandStep
  split
  next hup =>
    rw [Bool.and_eq_true, decide_eq_true_iff] at hup
    omega
  next => split <;> omega

theorem bandMove_le (bands : List Boundary) (angle : Nat) {band : Nat} (h : band ≤ 3) : bandMove bands angle band ≤ 3 :=
  bandStep_le _ _ (bandStep_le _ _ (bandStep_le _ _ h))

section Requests

variable {s : State}

/-- The switch ends whatever was pending: only the band must be in range. -/
theorem State.switch_posture (s : State) (forced : Bool) : (s.switch forced).posture = s.posture.switched := by
  unfold State.switch
  dsimp only
  split <;> simp

theorem State.switch_posture_sound (forced : Bool) (hband : s.posture.band ≤ 3) : (s.switch forced).posture.sound := by
  rw [State.switch_posture]
  exact PostureControl.switched_sound hband

theorem State.judgeQuiet_posture_sound (h : s.posture.sound) : s.judgeQuiet.posture.sound := by
  unfold State.judgeQuiet
  split
  · exact State.switch_posture_sound _ h.2.2
  · exact h

theorem State.askTeardown_posture_sound (r : Role) (h : s.posture.sound) : (s.askTeardown r).posture.sound := by
  unfold State.askTeardown
  split
  · exact State.judgeQuiet_posture_sound (by rwa [State.requestRole_posture])
  · rwa [State.requestRole_posture]

theorem State.request_posture_sound (r : Posture) (h : s.posture.sound) : (s.request r).posture.sound := by
  obtain ⟨hpending, hdeferral, hband⟩ := h
  unfold State.request judgeRequest
  by_cases hsame : r = s.posture.actual
  · simp [hsame, PostureControl.sound, hband]
  · by_cases hquiet : s.quiet = true
    · simp only [hsame, hquiet, if_true, if_false]
      exact State.switch_posture_sound _ hband
    · cases hwaits : s.posture.pending with
      | true => simp [hsame, hquiet, PostureControl.sound, hband, hdeferral, hwaits]
      | false => simp [hsame, hquiet, PostureControl.sound, hband]

end Requests

/-! ## Frames -/

section Frames

variable {s : State}

theorem State.auxFrameWork_posture_sound (stamp : Stamp) (r : AuxRecord) (h : s.posture.sound) :
    (s.auxFrameWork stamp r).posture.sound := by
  obtain ⟨hpending, hdeferral, hband⟩ := h
  have hmoved : PostureControl.sound { s.posture with band := bandMove s.store.active.bands r.hinge s.posture.band } :=
    ⟨hpending, hdeferral, bandMove_le _ _ hband⟩
  unfold State.auxFrameWork
  dsimp only
  split
  · exact State.request_posture_sound _ (by simpa using hmoved)
  · simpa using hmoved

theorem State.beginFrame_posture_sound (i : Fin 4) (r : Stamped) (h : s.posture.sound) :
    (s.beginFrame i r).posture.sound := by
  unfold State.beginFrame State.frameWork
  dsimp only
  split
  · simpa using h
  · simpa using h
  · simpa using h
  · exact State.auxFrameWork_posture_sound _ _ h
  · exact h

theorem State.accept_posture_sound (i : Fin 4) (r : ScanRecord) (h : s.posture.sound) :
    (s.accept i r).posture.sound := by
  have hrevived : (s.revive i).posture.sound := by simpa using h
  unfold State.accept
  dsimp only
  split
  · exact hrevived
  · split
    · exact State.beginFrame_posture_sound _ _ hrevived
    · simpa using h

theorem State.receive_posture_sound (i : Fin 4) (ch : Character) (h : s.posture.sound) :
    (s.receive i ch).posture.sound := by
  have harrival (rx : Reception) (body : List Byte) : ((s.setRx i rx).arrival i body).posture.sound := by
    unfold State.arrival
    split
    · exact h
    · exact State.accept_posture_sound _ _ h
  unfold State.receive
  split
  · split
    · unfold State.receiveByte
      (repeat' split)
      · exact h
      · exact h
      · exact harrival _ _
      · exact h
      · exact harrival _ _
      · exact h
    · simpa using h
  · exact h

theorem State.receiveLine_posture_sound (i : Fin 4) (line : List Character) (h : s.posture.sound) :
    (s.receiveLine i line).posture.sound :=
  List.foldlRecOn (motive := fun u : State => u.posture.sound) line _ h
    fun _ hu ch _ => State.receive_posture_sound i ch hu

theorem State.beginWaiting_posture_sound (i : Fin 4) (h : s.posture.sound) : (s.beginWaiting i).posture.sound := by
  unfold State.beginWaiting
  dsimp only
  split
  · exact h
  · split
    · exact h
    · split
      · exact h
      · apply State.beginFrame_posture_sound
        unfold State.reviveIfStalled
        split
        · simpa using h
        · exact h

theorem State.beginAll_posture_sound (h : s.posture.sound) : s.beginAll.posture.sound := by
  unfold State.beginAll
  split
  · exact h
  · exact State.beginWaiting_posture_sound _ h
  · exact List.foldlRecOn (motive := fun u : State => u.posture.sound) _ _ h
      fun _ hu i _ => State.beginWaiting_posture_sound i hu

theorem State.swap_posture_sound (h : s.posture.sound) : s.swap.posture.sound := State.beginAll_posture_sound h

theorem State.restartEffect_posture_sound (h : s.posture.sound) : s.restartEffect.posture.sound :=
  PostureControl.restarted_sound h

theorem State.settle_posture_sound (i : Fin 4) (h : s.posture.sound) : (s.settle i).posture.sound := by
  unfold State.settle
  split
  · split
    · exact h
    · exact State.restartEffect_posture_sound h
  · split
    · split
      · exact h
      · exact State.swap_posture_sound h
    · exact State.beginWaiting_posture_sound i h

theorem State.complete_posture_sound (i : Fin 4) (h : s.posture.sound) : (s.complete i).posture.sound := by
  unfold State.complete
  split
  · exact h
  next f _ =>
    have htaken : ((s.setPort i { s.port i with frame := none }).takeWaiting i f.role).posture.sound := by
      unfold State.takeWaiting
      dsimp only
      split <;> simpa using h
    dsimp only
    apply State.settle_posture_sound
    split
    · exact State.judgeQuiet_posture_sound htaken
    · exact htaken

theorem State.deadline_posture_sound (i : Fin 4) (h : s.posture.sound) : (s.deadline i).posture.sound := by
  unfold State.deadline
  dsimp only
  split
  · split
    · unfold State.goLate
      dsimp only
      split <;> simpa using h
    · exact State.askTeardown_posture_sound _ h
    · exact h
    · exact h
    · exact h
  · exact h

end Frames

/-! ## Directives -/

section Directives

variable {s : State}

theorem setPortRow_posture_sound (i : Fin 4) (r : Role) (enable : Bool) (h : s.posture.sound) :
    (setPortRow i r enable s).1.posture.sound := by
  unfold setPortRow
  dsimp only
  split
  · split
    · exact h
    · split
      · exact h
      · exact State.askTeardown_posture_sound _ h
  · split
    · split <;> exact h
    · exact h

theorem takeSetPosture_posture_sound (code : Nat) (h : s.posture.sound) : (takeSetPosture code s).1.posture.sound := by
  unfold takeSetPosture postureReply
  dsimp only
  split
  · exact State.request_posture_sound _ h
  · split
    · exact h
    · exact State.request_posture_sound _ h

theorem State.takeDirective_posture_sound (d : Directive) (n : Byte) (b : List Byte) (h : s.posture.sound) :
    (s.takeDirective d n b).posture.sound := by
  unfold State.takeDirective State.answer
  cases d with
  | poll => exact h
  | readStatus => exact h
  | clearCauses => dsimp only [takeClearCauses]; split <;> exact h
  | setMask => dsimp only [takeSetMask]; split <;> exact h
  | setCeiling => dsimp only [takeSetCeiling]; split <;> exact h
  | writeTable => dsimp only [takeWriteTable, writeShadow]; (repeat' split) <;> exact h
  | readTable => dsimp only [takeReadTable]; (repeat' split) <;> exact h
  | commitTables =>
    dsimp only [takeCommit, State.commit]
    (repeat' split)
    · exact h
    · exact h
    · exact h
    · exact State.swap_posture_sound h
  | discardShadow =>
    dsimp only [takeDiscard, State.discard]
    (repeat' split)
    · exact h
    · exact h
    · exact State.beginAll_posture_sound h
  | setPort =>
    dsimp only [takeSetPort]
    (repeat' split)
    · exact setPortRow_posture_sound _ _ _ h
    · exact setPortRow_posture_sound _ _ _ h
    · exact h
    · exact h
  | setPosture =>
    exact takeSetPosture_posture_sound _ h
  | flushSurface =>
    dsimp only [takeFlush]
    split
    · exact h
    · exact State.askTeardown_posture_sound .pad h
    · exact State.askTeardown_posture_sound .screen h
  | restart =>
    dsimp only [takeRestart]
    split
    · exact h
    · exact State.restartEffect_posture_sound h

theorem State.clockByte_posture_sound (b : Byte) (h : s.posture.sound) : (s.clockByte b).posture.sound := by
  unfold State.clockByte
  split
  · exact h
  · dsimp only
    split
    · exact h
    · split
      · unfold State.takeCell
        dsimp only
        split
        · exact h
        · split
          · exact State.takeDirective_posture_sound _ _ _ h
          · exact h
      · exact h

theorem State.clockBytes_posture_sound (bs : List Byte) (h : s.posture.sound) : (s.clockBytes bs).posture.sound :=
  List.foldlRecOn (motive := fun u : State => u.posture.sound) bs _ h fun _ hu b _ => State.clockByte_posture_sound b hu

end Directives

/-! ## The statement -/

theorem initialPosture_sound : initialPosture.sound := by simp [initialPosture, PostureControl.sound]

theorem exec_keeps_posture_sound (c : Instr) {s t : State} (h : s.posture.sound) (hexec : exec c s = .next t) :
    t.posture.sound := by
  cases c
  case powerOnReset | hardReset => cases hexec; exact initialPosture_sound
  case resetnRelease =>
    cases hexec
    show State.posture (State.releaseReset _) |>.sound
    unfold State.releaseReset
    split <;> exact h
  case scanRecordArrival | framingError => cases hexec; exact State.receiveLine_posture_sound _ _ h
  case interByteGap => cases hexec; rw [State.gap_posture]; exact State.receiveLine_posture_sound _ _ h
  case deadlineExpiry => cases hexec; exact State.deadline_posture_sound _ h
  case frameCompletion => cases hexec; exact State.complete_posture_sound _ h
  case clicknEdge => cases hexec; rwa [State.clickEdge_posture]
  case clickDebounceExpiry τ =>
    cases hexec
    show State.posture (State.debounced _) |>.sound
    unfold State.debounced State.click
    dsimp only
    (repeat' split)
    · exact h
    · exact State.judgeQuiet_posture_sound h
    · exact State.judgeQuiet_posture_sound h
    · exact h
    · exact h
  case keystrokeQuietExpiry => cases hexec; rwa [State.keysQuiet_posture]
  case tapGapExpiry =>
    cases hexec
    show State.posture (State.tapGap _) |>.sound
    unfold State.tapGap
    split
    · exact State.judgeQuiet_posture_sound h
    · exact h
  case coastExpiry =>
    cases hexec
    show State.posture (State.coast _) |>.sound
    unfold State.coast
    split
    · exact State.judgeQuiet_posture_sound h
    · exact h
  case shadowHoldExpiry => cases hexec; rwa [State.shadowEnd_posture]
  case deferralExpiry =>
    cases hexec
    show State.posture (State.deferralEnd _) |>.sound
    unfold State.deferralEnd
    split
    · exact State.switch_posture_sound _ h.2.2
    · exact h
  case exchangeBegin => cases hexec; rwa [State.assertSeln_posture]
  case exchangeTruncated | selnRelease =>
    cases hexec
    rw [State.releaseSeln_posture, State.clockBits, State.clockPart_posture]
    exact State.clockBytes_posture_sound _ h
  case poll | readStatus | clearCauses | setMask | setCeiling | writeTable | readTable | commitTables | discardShadow
      | setPort | setPosture | flushSurface | restart | unknown =>
    cases hexec
    exact State.clockBytes_posture_sound _ h

/-- Settles O57: requests, switches, restarts and resets write the request, and aux frames the band. -/
theorem stepKeepsPosture : Obligations.StepKeepsPosture := by
  intro s t h hstep
  unfold step at hstep
  split at hstep
  next => cases hstep; exact h
  next rest _ => exact exec_keeps_posture_sound (s := { s with pending := rest }) _ h hstep

end Sys2Proof.Machine
end

section
/-! The Contact Tracker on a sound surface: what the review keeps, which contacts are admitted, and the track ids (section 2.1). -/

namespace Sys2Proof.Machine

section Tracker

variable {grace jump : Nat} {zoneOf : Point → Option Nat} {others : List Nat} {nextId : Nat} {cs : List Contact} {stamp : Stamp}
  {es : List Entry} {e : Entry} {k : Tracked}

/-! ## The review -/

/-- What an entry that the review keeps has of the entry before the frame (R23, R24). -/
structure KeptEntry (e : Entry) (k : Tracked) : Prop where
  isNew : k.isNew = false
  prev : k.prev = e.pos
  slot : k.entry.slot = e.slot
  track : k.entry.track = e.track
  palmRun : k.entry.palmRun = e.palmRun
  cls : k.entry.cls = e.cls
  reported : k.entry.reported = e.reported

theorem reviewEntry_kept (h : reviewEntry grace jump cs stamp e = .kept k) : KeptEntry e k := by
  obtain ⟨c, -, -, hsplit⟩ | ⟨c, -, -, hupdated⟩ | ⟨-, -, hlifting⟩ | ⟨-, -, hlifted⟩ :=
    reviewEntry_cases grace jump cs stamp e
  · cases hsplit.symm.trans h
  · cases hupdated.symm.trans h
    exact ⟨rfl, rfl, rfl, rfl, rfl, rfl, rfl⟩
  · cases hlifting.symm.trans h
    exact ⟨rfl, rfl, rfl, rfl, rfl, rfl, rfl⟩
  · cases hlifted.symm.trans h

theorem reviewEntry_split {x : Entry} (h : reviewEntry grace jump cs stamp e = .split x) : x = e := by
  obtain ⟨c, -, -, hcase⟩ | ⟨c, -, -, hcase⟩ | ⟨-, -, hcase⟩ | ⟨-, -, hcase⟩ :=
    reviewEntry_cases grace jump cs stamp e <;> cases hcase.symm.trans h
  rfl

/-- The entries after the review. -/
def reviewKept (grace jump : Nat) (cs : List Contact) (stamp : Stamp) (es : List Entry) : List Tracked :=
  keptOf (es.map (reviewEntry grace jump cs stamp))

/-- The slots that the review marks for re-admission. -/
def reviewSplits (grace jump : Nat) (cs : List Contact) (stamp : Stamp) (es : List Entry) : List Nat :=
  splitSlots (es.map (reviewEntry grace jump cs stamp))

theorem mem_reviewKept :
    k ∈ reviewKept grace jump cs stamp es ↔ ∃ e ∈ es, reviewEntry grace jump cs stamp e = .kept k := by
  simp [reviewKept, mem_keptOf]

theorem mem_reviewSplits {n : Nat} :
    n ∈ reviewSplits grace jump cs stamp es ↔ ∃ e ∈ es, reviewEntry grace jump cs stamp e = .split e ∧ e.slot = n := by
  simp only [reviewSplits, mem_splitSlots, List.mem_map]
  constructor
  · rintro ⟨x, ⟨e, he, hx⟩, rfl⟩
    obtain rfl := reviewEntry_split hx
    exact ⟨x, he, hx, rfl⟩
  · rintro ⟨e, he, hx, rfl⟩
    exact ⟨e, ⟨e, he, hx⟩, rfl⟩

theorem reviewKept_sorted (hes : (es.map (·.slot)).Pairwise (· < ·)) :
    ((reviewKept grace jump cs stamp es).map (·.entry.slot)).Pairwise (· < ·) :=
  hes.sublist (keptOf_slots_sublist _ _ _ _ es)

theorem reviewKept_length_le : (reviewKept grace jump cs stamp es).length ≤ es.length := by
  simpa [reviewKept] using (keptOf_slots_sublist grace jump cs stamp es).length_le

theorem reviewKept_tracks_sublist :
    ((reviewKept grace jump cs stamp es).map (·.entry.track)).Sublist (es.map (·.track)) := by
  unfold reviewKept keptOf
  rw [List.filterMap_map]
  refine filterMap_map_sublist _ _ _ es fun e _ k hk => ?_
  cases hr : reviewEntry grace jump cs stamp e with
  | kept x =>
    simp only [Function.comp_apply, hr, Option.some.injEq] at hk
    rw [← hk]
    exact (reviewEntry_kept hr).track
  | lifted x => simp [hr] at hk
  | split x => simp [hr] at hk

/-- Entries of a surface with the same slot are the same entry. -/
theorem eq_of_slot_eq (hes : (es.map (·.slot)).Pairwise (· < ·)) {x y : Entry} (hx : x ∈ es) (hy : y ∈ es)
    (h : x.slot = y.slot) : x = y :=
  List.inj_on_of_nodup_map (hes.imp fun hlt => Nat.ne_of_lt hlt) hx hy h

/-! ## The admission -/

/-- The contacts that a frame admits while there is room, in their order. -/
def admissible (grace jump : Nat) (cs : List Contact) (stamp : Stamp) (es : List Entry) : List Contact :=
  admissionOrder cs (reviewSplits grace jump cs stamp es) (reviewKept grace jump cs stamp es)

theorem trackFrame_eq : trackFrame grace jump zoneOf others nextId cs stamp es =
    let a := (admissible grace jump cs stamp es).foldl (admitOne others zoneOf stamp) ⟨reviewKept grace jump cs stamp es, nextId⟩
    ⟨a.entries, liftedOf (es.map (reviewEntry grace jump cs stamp)), a.nextId⟩ := rfl

theorem admissible_nodup : ((admissible grace jump cs stamp es).map (·.slot)).Nodup := by
  rw [admissible, admissionOrder_slots]
  refine List.Nodup.append (List.nodup_range.filter _) (List.nodup_range.filter _) ?_
  intro n hfirst hsecond
  simp only [List.mem_filter, Bool.and_eq_true, Bool.not_eq_true'] at hfirst hsecond
  exact Bool.false_ne_true (hsecond.2.2.1.symm.trans hfirst.2.2)

theorem mem_admissible_slot {c : Contact} (h : c ∈ admissible grace jump cs stamp es) : c.slot ≤ 15 := by
  unfold admissible admissionOrder at h
  rw [List.mem_append, List.mem_filter, List.mem_filter] at h
  rcases h with ⟨hc, -⟩ | ⟨hc, -⟩ <;> exact Nat.le_of_lt_succ ((mem_bySlot cs c).1 hc).1

/-- No slot that is admitted has an entry after the review. -/
theorem admissible_not_kept (hes : (es.map (·.slot)).Pairwise (· < ·)) :
    ∀ c ∈ admissible grace jump cs stamp es, ∀ k ∈ reviewKept grace jump cs stamp es, k.entry.slot ≠ c.slot := by
  intro c hc k hk hslot
  unfold admissible admissionOrder at hc
  rw [List.mem_append, List.mem_filter, List.mem_filter] at hc
  rcases hc with ⟨-, hsplit⟩ | ⟨-, hnew⟩
  · obtain ⟨e, he, hr, hes'⟩ := mem_reviewSplits.1 (by simpa using hsplit)
    obtain ⟨e', he', hr'⟩ := mem_reviewKept.1 hk
    obtain rfl := eq_of_slot_eq hes he' he (((reviewEntry_kept hr').slot).symm.trans (hslot.trans hes'.symm))
    cases hr.symm.trans hr'
  · simp only [Bool.and_eq_true, Bool.not_eq_true', List.any_eq_false, beq_iff_eq] at hnew
    exact hnew.2 k hk hslot

/-- The surface after a frame: its entries are those kept and those admitted, in ascending slot, and the ids admitted are taken
in turn (R22 to R27). -/
theorem trackFrame_spec (hes : (es.map (·.slot)).Pairwise (· < ·)) (hlen : es.length ≤ 10) :
    let h := trackFrame grace jump zoneOf others nextId cs stamp es
    let kept := reviewKept grace jump cs stamp es
    let tk := (admissible grace jump cs stamp es).take (10 - kept.length)
    (h.entries.map (·.entry.slot)).Pairwise (· < ·) ∧ h.entries.length = kept.length + tk.length ∧
      ∃ ids : List Nat, ids.length = tk.length ∧
        (∀ k, k ∈ h.entries ↔
          k ∈ kept ∨ ∃ x ∈ tk.zip ids, k = ⟨admitted x.2 (zoneOf x.1.pos) stamp x.1, x.1.pos, true⟩) ∧
        (others.length ≤ 10 → 1 ≤ nextId → nextId ≤ 255 →
          takesIds (others ++ kept.map (·.entry.track)) nextId h.nextId ids) :=
  admit_spec others zoneOf stamp _ _ nextId (reviewKept_sorted hes) admissible_nodup (admissible_not_kept hes)
    (reviewKept_length_le.trans hlen)

theorem trackFrame_length_le (hes : (es.map (·.slot)).Pairwise (· < ·)) (hlen : es.length ≤ 10) :
    (trackFrame grace jump zoneOf others nextId cs stamp es).entries.length ≤ 10 := by
  obtain ⟨-, hcount, -⟩ := trackFrame_spec (grace := grace) (jump := jump) (zoneOf := zoneOf) (others := others)
    (nextId := nextId) (cs := cs) (stamp := stamp) hes hlen
  have hkept := (reviewKept_length_le (grace := grace) (jump := jump) (cs := cs) (stamp := stamp)).trans hlen
  rw [hcount, List.length_take]
  omega

/-! ## Track ids (R27) -/

theorem insertTracked_perm (t : Tracked) (us : List Tracked) : (insertTracked t us).Perm (t :: us) := by
  induction us with
  | nil => exact .refl _
  | cons u us ih =>
    unfold insertTracked
    split
    · exact .refl _
    · exact (ih.cons u).trans (.swap t u us)

/-- The track ids of a surface and of the other one are distinct, and the counter and the surface's ids are 1..255. -/
def Admission.idsSound (others : List Nat) (a : Admission) : Prop :=
  (others ++ a.entries.map (·.entry.track)).Nodup ∧ (1 ≤ a.nextId ∧ a.nextId ≤ 255) ∧
    ∀ k ∈ a.entries, 1 ≤ k.entry.track ∧ k.entry.track ≤ 255

theorem admitOne_idsSound {a : Admission} (hothers : others.length ≤ 10) (c : Contact) (h : a.idsSound others) :
    (admitOne others zoneOf stamp a c).idsSound others := by
  obtain ⟨hnodup, ⟨hlow, hhigh⟩, hrange⟩ := h
  unfold admitOne
  split
  next hroom =>
    have hlen : (others ++ a.entries.map (·.entry.track)).length < 255 := by
      have hten : a.entries.length < 10 := hroom
      rw [List.length_append, List.length_map]
      omega
    obtain ⟨⟨n, -, hid, -⟩, hfree⟩ := freeTrack_spec _ 255 a.nextId hlow hhigh (exists_free_track _ hlen a.nextId)
    dsimp only
    rw [hid] at hfree ⊢
    generalize hnew : (a.nextId - 1 + n) % 255 + 1 = id at hfree ⊢
    have hid255 : 1 ≤ id ∧ id ≤ 255 := by omega
    refine ⟨?_, ?_, fun k hk => ?_⟩
    · have hperm := ((insertTracked_perm ⟨admitted id (zoneOf c.pos) stamp c, c.pos, true⟩ a.entries).map
        (·.entry.track)).append_left others
      rw [hperm.nodup_iff, List.map_cons, List.perm_middle.nodup_iff]
      exact List.nodup_cons.2 ⟨hfree, hnodup⟩
    · show 1 ≤ nextTrack id ∧ nextTrack id ≤ 255
      rw [nextTrack_eq id hid255.1 hid255.2]
      omega
    · rcases (mem_insertTracked _ _ _).1 hk with rfl | hk
      · exact hid255
      · exact hrange k hk
  next => exact ⟨hnodup, ⟨hlow, hhigh⟩, hrange⟩

theorem trackFrame_idsSound (hothers : others.length ≤ 10) (hnodup : (others ++ es.map (·.track)).Nodup)
    (hnext : 1 ≤ nextId ∧ nextId ≤ 255) (hrange : ∀ e ∈ es, 1 ≤ e.track ∧ e.track ≤ 255) :
    let h := trackFrame grace jump zoneOf others nextId cs stamp es
    Admission.idsSound others ⟨h.entries, h.nextId⟩ := by
  refine List.foldlRecOn (motive := Admission.idsSound others) (admissible grace jump cs stamp es) _ ⟨?_, hnext, ?_⟩
    fun _ ha c _ => admitOne_idsSound hothers c ha
  · exact hnodup.sublist (reviewKept_tracks_sublist.append_left others)
  · intro k hk
    obtain ⟨e, he, hr⟩ := mem_reviewKept.1 hk
    rw [(reviewEntry_kept hr).track]
    exact hrange e he

/-- Where an entry handed on comes from: it was kept, or the frame admits it (R30). -/
theorem trackFrame_entry (hes : (es.map (·.slot)).Pairwise (· < ·)) (hlen : es.length ≤ 10)
    (hk : k ∈ (trackFrame grace jump zoneOf others nextId cs stamp es).entries) :
    (∃ e ∈ es, KeptEntry e k) ∨
      ∃ c ∈ admissible grace jump cs stamp es, ∃ id, k = ⟨admitted id (zoneOf c.pos) stamp c, c.pos, true⟩ := by
  obtain ⟨-, -, ids, -, hmem, -⟩ := trackFrame_spec (grace := grace) (jump := jump) (zoneOf := zoneOf) (others := others)
    (nextId := nextId) (cs := cs) (stamp := stamp) hes hlen
  rcases (hmem k).1 hk with hkept | ⟨⟨c, id⟩, hx, rfl⟩
  · obtain ⟨e, he, hr⟩ := mem_reviewKept.1 hkept
    exact .inl ⟨e, he, reviewEntry_kept hr⟩
  · exact .inr ⟨c, List.mem_of_mem_take (List.of_mem_zip hx).1, id, rfl⟩

end Tracker

end Sys2Proof.Machine
end

section
/-! Every step keeps the Contact Table sound (sections 2.1, 3.3, 3.7): what the Classifier and the reporting table leave in an
entry, and what the operations write. -/

namespace Sys2Proof.Machine

/-! ## The verdict decides the class (R47, R49 to R51) -/

/-- MARK is no terminal match (R47). -/
theorem evalRules_ne_mark (sf : Surface) (f : Nat → Nat) :
    ∀ (rs : List Rule) (i : Nat) (matched : List Nat), evalRules sf f rs i matched ≠ some .mark
  | [], _, _ => by simp [evalRules]
  | r :: rs, i, matched => by
    unfold evalRules
    split
    · split
      · exact evalRules_ne_mark sf f rs _ _
      next hmark => simpa using hmark
    · exact evalRules_ne_mark sf f rs _ _

theorem verdictOn_ne_mark (t : Tables) (sf : Surface) (count : Nat) (sn : Snapshot) (e : Entry) :
    verdictOn t sf count sn e ≠ .mark := by
  unfold verdictOn
  split
  · decide
  · split
    next v hv => exact fun hmark => evalRules_ne_mark _ _ _ _ _ (hmark ▸ hv)
    next => split <;> decide

theorem applyVerdict_decided {v : Verdict} (persist : Nat) (e : Entry) (h : v ≠ .mark) :
    (applyVerdict persist e v).cls ≠ .undecided := by
  cases v with
  | mark => exact absurd rfl h
  | finger => simp [applyVerdict]
  | resting => simp [applyVerdict]
  | palm =>
    simp only [applyVerdict]
    split <;> decide
  | ignore => simp [applyVerdict]

theorem applyVerdict_palmRun_le {e : Entry} (persist : Nat) (v : Verdict) (h : e.palmRun ≤ 15) :
    (applyVerdict persist e v).palmRun ≤ 15 := by
  cases v with
  | finger => simp [applyVerdict]
  | resting => simp [applyVerdict]
  | palm => exact Nat.min_le_left _ _
  | ignore => exact h
  | mark => exact h

theorem applyVerdict_identity (persist : Nat) (e : Entry) (v : Verdict) :
    (applyVerdict persist e v).slot = e.slot ∧ (applyVerdict persist e v).track = e.track ∧
      (applyVerdict persist e v).reported = e.reported := by
  cases v <;> exact ⟨rfl, rfl, rfl⟩

section Classified

variable {t : Tables} {sf : Surface} {count : Nat} {sn : Snapshot} {k : Tracked}

theorem classify_identity (t : Tables) (sf : Surface) (count : Nat) (sn : Snapshot) (k : Tracked) :
    (classify t sf count sn k).entry.slot = k.entry.slot ∧ (classify t sf count sn k).entry.track = k.entry.track ∧
      (classify t sf count sn k).entry.reported = k.entry.reported := by
  unfold classify
  split
  · exact applyVerdict_identity _ _ _
  · exact ⟨rfl, rfl, rfl⟩

theorem classify_palmRun_le (h : k.entry.palmRun ≤ 15) : (classify t sf count sn k).entry.palmRun ≤ 15 := by
  unfold classify
  split
  · exact applyVerdict_palmRun_le _ _ h
  · exact h

/-- An entry that a frame admits is PRESENT and so judged: only then may it come undecided. -/
theorem classify_decided (h : k.entry.presence = .present ∨ k.entry.cls ≠ .undecided) :
    (classify t sf count sn k).entry.cls ≠ .undecided := by
  unfold classify
  split
  next => exact applyVerdict_decided _ _ (verdictOn_ne_mark _ _ _ _ _)
  next hjudged =>
    intro hcls
    rcases h with hpresent | hne
    · exact hjudged (by simp [Entry.judged, hpresent, show k.entry.cls = .undecided from hcls])
    · exact hne hcls

/-- What a screen entry's reported state says of its class (R54 to R56). -/
def Entry.reportFits (e : Entry) : Prop :=
  (e.cls = .rejected → e.reported ≠ .opened) ∧ (e.reported = .closed → e.cls = .rejected)

theorem classify_not_judged (h : (classify t sf count sn k).judged = false) :
    (classify t sf count sn k).entry = k.entry := by
  unfold classify at h ⊢
  split at h
  · cases h
  next hjudged => rw [if_neg hjudged]

theorem judged_of_classify (h : (classify t sf count sn k).judged = true) : k.entry.judged = true := by
  unfold classify at h
  split at h
  next hjudged => exact hjudged
  next => cases h

/-- The reporting table: a judged entry that is not CLOSED. -/
theorem reportedEntry_fits {c : Classified} (hjudged : c.judged = true) (hopen : c.entry.reported ≠ .closed) :
    (reportedEntry c).reportFits := by
  unfold reportedEntry reportEntry Entry.reportFits
  rw [if_pos hjudged]
  cases hreported : c.entry.reported with
  | none => cases hcls : c.entry.cls <;> simp
  | opened =>
    cases hcls : c.entry.cls <;> simp
    split <;> simp
  | closed => exact absurd hreported hopen

theorem reportedEntry_classify_fits (h : k.entry.reportFits) : (reportedEntry (classify t sf count sn k)).reportFits := by
  obtain ⟨-, -, hsame⟩ := classify_identity t sf count sn k
  cases hjudged : (classify t sf count sn k).judged with
  | true =>
    refine reportedEntry_fits hjudged fun hclosed => ?_
    have hrejected := h.2 (hsame.symm.trans hclosed)
    have := judged_of_classify hjudged
    simp [Entry.judged, hrejected] at this
  | false =>
    have hreported : (reportEntry (classify t sf count sn k)).2 = (classify t sf count sn k).entry.reported := by
      simp [reportEntry, hjudged]
    simpa [reportedEntry, hreported, classify_not_judged hjudged] using h

end Classified

/-! ## A surface after a frame -/

section Surface

variable {es : List Entry}

theorem surfaceSound_nil : surfaceSound [] := by simp [surfaceSound]

theorem surfaceSound_map {f : Entry → Entry} (h : surfaceSound es)
    (hf : ∀ e, (f e).slot = e.slot ∧ (f e).track = e.track ∧ (f e).palmRun = e.palmRun ∧ (f e).cls = e.cls) :
    surfaceSound (es.map f) := by
  obtain ⟨hlen, hslots, hall⟩ := h
  have hsame : (es.map f).map (·.slot) = es.map (·.slot) := by
    rw [List.map_map]
    exact List.map_congr_left fun e _ => (hf e).1
  refine ⟨by rwa [List.length_map], by rwa [hsame], fun x hx => ?_⟩
  obtain ⟨e, he, rfl⟩ := List.mem_map.1 hx
  obtain ⟨hslot, htrack, hpalm, hcls⟩ := hf e
  rw [hslot, htrack, hpalm, hcls]
  exact hall e he

/-- What a frame's work makes of the entries handed on keeps their slots and tracks, bounds the palm run and decides the class. -/
theorem trackFrame_surfaceSound {grace jump : Nat} {zoneOf : Point → Option Nat} {others : List Nat} {nextId : Nat}
    {cs : List Contact} {stamp : Stamp} {f : Tracked → Entry} (h : surfaceSound es) (hothers : others.length ≤ 10)
    (hnodup : (others ++ es.map (·.track)).Nodup) (hnext : 1 ≤ nextId ∧ nextId ≤ 255)
    (hsame : ∀ k, (f k).slot = k.entry.slot ∧ (f k).track = k.entry.track)
    (hf : ∀ k : Tracked, k.entry.palmRun ≤ 15 → k.entry.presence = .present ∨ k.entry.cls ≠ .undecided →
      (f k).palmRun ≤ 15 ∧ (f k).cls ≠ .undecided) :
    let h := trackFrame grace jump zoneOf others nextId cs stamp es
    surfaceSound (h.entries.map f) ∧ (others ++ (h.entries.map f).map (·.track)).Nodup ∧
      1 ≤ h.nextId ∧ h.nextId ≤ 255 := by
  obtain ⟨hlen, hslots, hall⟩ := h
  obtain ⟨hids, hnextId, htracks⟩ := trackFrame_idsSound (grace := grace) (jump := jump) (zoneOf := zoneOf) (cs := cs)
    (stamp := stamp) hothers hnodup hnext fun e he => ⟨(hall e he).2.1, (hall e he).2.2.1⟩
  obtain ⟨hsorted, -⟩ := trackFrame_spec (grace := grace) (jump := jump) (zoneOf := zoneOf) (others := others)
    (nextId := nextId) (cs := cs) (stamp := stamp) hslots hlen
  have hslot (ks : List Tracked) : (ks.map f).map (·.slot) = ks.map (·.entry.slot) := by
    rw [List.map_map]
    exact List.map_congr_left fun k _ => (hsame k).1
  have htrack (ks : List Tracked) : (ks.map f).map (·.track) = ks.map (·.entry.track) := by
    rw [List.map_map]
    exact List.map_congr_left fun k _ => (hsame k).2
  refine ⟨⟨?_, ?_, ?_⟩, by rwa [htrack], hnextId⟩
  · rw [List.length_map]
    exact trackFrame_length_le hslots hlen
  · rwa [hslot]
  · intro x hx
    obtain ⟨k, hk, rfl⟩ := List.mem_map.1 hx
    obtain ⟨hksl, hktr⟩ := hsame k
    have hentry : k.entry.slot ≤ 15 ∧ k.entry.palmRun ≤ 15 ∧ (k.entry.presence = .present ∨ k.entry.cls ≠ .undecided) := by
      rcases trackFrame_entry hslots hlen hk with ⟨e, he, hkept⟩ | ⟨c, hc, id, rfl⟩
      · obtain ⟨hes, -, -, hpalm, hcls⟩ := hall e he
        exact ⟨hkept.slot ▸ hes, hkept.palmRun ▸ hpalm, .inr (hkept.cls ▸ hcls)⟩
      · exact ⟨mem_admissible_slot hc, Nat.zero_le _, .inl rfl⟩
    obtain ⟨hpalm, hcls⟩ := hf k hentry.2.1 hentry.2.2
    rw [hksl, hktr]
    exact ⟨hentry.1, (htracks k hk).1, (htracks k hk).2, hpalm, hcls⟩

/-- An entry handed on has the reported state of the entry it was, or none. -/
theorem trackFrame_reported {P : Class → Reported → Prop} {grace jump : Nat} {zoneOf : Point → Option Nat}
    {others : List Nat} {nextId : Nat} {cs : List Contact} {stamp : Stamp} {k : Tracked} (h : surfaceSound es)
    (hes : ∀ e ∈ es, P e.cls e.reported) (hnew : P .undecided .none)
    (hk : k ∈ (trackFrame grace jump zoneOf others nextId cs stamp es).entries) : P k.entry.cls k.entry.reported := by
  obtain ⟨hlen, hslots, -⟩ := h
  rcases trackFrame_entry hslots hlen hk with ⟨e, he, hkept⟩ | ⟨c, -, id, rfl⟩
  · rw [hkept.cls, hkept.reported]
    exact hes e he
  · exact hnew

end Surface

/-! ## The operations -/

section Operations

variable {s : State}

theorem initialContacts_sound : initialContacts.sound := by simp [initialContacts, Contacts.sound, surfaceSound]

theorem Contacts.sound_clearPad {c : Contacts} (h : c.sound) : Contacts.sound { c with pad := [] } := by
  obtain ⟨-, hscreen, hnodup, hnext, -, hreported⟩ := h
  rw [List.map_append] at hnodup
  exact ⟨surfaceSound_nil, hscreen, by simpa using hnodup.of_append_right, hnext, by simp, hreported⟩

theorem Contacts.sound_clearScreen {c : Contacts} (h : c.sound) : Contacts.sound { c with screen := [] } := by
  obtain ⟨hpad, -, hnodup, hnext, hreported, -⟩ := h
  rw [List.map_append] at hnodup
  exact ⟨hpad, surfaceSound_nil, by simpa using hnodup.of_append_left, hnext, hreported, by simp⟩

theorem setHeld_tracks (b : Bool) (es : List Entry) : (setHeld b es).map (·.track) = es.map (·.track) := by
  simp [setHeld, Function.comp_def]

theorem setHeld_surfaceSound {es : List Entry} (b : Bool) (h : surfaceSound es) : surfaceSound (setHeld b es) :=
  surfaceSound_map h fun _ => ⟨rfl, rfl, rfl, rfl⟩

theorem State.hold_contacts_sound (b : Bool) (r : Role) (h : s.contacts.sound) : (s.hold b r).contacts.sound := by
  cases r with
  | pad =>
    obtain ⟨hpad, hscreen, hnodup, hnext, hreported, hfits⟩ := h
    refine ⟨setHeld_surfaceSound b hpad, hscreen, ?_, hnext, ?_, hfits⟩
    · simpa only [State.hold, List.map_append, setHeld_tracks] using hnodup
    · simpa [State.hold, setHeld] using hreported
  | screen =>
    obtain ⟨hpad, hscreen, hnodup, hnext, hreported, hfits⟩ := h
    refine ⟨hpad, setHeld_surfaceSound b hscreen, ?_, hnext, hreported, ?_⟩
    · simpa only [State.hold, List.map_append, setHeld_tracks] using hnodup
    · simpa [State.hold, setHeld] using hfits
  | pen => exact h
  | aux => exact h
  | unused => exact h

theorem State.padFrameWork_contacts_sound (stamp : Stamp) (dt : Nat) (cs : List Contact) (h : s.contacts.sound) :
    (s.padFrameWork stamp dt cs).contacts.sound := by
  obtain ⟨hpad, hscreen, hnodup, hnext, hreported, hfits⟩ := h
  rw [List.map_append] at hnodup
  have hflip : ((s.contacts.screen.map (·.track)) ++ s.contacts.pad.map (·.track)).Nodup :=
    List.perm_append_comm.nodup_iff.1 hnodup
  let h := trackFrame s.store.active.liftGrace s.store.active.padJump (landingZone s.store.active.zones)
    (s.contacts.screen.map (·.track)) s.contacts.nextId cs stamp s.contacts.pad
  let f (k : Tracked) := (classify s.store.active .pad h.entries.length s.snapshot k).entry
  have hid := classify_identity s.store.active .pad h.entries.length s.snapshot
  obtain ⟨hnewPad, hnewNodup, hnewNext⟩ := trackFrame_surfaceSound (grace := s.store.active.liftGrace)
    (jump := s.store.active.padJump) (zoneOf := landingZone s.store.active.zones) (cs := cs) (stamp := stamp) (f := f)
    hpad (by simpa using hscreen.1) hflip hnext (fun k => ⟨(hid k).1, (hid k).2.1⟩)
    fun k hpalm hcls => ⟨classify_palmRun_le hpalm, classify_decided hcls⟩
  have hmap : (classifyAll s.store.active .pad s.snapshot h.entries).map (·.entry) = h.entries.map f := by
    simp [classifyAll, f, Function.comp_def]
  have hcontacts : (s.padFrameWork stamp dt cs).contacts = ⟨h.entries.map f, s.contacts.screen, h.nextId⟩ := by
    rw [← hmap]
    rfl
  rw [hcontacts]
  refine ⟨hnewPad, hscreen, ?_, hnewNext, ?_, hfits⟩
  · rw [List.map_append]
    exact List.perm_append_comm.nodup_iff.1 hnewNodup
  · intro x hx
    obtain ⟨k, hk, rfl⟩ := List.mem_map.1 hx
    exact (hid k).2.2.trans (trackFrame_reported (P := fun _ r => r = .none) hpad hreported rfl hk)

theorem State.screenFrameWork_contacts_sound (stamp : Stamp) (cs : List Contact) (h : s.contacts.sound) :
    (s.screenFrameWork stamp cs).contacts.sound := by
  obtain ⟨hpad, hscreen, hnodup, hnext, hreported, hfits⟩ := h
  rw [List.map_append] at hnodup
  let h := trackFrame s.store.active.liftGrace s.store.active.screenJump (fun _ => none)
    (s.contacts.pad.map (·.track)) s.contacts.nextId cs stamp s.contacts.screen
  let f (k : Tracked) := reportedEntry (classify s.store.active .screen h.entries.length s.snapshot k)
  have hid := classify_identity s.store.active .screen h.entries.length s.snapshot
  obtain ⟨hnewScreen, hnewNodup, hnewNext⟩ := trackFrame_surfaceSound (grace := s.store.active.liftGrace)
    (jump := s.store.active.screenJump) (zoneOf := fun _ => none) (cs := cs) (stamp := stamp) (f := f)
    hscreen (by simpa using hpad.1) hnodup hnext (fun k => ⟨(hid k).1, (hid k).2.1⟩)
    fun k hpalm hcls => ⟨classify_palmRun_le hpalm, classify_decided hcls⟩
  have hmap : (classifyAll s.store.active .screen s.snapshot h.entries).map reportedEntry = h.entries.map f := by
    simp [classifyAll, f, Function.comp_def]
  have hcontacts : (s.screenFrameWork stamp cs).contacts = ⟨s.contacts.pad, h.entries.map f, h.nextId⟩ := by
    rw [← hmap]
    rfl
  rw [hcontacts]
  refine ⟨hpad, hnewScreen, ?_, hnewNext, hreported, ?_⟩
  · rw [List.map_append]
    exact hnewNodup
  · intro x hx
    obtain ⟨k, hk, rfl⟩ := List.mem_map.1 hx
    exact reportedEntry_classify_fits (trackFrame_reported
      (P := fun c r => (c = .rejected → r ≠ .opened) ∧ (r = .closed → c = .rejected)) hscreen hfits (by decide) hk)

end Operations

/-! ## The statement -/

/-- The operations that work on the Contact Table are the two frames, the two teardowns, the holds and the resets. -/
theorem contacts_sound_kept : KeptByOperations fun s => s.contacts.sound where
  congr h same := by rwa [same.contacts]
  latch _ _ h := h
  hold b r h := State.hold_contacts_sound b r h
  tearPad h := Contacts.sound_clearPad h
  tearScreen h := Contacts.sound_clearScreen h
  pens _ h := h
  padFrameWork _ _ h := State.padFrameWork_contacts_sound _ _ _ h
  screenFrameWork h := State.screenFrameWork_contacts_sound _ _ h
  appendGesture _ h := h
  press _ _ h := h
  release h := h
  tapGap h := h
  coast _ _ h := h
  restartEffect _ := initialContacts_sound
  masks _ h := h
  ceiling _ _ h := h
  clearCauses set h := by
    unfold takeClearCauses
    split <;> exact h
  restartWaiting h := h
  reply _ h := h
  shiftOut _ h := h
  countByte _ _ _ h := h
  completeExchange _ _ h := h
  assertSeln h := by rwa [State.assertSeln_contacts]
  releaseSeln h := by rwa [State.releaseSeln_contacts]
  powerOn _ := initialContacts_sound
  hardReset _ := initialContacts_sound
  releaseReset h := by
    unfold State.releaseReset
    split <;> exact h

/-- Settles O53: a frame tracks, classifies and reports the entries of its surface, and every other event drops or holds them. -/
theorem stepKeepsContactTable : Obligations.StepKeepsContactTable := fun _ _ => contacts_sound_kept.step

end Sys2Proof.Machine
end

section
/-! One induction over what the engine does in an event: a predicate of the engine and Motion Transfer at work that the elementary
operations keep is kept by a pad frame, the timers, the click line and surface loss (chapter 5). -/

namespace Sys2Proof.Machine

/-- A predicate of the work on an event that its elementary operations keep. -/
structure KeptByWork (Q : Work → Prop) : Prop where
  setButton : ∀ {w : Work} (b : Button), Q w → Q (w.setButton b)
  record : ∀ {w : Work} (g : Gesture), Q w → Q (w.record g)
  goto : ∀ {w : Work} (st : GestureState), Q w → Q (w.goto st)
  setPointer : ∀ {w : Work} (p : Option Nat), Q w → Q (w.setPointer p)
  onEngine : ∀ {w : Work} {f : Engine → Engine}, (f w.e).button = w.e.button → Q w → Q (w.onEngine f)
  addMotion : ∀ {w : Work} (d : Delta), Q w → Q (w.addMotion d)
  pointerInput : ∀ {w : Work} (t : Tables) (dx dy : Int) (dt : Nat), Q w →
    Q { w with m := (pointerInput t w.m dx dy dt).1 }
  scrollInput : ∀ {w : Work} (t : Tables) (dx dy : Int) {dt : Nat}, 2000 ≤ dt → dt ≤ 32000 → Q w →
    Q { w with m := (scrollInput t w.m dx dy dt).1 }

namespace KeptByWork

variable {Q : Work → Prop} {t : Tables} {now : Stamp} {v : PadView} {w : Work}

/-! ## Stage 1 -/

theorem leave (hQ : KeptByWork Q) (p : Option Nat) (st : GestureState) (h : Q w) : Q ((w.setPointer p).goto st) :=
  hQ.goto _ (hQ.setPointer _ h)

theorem release (hQ : KeptByWork Q) (p : Option Nat) (st : GestureState) (h : Q w) :
    Q (((w.setButton .none).setPointer p).goto st) :=
  hQ.leave _ _ (hQ.setButton _ h)

theorem departTouch (hQ : KeptByWork Q) (h : Q w) : Q (departTouch t now v w) := by
  unfold Machine.departTouch
  split
  · split
    · exact hQ.leave _ _ (hQ.onEngine rfl (hQ.setButton _ h))
    · exact hQ.leave _ _ h
  · split
    · exact hQ.leave _ _ h
    · exact h

theorem departPointing (hQ : KeptByWork Q) (h : Q w) : Q (departPointing v w) := by
  unfold Machine.departPointing
  split
  · exact hQ.leave _ _ h
  · exact h

theorem departHoldDrag (hQ : KeptByWork Q) (h : Q w) : Q (departHoldDrag v w) := by
  unfold Machine.departHoldDrag
  split
  · exact hQ.release _ _ h
  · exact h

theorem departTapDrag (hQ : KeptByWork Q) (h : Q w) : Q (departTapDrag t v w) := by
  unfold Machine.departTapDrag
  split
  · dsimp only
    split
    · exact hQ.release _ _ (hQ.setButton _ (hQ.setButton _ h))
    · exact hQ.release _ _ h
  · split
    · exact hQ.release _ _ h
    · exact h

theorem multiTap (hQ : KeptByWork Q) (peak : Nat) (h : Q w) : Q (multiTap peak w) := by
  unfold Machine.multiTap
  split
  · exact hQ.setButton _ (hQ.setButton _ h)
  · split
    · exact hQ.setButton _ (hQ.setButton _ h)
    · exact h

/-- The end of a MULTI episode (R92). -/
theorem endMulti (hQ : KeptByWork Q) (v : PadView) (h : Q w) :
    Q (if v.staying.isEmpty then
      ((if w.e.tapCandidate then Machine.multiTap w.e.peakCount w else w).onEngine Engine.clearLanding).goto .idle
    else w) := by
  split
  · refine hQ.goto _ (hQ.onEngine rfl ?_)
    split
    · exact hQ.multiTap _ h
    · exact h
  · exact h

theorem departMulti (hQ : KeptByWork Q) (h : Q w) : Q (departMulti t v w) := by
  refine hQ.endMulti (w := if (v.lifts.any (fun l => !tapLimits t l) || !v.withdrawals.isEmpty) = true
    then w.onEngine fun e => { e with tapCandidate := false } else w) v ?_
  split
  · exact hQ.onEngine rfl h
  · exact h

theorem departScrolling (hQ : KeptByWork Q) (h : Q w) : Q (departScrolling t now v w) := by
  unfold Machine.departScrolling
  dsimp only
  split
  · split
    · unfold endScroll
      dsimp only
      split
      · exact hQ.goto _ (hQ.onEngine rfl (hQ.onEngine rfl h))
      · exact hQ.goto _ (hQ.onEngine rfl (hQ.record _ (hQ.onEngine rfl h)))
    · exact hQ.goto _ (hQ.record _ (hQ.onEngine rfl h))
  · exact h

theorem departPinching (hQ : KeptByWork Q) (h : Q w) : Q (departPinching v w) := by
  unfold Machine.departPinching
  split
  · exact hQ.goto _ (hQ.record _ (hQ.onEngine rfl h))
  · exact h

theorem endSwipe (hQ : KeptByWork Q) (h : Q w) : Q (endSwipe w) := hQ.onEngine rfl (hQ.record _ h)

theorem departSwiping (hQ : KeptByWork Q) (h : Q w) : Q (departSwiping v w) := by
  unfold Machine.departSwiping
  split
  · exact hQ.goto _ (hQ.endSwipe h)
  · exact h

theorem departClicked (hQ : KeptByWork Q) (h : Q w) : Q (departClicked now v w) := by
  unfold Machine.departClicked
  split
  · exact hQ.setPointer _ h
  · exact h

theorem departResidual (hQ : KeptByWork Q) (h : Q w) : Q (departResidual v w) := by
  unfold Machine.departResidual
  split
  · exact hQ.goto _ h
  · exact h

theorem stage1 (hQ : KeptByWork Q) (h : Q w) : Q (stage1 t now v w) := by
  unfold Machine.stage1
  split
  case h_1 | h_5 | h_13 => exact h
  case h_2 => exact hQ.departTouch h
  case h_3 => exact hQ.departPointing h
  case h_4 => exact hQ.departHoldDrag h
  case h_6 => exact hQ.departTapDrag h
  case h_7 => exact hQ.departMulti h
  case h_8 => exact hQ.departScrolling h
  case h_9 => exact hQ.departPinching h
  case h_10 => exact hQ.departSwiping h
  case h_11 => exact hQ.departClicked h
  case h_12 => exact hQ.departResidual h

/-! ## Stage 2 -/

theorem enterMulti (hQ : KeptByWork Q) (candidate : Bool) (h : Q w) : Q (enterMulti candidate w) :=
  hQ.goto _ (hQ.onEngine rfl (hQ.onEngine rfl (hQ.setPointer _ h)))

theorem landIdle (hQ : KeptByWork Q) (h : Q w) : Q (landIdle v w) := by
  unfold Machine.landIdle
  split
  · exact h
  · exact hQ.leave _ _ h
  · exact hQ.enterMulti _ h

theorem endCoast (hQ : KeptByWork Q) (h : Q w) : Q (endCoast w) := hQ.goto _ (hQ.record _ (hQ.onEngine rfl h))

theorem landings (hQ : KeptByWork Q) (h : Q w) : Q (landings now v w) := by
  unfold Machine.landings
  split
  case h_1 => exact hQ.landIdle h
  case h_2 | h_3 => exact hQ.enterMulti _ h
  case h_5 => exact hQ.leave _ _ (hQ.onEngine rfl h)
  case h_11 => exact hQ.setPointer _ h
  case h_13 => exact hQ.landIdle (hQ.endCoast h)
  all_goals exact h

theorem retake (hQ : KeptByWork Q) (h : Q w) : Q (retake v w) := by
  unfold Machine.retake
  dsimp only
  split
  · exact hQ.onEngine rfl h
  · exact h

theorem stage2 (hQ : KeptByWork Q) (h : Q w) : Q (stage2 now v w) := by
  refine hQ.retake ?_
  split
  · exact h
  · exact hQ.landings h

/-! ## Stages 3 and 4 -/

theorem evalTouch (hQ : KeptByWork Q) (h : Q w) : Q (evalTouch t v w) := by
  unfold Machine.evalTouch
  split
  · exact h
  · split
    · exact hQ.goto _ h
    · split
      · exact hQ.goto _ (hQ.setButton _ h)
      · exact h

theorem spoilCandidate (hQ : KeptByWork Q) (h : Q w) : Q (spoilCandidate t v w) := by
  unfold Machine.spoilCandidate
  split
  · exact hQ.onEngine rfl h
  · exact h

theorem abandonMulti (hQ : KeptByWork Q) (h : Q w) : Q (abandonMulti w) := hQ.goto _ (hQ.onEngine rfl h)

theorem evalTwo (hQ : KeptByWork Q) (h : Q w) : Q (evalTwo t v w) := by
  unfold Machine.evalTwo
  dsimp only
  split
  · exact hQ.goto _ (hQ.onEngine rfl (hQ.onEngine rfl h))
  · split
    · exact hQ.goto _ (hQ.onEngine rfl (hQ.onEngine rfl h))
    · exact hQ.spoilCandidate h

theorem evalSwipe (hQ : KeptByWork Q) (h : Q w) : Q (evalSwipe t v w) := by
  unfold Machine.evalSwipe
  split
  · exact hQ.goto _ (hQ.record _ (hQ.onEngine rfl (hQ.onEngine rfl h)))
  · exact hQ.spoilCandidate h

theorem evalMulti (hQ : KeptByWork Q) (h : Q w) : Q (evalMulti t v w) := by
  unfold Machine.evalMulti
  dsimp only
  split
  · exact hQ.abandonMulti h
  · split
    · split
      · exact hQ.spoilCandidate h
      · exact hQ.abandonMulti h
    · split
      · exact hQ.evalTwo h
      · split
        · exact h
        · exact hQ.evalSwipe h

theorem stage3 (hQ : KeptByWork Q) (h : Q w) : Q (stage3 t v w) := by
  unfold Machine.stage3
  split
  case h_2 => exact hQ.evalTouch h
  case h_7 => exact hQ.evalMulti h
  all_goals exact h

theorem stage4 (hQ : KeptByWork Q) {dt : Nat} (hlow : 2000 ≤ dt) (hhigh : dt ≤ 32000) (before : Engine) (h : Q w) :
    Q (stage4 t dt v before w) := by
  unfold Machine.stage4
  split
  · exact h
  · split
    · split
      · exact h
      · unfold movePointer
        split
        · exact h
        · split
          · exact h
          · exact hQ.addMotion _ (hQ.pointerInput _ _ _ _ h)
    · split
      · unfold moveScroll
        dsimp only
        have hbase := fun c : Point => hQ.onEngine (f := fun e => { e with lastCentroid := some c }) rfl h
        split
        · exact hbase _
        · exact hQ.addMotion _ (hQ.scrollInput _ _ _ hlow hhigh (hbase _))
      · split
        · unfold movePinch
          dsimp only
          split
          · exact hQ.onEngine rfl h
          · exact hQ.addMotion _ (hQ.onEngine rfl h)
        · exact h

theorem padFrame (hQ : KeptByWork Q) {dt : Nat} (hlow : 2000 ≤ dt) (hhigh : dt ≤ 32000) {e : Engine} {m : Motion}
    (h : Q ⟨e, m, []⟩) : Q (padFrame t now dt v e m) :=
  hQ.stage4 hlow hhigh e (hQ.stage3 (hQ.stage2 (hQ.stage1 h)))

/-! ## Timers, clicks and surface loss -/

theorem tapGapExpired (hQ : KeptByWork Q) (h : Q w) : Q (tapGapExpired w) := by
  have hstopped := hQ.onEngine (f := fun e => { e with tapGapTimer := none }) rfl h
  unfold Machine.tapGapExpired
  dsimp only
  split
  · exact hQ.goto _ (hQ.setButton _ hstopped)
  · exact hstopped

theorem coastExpired (hQ : KeptByWork Q) (h : Q w) : Q (coastExpired t w) := by
  unfold Machine.coastExpired
  dsimp only
  split
  · exact hQ.endCoast (hQ.addMotion _ h)
  · exact hQ.onEngine rfl (hQ.addMotion _ h)

theorem beforeClick (hQ : KeptByWork Q) (h : Q w) : Q (beforeClick w) := by
  unfold Machine.beforeClick
  split
  case h_1 => exact hQ.endCoast h
  case h_2 => exact hQ.setButton _ (hQ.onEngine rfl h)
  case h_3 | h_4 => exact hQ.record _ h
  case h_5 => exact hQ.endSwipe h
  all_goals exact h

theorem clickPress (hQ : KeptByWork Q) (es : List Entry) (h : Q w) : Q (clickPress t now es w) := by
  unfold Machine.clickPress
  split
  · exact h
  · exact hQ.setPointer _ (hQ.goto _ (hQ.onEngine rfl (hQ.setButton _ (hQ.beforeClick h))))

theorem clickRelease (hQ : KeptByWork Q) (es : List Entry) (h : Q w) : Q (clickRelease es w) := by
  unfold Machine.clickRelease
  split
  · exact hQ.release _ _ h
  · exact h

theorem Work.setPointer_button (w : Work) (p : Option Nat) : (w.setPointer p).e.button = w.e.button := by
  unfold Work.setPointer
  split <;> rfl

theorem Work.setButton_button (w : Work) (b : Button) : (w.setButton b).e.button = b := by
  unfold Work.setButton
  split
  · assumption
  · rfl

theorem surfaceLoss (hQ : KeptByWork Q) (h : Q w) : Q (surfaceLoss w) := by
  refine hQ.onEngine (f := fun _ => initialEngine) ?_ (hQ.release none .idle h)
  rw [Work.goto, Work.setPointer_button, Work.setButton_button]
  rfl

end KeptByWork

end Sys2Proof.Machine
end

section
/-! What the queues' operations leave of the Report Link: the settings, the reply slot and the exchange, and at most the cause
OVERRUN latched (section 9.4). -/

namespace Sys2Proof.Machine

/-- Two links that differ in their queues, the overrun flags and the cause OVERRUN alone. -/
structure Link.SameButQueues (l m : Link) : Prop where
  latched : m.latched = l.latched ∨ m.latched = l.latched ||| causeBit .overrun
  masks : m.masks = l.masks := by rfl
  ceiling : m.ceiling = l.ceiling := by rfl
  reply : m.reply = l.reply := by rfl
  exchange : m.exchange = l.exchange := by rfl
  restartWaiting : m.restartWaiting = l.restartWaiting := by rfl
  selnSeenHigh : m.selnSeenHigh = l.selnSeenHigh := by rfl
  sdo : m.sdo = l.sdo := by rfl

namespace Link.SameButQueues

variable {l m n : Link}

theorem refl (l : Link) : l.SameButQueues l := ⟨.inl rfl, rfl, rfl, rfl, rfl, rfl, rfl, rfl⟩

theorem trans (h : l.SameButQueues m) (h' : m.SameButQueues n) : l.SameButQueues n where
  latched := by
    rcases h.latched with hl | hl <;> rcases h'.latched with hm | hm <;> rw [hm, hl]
    · exact .inl rfl
    · exact .inr rfl
    · exact .inr rfl
    · exact .inr (by rw [BitVec.or_assoc, BitVec.or_self])
  masks := h'.masks.trans h.masks
  ceiling := h'.ceiling.trans h.ceiling
  reply := h'.reply.trans h.reply
  exchange := h'.exchange.trans h.exchange
  restartWaiting := h'.restartWaiting.trans h.restartWaiting
  selnSeenHigh := h'.selnSeenHigh.trans h.selnSeenHigh
  sdo := h'.sdo.trans h.sdo

theorem foldl {α : Type} {f : Link → α → Link} (hf : ∀ (l : Link) (a : α), l.SameButQueues (f l a)) (xs : List α) (l : Link) :
    l.SameButQueues (xs.foldl f l) :=
  List.foldlRecOn (motive := l.SameButQueues) xs f (refl l) fun m hm a _ => hm.trans (hf m a)

theorem appendPen (l : Link) (x : PenSample) : l.SameButQueues (l.appendPen x) := by
  unfold Link.appendPen
  split
  · exact { latched := .inl rfl }
  · exact { latched := .inr rfl }

theorem pushScreen (l : Link) (x : TouchRecord) : l.SameButQueues (l.pushScreen x) := by
  unfold Link.pushScreen
  split
  · exact { latched := .inl rfl }
  · exact { latched := .inr rfl }

theorem appendScreen (l : Link) (x : TouchRecord) : l.SameButQueues (l.appendScreen x) := by
  unfold Link.appendScreen
  split
  · split
    · exact { latched := .inl rfl }
    · exact pushScreen l x
  · exact pushScreen l x

theorem openTail (l : Link) (b : Button) (change : Bool) : l.SameButQueues (l.openTail b change) := by
  unfold Link.openTail
  dsimp only
  split
  · exact { latched := .inl rfl }
  · exact { latched := .inr rfl }

theorem withPointer (l : Link) (q : List PointerRecord) : l.SameButQueues { l with pointer := q } :=
  { latched := .inl rfl }

theorem addMotion (l : Link) (b : Button) (d : Delta) : l.SameButQueues (l.addMotion b d) := by
  unfold Link.addMotion
  dsimp only
  split
  · exact withPointer l _
  · exact (openTail l b false).trans (withPointer _ _)

theorem buttonChange (l : Link) (b : Button) : l.SameButQueues (l.buttonChange b) := by
  unfold Link.buttonChange
  split
  · split
    · exact withPointer l _
    · exact (withPointer l _).trans (openTail _ b true)
  · exact openTail l b true

theorem appendGesture (l : Link) (g : Gesture) : l.SameButQueues (l.appendGesture g) := by
  unfold Link.appendGesture
  split
  · exact { latched := .inl rfl }
  · exact { latched := .inr rfl }

theorem take (l : Link) (o : Out) : l.SameButQueues (l.take o) := by
  cases o with
  | button b => exact buttonChange l b
  | motion b d => exact addMotion l b d
  | gesture g => exact appendGesture l g

theorem takeAll (l : Link) (outs : List Out) : l.SameButQueues (l.takeAll outs) := foldl take outs l

theorem appendPens (l : Link) (xs : List PenSample) : l.SameButQueues (xs.foldl Link.appendPen l) := foldl appendPen xs l

theorem appendScreens (l : Link) (rs : List TouchRecord) : l.SameButQueues (rs.foldl Link.appendScreen l) :=
  foldl appendScreen rs l

end Link.SameButQueues

end Sys2Proof.Machine
end

section
/-! Every step keeps the motion values, the pointer records, the settings, the reply and the cell in their ranges (section 6.1,
9.1, 9.2, 9.4, 9.5). -/

namespace Sys2Proof.Machine

/-! ## Motion Transfer (R112, R113, R117) -/

theorem axisStep_residue_le (limit d gain : Int) (residue : Nat) : (axisStep limit d gain residue).2 ≤ 255 := by
  unfold axisStep
  dsimp only
  split
  · exact Nat.zero_le _
  · split
    · exact Nat.zero_le _
    · have := Int.emod_lt_of_pos (d * gain + residue) (show (0 : Int) < 256 by decide)
      dsimp only
      omega

theorem axisStep_within {limit : Int} (h : 0 ≤ limit) (d gain : Int) (residue : Nat) :
    within limit (axisStep limit d gain residue).1 := by
  unfold axisStep within
  dsimp only
  (repeat' split) <;> dsimp only <;> omega

/-- The residues, the last scroll output and the interval of Motion Transfer in their ranges (section 6.1). -/
def Motion.inRange (m : Motion) : Prop :=
  (m.pointerX ≤ 255 ∧ m.pointerY ≤ 255 ∧ m.scrollX ≤ 255 ∧ m.scrollY ≤ 255) ∧
    (within 2047 m.lastOutX ∧ within 2047 m.lastOutY) ∧ (2000 ≤ m.lastInterval ∧ m.lastInterval ≤ 32000)

theorem initialMotion_inRange : initialMotion.inRange := by simp [initialMotion, Motion.inRange, within]

theorem Motion.clearPointer_inRange {m : Motion} (h : m.inRange) : m.clearPointer.inRange := by
  obtain ⟨⟨-, -, hx, hy⟩, hout, hinterval⟩ := h
  exact ⟨⟨Nat.zero_le _, Nat.zero_le _, hx, hy⟩, hout, hinterval⟩

theorem Motion.clearScroll_inRange {m : Motion} (h : m.inRange) : m.clearScroll.inRange := by
  obtain ⟨⟨hx, hy, -⟩, -⟩ := h
  simp [Motion.clearScroll, Motion.inRange, within, hx, hy]

theorem pointerInput_inRange {m : Motion} (t : Tables) (dx dy : Int) (dt : Nat) (h : m.inRange) :
    (pointerInput t m dx dy dt).1.inRange := by
  obtain ⟨⟨-, -, hx, hy⟩, hout, hinterval⟩ := h
  exact ⟨⟨axisStep_residue_le _ _ _ _, axisStep_residue_le _ _ _ _, hx, hy⟩, hout, hinterval⟩

theorem scrollInput_inRange {m : Motion} (t : Tables) (dx dy : Int) {dt : Nat} (hlow : 2000 ≤ dt) (hhigh : dt ≤ 32000)
    (h : m.inRange) : (scrollInput t m dx dy dt).1.inRange := by
  obtain ⟨⟨hx, hy, -⟩, -⟩ := h
  exact ⟨⟨hx, hy, axisStep_residue_le _ _ _ _, axisStep_residue_le _ _ _ _⟩,
    ⟨axisStep_within (by decide) _ _ _, axisStep_within (by decide) _ _ _⟩, hlow, hhigh⟩

theorem motion_inRange_kept : KeptByWork fun w => w.m.inRange where
  setButton b h := by
    unfold Work.setButton
    split <;> exact h
  record _ h := h
  goto {w} st h := by
    have hcleared : (if w.e.state ≠ st ∧ (w.e.state.moves || st.moves) = true then w.m.clearPointer else w.m).inRange := by
      split
      · exact Motion.clearPointer_inRange h
      · exact h
    unfold Work.goto
    dsimp only
    split
    · exact Motion.clearScroll_inRange hcleared
    · exact hcleared
  setPointer _ h := by
    unfold Work.setPointer
    split
    · exact h
    · exact Motion.clearPointer_inRange h
  onEngine _ h := h
  addMotion _ h := h
  pointerInput t dx dy dt h := pointerInput_inRange t dx dy dt h
  scrollInput t dx dy _ hlow hhigh h := scrollInput_inRange t dx dy hlow hhigh h

/-! ## Pointer records (R114, R159) -/

theorem clampInt_within {limit : Int} (h : 0 ≤ limit) (x : Int) : within limit (clampInt (-limit) limit x) := by
  rw [clampInt_eq_max_min limit x h]
  unfold within
  omega

theorem addDelta_inRange (a b : Delta) : (addDelta a b).inRange :=
  ⟨clampInt_within (by decide) _, clampInt_within (by decide) _, clampInt_within (by decide) _,
    clampInt_within (by decide) _, clampInt_within (by decide) _⟩

theorem zeroDelta_inRange : zeroDelta.inRange := by simp [zeroDelta, Delta.inRange, within]

/-- Every pointer record of a queue in its ranges. -/
def motionsInRange (q : List PointerRecord) : Prop := ∀ r ∈ q, r.motion.inRange

theorem changeTail_motionsInRange {f : PointerRecord → PointerRecord} :
    ∀ {q : List PointerRecord}, (∀ r ∈ q, (f r).motion.inRange) → motionsInRange q → motionsInRange (changeTail f q)
  | [], _, h => h
  | [r], hf, h => by
    intro x hx
    simp only [changeTail, List.mem_singleton] at hx
    rw [hx]
    split
    · exact hf r (List.mem_singleton.2 rfl)
    · exact h r (List.mem_singleton.2 rfl)
  | r :: r' :: rs, hf, h => by
    intro x hx
    rcases List.mem_cons.1 hx with rfl | hx
    · exact h x List.mem_cons_self
    · exact changeTail_motionsInRange (fun y hy => hf y (List.mem_cons_of_mem r hy))
        (fun y hy => h y (List.mem_cons_of_mem r hy)) x hx

theorem mergeOldest_motionsInRange : ∀ {q q' : List PointerRecord}, mergeOldest q = some q' → motionsInRange q → motionsInRange q'
  | [], _, hmerge, _ => by cases hmerge
  | [_], _, hmerge, _ => by cases hmerge
  | a :: b :: rest, q', hmerge, h => by
    unfold mergeOldest at hmerge
    split at hmerge
    · obtain ⟨q, hq, rfl⟩ := Option.map_eq_some_iff.1 hmerge
      intro x hx
      rcases List.mem_cons.1 hx with rfl | hx
      · exact h x List.mem_cons_self
      · exact mergeOldest_motionsInRange hq (fun y hy => h y (List.mem_cons_of_mem a hy)) x hx
    · split at hmerge
      · cases hmerge
        intro x hx
        rcases List.mem_cons.1 hx with rfl | hx
        · exact addDelta_inRange _ _
        · exact h x (List.mem_cons_of_mem a (List.mem_cons_of_mem b hx))
      · cases hmerge

section Pointer

variable {l : Link}

theorem motionsInRange_concat {q : List PointerRecord} {r : PointerRecord} (h : motionsInRange q) (hr : r.motion.inRange) :
    motionsInRange (q ++ [r]) := by
  intro x hx
  rcases List.mem_append.1 hx with hx | hx
  · exact h x hx
  · rwa [List.mem_singleton.1 hx]

theorem Link.openTail_motionsInRange (b : Button) (change : Bool) (h : motionsInRange l.pointer) :
    motionsInRange (l.openTail b change).pointer := by
  unfold Link.openTail
  dsimp only
  split
  · exact motionsInRange_concat h zeroDelta_inRange
  · dsimp only
    split
    next q hq => exact motionsInRange_concat (mergeOldest_motionsInRange hq h) zeroDelta_inRange
    next => exact h

theorem Link.addMotion_motionsInRange (b : Button) (d : Delta) (h : motionsInRange l.pointer) :
    motionsInRange (l.addMotion b d).pointer := by
  refine changeTail_motionsInRange (fun _ _ => addDelta_inRange _ _) ?_
  split
  · exact h
  · exact Link.openTail_motionsInRange b false h

theorem Link.buttonChange_motionsInRange (b : Button) (h : motionsInRange l.pointer) :
    motionsInRange (l.buttonChange b).pointer := by
  unfold Link.buttonChange
  split
  · split
    · exact changeTail_motionsInRange h h
    · exact Link.openTail_motionsInRange b true (changeTail_motionsInRange h h)
  · exact Link.openTail_motionsInRange b true h

theorem Link.take_motionsInRange (o : Out) (h : motionsInRange l.pointer) : motionsInRange (l.take o).pointer := by
  cases o with
  | button b => exact Link.buttonChange_motionsInRange b h
  | motion b d => exact Link.addMotion_motionsInRange b d h
  | gesture g =>
    show motionsInRange (l.appendGesture g).pointer
    unfold Link.appendGesture
    split <;> exact h

theorem Link.takeAll_motionsInRange (outs : List Out) (h : motionsInRange l.pointer) :
    motionsInRange (l.takeAll outs).pointer :=
  List.foldlRecOn (motive := fun m : Link => motionsInRange m.pointer) outs _ h
    fun _ hm o _ => Link.take_motionsInRange o hm

end Pointer

/-! ## Settings and causes (R153, R161) -/

theorem Half.or_and_eq_zero {a b m : Half} (ha : a &&& m = 0) (hb : b &&& m = 0) : (a ||| b) &&& m = 0 := by
  have hdistrib : (a ||| b) &&& m = (a &&& m) ||| (b &&& m) := by
    ext i
    simp [Bool.and_or_distrib_right]
  rw [hdistrib, ha, hb]
  rfl

theorem Half.and_and_eq_zero {a m : Half} (b : Half) (h : a &&& m = 0) : (a &&& b) &&& m = 0 := by
  rw [BitVec.and_assoc, BitVec.and_comm b m, ← BitVec.and_assoc, h]
  exact BitVec.zero_and

theorem Half.and_high_eq_zero {a : Half} (h : a.toNat < 512) : a &&& 0xFE00 = 0 := by
  have hshift : a >>> 9 = 0 := by simpa [causesOutOfRange] using causesOutOfRange_eq_false h
  rw [show (0xFE00 : Half) = BitVec.allOnes 16 <<< 9 by decide, ← BitVec.shiftLeft_ushiftRight, hshift]
  decide

/-- An event cause is among those that can be latched. -/
theorem causeBit_event {c : Cause} (hlate : c ≠ .streamLate) (hposture : c ≠ .posturePending) :
    causeBit c &&& 0xFF04 = 0 := by
  cases c with
  | streamLate => exact absurd rfl hlate
  | posturePending => exact absurd rfl hposture
  | restarted => decide
  | streamDown => decide
  | overrun => decide
  | frameBad => decide
  | linkError => decide
  | tableSwapped => decide
  | postureChanged => decide

theorem Link.latch_settingsSound {l : Link} {c : Cause} (hlate : c ≠ .streamLate) (hposture : c ≠ .posturePending)
    (h : l.settingsSound) : (l.latch c).settingsSound := by
  obtain ⟨hceiling, hmasks, hlatched⟩ := h
  exact ⟨hceiling, hmasks, Half.or_and_eq_zero hlatched (causeBit_event hlate hposture)⟩

theorem Link.SameButQueues.settingsSound {l m : Link} (same : l.SameButQueues m) (h : l.settingsSound) :
    m.settingsSound := by
  obtain ⟨hceiling, hmasks, hlatched⟩ := h
  refine ⟨by rwa [same.ceiling], by rwa [same.masks], ?_⟩
  rcases same.latched with heq | heq <;> rw [heq]
  · exact hlatched
  · exact Half.or_and_eq_zero hlatched (by decide)

theorem Link.SameButQueues.cellSound {l m : Link} (same : l.SameButQueues m) (h : l.cellSound) : m.cellSound := by
  unfold Link.cellSound at h ⊢
  rwa [same.reply, same.exchange]

/-! ## The cell (R150, R154, R167) -/

theorem penSampleBytes_length (r : PenSample) : (penSampleBytes r).length = 12 := rfl
theorem touchRecordBytes_length (r : TouchRecord) : (touchRecordBytes r).length = 8 := rfl
theorem pointerRecordBytes_length (r : PointerRecord) : (pointerRecordBytes r).length = 8 := rfl
theorem gestureBytes_length (g : Gesture) : (gestureBytes g).length = 4 := by cases g <;> rfl

/-- The records of a fill and the bytes left of it are 60 bytes. -/
def Fill.fits (f : Fill) : Prop := f.bytes.length + f.left = 60

/-- A class placed: its bytes are taken from those left. -/
theorem Fill.fits_place {α : Type} {f : Fill} {size : Nat} {send : α → Bool} {enc : α → List Byte} {q : List α} {l : Link}
    (hsize : 0 < size) (henc : ∀ a, (enc a).length = size) (h : f.fits) :
    Fill.fits ⟨l, f.bytes ++ (q.take (fitCount size send f.left q)).flatMap enc, f.left - size * fitCount size send f.left q⟩ := by
  have hn : fitCount size send f.left q ≤ q.length ∧ size * fitCount size send f.left q ≤ f.left := by
    rw [fitCount_eq size hsize]
    exact ⟨(Nat.min_le_left _ _).trans (List.takeWhile_sublist _).length_le,
      (Nat.mul_le_mul_left _ (Nat.min_le_right _ _)).trans (Nat.mul_div_le _ _)⟩
  have hbytes : ((q.take (fitCount size send f.left q)).flatMap enc).length = size * fitCount size send f.left q := by
    rw [List.length_flatMap, List.map_congr_left (g := fun _ => size) fun a _ => henc a, List.map_const',
      List.sum_replicate, List.length_take, Nat.min_eq_left hn.1, smul_eq_mul, Nat.mul_comm]
  unfold Fill.fits at h ⊢
  dsimp only
  rw [List.length_append, hbytes]
  omega

theorem fillReply_fits {l : Link} (h : ∀ r ∈ l.reply, (replyBytes r).length ≤ 60) : (fillReply l).fits := by
  unfold fillReply Fill.fits
  split
  · rfl
  next r hr =>
    have := h r hr
    dsimp only
    omega

theorem fillAll_fits {l : Link} (h : ∀ r ∈ l.reply, (replyBytes r).length ≤ 60) : (fillAll l).fits := by
  have hpen : (fillPen (fillReply l)).fits := by
    unfold fillPen
    split
    · exact Fill.fits_place (by decide) penSampleBytes_length (fillReply_fits h)
    · exact fillReply_fits h
  have hscreen : (fillScreen (fillPen (fillReply l))).fits := by
    unfold fillScreen
    split
    · exact Fill.fits_place (by decide) touchRecordBytes_length hpen
    · exact hpen
  have hpointer : (fillPointer (fillScreen (fillPen (fillReply l)))).fits := by
    unfold fillPointer
    split
    · exact Fill.fits_place (by decide) pointerRecordBytes_length hscreen
    · exact hscreen
  unfold fillAll fillGesture
  split
  · exact Fill.fits_place (by decide) (fun r => gestureBytes_length r.gesture) hpointer
  · exact hpointer

theorem cellBytes_length {top : Nat} {more : Bool} {p : Posture} {records : List Byte} (h : records.length ≤ 60) :
    (cellBytes top more p records).length = 64 := by
  simp only [cellBytes, List.length_append, List.length_cons, List.length_nil, List.length_replicate]
  omega

/-- What a fill leaves of the link but the in-flight marks and the closed tail. -/
theorem fillAll_link (l : Link) :
    (fillAll l).link.ceiling = l.ceiling ∧ (fillAll l).link.masks = l.masks ∧ (fillAll l).link.latched = l.latched ∧
      (fillAll l).link.reply = l.reply.map (fun r => { r with inFlight := true }) ∧
      (fillAll l).link.selnSeenHigh = l.selnSeenHigh ∧ (fillAll l).link.pointer.map (·.motion) = l.pointer.map (·.motion) := by
  have hhead (n : Nat) (q : List PointerRecord) :
      (onHead n (fun r => { r with inFlight := true, isOpen := false }) q).map (·.motion) = q.map (·.motion) := by
    conv_rhs => rw [← List.take_append_drop n q]
    simp [onHead, Function.comp_def]
  unfold fillAll fillGesture fillPointer
  rw [fillScreen_eq, fillPen_eq, fillReply_eq]
  dsimp only
  (repeat' split) <;> simp [hhead]

/-! ## The operations -/

/-- What the ranges of the statement are about. -/
def State.valuesSound (s : State) : Prop :=
  s.motion.inRange ∧ motionsInRange s.link.pointer ∧ s.link.settingsSound ∧ s.link.cellSound

theorem State.valuesSound_iff (s : State) :
    s.valuesSound ↔ s.motionSound ∧ s.link.settingsSound ∧ s.link.cellSound := by
  unfold State.valuesSound State.motionSound Motion.inRange motionsInRange
  tauto

section Operations

variable {s : State}

/-- A change of the link that works on its queues, with the pointer records kept in their ranges. -/
theorem State.valuesSound_queues {l : Link} (same : s.link.SameButQueues l) (hpointer : motionsInRange l.pointer)
    (h : s.valuesSound) : State.valuesSound { s with link := l } := by
  obtain ⟨hmotion, -, hsettings, hcell⟩ := h
  exact ⟨hmotion, hpointer, same.settingsSound hsettings, same.cellSound hcell⟩

theorem State.pads_valuesSound {f : Work → Work} (hf : (f ⟨s.engine, s.motion, []⟩).m.inRange) (h : s.valuesSound) :
    (s.pads f).valuesSound := by
  obtain ⟨-, hpointer, hsettings, hcell⟩ := h
  have same := Link.SameButQueues.takeAll s.link (f ⟨s.engine, s.motion, []⟩).out
  exact ⟨hf, Link.takeAll_motionsInRange _ hpointer, same.settingsSound hsettings, same.cellSound hcell⟩

theorem foldl_appendPen_pointer (xs : List PenSample) (l : Link) : (xs.foldl Link.appendPen l).pointer = l.pointer :=
  List.foldlRecOn (motive := fun m : Link => m.pointer = l.pointer) xs _ rfl fun m hm x _ =>
    (Link.grown_appendPen m x).2.2.trans hm

theorem State.appendScreens_valuesSound (rs : List TouchRecord) (h : s.valuesSound) : (s.appendScreens rs).valuesSound :=
  State.valuesSound_queues (Link.SameButQueues.appendScreens _ rs)
    (by rw [(Link.grown_appendScreens rs s.link).2.2]; exact h.2.1) h

theorem State.fill_valuesSound (h : s.valuesSound) : s.fill.valuesSound := by
  obtain ⟨hmotion, hpointer, ⟨hceiling, hmasks, hlatched⟩, hreply, -⟩ := h
  obtain ⟨heqCeiling, heqMasks, heqLatched, heqReply, -, heqPointer⟩ := fillAll_link s.link
  have hfits := fillAll_fits hreply
  unfold State.fill
  generalize fillAll s.link = f at heqCeiling heqMasks heqLatched heqReply heqPointer hfits ⊢
  unfold Fill.fits at hfits
  refine ⟨hmotion, fun r hr => ?_, ⟨by rwa [← heqCeiling] at hceiling, by rwa [← heqMasks] at hmasks,
    by rwa [← heqLatched] at hlatched⟩, fun r hr => ?_, fun e he => ?_⟩
  · have hr' : r.motion ∈ s.link.pointer.map (·.motion) := heqPointer ▸ List.mem_map_of_mem hr
    obtain ⟨r', hmem, hsame⟩ := List.mem_map.1 hr'
    exact hsame ▸ hpointer r' hmem
  · have hr' : r ∈ f.link.reply := hr
    rw [heqReply] at hr'
    obtain ⟨r', hmem, rfl⟩ := Option.mem_map.1 hr'
    exact hreply r' hmem
  · cases Option.mem_some.1 he
    exact ⟨cellBytes_length (by omega), Nat.zero_le _, rfl⟩

theorem State.truncate_valuesSound (h : s.valuesSound) : s.truncate.valuesSound := by
  obtain ⟨hmotion, hpointer, hsettings, hreply, -⟩ := h
  refine ⟨hmotion, fun r hr => ?_, Link.latch_settingsSound (by decide) (by decide) hsettings, fun r hr => ?_, by simp [State.truncate]⟩
  · obtain ⟨r', hr', rfl⟩ := List.mem_map.1 hr
    exact hpointer r' hr'
  · obtain ⟨r', hr', rfl⟩ := Option.mem_map.1 hr
    exact hreply r' hr'

theorem initialLink_sound (b : Bool) : (initialLink b).settingsSound ∧ (initialLink b).cellSound := by
  simp [initialLink, Link.settingsSound, Link.cellSound]

theorem State.powerOn_valuesSound : s.powerOn.valuesSound := by
  obtain ⟨hsettings, hcell⟩ := initialLink_sound (!s.pins.selnLow)
  exact ⟨initialMotion_inRange, by simp [State.powerOn, initialLink, motionsInRange],
    hsettings, hcell⟩

theorem State.valuesSound_kept : KeptByOperations State.valuesSound where
  congr h same := by
    unfold State.valuesSound at h ⊢
    rwa [same.motion, same.link]
  latch hlate hposture h := ⟨h.1, h.2.1, Link.latch_settingsSound hlate hposture h.2.2.1, h.2.2.2⟩
  hold b r h := by
    unfold State.valuesSound at h ⊢
    rwa [State.hold_motion, State.hold_link]
  tearPad h := State.pads_valuesSound (motion_inRange_kept.surfaceLoss h.1) h
  tearScreen h := State.appendScreens_valuesSound _ h
  pens {s f} _ h := State.valuesSound_queues (Link.SameButQueues.appendPens s.link (f s.pen).out)
    ((foldl_appendPen_pointer (f s.pen).out s.link).symm ▸ h.2.1) h
  padFrameWork hlow hhigh h := State.pads_valuesSound (motion_inRange_kept.padFrame hlow hhigh h.1) h
  screenFrameWork h := State.appendScreens_valuesSound _ h
  appendGesture {s} g h := State.valuesSound_queues (Link.SameButQueues.appendGesture s.link g)
    (Link.take_motionsInRange (.gesture g) h.2.1) h
  press _ _ h := State.pads_valuesSound (motion_inRange_kept.clickPress _ h.1) h
  release h := State.pads_valuesSound (motion_inRange_kept.clickRelease _ h.1) h
  tapGap h := State.pads_valuesSound (motion_inRange_kept.tapGapExpired h.1) h
  coast _ _ h := State.pads_valuesSound (motion_inRange_kept.coastExpired h.1) h
  restartEffect h := ⟨initialMotion_inRange, by simp [State.restartEffect, Link.restarted, motionsInRange],
    ⟨h.2.2.1.1, h.2.2.1.2.1, (by decide : causeBit .restarted &&& 0xFF04 = 0)⟩, h.2.2.2⟩
  masks hset h := ⟨h.1, h.2.1, ⟨h.2.2.1.1, Half.and_high_eq_zero hset, h.2.2.1.2.2⟩, h.2.2.2⟩
  ceiling hlow hhigh h := ⟨h.1, h.2.1, ⟨⟨hlow, hhigh⟩, h.2.2.1.2⟩, h.2.2.2⟩
  clearCauses set h := by
    unfold takeClearCauses
    split
    · exact h
    · obtain ⟨hmotion, hpointer, ⟨hceiling, hmasks, hlatched⟩, hcell⟩ := h
      exact ⟨hmotion, hpointer, ⟨hceiling, hmasks, Half.and_and_eq_zero _ hlatched⟩, hcell⟩
  restartWaiting h := h
  reply hfits h := ⟨h.1, h.2.1, h.2.2.1, fun r hr => by cases Option.mem_some.1 hr; exact hfits, h.2.2.2.2⟩
  shiftOut _ h := h
  countByte {s e} b he hcount h := by
    obtain ⟨hmotion, hpointer, hsettings, hreply, hcell⟩ := h
    obtain ⟨hlen, -, hreceived⟩ := hcell e he
    rw [if_pos (by omega)] at hreceived
    refine ⟨hmotion, hpointer, hsettings, hreply, fun e' he' => ?_⟩
    cases Option.mem_some.1 he'
    refine ⟨hlen, by dsimp only; omega, ?_⟩
    rw [if_pos (by dsimp only; omega)]
    simp [hreceived]
  completeExchange {s e} he _ h := by
    obtain ⟨hmotion, hpointer, hsettings, hreply, hcell⟩ := h
    refine ⟨hmotion, fun r hr => hpointer r (List.mem_of_mem_filter hr), hsettings, fun r hr => ?_, fun e' he' => ?_⟩
    · have hr' : r ∈ s.link.sent.reply := hr
      rw [Link.sent_reply] at hr'
      exact hreply r (Option.mem_filter_iff.1 hr').1
    · obtain ⟨e₀, he₀, rfl⟩ := Option.mem_map.1 he'
      exact ⟨(hcell e₀ he₀).1, le_refl 64, rfl⟩
  assertSeln h := by
    unfold State.assertSeln
    split
    · exact h
    · dsimp only
      split
      · exact h
      · exact State.fill_valuesSound h
  releaseSeln h := by
    unfold State.releaseSeln
    dsimp only
    split
    · split
      · exact h
      · split
        · exact State.truncate_valuesSound h
        · exact ⟨h.1, h.2.1, h.2.2.1, h.2.2.2.1, by simp⟩
    · exact h
  powerOn _ := State.powerOn_valuesSound
  hardReset _ := State.powerOn_valuesSound
  releaseReset h := by
    unfold State.releaseReset
    split <;> exact h

end Operations

/-! ## The statement -/

/-- Settles O59: the operations of Motion Transfer and the link write values in their ranges. -/
theorem stepKeepsValuesInRange : Obligations.StepKeepsValuesInRange := by
  intro s t hmotion hsettings hcell hstep
  exact (State.valuesSound_iff t).1 (State.valuesSound_kept.step ((State.valuesSound_iff s).2 ⟨hmotion, hsettings, hcell⟩) hstep)

end Sys2Proof.Machine
end

section
/-! Every step keeps the queues within their capacities, what is in flight at their heads, and the open tail under the engine's
button state (sections 9.1 and 9.4). -/

namespace Sys2Proof.Machine

/-! ## A queue by its in-flight marks (R155) -/

/-- The in-flight marks of a queue: within the capacity, at most `n` at the head, and none while the link is quiet. -/
def marksSound (cap n : Nat) (quiet : Prop) (marks : List Bool) : Prop :=
  marks.length ≤ cap ∧ headInFlight n marks ∧ (quiet → ∀ m ∈ marks, m = false)

section Marks

variable {cap n : Nat} {quiet : Prop} {marks marks' : List Bool}

theorem marksSound_nil : marksSound cap n quiet [] := by simp [marksSound, headInFlight]

theorem marksSound.sublist (h : marksSound cap n quiet marks) (hsub : marks'.Sublist marks) :
    marksSound cap n quiet marks' := by
  obtain ⟨hlen, ⟨hpair, hcount⟩, hquiet⟩ := h
  exact ⟨hsub.length_le.trans hlen, ⟨hpair.sublist hsub, (hsub.count_le true).trans hcount⟩,
    fun q m hm => hquiet q m (hsub.subset hm)⟩

/-- A record that arrives is not in flight. -/
theorem marksSound.arrive (h : marksSound cap n quiet marks) (hlen : marks.length < cap) :
    marksSound cap n quiet (marks ++ [false]) := by
  obtain ⟨-, ⟨hpair, hcount⟩, hquiet⟩ := h
  refine ⟨by rw [List.length_append]; exact hlen, ⟨?_, ?_⟩, fun q m hm => ?_⟩
  · exact List.pairwise_append.2 ⟨hpair, List.pairwise_singleton _ _, by simp⟩
  · simpa using hcount
  · rcases List.mem_append.1 hm with hm | hm
    · exact hquiet q m hm
    · exact List.mem_singleton.1 hm

/-- A record that arrives where one is given up. -/
theorem marksSound.giveUp (h : marksSound cap n quiet marks) (hsub : marks'.Sublist marks)
    (hlen : marks'.length < marks.length) : marksSound cap n quiet (marks' ++ [false]) :=
  (h.sublist hsub).arrive (hlen.trans_le h.1)

/-- Where nothing was in flight, the head that a fill takes is in flight. -/
theorem marksSound_fill {α : Type} {fl : α → Bool} {f : α → α} {q : List α} {k : Nat} (hf : ∀ a, fl (f a) = true)
    (hlen : q.length ≤ cap) (hnone : ∀ a ∈ q, fl a = false) (hk : k ≤ n) (hquiet : ¬quiet) :
    marksSound cap n quiet ((onHead k f q).map fl) := by
  have hmarks : (onHead k f q).map fl = List.replicate (min k q.length) true ++ List.replicate (q.length - k) false := by
    rw [onHead, List.map_append, List.map_map]
    congr 1
    · rw [← List.length_take]
      refine List.eq_replicate_iff.2 ⟨by simp, fun b hb => ?_⟩
      obtain ⟨a, -, rfl⟩ := List.mem_map.1 hb
      exact hf a
    · rw [← List.length_drop]
      refine List.eq_replicate_iff.2 ⟨by simp, fun b hb => ?_⟩
      obtain ⟨a, ha, rfl⟩ := List.mem_map.1 hb
      exact hnone a (List.mem_of_mem_drop ha)
  rw [hmarks]
  refine ⟨?_, ⟨?_, ?_⟩, fun h => absurd h hquiet⟩
  · rw [List.length_append, List.length_replicate, List.length_replicate]
    omega
  · refine List.pairwise_append.2 ⟨?_, ?_, ?_⟩
    · exact List.pairwise_replicate.2 (.inr fun _ => rfl)
    · exact List.pairwise_replicate.2 (.inr fun h => h)
    · intro a ha b hb hb'
      rw [(List.mem_replicate.1 hb).2] at hb'
      cases hb'
  · rw [List.count_append, List.count_replicate_self, List.count_replicate]
    simp only [Bool.false_eq_true, if_false, beq_iff_eq]
    omega

theorem marksSound_none (hlen : marks.length ≤ cap) (hnone : ∀ m ∈ marks, m = false) : marksSound cap n quiet marks := by
  refine ⟨hlen, ⟨?_, ?_⟩, fun _ => hnone⟩
  · exact List.pairwise_of_forall_mem_list fun a _ b hb hb' => by rw [hnone b hb] at hb'; cases hb'
  · rw [List.count_eq_zero.2 fun hm => by cases hnone true hm]
    exact Nat.zero_le n

end Marks

/-! ## The pen queue (R156) -/

theorem penVictim_lt {q : List PenSample} {i : Nat} (h : penVictim q = some i) : i < q.length := by
  unfold penVictim at h
  split at h
  next j hj =>
    cases h
    exact (List.findIdx?_eq_some_iff_findIdx_eq.1 hj).1
  next => exact (List.findIdx?_eq_some_iff_findIdx_eq.1 h).1

theorem markGap_marks (q : List PenSample) : (markGap q).map (·.inFlight) = q.map (·.inFlight) := by
  cases q <;> rfl

section Queues

variable {quiet : Prop} {l : Link}

theorem Link.appendPen_marks {x : PenSample} (hx : x.inFlight = false) (h : marksSound 32 5 quiet (l.pen.map (·.inFlight))) :
    marksSound 32 5 quiet ((l.appendPen x).pen.map (·.inFlight)) := by
  unfold Link.appendPen
  split
  next hroom =>
    dsimp only
    rw [List.map_append, List.map_singleton, hx]
    exact h.arrive (by rwa [List.length_map])
  next =>
    show marksSound 32 5 quiet ((penMakeRoom l.pen x).map (·.inFlight))
    unfold penMakeRoom
    split
    next i hi =>
      rw [List.map_append, markGap_marks, List.map_append, List.map_singleton, hx, ← List.append_assoc, ← List.map_append,
        ← List.eraseIdx_eq_take_drop_succ]
      refine h.giveUp ((List.eraseIdx_sublist _ _).map _) ?_
      have := penVictim_lt hi
      rw [List.length_map, List.length_map, List.length_eraseIdx_of_lt this]
      omega
    next => exact h

/-! ## The screen queue (R157) -/

theorem removePair_sublist : ∀ {q q' : List TouchRecord}, removePair q = some q' → q'.Sublist q ∧ q'.length < q.length
  | [], _, h => by cases h
  | r :: rs, q', h => by
    unfold removePair at h
    dsimp only at h
    split at h
    next rest hrest =>
      cases h
      have herase : ∃ j, q' = rs.eraseIdx j := by
        split at hrest
        · split at hrest
          · split at hrest
            · exact ⟨_, (Option.some.inj hrest).symm⟩
            · cases hrest
          · cases hrest
        · cases hrest
      obtain ⟨j, rfl⟩ := herase
      exact ⟨(List.eraseIdx_sublist rs j).trans (List.sublist_cons_self r rs),
        Nat.lt_succ_of_le (List.eraseIdx_sublist rs j).length_le⟩
    next =>
      obtain ⟨rest, hrest, rfl⟩ := Option.map_eq_some_iff.1 h
      obtain ⟨hsub, hlen⟩ := removePair_sublist hrest
      exact ⟨hsub.cons_cons r, Nat.succ_lt_succ hlen⟩

theorem screenGiveUp_sublist {q q' : List TouchRecord} (h : screenGiveUp q = some q') :
    q'.Sublist q ∧ q'.length < q.length := by
  unfold screenGiveUp at h
  split at h
  next i hi =>
    cases h
    have hlt := (List.findIdx?_eq_some_iff_findIdx_eq.1 hi).1
    refine ⟨List.eraseIdx_sublist _ _, ?_⟩
    rw [List.length_eraseIdx_of_lt hlt]
    omega
  next => exact removePair_sublist h

theorem replaceMove_marks {x : TouchRecord} :
    ∀ {q q' : List TouchRecord}, replaceMove x q = some q' → q'.map (·.inFlight) = q.map (·.inFlight)
  | [], _, h => by cases h
  | r :: rs, q', h => by
    unfold replaceMove at h
    split at h
    · split at h
      · cases h
        rfl
      · cases h
    · obtain ⟨rest, hrest, rfl⟩ := Option.map_eq_some_iff.1 h
      rw [List.map_cons, List.map_cons, replaceMove_marks hrest]

theorem Link.pushScreen_marks {x : TouchRecord} (hx : x.inFlight = false)
    (h : marksSound 40 7 quiet (l.screen.map (·.inFlight))) :
    marksSound 40 7 quiet ((l.pushScreen x).screen.map (·.inFlight)) := by
  unfold Link.pushScreen
  split
  next hroom =>
    dsimp only
    rw [List.map_append, List.map_singleton, hx]
    exact h.arrive (by rwa [List.length_map])
  next =>
    dsimp only
    split
    next q hq =>
      obtain ⟨hsub, hlen⟩ := screenGiveUp_sublist hq
      rw [List.map_append, List.map_singleton, hx]
      exact h.giveUp (hsub.map _) (by rwa [List.length_map, List.length_map])
    next => exact h

theorem Link.appendScreen_marks {x : TouchRecord} (hx : x.inFlight = false)
    (h : marksSound 40 7 quiet (l.screen.map (·.inFlight))) :
    marksSound 40 7 quiet ((l.appendScreen x).screen.map (·.inFlight)) := by
  unfold Link.appendScreen
  split
  · split
    next q hq =>
      dsimp only
      rw [List.map_reverse, replaceMove_marks hq, List.map_reverse, List.reverse_reverse]
      exact h
    next => exact Link.pushScreen_marks hx h
  · exact Link.pushScreen_marks hx h

/-! ## The gesture queue (R160) -/

theorem Link.appendGesture_marks (g : Gesture) (h : marksSound 16 15 quiet (l.gesture.map (·.inFlight))) :
    marksSound 16 15 quiet ((l.appendGesture g).gesture.map (·.inFlight)) := by
  unfold Link.appendGesture
  split
  next hroom =>
    dsimp only
    rw [List.map_append, List.map_singleton]
    exact h.arrive (by rwa [List.length_map])
  next => exact h

end Queues

/-! ## The pointer queue (R114, R158, R159) -/

/-- Every pointer record but the newest is closed, and the newest carries a button state. -/
def tailFits (q : List PointerRecord) (b : Button) : Prop :=
  (∀ r ∈ q.dropLast, r.isOpen = false) ∧ ∀ r ∈ q.getLast?, r.button = b

/-- A pointer queue that is sound under a button state. -/
def pointerSound (quiet : Prop) (q : List PointerRecord) (b : Button) : Prop :=
  marksSound 12 7 quiet (q.map (·.inFlight)) ∧ tailFits q b

section Pointer

variable {quiet : Prop} {l : Link} {b : Button} {q : List PointerRecord}

theorem tailFits_nil : tailFits [] b := by simp [tailFits]

theorem tailFits_concat {r : PointerRecord} : tailFits (q ++ [r]) b ↔ (∀ x ∈ q, x.isOpen = false) ∧ r.button = b := by
  simp [tailFits]

theorem changeTail_concat (f : PointerRecord → PointerRecord) (r : PointerRecord) :
    ∀ q : List PointerRecord, changeTail f (q ++ [r]) = q ++ [if r.isOpen then f r else r]
  | [] => rfl
  | [_] => rfl
  | x :: y :: ys => congrArg (x :: ·) (changeTail_concat f r (y :: ys))

theorem Link.tail_concat {r : PointerRecord} (h : l.pointer = q ++ [r]) : l.tail = if r.isOpen then some r else none := by
  simp [Link.tail, h]

/-- Where there is no open tail, every record is closed. -/
theorem closed_of_tail_none (hfits : tailFits l.pointer b) (h : l.tail = none) : ∀ r ∈ l.pointer, r.isOpen = false := by
  rcases List.eq_nil_or_concat' l.pointer with hnil | ⟨q, r, hq⟩
  · simp [hnil]
  · rw [Link.tail_concat hq] at h
    rw [hq, tailFits_concat] at hfits
    intro x hx
    rw [hq] at hx
    rcases List.mem_append.1 hx with hx | hx
    · exact hfits.1 x hx
    · rw [List.mem_singleton.1 hx]
      simpa using h

/-- An open tail is the newest record. -/
theorem concat_of_tail {r : PointerRecord} (h : l.tail = some r) : ∃ q, l.pointer = q ++ [r] ∧ r.isOpen = true := by
  rcases List.eq_nil_or_concat' l.pointer with hnil | ⟨q, x, hq⟩
  · simp [Link.tail, hnil] at h
  · rw [Link.tail_concat hq] at h
    split at h
    next hopen =>
      cases h
      exact ⟨q, hq, hopen⟩
    next => cases h

/-- A change of the open tail. -/
theorem pointerSound_changeTail {b' : Button} {r : PointerRecord} {f : PointerRecord → PointerRecord}
    (hf : (f r).inFlight = r.inFlight) (hb : (f r).button = b') (hopen : r.isOpen = true)
    (h : pointerSound quiet (q ++ [r]) b) : pointerSound quiet (changeTail f (q ++ [r])) b' := by
  obtain ⟨hmarks, hfits⟩ := h
  rw [changeTail_concat, if_pos hopen]
  refine ⟨?_, tailFits_concat.2 ⟨(tailFits_concat.1 hfits).1, hb⟩⟩
  rw [List.map_append, List.map_singleton, hf]
  rwa [List.map_append, List.map_singleton] at hmarks

/-- A tail opened where every record is closed: a full queue merges two. -/
theorem Link.openTail_pointerSound (b : Button) (change : Bool) (hclosed : ∀ r ∈ l.pointer, r.isOpen = false)
    (h : marksSound 12 7 quiet (l.pointer.map (·.inFlight))) :
    ∃ q, (l.openTail b change).pointer = q ++ [⟨b, zeroDelta, change, true, false⟩] ∧
      pointerSound quiet (q ++ [⟨b, zeroDelta, change, true, false⟩]) b := by
  unfold Link.openTail
  dsimp only
  split
  next hroom =>
    refine ⟨l.pointer, rfl, ?_, tailFits_concat.2 ⟨hclosed, rfl⟩⟩
    rw [List.map_append, List.map_singleton]
    exact h.arrive (by rwa [List.length_map])
  next hfull =>
    have hlen : 12 ≤ l.pointer.length := Nat.not_lt.1 hfull
    obtain ⟨head, x, y, rest, hq, -, hx, hmerge⟩ := mergeOldest_spec 7 l.pointer h.2.1 (by omega) hclosed
    simp only [hmerge]
    refine ⟨_, rfl, ?_, tailFits_concat.2 ⟨fun r hr => ?_, rfl⟩⟩
    · rw [List.map_append, List.map_singleton]
      refine h.giveUp ?_ ?_
      · rw [hq, List.map_append, List.map_append, List.map_cons, List.map_cons, List.map_cons, hx]
        exact (List.Sublist.cons_cons false (List.sublist_cons_self _ _)).append_left _
      · rw [hq]
        simp
    · rcases List.mem_append.1 hr with hr | hr
      · exact hclosed r (hq ▸ List.mem_append_left _ hr)
      · rcases List.mem_cons.1 hr with rfl | hr
        · rfl
        · exact hclosed r (hq ▸ List.mem_append_right _ (List.mem_cons_of_mem _ (List.mem_cons_of_mem _ hr)))

theorem Link.addMotion_pointerSound (d : Delta) (h : pointerSound quiet l.pointer b) :
    pointerSound quiet (l.addMotion b d).pointer b := by
  unfold Link.addMotion
  dsimp only
  cases htail : l.tail with
  | some r =>
    obtain ⟨q, hq, hopen⟩ := concat_of_tail htail
    rw [Option.isSome_some, if_pos rfl, hq]
    rw [hq] at h
    exact pointerSound_changeTail (f := fun r => { r with motion := addDelta r.motion d }) rfl
      (tailFits_concat.1 h.2).2 hopen h
  | none =>
    rw [Option.isSome_none, if_neg Bool.false_ne_true]
    obtain ⟨q, hq, hsound⟩ := Link.openTail_pointerSound b false (closed_of_tail_none h.2 htail) h.1
    rw [hq]
    exact pointerSound_changeTail (f := fun r => { r with motion := addDelta r.motion d }) rfl rfl rfl hsound

theorem Link.buttonChange_pointerSound (b' : Button) (h : pointerSound quiet l.pointer b) :
    pointerSound quiet (l.buttonChange b').pointer b' := by
  unfold Link.buttonChange
  split
  next r htail =>
    obtain ⟨q, hq, hopen⟩ := concat_of_tail htail
    rw [hq] at h
    split
    · dsimp only
      rw [hq]
      exact pointerSound_changeTail (f := fun r => { r with button := b', change := true }) rfl rfl hopen h
    · have hclose : changeTail (fun r => { r with isOpen := false }) l.pointer = q ++ [{ r with isOpen := false }] := by
        rw [hq, changeTail_concat, if_pos hopen]
      rw [hclose]
      obtain ⟨q', hq', hsound⟩ := Link.openTail_pointerSound (quiet := quiet)
        (l := { l with pointer := q ++ [{ r with isOpen := false }] }) b' true
        (fun x hx => by
          rcases List.mem_append.1 hx with hx | hx
          · exact (tailFits_concat.1 h.2).1 x hx
          · rw [List.mem_singleton.1 hx])
        (by simpa using h.1)
      rw [hq']
      exact hsound
  next htail =>
    obtain ⟨q, hq, hsound⟩ := Link.openTail_pointerSound b' true (closed_of_tail_none h.2 htail) h.1
    rw [hq]
    exact hsound

/-- The records in flight leave from the head. -/
theorem tailFits_sent (hhead : headInFlight 7 (q.map (·.inFlight))) (h : tailFits q b) :
    tailFits (q.filter (!·.inFlight)) b := by
  rcases List.eq_nil_or_concat' q with rfl | ⟨init, r, rfl⟩
  · exact h
  · rw [tailFits_concat] at h
    rw [List.filter_append]
    cases hr : r.inFlight with
    | false =>
      rw [List.filter_singleton, hr]
      exact tailFits_concat.2 ⟨fun x hx => h.1 x (List.mem_of_mem_filter hx), h.2⟩
    | true =>
      obtain ⟨hpair, -⟩ := hhead
      rw [List.map_append, List.map_singleton] at hpair
      have hall : ∀ x ∈ init, x.inFlight = true := fun x hx =>
        (List.pairwise_append.1 hpair).2.2 _ (List.mem_map_of_mem hx) _ (List.mem_singleton.2 rfl) hr
      rw [List.filter_singleton, hr, List.filter_eq_nil_iff.2 fun x hx => by simp [hall x hx]]
      exact tailFits_nil

/-- The records that a fill takes are closed, and keep their button states. -/
theorem tailFits_fill (k : Nat) (h : tailFits q b) :
    tailFits (onHead k (fun r => { r with inFlight := true, isOpen := false }) q) b := by
  have hbuttons : (onHead k (fun r => { r with inFlight := true, isOpen := false }) q).map (·.button) = q.map (·.button) := by
    conv_rhs => rw [← List.take_append_drop k q]
    simp [onHead, Function.comp_def]
  refine ⟨fun r hr => ?_, fun r hr => ?_⟩
  · rw [onHead] at hr
    by_cases hdrop : q.drop k = []
    · rw [hdrop, List.append_nil] at hr
      obtain ⟨x, -, rfl⟩ := List.mem_map.1 (List.dropLast_subset _ hr)
      rfl
    · rw [List.dropLast_append_of_ne_nil hdrop] at hr
      rcases List.mem_append.1 hr with hr | hr
      · obtain ⟨x, -, rfl⟩ := List.mem_map.1 hr
        rfl
      · rw [List.dropLast_drop_eq_drop_dropLast] at hr
        exact h.1 r (List.mem_of_mem_drop hr)
  · have hlast : r.button ∈ (q.map (·.button)).getLast? := by
      rw [← hbuttons, List.getLast?_map]
      exact Option.mem_map_of_mem _ hr
    rw [List.getLast?_map] at hlast
    obtain ⟨x, hx, hsame⟩ := Option.mem_map.1 hlast
    exact hsame ▸ h.2 x hx

theorem tailFits_map {f : PointerRecord → PointerRecord} (hf : ∀ r, (f r).isOpen = r.isOpen ∧ (f r).button = r.button)
    (h : tailFits q b) : tailFits (q.map f) b := by
  refine ⟨fun r hr => ?_, fun r hr => ?_⟩
  · rw [← List.map_dropLast] at hr
    obtain ⟨x, hx, rfl⟩ := List.mem_map.1 hr
    rw [(hf x).1]
    exact h.1 x hx
  · rw [List.getLast?_map] at hr
    obtain ⟨x, hx, rfl⟩ := Option.mem_map.1 hr
    rw [(hf x).2]
    exact h.2 x hx

end Pointer

/-! ## What the engine hands over (R82, R114) -/

/-- Hand-overs from one button state to another: each motion goes under the button state that stands. -/
def outsFrom (b : Button) : List Out → Button → Prop
  | [], c => c = b
  | .button x :: outs, c => outsFrom x outs c
  | .motion x _ :: outs, c => x = b ∧ outsFrom b outs c
  | .gesture _ :: outs, c => outsFrom b outs c

theorem outsFrom_concat (o : Out) {c d : Button} (ho : outsFrom c [o] d) :
    ∀ {outs : List Out} {b : Button}, outsFrom b outs c → outsFrom b (outs ++ [o]) d
  | [], b, h => by
    obtain rfl : c = b := h
    exact ho
  | .button x :: outs, b, h => outsFrom_concat o ho (outs := outs) (b := x) h
  | .motion x _ :: outs, b, h => ⟨h.1, outsFrom_concat o ho (outs := outs) h.2⟩
  | .gesture _ :: outs, b, h => outsFrom_concat o ho (outs := outs) (b := b) h

theorem outsFrom_kept (b : Button) : KeptByWork fun w => outsFrom b w.out w.e.button where
  setButton {w} x h := by
    unfold Work.setButton
    split
    · exact h
    · exact outsFrom_concat (.button x) rfl h
  record g h := outsFrom_concat (.gesture g) rfl h
  goto _ h := h
  setPointer _ h := by
    unfold Work.setPointer
    split <;> exact h
  onEngine hf h := by
    show outsFrom b _ (Engine.button _)
    rw [Work.onEngine, hf]
    exact h
  addMotion d h := outsFrom_concat (.motion _ d) ⟨rfl, rfl⟩ h
  pointerInput _ _ _ _ h := h
  scrollInput _ _ _ _ _ _ h := h

/-! ## The queues of a link -/

/-- The queues and the reply slot under a button state, with nothing in flight while the link is quiet. -/
def Link.queuesSound (l : Link) (quiet : Prop) (b : Button) : Prop :=
  marksSound 32 5 quiet (l.pen.map (·.inFlight)) ∧ marksSound 40 7 quiet (l.screen.map (·.inFlight)) ∧
    pointerSound quiet l.pointer b ∧ marksSound 16 15 quiet (l.gesture.map (·.inFlight)) ∧
    (quiet → ∀ r ∈ l.reply, r.inFlight = false)

section Link

variable {quiet : Prop} {l : Link} {b : Button}

theorem Link.appendPen_queuesSound {x : PenSample} (hx : x.inFlight = false) (h : l.queuesSound quiet b) :
    (l.appendPen x).queuesSound quiet b := by
  obtain ⟨hpen, hscreen, hpointer, hgesture, hreply⟩ := h
  obtain ⟨grown, heqScreen, heqPointer⟩ := Link.grown_appendPen l x
  refine ⟨Link.appendPen_marks hx hpen, ?_, ?_, ?_, ?_⟩
  · rwa [heqScreen]
  · rwa [heqPointer]
  · rwa [grown.gesture]
  · rwa [grown.reply]

theorem Link.appendScreen_queuesSound {x : TouchRecord} (hx : x.inFlight = false) (h : l.queuesSound quiet b) :
    (l.appendScreen x).queuesSound quiet b := by
  obtain ⟨hpen, hscreen, hpointer, hgesture, hreply⟩ := h
  obtain ⟨grown, heqPen, heqPointer⟩ := Link.grown_appendScreen l x
  refine ⟨?_, Link.appendScreen_marks hx hscreen, ?_, ?_, ?_⟩
  · rwa [heqPen]
  · rwa [heqPointer]
  · rwa [grown.gesture]
  · rwa [grown.reply]

theorem Link.appendGesture_queuesSound (g : Gesture) (h : l.queuesSound quiet b) : (l.appendGesture g).queuesSound quiet b := by
  obtain ⟨hpen, hscreen, hpointer, hgesture, hreply⟩ := h
  have hmarks := Link.appendGesture_marks g hgesture
  unfold Link.appendGesture at hmarks ⊢
  split <;> exact ⟨hpen, hscreen, hpointer, by simp_all, hreply⟩

theorem Link.buttonChange_queuesSound (b' : Button) (h : l.queuesSound quiet b) : (l.buttonChange b').queuesSound quiet b' := by
  obtain ⟨hpen, hscreen, hpointer, hgesture, hreply⟩ := h
  obtain ⟨grown, heqPen, heqScreen⟩ := Link.grown_buttonChange l b'
  refine ⟨?_, ?_, Link.buttonChange_pointerSound b' hpointer, ?_, ?_⟩
  · rwa [heqPen]
  · rwa [heqScreen]
  · rwa [grown.gesture]
  · rwa [grown.reply]

theorem Link.addMotion_others (l : Link) (b : Button) (d : Delta) :
    (l.addMotion b d).pen = l.pen ∧ (l.addMotion b d).screen = l.screen ∧ (l.addMotion b d).gesture = l.gesture := by
  obtain ⟨grown, heqPen, heqScreen⟩ := Link.grown_openTail l b false
  unfold Link.addMotion
  dsimp only
  split
  · exact ⟨rfl, rfl, rfl⟩
  · exact ⟨heqPen, heqScreen, grown.gesture⟩

theorem Link.addMotion_queuesSound (d : Delta) (h : l.queuesSound quiet b) : (l.addMotion b d).queuesSound quiet b := by
  obtain ⟨hpen, hscreen, hpointer, hgesture, hreply⟩ := h
  obtain ⟨heqPen, heqScreen, heqGesture⟩ := Link.addMotion_others l b d
  refine ⟨?_, ?_, Link.addMotion_pointerSound d hpointer, ?_, ?_⟩
  · rwa [heqPen]
  · rwa [heqScreen]
  · rwa [heqGesture]
  · rwa [(Link.SameButQueues.addMotion l b d).reply]

/-- The hand-overs of an event take the queues from the engine's button state before it to the one after it. -/
theorem Link.takeAll_queuesSound :
    ∀ {outs : List Out} {l : Link} {b c : Button}, outsFrom b outs c → l.queuesSound quiet b →
      (l.takeAll outs).queuesSound quiet c
  | [], l, b, c, hout, h => by
    obtain rfl : c = b := hout
    exact h
  | .button x :: outs, l, b, c, hout, h =>
    Link.takeAll_queuesSound (outs := outs) (l := l.take (.button x)) hout (Link.buttonChange_queuesSound x h)
  | .motion x d :: outs, l, b, c, hout, h => by
    obtain ⟨rfl, hout⟩ := hout
    exact Link.takeAll_queuesSound (outs := outs) (l := l.take (.motion x d)) hout (Link.addMotion_queuesSound d h)
  | .gesture g :: outs, l, b, c, hout, h =>
    Link.takeAll_queuesSound (outs := outs) (l := l.take (.gesture g)) hout (Link.appendGesture_queuesSound g h)

theorem Link.appendScreens_queuesSound {rs : List TouchRecord} (hrs : ∀ r ∈ rs, r.inFlight = false)
    (h : l.queuesSound quiet b) : (rs.foldl Link.appendScreen l).queuesSound quiet b :=
  List.foldlRecOn (motive := fun m : Link => m.queuesSound quiet b) rs _ h
    fun _ hm r hr => Link.appendScreen_queuesSound (hrs r hr) hm

theorem Link.appendPens_queuesSound {xs : List PenSample} (hxs : ∀ x ∈ xs, x.inFlight = false)
    (h : l.queuesSound quiet b) : (xs.foldl Link.appendPen l).queuesSound quiet b :=
  List.foldlRecOn (motive := fun m : Link => m.queuesSound quiet b) xs _ h
    fun _ hm x hx => Link.appendPen_queuesSound (hxs x hx) hm

/-- Where nothing is in flight, the link is sound whether it is quiet or not. -/
theorem marksSound.of_none {cap n : Nat} {quiet' : Prop} {marks : List Bool} (hquiet : quiet)
    (h : marksSound cap n quiet marks) : marksSound cap n quiet' marks :=
  marksSound_none h.1 (h.2.2 hquiet)

theorem filter_marksSound {α : Type} {cap n : Nat} {quiet' : Prop} {fl : α → Bool} {q : List α}
    (h : marksSound cap n quiet (q.map fl)) : marksSound cap n quiet' ((q.filter fun a => !fl a).map fl) := by
  refine marksSound_none ?_ fun m hm => ?_
  · rw [List.length_map]
    exact (List.length_filter_le _ _).trans (by simpa using h.1)
  · obtain ⟨a, ha, rfl⟩ := List.mem_map.1 hm
    simpa using (List.mem_filter.1 ha).2

theorem returned_marksSound {α : Type} {cap n : Nat} {quiet' : Prop} {fl : α → Bool} {f : α → α} {q : List α}
    (hf : ∀ a, fl (f a) = false) (h : marksSound cap n quiet (q.map fl)) :
    marksSound cap n quiet' ((q.map f).map fl) := by
  refine marksSound_none ?_ fun m hm => ?_
  · simpa using h.1
  · obtain ⟨a, ha, rfl⟩ := List.mem_map.1 hm
    obtain ⟨a, -, rfl⟩ := List.mem_map.1 ha
    exact hf a

theorem Link.sent_queuesSound {quiet' : Prop} (h : l.queuesSound quiet b) : l.sent.queuesSound quiet' b := by
  obtain ⟨hpen, hscreen, ⟨hpointer, hfits⟩, hgesture, hreply⟩ := h
  refine ⟨filter_marksSound hpen, filter_marksSound hscreen, ⟨filter_marksSound hpointer, tailFits_sent hpointer.2.1 hfits⟩,
    filter_marksSound hgesture, fun _ r hr => ?_⟩
  rw [Link.sent_reply] at hr
  simpa using (Option.mem_filter_iff.1 hr).2

theorem Link.returned_queuesSound {quiet' : Prop} (h : l.queuesSound quiet b) : l.returned.queuesSound quiet' b := by
  obtain ⟨hpen, hscreen, ⟨hpointer, hfits⟩, hgesture, hreply⟩ := h
  refine ⟨returned_marksSound (fun _ => rfl) hpen, returned_marksSound (fun _ => rfl) hscreen,
    ⟨returned_marksSound (fun _ => rfl) hpointer, tailFits_map (fun _ => ⟨rfl, rfl⟩) hfits⟩,
    returned_marksSound (fun _ => rfl) hgesture, fun _ r hr => ?_⟩
  obtain ⟨r', -, rfl⟩ := Option.mem_map.1 hr
  rfl

end Link

/-! ## The fill (R154) -/

theorem fitCount_mul_le {α : Type} (size : Nat) (send : α → Bool) :
    ∀ (q : List α) (space : Nat), size * fitCount size send space q ≤ space
  | [], _ => Nat.zero_le _
  | a :: as, space => by
    unfold fitCount
    split
    next hfits =>
      have hle : size ≤ space := by
        rw [Bool.and_eq_true, decide_eq_true_iff] at hfits
        exact hfits.2
      have := fitCount_mul_le size send as (space - size)
      rw [Nat.mul_succ]
      omega
    next => exact Nat.zero_le _

theorem onHead_zero {α : Type} (f : α → α) (q : List α) : onHead 0 f q = q := rfl

theorem fillReply_link (l : Link) : (fillReply l).left ≤ 60 ∧
    (fillReply l).link = { l with reply := l.reply.map fun r => { r with inFlight := true } } := by
  rw [fillReply_eq]
  exact ⟨Nat.sub_le _ _, rfl⟩

section Fill

variable {f : Fill}

theorem fillPen_link (h : f.left ≤ 60) : (fillPen f).left ≤ 60 ∧ ∃ k ≤ 5,
    (fillPen f).link = { f.link with pen := onHead k (fun r => { r with inFlight := true }) f.link.pen } := by
  unfold fillPen
  split
  · have := fitCount_mul_le 12 (fun _ => true) f.link.pen f.left
    exact ⟨(Nat.sub_le _ _).trans h, _, by omega, rfl⟩
  · exact ⟨h, 0, Nat.zero_le _, by rw [onHead_zero]⟩

theorem fillScreen_link (h : f.left ≤ 60) : (fillScreen f).left ≤ 60 ∧ ∃ k ≤ 7,
    (fillScreen f).link = { f.link with screen := onHead k (fun r => { r with inFlight := true }) f.link.screen } := by
  unfold fillScreen
  split
  · have := fitCount_mul_le 8 (fun _ => true) f.link.screen f.left
    exact ⟨(Nat.sub_le _ _).trans h, _, by omega, rfl⟩
  · exact ⟨h, 0, Nat.zero_le _, by rw [onHead_zero]⟩

theorem fillPointer_link (h : f.left ≤ 60) : (fillPointer f).left ≤ 60 ∧ ∃ k ≤ 7, (fillPointer f).link =
    { f.link with pointer := onHead k (fun r => { r with inFlight := true, isOpen := false }) f.link.pointer } := by
  unfold fillPointer
  split
  · have := fitCount_mul_le 8 PointerRecord.sendable f.link.pointer f.left
    exact ⟨(Nat.sub_le _ _).trans h, _, by omega, rfl⟩
  · exact ⟨h, 0, Nat.zero_le _, by rw [onHead_zero]⟩

theorem fillGesture_link (h : f.left ≤ 60) : ∃ k ≤ 15,
    (fillGesture f).link = { f.link with gesture := onHead k (fun r => { r with inFlight := true }) f.link.gesture } := by
  unfold fillGesture
  split
  · have := fitCount_mul_le 4 (fun _ => true) f.link.gesture f.left
    exact ⟨_, by omega, rfl⟩
  · exact ⟨0, Nat.zero_le _, by rw [onHead_zero]⟩

end Fill

/-- The fill of a link with nothing in flight puts at most 60 bytes of records in flight. -/
theorem fillAll_queuesSound {l : Link} {b : Button} {quiet quiet' : Prop} (hquiet : quiet) (hnot : ¬quiet')
    (h : l.queuesSound quiet b) : (fillAll l).link.queuesSound quiet' b := by
  obtain ⟨hpen, hscreen, ⟨hpointer, hfits⟩, hgesture, -⟩ := h
  obtain ⟨hleft, hreply⟩ := fillReply_link l
  obtain ⟨hleft, a, ha, hpens⟩ := fillPen_link hleft
  obtain ⟨hleft, b, hb, hscreens⟩ := fillScreen_link hleft
  obtain ⟨hleft, c, hc, hpointers⟩ := fillPointer_link hleft
  obtain ⟨d, hd, hgestures⟩ := fillGesture_link hleft
  have hfill {α : Type} {fl : α → Bool} {f : α → α} {q : List α} {cap n k : Nat} (hf : ∀ a, fl (f a) = true) (hk : k ≤ n)
      (h : marksSound cap n quiet (q.map fl)) : marksSound cap n quiet' ((onHead k f q).map fl) :=
    marksSound_fill hf (by simpa using h.1) (fun a ha => h.2.2 hquiet _ (List.mem_map_of_mem ha)) hk hnot
  rw [fillAll, hgestures, hpointers, hscreens, hpens, hreply]
  exact ⟨hfill (fun _ => rfl) ha hpen, hfill (fun _ => rfl) hb hscreen,
    ⟨hfill (fun _ => rfl) hc hpointer, tailFits_fill c hfits⟩, hfill (fun _ => rfl) hd hgesture, fun q => absurd q hnot⟩

/-! ## The operations -/

section Operations

variable {s : State}

theorem headInFlight_marks {cap n : Nat} {quiet : Prop} {marks : List Bool} :
    marksSound cap n quiet marks ↔ marks.length ≤ cap ∧ headInFlight n marks ∧ (quiet → ∀ m ∈ marks, m = false) := Iff.rfl

/-- The laws of the queues, of the button state and of the exchange (R146, R155, R158, R164). -/
theorem State.linkSound_iff (s : State) : s.linkSound ↔
    s.link.queuesSound (s.exchanging = false) s.engine.button ∧ (s.pins.selnLow = false → s.link.exchange = none) ∧
      (s.pins.resetnLow = true → s.link.exchange = none) := by
  simp only [State.linkSound, Link.queuesSound, Link.withinCapacity, Link.nothingInFlight, pointerSound, tailFits,
    headInFlight_marks, List.length_map, List.forall_mem_map]
  tauto

theorem State.exchanging_of_same {s t : State} (h : t.link.exchange = s.link.exchange) : t.exchanging = s.exchanging := by
  unfold State.exchanging
  rw [h]

/-- An operation that works on the queues, and may change the engine's button state. -/
theorem State.linkSound_queues {s t : State} (same : s.link.SameButQueues t.link)
    (hpins : t.pins = s.pins)
    (hqueues : ∀ quiet, s.link.queuesSound quiet s.engine.button → t.link.queuesSound quiet t.engine.button)
    (h : s.linkSound) : t.linkSound := by
  obtain ⟨hsound, hseln, hresetn⟩ := (State.linkSound_iff s).1 h
  refine (State.linkSound_iff t).2 ⟨?_, ?_, ?_⟩
  · rw [State.exchanging_of_same same.exchange]
    exact hqueues _ hsound
  · rwa [hpins, same.exchange]
  · rwa [hpins, same.exchange]

theorem State.pads_linkSound {f : Work → Work}
    (hf : outsFrom s.engine.button (f ⟨s.engine, s.motion, []⟩).out (f ⟨s.engine, s.motion, []⟩).e.button)
    (h : s.linkSound) : (s.pads f).linkSound :=
  State.linkSound_queues (Link.SameButQueues.takeAll _ _) rfl (fun _ hq => Link.takeAll_queuesSound hf hq) h

theorem State.appendScreens_linkSound {rs : List TouchRecord} (hrs : ∀ r ∈ rs, r.inFlight = false) (h : s.linkSound) :
    (s.appendScreens rs).linkSound :=
  State.linkSound_queues (Link.SameButQueues.appendScreens _ _) rfl (fun _ hq => Link.appendScreens_queuesSound hrs hq) h

theorem cancelRecords_not_inFlight (es : List Entry) : ∀ r ∈ cancelRecords es, r.inFlight = false := by
  intro r hr
  obtain ⟨e, -, rfl⟩ := List.mem_map.1 hr
  rfl

theorem screenRecords_not_inFlight (lifted : List Entry) (cs : List Classified) :
    ∀ r ∈ screenRecords lifted cs, r.inFlight = false := by
  intro r hr
  rcases List.mem_append.1 hr with hr | hr
  · obtain ⟨e, -, rfl⟩ := List.mem_map.1 hr
    rfl
  · obtain ⟨c, -, hc⟩ := List.mem_filterMap.1 hr
    obtain ⟨k, -, rfl⟩ := Option.map_eq_some_iff.1 hc
    rfl

/-- A change of the link's settings, of the reply slot or of the latched causes that leaves queues and exchange. -/
theorem State.linkSound_settings {s t : State} (hpen : t.link.pen = s.link.pen) (hscreen : t.link.screen = s.link.screen)
    (hpointer : t.link.pointer = s.link.pointer) (hgesture : t.link.gesture = s.link.gesture)
    (hreply : t.link.reply = s.link.reply ∨ ∀ r ∈ t.link.reply, r.inFlight = false)
    (hexchange : t.link.exchange = s.link.exchange) (hpins : t.pins = s.pins) (hengine : t.engine = s.engine)
    (h : s.linkSound) : t.linkSound := by
  obtain ⟨⟨h1, h2, h3, h4, h5⟩, hseln, hresetn⟩ := (State.linkSound_iff s).1 h
  refine (State.linkSound_iff t).2 ⟨?_, by rwa [hpins, hexchange], by rwa [hpins, hexchange]⟩
  unfold Link.queuesSound
  rw [State.exchanging_of_same hexchange, hpen, hscreen, hpointer, hgesture, hengine]
  refine ⟨h1, h2, h3, h4, fun q => ?_⟩
  rcases hreply with hsame | hnone
  · rw [hsame]
    exact h5 q
  · exact hnone

theorem initialLink_queuesSound (quiet : Prop) (b : Bool) : (initialLink b).queuesSound quiet .none :=
  ⟨marksSound_nil, marksSound_nil, ⟨marksSound_nil, tailFits_nil⟩, marksSound_nil, fun _ _ h => by cases h⟩

theorem State.powerOn_linkSound (s : State) : s.powerOn.linkSound :=
  (State.linkSound_iff _).2 ⟨initialLink_queuesSound _ _, fun _ => rfl, fun _ => rfl⟩

theorem State.fill_linkSound (hseln : s.pins.selnLow = true) (hresetn : s.pins.resetnLow = false)
    (hexchange : s.link.exchange = none) (h : s.linkSound) : s.fill.linkSound := by
  obtain ⟨hsound, -, -⟩ := (State.linkSound_iff s).1 h
  have hidle : s.exchanging = false := by
    unfold State.exchanging
    rw [hexchange]
  refine (State.linkSound_iff _).2 ⟨?_, fun hhigh => ?_, fun hlow => ?_⟩
  · exact fillAll_queuesSound (quiet' := s.fill.exchanging = false) hidle (by simp [State.exchanging, State.fill]) hsound
  · exact absurd (hseln.symm.trans hhigh) (by decide)
  · exact absurd (hresetn.symm.trans hlow) (by decide)

theorem State.assertSeln_linkSound (h : s.linkSound) : s.assertSeln.linkSound := by
  obtain ⟨hsound, hseln, hresetn⟩ := (State.linkSound_iff s).1 h
  unfold State.assertSeln
  split
  next => exact h
  next hhigh =>
    have hnone := hseln (by simpa using hhigh)
    have hlow : State.linkSound { s with pins := { s.pins with selnLow := true } } :=
      (State.linkSound_iff _).2 ⟨hsound, fun _ => hnone, fun _ => hnone⟩
    dsimp only
    split
    next => exact hlow
    next hserved =>
      rw [Bool.or_eq_true, not_or, Bool.not_eq_true] at hserved
      exact State.fill_linkSound rfl hserved.1 hnone hlow

theorem State.releaseSeln_linkSound (h : s.linkSound) : s.releaseSeln.linkSound := by
  obtain ⟨hsound, hseln, hresetn⟩ := (State.linkSound_iff s).1 h
  unfold State.releaseSeln
  split
  next =>
    dsimp only
    split
    next hlow =>
      have hnone := hresetn hlow
      exact (State.linkSound_iff _).2 ⟨hsound, fun _ => hnone, fun _ => hnone⟩
    next =>
      split
      next => exact (State.linkSound_iff _).2 ⟨Link.returned_queuesSound hsound, fun _ => rfl, fun _ => rfl⟩
      next hdone =>
        have hidle : s.exchanging = false := Bool.eq_false_iff.2 hdone
        obtain ⟨hpen, hscreen, ⟨hpointer, hfits⟩, hgesture, hreply⟩ := hsound
        exact (State.linkSound_iff _).2 ⟨⟨hpen.of_none hidle, hscreen.of_none hidle, ⟨hpointer.of_none hidle, hfits⟩,
          hgesture.of_none hidle, fun _ => hreply hidle⟩, fun _ => rfl, fun _ => rfl⟩
  next => exact h

theorem linkSound_kept : KeptByOperations State.linkSound where
  congr h same := by
    obtain ⟨hsound, hseln, hresetn⟩ := (State.linkSound_iff _).1 h
    refine (State.linkSound_iff _).2 ⟨?_, by rwa [same.selnLow, same.link], by rwa [same.resetnLow, same.link]⟩
    rwa [State.exchanging_of_same (congrArg Link.exchange same.link), same.link, same.engine]
  latch _ _ h := State.linkSound_settings rfl rfl rfl rfl (.inl rfl) rfl rfl rfl h
  hold {s} b r h := by
    have hlink := State.hold_link s b r
    exact State.linkSound_settings (congrArg _ hlink) (congrArg _ hlink) (congrArg _ hlink) (congrArg _ hlink)
      (.inl (congrArg _ hlink)) (congrArg _ hlink) (State.hold_pins s b r) (State.hold_engine s b r) h
  tearPad h := State.pads_linkSound ((outsFrom_kept _).surfaceLoss rfl) h
  tearScreen h := State.appendScreens_linkSound (cancelRecords_not_inFlight _) h
  pens {s f} hf h := State.linkSound_queues (Link.SameButQueues.appendPens _ _) rfl
    (fun _ hq => Link.appendPens_queuesSound hf hq) h
  padFrameWork hlow hhigh h := State.pads_linkSound ((outsFrom_kept _).padFrame hlow hhigh rfl) h
  screenFrameWork h := State.appendScreens_linkSound (screenRecords_not_inFlight _ _) h
  appendGesture g h := State.linkSound_queues (Link.SameButQueues.appendGesture _ _) rfl
    (fun _ hq => Link.appendGesture_queuesSound g hq) h
  press _ _ h := State.pads_linkSound ((outsFrom_kept _).clickPress _ rfl) h
  release h := State.pads_linkSound ((outsFrom_kept _).clickRelease _ rfl) h
  tapGap h := State.pads_linkSound ((outsFrom_kept _).tapGapExpired rfl) h
  coast _ _ h := State.pads_linkSound ((outsFrom_kept _).coastExpired rfl) h
  restartEffect {s} h := by
    obtain ⟨⟨-, -, -, -, hreply⟩, hseln, hresetn⟩ := (State.linkSound_iff s).1 h
    exact (State.linkSound_iff _).2 ⟨⟨marksSound_nil, marksSound_nil, ⟨marksSound_nil, tailFits_nil⟩, marksSound_nil,
      hreply⟩, hseln, hresetn⟩
  masks _ h := State.linkSound_settings rfl rfl rfl rfl (.inl rfl) rfl rfl rfl h
  ceiling _ _ h := State.linkSound_settings rfl rfl rfl rfl (.inl rfl) rfl rfl rfl h
  clearCauses set h := by
    unfold takeClearCauses
    split
    · exact h
    · exact State.linkSound_settings rfl rfl rfl rfl (.inl rfl) rfl rfl rfl h
  restartWaiting h := State.linkSound_settings rfl rfl rfl rfl (.inl rfl) rfl rfl rfl h
  reply {s _ _} _ h := State.linkSound_settings (s := s) rfl rfl rfl rfl
    (.inr fun r hr => by cases Option.mem_some.1 hr; rfl) rfl rfl rfl h
  shiftOut _ h := State.linkSound_settings rfl rfl rfl rfl (.inl rfl) rfl rfl rfl h
  countByte {s e} b he hcount h := by
    obtain ⟨hsound, hseln, hresetn⟩ := (State.linkSound_iff s).1 h
    have hbusy : (s.setExchange { e with count := e.count + 1, received := e.received ++ [b] }).exchanging = true := by
      simp only [State.exchanging, State.setExchange]
      exact decide_eq_true (by omega)
    have hboth : s.exchanging = true := by
      simp only [State.exchanging, he]
      exact decide_eq_true (by omega)
    refine (State.linkSound_iff _).2 ⟨?_, fun hhigh => ?_, fun hlow => ?_⟩
    · rw [hbusy, ← hboth]
      exact hsound
    · exact absurd (he.symm.trans (hseln hhigh)) (by simp)
    · exact absurd (he.symm.trans (hresetn hlow)) (by simp)
  completeExchange {s e} he _ h := by
    obtain ⟨hsound, hseln, hresetn⟩ := (State.linkSound_iff s).1 h
    refine (State.linkSound_iff _).2 ⟨Link.sent_queuesSound hsound, fun hhigh => ?_, fun hlow => ?_⟩
    · exact absurd (he.symm.trans (hseln hhigh)) (by simp)
    · exact absurd (he.symm.trans (hresetn hlow)) (by simp)
  assertSeln h := State.assertSeln_linkSound h
  releaseSeln h := State.releaseSeln_linkSound h
  powerOn _ := State.powerOn_linkSound _
  hardReset {s} _ := (State.linkSound_iff _).2 ⟨initialLink_queuesSound _ _, fun _ => rfl, fun _ => rfl⟩
  releaseReset {s} h := by
    unfold State.releaseReset
    split
    next hlow =>
      obtain ⟨hsound, hseln, hresetn⟩ := (State.linkSound_iff s).1 h
      exact (State.linkSound_iff _).2 ⟨hsound, hseln, fun _ => hresetn hlow⟩
    next => exact h

end Operations

/-- Settles O55: what arrives is not in flight, what a fill takes stands at the heads, and every hand-over of the engine carries
the button state that stands. -/
theorem stepKeepsQueues : Obligations.StepKeepsQueues := fun _ _ => linkSound_kept.step

end Sys2Proof.Machine
end

section
/-! Every step keeps the ports, the surfaces and the pen in agreement (R2, R35, R106): what a role feeds is in use, or a teardown of
it waits for a frame of the role. In the middle of an event a role may be out of agreement until its teardown is requested or
taken; `State.agreesBut` says so of a set of roles. -/

namespace Sys2Proof.Machine

/-! ## The ports -/

/-- What holds of one port: a waiting record and a running deadline belong to a port whose stream has come, a DISABLED port hunts,
and a body under way is short of its length (sections 1, 1.4, R4, R168). -/
def Port.wellFormed (p : Port) : Prop :=
  (p.waiting.isSome = true → p.state = .live ∨ p.state = .late ∨ p.state = .down) ∧
    (p.deadline.isSome = true ↔ p.state = .live ∨ p.state = .late) ∧ (p.state = .disabled → p.rx = .hunting) ∧
    ∀ (n : Nat) (bs : List Byte), p.rx = .body n bs → bs.length < n ∧ n ≤ 255

/-- A role other than UNUSED is held by one port at a time (R2). -/
def Ports.exclusive (ps : Ports) : Prop :=
  ∀ i j : Fin 4, i ≠ j → ∀ r ∈ [Role.pad, Role.screen, Role.pen, Role.aux],
    (ps.get i).holds r = true → (ps.get j).holds r = false

/-- A port serves a role: it is LIVE or LATE with it. -/
def Port.serves (p : Port) (r : Role) : Prop := p.role = r ∧ (p.state = .live ∨ p.state = .late)

theorem Ports.serve_iff (ps : Ports) (r : Role) : ps.serve r = true ↔ ∃ i, (ps.get i).serves r := by
  rw [Ports.serve, Ports.any_iff]
  simp [Port.serves]

theorem Ports.exclusive_set {ps : Ports} {i : Fin 4} {p : Port} (h : ps.exclusive)
    (hholds : ∀ r, p.holds r = true → (ps.get i).holds r = true) : (ps.set i p).exclusive := by
  have hback : ∀ j r, ((ps.set i p).get j).holds r = true → (ps.get j).holds r = true := by
    intro j r hj
    rw [Ports.get_set] at hj
    split at hj
    next heq => exact heq ▸ hholds r hj
    next => exact hj
  intro j k hjk r hr hj
  rw [Bool.eq_false_iff]
  exact fun hk => absurd (hback k r hk) (by simp [h j k hjk r hr (hback j r hj)])

theorem Port.holds_of_frame {p : Port} {f : Frame} (h : p.frame = some f) : p.holds f.role = true :=
  (Port.holds_iff p f.role).2 (.inr ⟨f, h, rfl⟩)

/-- A port that keeps role and state serves what it did. -/
theorem Ports.serve_set {ps : Ports} {i : Fin 4} {p : Port} (hrole : p.role = (ps.get i).role)
    (hstate : p.state = (ps.get i).state) (r : Role) : (ps.set i p).serve r = ps.serve r := by
  rw [Bool.eq_iff_iff, Ports.serve_iff, Ports.serve_iff]
  refine exists_congr fun j => ?_
  rw [Ports.get_set]
  split
  next heq =>
    subst heq
    unfold Port.serves
    rw [hrole, hstate]
  next => exact .rfl

/-- A frame of another role begins or ends. -/
theorem Ports.frameOf_set_other {ps : Ports} {i : Fin 4} {p : Port} {r : Role} (hnew : ∀ f, p.frame = some f → f.role ≠ r)
    (hold : ∀ f, (ps.get i).frame = some f → f.role ≠ r) : (ps.set i p).frameOf r = ps.frameOf r := by
  rw [Bool.eq_iff_iff, Ports.frameOf_iff, Ports.frameOf_iff]
  refine exists_congr fun j => ?_
  rw [Ports.get_set]
  split
  next heq =>
    subst heq
    exact ⟨fun ⟨f, hf, hr⟩ => absurd hr (hnew f hf), fun ⟨f, hf, hr⟩ => absurd hr (hold f hf)⟩
  next => exact .rfl

/-! ## Roles and what they feed -/

/-- What a role feeds is not empty: entries of a surface, a pen in range. -/
def State.occupied (s : State) : Role → Prop
  | .pad => s.contacts.pad ≠ []
  | .screen => s.contacts.screen ≠ []
  | .pen => s.pen.state ≠ .out
  | .aux => False
  | .unused => False

/-- A teardown of a role waits. -/
def State.awaits (s : State) : Role → Prop
  | .pad => s.waits.pad = true
  | .screen => s.waits.screen = true
  | .pen => s.waits.pen ≠ []
  | .aux => False
  | .unused => False

/-- The engine leaves IDLE in LAPTOP alone, counted from the completion of a pad frame (R106). -/
def State.engineAgrees (s : State) : Prop :=
  s.engine.state ≠ .idle → s.ports.frameOf .pad = true ∨ padLive s.posture.actual = true

/-- A role in agreement: what it feeds is in use or waits for a frame of the role, and a teardown waits for a frame alone. -/
structure State.roleAgrees (s : State) (r : Role) : Prop where
  used : s.occupied r → s.ports.frameOf r = true ∨ s.fed r
  busy : s.ports.frameOf r = true → s.fed r ∨ s.awaits r
  waits : s.awaits r → s.ports.frameOf r = true
  engine : r = .pad → s.engineAgrees

/-- The roles that feed a surface or the pen. -/
def feedingRoles : List Role := [.pad, .screen, .pen]

theorem mem_of_feeding {r : Role} (h : r ∈ feedingRoles) : r ∈ [Role.pad, Role.screen, Role.pen, Role.aux] := by
  revert h
  cases r <;> decide

/-- Every port is well-formed, no role is held twice, and every feeding role but those of a set is in agreement; of the others a
teardown waits for a frame alone. -/
structure State.agreesBut (s : State) (bad : Role → Prop) : Prop where
  ports : ∀ i, (s.port i).wellFormed
  exclusive : s.ports.exclusive
  waits : ∀ r ∈ feedingRoles, s.awaits r → s.ports.frameOf r = true
  roles : ∀ r ∈ feedingRoles, ¬bad r → s.roleAgrees r

/-- Every feeding role is in agreement. -/
def State.agrees (s : State) : Prop := s.agreesBut fun _ => False

section Agreement

variable {s t : State} {bad bad' : Role → Prop}

theorem State.agrees.role (h : s.agrees) {r : Role} (hr : r ∈ feedingRoles) : s.roleAgrees r := h.roles r hr fun hf => hf

theorem State.agreesBut.mono (h : s.agreesBut bad) (hbad : ∀ r ∈ feedingRoles, bad r → bad' r) : s.agreesBut bad' :=
  ⟨h.ports, h.exclusive, h.waits, fun r hr hgood => h.roles r hr fun hb => hgood (hbad r hr hb)⟩

theorem State.agreesBut.agrees (h : s.agreesBut bad) (hbad : ∀ r ∈ feedingRoles, ¬bad r) : s.agrees :=
  h.mono fun r hr hb => hbad r hr hb

/-- The laws of the statement, without RESETn. -/
theorem State.feedSound_iff (s : State) : s.feedSound ↔ s.agrees ∧ (s.pins.resetnLow = true → s.heldInReset) := by
  constructor
  · rintro ⟨⟨hex, hwaiting, hdeadline, hrx, hbody, hreset⟩, hpad, hscreen, hpen, hengine, hbp, hbs, hbn, hwp, hws, hwn⟩
    refine ⟨⟨fun i => ⟨hwaiting i, hdeadline i, hrx i, hbody i⟩, hex, ?_, ?_⟩, hreset⟩
    · intro r hr
      fin_cases hr
      · exact hwp
      · exact hws
      · exact hwn
    · intro r hr _
      fin_cases hr
      · exact ⟨hpad, hbp, hwp, fun _ => hengine⟩
      · exact ⟨hscreen, hbs, hws, fun h => by cases h⟩
      · exact ⟨hpen, hbn, hwn, fun h => by cases h⟩
  · rintro ⟨h, hreset⟩
    have hpad := h.role (r := .pad) (by decide)
    have hscreen := h.role (r := .screen) (by decide)
    have hpen := h.role (r := .pen) (by decide)
    exact ⟨⟨h.exclusive, fun i => (h.ports i).1, fun i => (h.ports i).2.1, fun i => (h.ports i).2.2.1,
      fun i => (h.ports i).2.2.2, hreset⟩, hpad.used, hscreen.used, hpen.used, hpad.engine rfl, hpad.busy, hscreen.busy,
      hpen.busy, hpad.waits, hscreen.waits, hpen.waits⟩

/-! ## What keeps agreement -/

theorem State.awaits_congr (h : t.waits = s.waits) (r : Role) : t.awaits r ↔ s.awaits r := by
  cases r <;> simp only [State.awaits, h]

theorem State.fed_congr (hports : t.ports = s.ports) (hposture : t.posture.actual = s.posture.actual) (r : Role) :
    t.fed r ↔ s.fed r := by
  unfold State.fed
  rw [hports, hposture]

/-- A role stays in agreement when frames and waiting teardowns stay, what it feeds does not grow, and it stays fed. -/
theorem State.roleAgrees.congr {r : Role} (h : s.roleAgrees r) (hframe : t.ports.frameOf r = s.ports.frameOf r)
    (hawaits : t.awaits r ↔ s.awaits r) (hfed : s.fed r → t.fed r)
    (hpad : r = .pad → padLive s.posture.actual = true → padLive t.posture.actual = true)
    (hocc : t.occupied r → s.occupied r) (hengine : r = .pad → t.engine.state ≠ .idle → s.engine.state ≠ .idle) :
    t.roleAgrees r := by
  refine ⟨fun ho => ?_, fun hb => ?_, fun hw => ?_, fun hr hne => ?_⟩
  · rw [hframe]
    exact (h.used (hocc ho)).imp_right hfed
  · rw [hframe] at hb
    exact (h.busy hb).imp hfed hawaits.2
  · rw [hframe]
    exact h.waits (hawaits.1 hw)
  · subst hr
    rw [hframe]
    exact (h.engine rfl (hengine rfl hne)).imp_right (hpad rfl)

/-- A role that is fed and has a frame in processing is in agreement, whatever it feeds. -/
theorem State.roleAgrees_of_busy {r : Role} (hbusy : s.ports.frameOf r = true) (hfed : s.fed r) : s.roleAgrees r :=
  ⟨fun _ => .inl hbusy, fun _ => .inl hfed, fun _ => hbusy, fun hr _ => .inl (hr ▸ hbusy)⟩

/-- A role whose teardown waits for its frame is in agreement. -/
theorem State.roleAgrees_of_waiting {r : Role} (hbusy : s.ports.frameOf r = true) (hwaits : s.awaits r) : s.roleAgrees r :=
  ⟨fun _ => .inl hbusy, fun _ => .inr hwaits, fun _ => hbusy, fun hr _ => .inl (hr ▸ hbusy)⟩

/-- A role without a frame that feeds nothing is in agreement. -/
theorem State.roleAgrees_of_empty {r : Role} (hbusy : s.ports.frameOf r = false) (hempty : ¬s.occupied r)
    (hwaits : ¬s.awaits r) (hengine : r = .pad → s.engine.state = .idle) : s.roleAgrees r :=
  ⟨fun ho => absurd ho hempty, fun hb => absurd (hb.symm.trans hbusy) (by decide), fun hw => absurd hw hwaits,
    fun hr hne => absurd (hengine hr) hne⟩

/-- Work on one role's surface or pen, or on what waits for it, that brings the role into agreement. -/
theorem State.agreesBut.mend {r₀ : Role} (h : s.agreesBut bad) (hports : t.ports = s.ports)
    (hposture : t.posture.actual = s.posture.actual)
    (hothers : ∀ r ∈ feedingRoles, r ≠ r₀ → (t.awaits r ↔ s.awaits r) ∧ (t.occupied r → s.occupied r))
    (hengine : r₀ = .pad ∨ (t.engine.state ≠ .idle → s.engine.state ≠ .idle)) (hmended : t.roleAgrees r₀) :
    t.agreesBut fun r => bad r ∧ r ≠ r₀ := by
  refine ⟨fun i => ?_, hports ▸ h.exclusive, fun r hr hw => ?_, fun r hr hgood => ?_⟩
  · have := h.ports i
    unfold State.port at this ⊢
    rwa [hports]
  · by_cases heq : r = r₀
    · subst heq
      exact hmended.waits hw
    · rw [hports]
      exact h.waits r hr ((hothers r hr heq).1.1 hw)
  · by_cases heq : r = r₀
    · subst heq
      exact hmended
    · obtain ⟨hawaits, hocc⟩ := hothers r hr heq
      refine (h.roles r hr fun hb => hgood ⟨hb, heq⟩).congr (by rw [hports]) hawaits
        (State.fed_congr hports hposture r).2 (fun _ => by rw [hposture]; exact id) hocc fun hpad => ?_
      exact hengine.resolve_left fun h₀ => heq (hpad.trans h₀.symm)

/-- Work that leaves the ports, the posture and what waits, and lets nothing more into what the roles feed. -/
theorem State.agreesBut.congr (h : s.agreesBut bad) (hports : t.ports = s.ports) (hwaits : t.waits = s.waits)
    (hposture : t.posture.actual = s.posture.actual) (hocc : ∀ r ∈ feedingRoles, t.occupied r → s.occupied r)
    (hengine : t.engine.state ≠ .idle → s.engine.state ≠ .idle) : t.agreesBut bad := by
  refine ⟨fun i => ?_, hports ▸ h.exclusive, fun r hr hw => ?_, fun r hr hgood => ?_⟩
  · have := h.ports i
    unfold State.port at this ⊢
    rwa [hports]
  · rw [hports]
    exact h.waits r hr ((State.awaits_congr hwaits r).1 hw)
  · exact (h.roles r hr hgood).congr (by rw [hports]) (State.awaits_congr hwaits r)
      (State.fed_congr hports hposture r).2 (fun _ => by rw [hposture]; exact id) (hocc r hr) fun _ => hengine

/-- Work on one role's surface or pen while it is fed and has a frame in processing. -/
theorem State.agrees.work {r₀ : Role} (h : s.agrees) (hports : t.ports = s.ports) (hwaits : t.waits = s.waits)
    (hposture : t.posture.actual = s.posture.actual) (hbusy : s.ports.frameOf r₀ = true) (hfed : s.fed r₀)
    (hocc : ∀ r ∈ feedingRoles, r ≠ r₀ → t.occupied r → s.occupied r)
    (hengine : r₀ = .pad ∨ (t.engine.state ≠ .idle → s.engine.state ≠ .idle)) : t.agrees :=
  (h.mend hports hposture (fun r hr hne => ⟨State.awaits_congr hwaits r, hocc r hr hne⟩) hengine
    (State.roleAgrees_of_busy (by rwa [hports]) ((State.fed_congr hports hposture r₀).2 hfed))).agrees fun _ _ hbad => hbad.1

/-- A port changed, its frame kept: the roles it no longer serves are out of agreement until they are torn down. -/
theorem State.agreesBut.setPort (h : s.agreesBut bad) (i : Fin 4) {p : Port} (hp : p.wellFormed)
    (hframe : p.frame = (s.port i).frame) (hex : (s.ports.set i p).exclusive)
    (hserves : ∀ r, ¬bad r → (s.port i).serves r → p.serves r) : (s.setPort i p).agreesBut bad := by
  have hbusy : ∀ r, (s.ports.set i p).frameOf r = s.ports.frameOf r := Ports.frameOf_set s.ports i p hframe
  refine ⟨fun j => ?_, hex, fun r hr hw => ?_, fun r hr hgood => ?_⟩
  · rw [State.port_setPort]
    split
    · exact hp
    · exact h.ports j
  · exact (hbusy r).trans (h.waits r hr hw)
  · refine (h.roles r hr hgood).congr (hbusy r) .rfl (fun hfed => ⟨hfed.1, ?_⟩) (fun _ => id) id fun _ => id
    obtain ⟨j, hj⟩ := (Ports.serve_iff _ r).1 hfed.2
    refine (Ports.serve_iff _ r).2 ⟨j, ?_⟩
    rw [State.setPort_ports, Ports.get_set]
    split
    next heq => exact hserves r hgood (heq ▸ hj)
    next => exact hj

/-- A port with a role and state kept holds and serves what it did. -/
theorem State.agreesBut.setPort_same (h : s.agreesBut bad) (i : Fin 4) {p : Port} (hp : p.wellFormed)
    (hframe : p.frame = (s.port i).frame) (hrole : p.role = (s.port i).role) (hstate : p.state = (s.port i).state) :
    (s.setPort i p).agreesBut bad := by
  refine h.setPort i hp hframe (Ports.exclusive_set h.exclusive fun r hr => ?_) (fun r _ hr => ?_)
  · change (s.port i).holds r = true
    rw [Port.holds_iff, Port.enabled_iff] at hr ⊢
    rwa [← hframe, ← hrole, ← hstate]
  · unfold Port.serves at hr ⊢
    rwa [hrole, hstate]

end Agreement

/-! ## Teardowns (R32, R74, R75) -/

section Teardowns

variable {s : State} {bad : Role → Prop}

theorem Pen.startHold_state (p : Pen) (hold : Nat) (now : Stamp) : (p.startHold hold now).state = p.state := by
  unfold Pen.startHold
  split <;> rfl

theorem State.tearPen_out (s : State) (k : PenTeardown) : (s.tearPen k).pen.state = .out := by
  cases k with
  | port =>
    show (penTeardownPort s.store.active s.timebase s.pen).pen.state = .out
    unfold penTeardownPort
    split
    · assumption
    · dsimp only
      rw [Pen.startHold_state]
      rfl
  | closed =>
    show (penTeardownClosed s.pen).pen.state = .out
    unfold penTeardownClosed
    split
    · assumption
    · rfl

theorem State.requestPad_agreesBut (h : s.agreesBut bad) : s.requestPad.agreesBut fun r => bad r ∧ r ≠ .pad := by
  unfold State.requestPad
  split
  next hbusy =>
    refine h.mend rfl rfl (fun r hr hne => ?_) (.inl rfl) (State.roleAgrees_of_waiting hbusy rfl)
    cases r with
    | pad => exact absurd rfl hne
    | _ => exact ⟨.rfl, id⟩
  next hbusy =>
    have hfree : s.ports.frameOf .pad = false := by simpa using hbusy
    refine h.mend rfl rfl (fun r hr hne => ?_) (.inl rfl) (State.roleAgrees_of_empty hfree (by simp [State.occupied])
      (fun hw => hbusy (h.waits .pad (by decide) hw)) fun _ => rfl)
    cases r with
    | pad => exact absurd rfl hne
    | _ => exact ⟨.rfl, id⟩

theorem State.requestScreen_agreesBut (h : s.agreesBut bad) : s.requestScreen.agreesBut fun r => bad r ∧ r ≠ .screen := by
  unfold State.requestScreen
  split
  next hbusy =>
    refine h.mend rfl rfl (fun r hr hne => ?_) (.inr id) (State.roleAgrees_of_waiting hbusy rfl)
    cases r with
    | screen => exact absurd rfl hne
    | _ => exact ⟨.rfl, id⟩
  next hbusy =>
    have hfree : s.ports.frameOf .screen = false := by simpa using hbusy
    refine h.mend rfl rfl (fun r hr hne => ?_) (.inr id) (State.roleAgrees_of_empty hfree (by simp [State.occupied])
      (fun hw => hbusy (h.waits .screen (by decide) hw)) fun h => by cases h)
    cases r with
    | screen => exact absurd rfl hne
    | _ => exact ⟨.rfl, id⟩

theorem State.requestPen_agreesBut (k : PenTeardown) (h : s.agreesBut bad) :
    (s.requestPen k).agreesBut fun r => bad r ∧ r ≠ .pen := by
  unfold State.requestPen
  split
  next hbusy =>
    refine h.mend rfl rfl (fun r hr hne => ?_) (.inr id) (State.roleAgrees_of_waiting hbusy (by simp [State.awaits]))
    cases r with
    | pen => exact absurd rfl hne
    | _ => exact ⟨.rfl, id⟩
  next hbusy =>
    have hfree : s.ports.frameOf .pen = false := by simpa using hbusy
    refine h.mend (State.tearPen_ports s k) (congrArg _ (State.tearPen_posture s k)) (fun r hr hne => ?_)
      (.inr fun hne => by rwa [State.tearPen_engine] at hne)
      (State.roleAgrees_of_empty (by rwa [State.tearPen_ports]) (fun hocc => hocc (State.tearPen_out s k))
        (fun hw => hbusy (h.waits .pen (by decide) (by rwa [State.awaits, State.tearPen_waits] at hw))) fun h => by cases h)
    refine ⟨State.awaits_congr (State.tearPen_waits s k) r, fun hocc => ?_⟩
    cases r with
    | pad => simpa [State.occupied] using hocc
    | screen => simpa [State.occupied] using hocc
    | pen => exact absurd rfl hne
    | _ => exact hocc

theorem State.requestRole_agrees {r : Role} (h : s.agreesBut (· = r)) : (s.requestRole r).agrees := by
  cases r with
  | pad => exact (State.requestPad_agreesBut h).agrees fun _ _ hb => hb.2 hb.1
  | screen => exact (State.requestScreen_agreesBut h).agrees fun _ _ hb => hb.2 hb.1
  | pen => exact (State.requestPen_agreesBut .port h).agrees fun _ _ hb => hb.2 hb.1
  | aux => exact h.agrees (by decide)
  | unused => exact h.agrees (by decide)

/-! ## The switch and posture requests (R125, R127, R130) -/

/-- After a change of the actual posture the roles that were live and are not any more are out of agreement. -/
theorem State.agrees.setPosture (h : s.agrees) (p : PostureControl) :
    State.agreesBut { s with posture := p } fun r =>
      roleLive s.posture.actual r = true ∧ ¬roleLive p.actual r = true := by
  refine ⟨h.ports, h.exclusive, h.waits, fun r hr hgood => (h.role hr).congr rfl ?_ ?_ ?_ ?_ fun _ => id⟩
  · cases r <;> exact .rfl
  · exact fun hfed => ⟨by by_contra hn; exact hgood ⟨hfed.1, hn⟩, hfed.2⟩
  · rintro rfl hlive
    by_contra hn
    exact hgood ⟨hlive, hn⟩
  · cases r <;> exact id

/-- A switch tears down what leaves use. -/
theorem State.leaveUse_agrees {old new : Posture}
    (h : s.agreesBut fun r => roleLive old r = true ∧ ¬roleLive new r = true) : (s.leaveUse old new).agrees := by
  have hpad : (if padLive old && !padLive new then s.requestPad else s).agreesBut
      fun r => (roleLive old r = true ∧ ¬roleLive new r = true) ∧ r ≠ .pad := by
    split
    next => exact State.requestPad_agreesBut h
    next hstays =>
      refine h.mono fun r hr hbad => ⟨hbad, ?_⟩
      rintro rfl
      exact hstays (by simpa [roleLive] using hbad)
  unfold State.leaveUse
  dsimp only
  split
  next =>
    refine (State.requestPen_agreesBut .closed (State.requestScreen_agreesBut hpad)).agrees fun r hr hbad => ?_
    obtain ⟨⟨⟨-, hnp⟩, hns⟩, hnn⟩ := hbad
    fin_cases hr
    · exact hnp rfl
    · exact hns rfl
    · exact hnn rfl
  next hstays =>
    refine hpad.agrees fun r hr hbad => ?_
    obtain ⟨hlive, hnp⟩ := hbad
    fin_cases hr
    · exact hnp rfl
    · exact hstays (by simpa [roleLive] using hlive)
    · exact hstays (by simpa [roleLive] using hlive)

theorem State.switch_agrees (forced : Bool) (h : s.agrees) : (s.switch forced).agrees := by
  have hleft := State.leaveUse_agrees (h.setPosture s.posture.switched)
  unfold State.switch
  dsimp only
  split
  · exact hleft.congr rfl rfl rfl (fun r _ => by cases r <;> exact id) id
  · exact hleft.congr rfl rfl rfl (fun r _ => by cases r <;> exact id) id

theorem State.judgeQuiet_agrees (h : s.agrees) : s.judgeQuiet.agrees := by
  unfold State.judgeQuiet
  split
  · exact State.switch_agrees _ h
  · exact h

theorem State.askTeardown_agrees {r : Role} (h : s.agreesBut (· = r)) : (s.askTeardown r).agrees := by
  unfold State.askTeardown
  split
  · exact State.judgeQuiet_agrees (State.requestRole_agrees h)
  · exact State.requestRole_agrees h

/-- A posture controller with the same actual posture. -/
theorem State.agrees.setControl (h : s.agrees) {p : PostureControl} (hp : p.actual = s.posture.actual) :
    State.agrees { s with posture := p } :=
  h.congr rfl rfl hp (fun r _ => by cases r <;> exact id) id

theorem State.request_agrees (r : Posture) (h : s.agrees) : (s.request r).agrees := by
  unfold State.request judgeRequest
  by_cases hsame : r = s.posture.actual
  · simp only [hsame, if_true]
    exact h.setControl rfl
  · by_cases hquiet : s.quiet = true
    · simp only [hsame, hquiet, if_true, if_false]
      exact State.switch_agrees _ (h.setControl rfl)
    · simp only [hsame, hquiet, if_false]
      cases s.posture.pending
      · exact h.setControl rfl
      · exact h.setControl rfl

end Teardowns

/-! ## Frames (R5, R9, R13, R14) -/

section Frames

variable {s : State} {i : Fin 4}

theorem State.hold_agrees (b : Bool) (r : Role) (h : s.agrees) : (s.hold b r).agrees := by
  refine h.congr (State.hold_ports s b r) (State.hold_waits s b r) (congrArg _ (State.hold_posture s b r)) (fun r' _ => ?_)
    (by rw [State.hold_engine]; exact id)
  have hmap (es : List Entry) : setHeld b es ≠ [] → es ≠ [] := by simp [setHeld]
  cases r with
  | pad =>
    cases r' with
    | pad => exact hmap _
    | _ => exact id
  | screen =>
    cases r' with
    | screen => exact hmap _
    | _ => exact id
  | pen => cases r' <;> exact id
  | aux => exact id
  | unused => exact id

/-- What the link, the tables, the keystrokes, the click line and the moment do is no matter of the roles. -/
theorem State.agrees.same {t : State} (h : s.agrees) (hports : t.ports = s.ports := by rfl) (hwaits : t.waits = s.waits := by rfl)
    (hposture : t.posture.actual = s.posture.actual := by rfl) (hcontacts : t.contacts = s.contacts := by rfl)
    (hpen : t.pen.state = s.pen.state := by rfl) (hengine : t.engine = s.engine := by rfl) : t.agrees := by
  refine h.congr hports hwaits hposture (fun r _ => ?_) (by rw [hengine]; exact id)
  cases r <;> simp only [State.occupied, hcontacts, hpen] <;> exact id

theorem State.requestRecord_agrees (stamp : Stamp) (r : AuxRecord) (h : s.agrees) : (s.auxFrameWork stamp r).agrees := by
  have hnoted : State.agrees (State.noteKeys { s with aux := { s.aux with hinge := some r.hinge, deck := some r.deck } }
      stamp r.keys) := by
    unfold State.noteKeys
    split <;> exact h.same
  unfold State.auxFrameWork
  dsimp only
  split
  · exact State.request_agrees _ (hnoted.setControl rfl)
  · exact hnoted.setControl rfl

/-- The work of a frame whose role is fed. -/
theorem State.frameWork_agrees {role : Role} (loss : Bool) (stamp : Stamp) (dt : Nat) (r : ScanRecord) (h : s.agrees)
    (hbusy : s.ports.frameOf role = true) (hfed : s.fed role) : (s.frameWork role loss stamp dt r).agrees := by
  unfold State.frameWork
  split
  · refine h.work (r₀ := .pad) rfl rfl rfl hbusy hfed (fun r _ hne => ?_) (.inl rfl)
    cases r with
    | pad => exact absurd rfl hne
    | _ => exact id
  · refine h.work (r₀ := .screen) rfl rfl rfl hbusy hfed (fun r _ hne => ?_) (.inr id)
    cases r with
    | screen => exact absurd rfl hne
    | _ => exact id
  · refine h.work (r₀ := .pen) rfl rfl rfl hbusy hfed (fun r _ hne => ?_) (.inr id)
    cases r with
    | pen => exact absurd rfl hne
    | _ => exact id
  · exact State.requestRecord_agrees _ _ h
  · exact h

/-- A frame begins on a port whose role is in use: the port is LIVE and the role is live in the actual posture (R12, R13). -/
theorem State.beginFrame_agrees (r : Stamped) (h : s.agrees) (hfree : (s.port i).frame = none)
    (hstate : (s.port i).state = .live) (hlive : roleLive s.posture.actual (s.port i).role = true) :
    (s.beginFrame i r).agrees := by
  let p : Port := { s.port i with
    lastStamp := some r.stamp, waiting := none
    lossMark := if (s.port i).role = .pen then false else (s.port i).lossMark
    frame := some ⟨(s.port i).role, r.record, r.stamp, frameInterval (s.port i).lastStamp r.stamp⟩ }
  obtain ⟨-, hdeadline, hrx, hbody⟩ := h.ports i
  have hserves (r : Role) : (s.setPort i p).ports.serve r = s.ports.serve r :=
    Ports.serve_set (ps := s.ports) (i := i) (p := p) rfl rfl r
  have hfed : (s.setPort i p).fed (s.port i).role := ⟨hlive, (hserves _).trans ((Ports.serve_iff _ _).2 ⟨i, rfl, .inl hstate⟩)⟩
  have hbusy : (s.setPort i p).ports.frameOf (s.port i).role = true :=
    (Ports.frameOf_iff _ _).2 ⟨i, _, congrArg Port.frame (State.port_setPort_same s i p), rfl⟩
  have hother (r : Role) (hne : r ≠ (s.port i).role) : (s.setPort i p).ports.frameOf r = s.ports.frameOf r :=
    Ports.frameOf_set_other (fun f hf hr => by cases hf; exact hne hr.symm) fun f hf => by cases hfree.symm.trans hf
  have hbegun : (s.setPort i p).agrees := by
    refine ⟨fun j => ?_, Ports.exclusive_set h.exclusive fun r hr => ?_, fun r hr hw => ?_, fun r hr _ => ?_⟩
    · rw [State.port_setPort]
      split
      · exact ⟨fun h => by simp [p] at h, hdeadline, hrx, hbody⟩
      · exact h.ports j
    · refine (Port.holds_iff _ r).2 (.inl ?_)
      rcases (Port.holds_iff _ r).1 hr with hheld | ⟨f, hf, hrole⟩
      · exact hheld
      · cases hf
        exact ⟨(Port.enabled_iff _).2 fun hd => PortState.noConfusion (hstate.symm.trans hd), hrole⟩
    · by_cases heq : r = (s.port i).role
      · rw [heq]
        exact hbusy
      · rw [hother r heq]
        exact h.waits r hr hw
    · by_cases heq : r = (s.port i).role
      · rw [heq]
        exact State.roleAgrees_of_busy hbusy hfed
      · exact (h.role hr).congr (hother r heq) .rfl (fun hf => ⟨hf.1, (hserves r).trans hf.2⟩) (fun _ => id) id fun _ => id
  exact State.frameWork_agrees _ _ _ _ hbegun hbusy hfed

theorem Port.wellFormed_live {p : Port} (d : Option Stamp) (hd : d.isSome = true) (h : p.wellFormed) :
    Port.wellFormed { p with state := .live, deadline := d } :=
  ⟨fun _ => .inl rfl, ⟨fun _ => .inl rfl, fun _ => hd⟩, fun hd => PortState.noConfusion hd, h.2.2.2⟩

/-- An enabled port becomes LIVE. -/
theorem State.revive_agrees (h : s.agrees) (henabled : (s.port i).state ≠ .disabled) : (s.revive i).agrees := by
  have hset : (s.setPort i { s.port i with state := .live, deadline := some (s.deadlineFrom i) }).agrees := by
    refine h.setPort i (Port.wellFormed_live _ rfl (h.ports i)) rfl
      (Ports.exclusive_set h.exclusive fun r hr => ?_) fun r _ hr => ⟨hr.1, .inl rfl⟩
    rcases (Port.holds_iff _ r).1 hr with ⟨-, hrole⟩ | hframe
    · exact (Port.holds_iff _ r).2 (.inl ⟨(Port.enabled_iff _).2 henabled, hrole⟩)
    · exact (Port.holds_iff _ r).2 (.inr hframe)
  unfold State.revive
  dsimp only
  split
  · exact State.hold_agrees _ _ hset
  · exact hset

theorem State.revive_port (s : State) (i : Fin 4) :
    (s.revive i).port i = { s.port i with state := .live, deadline := some (s.deadlineFrom i) } := by
  unfold State.revive
  dsimp only
  split
  · rw [State.port, State.hold_ports]
    exact State.port_setPort_same _ _ _
  · exact State.port_setPort_same _ _ _

theorem State.accept_agrees (r : ScanRecord) (h : s.agrees) (henabled : (s.port i).state ≠ .disabled) :
    (s.accept i r).agrees := by
  have hrevived := State.revive_agrees h henabled
  have hport := State.revive_port s i
  unfold State.accept
  dsimp only
  split
  next => exact hrevived
  next hlive =>
    split
    next hbegin =>
      rw [Bool.and_eq_true, Option.isNone_iff_eq_none] at hbegin
      refine State.beginFrame_agrees _ hrevived hbegin.1 (by rw [hport]) ?_
      rw [hport]
      simpa using hlive
    next =>
      obtain ⟨-, hdeadline, hrx, hbody⟩ := hrevived.ports i
      exact hrevived.setPort_same i ⟨fun _ => .inl (by rw [hport]), hdeadline, hrx, hbody⟩ rfl rfl rfl

theorem State.setRx_agrees {rx : Reception} (h : s.agrees) (henabled : (s.port i).state ≠ .disabled)
    (hrx : ∀ n bs, rx = .body n bs → bs.length < n ∧ n ≤ 255) : (s.setRx i rx).agrees := by
  obtain ⟨hwaiting, hdeadline, -, -⟩ := h.ports i
  exact h.setPort_same i ⟨hwaiting, hdeadline, fun hd => absurd hd henabled, hrx⟩ rfl rfl rfl

theorem State.setRx_enabled {rx : Reception} (henabled : (s.port i).state ≠ .disabled) :
    ((s.setRx i rx).port i).state ≠ .disabled := by
  rw [State.setRx, State.port_setPort_same]
  exact henabled

theorem State.arrival_agrees (body : List Byte) (h : s.agrees) (henabled : (s.port i).state ≠ .disabled) :
    ((s.setRx i .hunting).arrival i body).agrees := by
  have hhunts : (s.setRx i .hunting).agrees := State.setRx_agrees h henabled fun _ _ h => by cases h
  unfold State.arrival
  split
  · exact hhunts.same
  · exact State.accept_agrees _ hhunts (State.setRx_enabled henabled)

theorem State.receiveByte_agrees (b : Byte) (h : s.agrees) (henabled : (s.port i).state ≠ .disabled) :
    (s.receiveByte i b).agrees := by
  unfold State.receiveByte
  split
  next =>
    split
    · exact State.setRx_agrees h henabled fun _ _ h => by cases h
    · exact h
  next =>
    split
    next => exact State.arrival_agrees _ h henabled
    next hb =>
      refine State.setRx_agrees h henabled fun n bs hrx => ?_
      cases hrx
      have hpos : b.toNat ≠ 0 := fun h0 => hb (BitVec.eq_of_toNat_eq (by simpa using h0))
      have := b.isLt
      simp only [List.length_nil]
      omega
  next n bs hport =>
    obtain ⟨-, -, -, hbody⟩ := h.ports i
    obtain ⟨-, hn⟩ := hbody n bs hport
    split
    next => exact State.arrival_agrees _ h henabled
    next hshort =>
      refine State.setRx_agrees h henabled fun n' bs' hrx => ?_
      cases hrx
      rw [List.length_append, List.length_singleton]
      omega

theorem State.breakRecord_agrees (h : s.agrees) (henabled : (s.port i).state ≠ .disabled) : (s.breakRecord i).agrees := by
  have hhunts : (s.setRx i .hunting).agrees := State.setRx_agrees h henabled fun _ _ h => by cases h
  unfold State.breakRecord
  split
  · exact h
  · exact hhunts.same
  · exact hhunts.same

theorem State.receive_agrees (ch : Character) (h : s.agrees) : (s.receive i ch).agrees := by
  unfold State.receive
  split
  next henabled =>
    have henabled := (Port.enabled_iff _).1 henabled
    split
    · exact State.receiveByte_agrees _ h henabled
    · exact State.breakRecord_agrees h henabled
  next => exact h

theorem State.receiveLine_agrees (line : List Character) (h : s.agrees) : (s.receiveLine i line).agrees :=
  List.foldlRecOn (motive := State.agrees) line _ h fun _ hu ch _ => State.receive_agrees ch hu

theorem State.gap_agrees (h : s.agrees) : (s.gap i).agrees := by
  unfold State.gap
  split
  next henabled => exact State.breakRecord_agrees h ((Port.enabled_iff _).1 henabled)
  next => exact h

/-! ## Waiting records, the swap and the restart (R13 to R15, R143) -/

theorem State.beginWaiting_agrees (i : Fin 4) (h : s.agrees) : (s.beginWaiting i).agrees := by
  obtain ⟨hwaiting, hdeadline, hrx, hbody⟩ := h.ports i
  unfold State.beginWaiting
  dsimp only
  split
  next => exact h
  next r hr =>
    split
    next => exact h
    next hbusy =>
      split
      next => exact h.setPort_same i ⟨fun hw => absurd hw (by simp), hdeadline, hrx, hbody⟩ rfl rfl rfl
      next hlive =>
        have hcome := hwaiting (by rw [hr]; rfl)
        have hfree : (s.port i).frame = none := by simpa using hbusy
        have hlive : roleLive s.posture.actual (s.port i).role = true := by simpa using hlive
        unfold State.reviveIfStalled
        split
        next hstalled =>
          have henabled : (s.port i).state ≠ .disabled := by rcases hstalled with hs | hs <;> simp [hs]
          have hport := State.revive_port s i
          exact State.beginFrame_agrees r (State.revive_agrees h henabled) (by rwa [hport]) (by rw [hport])
            (by rw [hport]; simpa using hlive)
        next hstalled =>
          exact State.beginFrame_agrees r h hfree (hcome.resolve_right hstalled) hlive

theorem State.beginAll_agrees (h : s.agrees) : s.beginAll.agrees := by
  unfold State.beginAll
  split
  · exact h
  · exact State.beginWaiting_agrees _ h
  · exact List.foldlRecOn (motive := State.agrees) _ _ h.same fun _ hu i _ => State.beginWaiting_agrees i hu

theorem State.swap_agrees (h : s.agrees) : s.swap.agrees := State.beginAll_agrees h.same

theorem Port.restarted_wellFormed {p : Port} (h : p.wellFormed) : p.restarted.wellFormed := by
  obtain ⟨-, -, hrx, hbody⟩ := h
  unfold Port.restarted
  split
  next hd => exact ⟨fun h => by simp at h, by simp, fun _ => hrx hd, hbody⟩
  next => exact ⟨fun h => by simp at h, by simp, fun h => by simp at h, hbody⟩

theorem Port.holds_of_restarted {p : Port} {r : Role} (h : p.restarted.holds r = true) : p.holds r = true := by
  rw [Port.holds_iff, Port.enabled_iff] at h ⊢
  refine h.imp_left fun ⟨hstate, hrole⟩ => ⟨fun hd => hstate (by simp [Port.restarted, hd]), hrole⟩

/-- A restart takes effect while no frame is in processing. -/
theorem State.restartEffect_agrees (h : s.agrees) (hidle : s.ports.anyFrame = false) : s.restartEffect.agrees := by
  have hget (i : Fin 4) : s.restartEffect.ports.get i = (s.ports.get i).restarted := Ports.get_map _ _ _
  have hbusy (r : Role) : s.restartEffect.ports.frameOf r = false := by
    refine (Ports.frameOf_eq_false _ r).2 fun i f hf => ?_
    rw [hget] at hf
    exact absurd (((Ports.anyFrame_eq_false _).1 hidle i).symm.trans hf) (by simp)
  refine ⟨fun i => ?_, fun i j hij r hr hi => ?_, fun r hr hw => ?_, fun r hr _ => ?_⟩
  · rw [State.port, hget]
    exact Port.restarted_wellFormed (h.ports i)
  · rw [hget] at hi ⊢
    rw [Bool.eq_false_iff]
    exact fun hj => absurd (Port.holds_of_restarted hj) (by simp [h.exclusive i j hij r hr (Port.holds_of_restarted hi)])
  · fin_cases hr <;> simp [State.awaits, State.restartEffect, initialWaits] at hw
  · refine State.roleAgrees_of_empty (hbusy r) ?_ ?_ fun _ => rfl
    · fin_cases hr <;> simp [State.occupied, State.restartEffect, initialContacts, Pen.restarted, initialPen]
    · fin_cases hr <;> simp [State.awaits, State.restartEffect, initialWaits]

theorem State.settle_agrees (i : Fin 4) (h : s.agrees) : (s.settle i).agrees := by
  unfold State.settle
  split
  · split
    next => exact h
    next hidle => exact State.restartEffect_agrees h (by simpa using hidle)
  · split
    · split
      · exact h
      · exact State.swap_agrees h
    · exact State.beginWaiting_agrees i h

/-! ## The completion of a frame (R13, R32) -/

/-- The frame of a role ends: the role has no other, and what waits for it is still to be taken. -/
theorem State.frameEnd_agreesBut (h : s.agrees) {f : Frame} (hf : (s.port i).frame = some f) :
    let t := s.setPort i { s.port i with frame := none }
    (∀ j, (t.port j).wellFormed) ∧ t.ports.exclusive ∧ (∀ r ∈ feedingRoles, r ≠ f.role → t.roleAgrees r) ∧
      (f.role ∈ feedingRoles → t.ports.frameOf f.role = false ∧ (t.awaits f.role ∨ t.fed f.role)) := by
  let p : Port := { s.port i with frame := none }
  have hserves (r : Role) : (s.setPort i p).ports.serve r = s.ports.serve r :=
    Ports.serve_set (ps := s.ports) (i := i) (p := p) rfl rfl r
  have hother (r : Role) (hne : r ≠ f.role) : (s.setPort i p).ports.frameOf r = s.ports.frameOf r :=
    Ports.frameOf_set_other (fun f' hf' => by cases hf') fun f' hf' hr => by
      cases hf.symm.trans hf'
      exact hne hr.symm
  refine ⟨fun j => ?_, Ports.exclusive_set h.exclusive fun r hr => ?_, fun r hr hne => ?_, fun hr => ⟨?_, ?_⟩⟩
  · rw [State.port_setPort]
    split
    · exact h.ports i
    · exact h.ports j
  · rcases (Port.holds_iff _ r).1 hr with hheld | ⟨f', hf', -⟩
    · exact (Port.holds_iff _ r).2 (.inl hheld)
    · cases hf'
  · exact (h.role hr).congr (hother r hne) .rfl (fun hf => ⟨hf.1, (hserves r).trans hf.2⟩) (fun _ => id) id fun _ => id
  · refine (Ports.frameOf_eq_false _ _).2 fun j f' hf' hrole => ?_
    rw [State.setPort_ports, Ports.get_set] at hf'
    split at hf'
    next => cases hf'
    next hij =>
      have hheld := h.exclusive i j (Ne.symm hij) f.role (mem_of_feeding hr) (Port.holds_of_frame hf)
      have hsame := Port.holds_of_frame hf'
      rw [hrole] at hsame
      exact absurd (hheld.symm.trans hsame) (by decide)
  · have hbusy : s.ports.frameOf f.role = true := (Ports.frameOf_iff _ _).2 ⟨i, f, hf, rfl⟩
    exact ((h.role hr).busy hbusy).symm.imp_right fun hfed => ⟨hfed.1, (hserves _).trans hfed.2⟩

end Frames

end Sys2Proof.Machine
end

section
/-! Every step keeps the ports, the surfaces and the pen in agreement, continued: completions, deadlines, SET_PORT and the other
directives, the timers, the resets, and the state held in reset (sections 1.2, 1.4, 9.6, 10.4). -/

namespace Sys2Proof.Machine

section Completion

variable {s t : State} {R : Role}

/-! ## What waits for a completion is taken (R13, R32, R74, R75) -/

theorem State.requestPad_of_free (h : s.ports.frameOf .pad = false) : s.requestPad = s.tearPad := by
  unfold State.requestPad
  rw [h]
  rfl

theorem State.requestScreen_of_free (h : s.ports.frameOf .screen = false) : s.requestScreen = s.tearScreen := by
  unfold State.requestScreen
  rw [h]
  rfl

theorem State.requestPen_of_free (k : PenTeardown) (h : s.ports.frameOf .pen = false) : s.requestPen k = s.tearPen k := by
  unfold State.requestPen
  rw [h]
  rfl

/-- A pen teardown where no pen frame is in processing. -/
theorem State.tearPen_agrees (k : PenTeardown) (hfree : s.ports.frameOf .pen = false) (h : s.agreesBut (· = .pen)) :
    (s.tearPen k).agrees := by
  rw [← State.requestPen_of_free k hfree]
  exact (State.requestPen_agreesBut k h).agrees fun _ _ hb => hb.2 hb.1

theorem State.tearPens_agrees {ks : List PenTeardown} (hne : ks ≠ []) (hfree : s.ports.frameOf .pen = false)
    (h : s.agreesBut (· = .pen)) : (ks.foldl State.tearPen s).agrees := by
  induction ks generalizing s with
  | nil => exact absurd rfl hne
  | cons k ks ih =>
    have htorn := State.tearPen_agrees k hfree h
    cases ks with
    | nil => exact htorn
    | cons k' ks =>
      exact ih (s := s.tearPen k) (by simp) (by rwa [State.tearPen_ports]) (htorn.mono fun _ _ hf => hf.elim)

/-- At the completion of a frame of a role, what waits for it is taken: the role has no frame any more, and it is fed or its
teardown waits. -/
theorem State.takeWaits_agrees (hports : ∀ i, (s.port i).wellFormed) (hex : s.ports.exclusive)
    (hroles : ∀ r ∈ feedingRoles, r ≠ R → s.roleAgrees r)
    (hR : R ∈ feedingRoles → s.ports.frameOf R = false ∧ (s.awaits R ∨ s.fed R)) : (s.takeWaits R).agrees := by
  have hidle (hn : ¬s.awaits R) : s.agrees := by
    have hall : ∀ r ∈ feedingRoles, s.roleAgrees r := by
      intro r hr
      by_cases heq : r = R
      · subst heq
        obtain ⟨hfree, hfed⟩ := hR hr
        have hfed := hfed.resolve_left hn
        exact ⟨fun _ => .inr hfed, fun hb => absurd (hb.symm.trans hfree) (by decide), fun hw => absurd hw hn,
          fun hpad _ => .inr (by subst hpad; exact hfed.1)⟩
      · exact hroles r hr heq
    exact ⟨hports, hex, fun r hr => (hall r hr).waits, fun r hr _ => hall r hr⟩
  have hcleared {u : State} (hsame : u.ports = s.ports) (hposture : u.posture = s.posture)
      (hothers : ∀ r, r ≠ R → (u.awaits r ↔ s.awaits r) ∧ (u.occupied r → s.occupied r))
      (hengine : u.engine = s.engine) (hclear : ¬u.awaits R) : u.agreesBut (· = R) := by
    have hother : ∀ r ∈ feedingRoles, r ≠ R → u.roleAgrees r := fun r hr hne =>
      (hroles r hr hne).congr (congrArg (Ports.frameOf · r) hsame) (hothers r hne).1 (State.fed_congr hsame (congrArg _ hposture) r).2
        (fun _ => by rw [hposture]; exact id) (hothers r hne).2 (fun _ => by rw [hengine]; exact id)
    refine ⟨fun i => ?_, by rwa [hsame], fun r hr hw => ?_, hother⟩
    · have := hports i
      unfold State.port at this ⊢
      rwa [hsame]
    · by_cases heq : r = R
      · subst heq
        exact absurd hw hclear
      · exact (hother r hr heq).waits hw
  cases R with
  | pad =>
    rw [State.takeWaits]
    split
    next =>
      rw [← State.requestPad_of_free (s := { s with waits := { s.waits with pad := false } }) (hR (by decide)).1]
      refine State.requestRole_agrees (r := .pad) (hcleared rfl rfl (fun r hne => ?_) rfl (by simp [State.awaits]))
      cases r with
      | pad => exact absurd rfl hne
      | _ => exact ⟨.rfl, id⟩
    next hn => exact hidle hn
  | screen =>
    rw [State.takeWaits]
    split
    next =>
      rw [← State.requestScreen_of_free (s := { s with waits := { s.waits with screen := false } }) (hR (by decide)).1]
      refine State.requestRole_agrees (r := .screen) (hcleared rfl rfl (fun r hne => ?_) rfl (by simp [State.awaits]))
      cases r with
      | screen => exact absurd rfl hne
      | _ => exact ⟨.rfl, id⟩
    next hn => exact hidle hn
  | pen =>
    have hbut : State.agreesBut { s with waits := { s.waits with pen := [] } } (· = .pen) := by
      refine hcleared rfl rfl (fun r hne => ?_) rfl (by simp [State.awaits])
      cases r with
      | pen => exact absurd rfl hne
      | _ => exact ⟨.rfl, id⟩
    by_cases hn : s.waits.pen = []
    · have hsame : s.takeWaits .pen = { s with waits := { s.waits with pen := [] } } := by
        rw [State.takeWaits, hn]
        rfl
      rw [hsame, ← hn]
      exact hidle fun hw => hw hn
    · exact State.tearPens_agrees hn (hR (by decide)).1 hbut
  | aux => exact hidle fun hw => hw
  | unused => exact hidle fun hw => hw

theorem State.complete_agrees (i : Fin 4) (h : s.agrees) : (s.complete i).agrees := by
  unfold State.complete
  split
  next => exact h
  next f hf =>
    obtain ⟨hports, hex, hroles, hR⟩ := State.frameEnd_agreesBut h hf
    have htaken := State.takeWaits_agrees hports hex hroles hR
    have hheld : ((s.setPort i { s.port i with frame := none }).takeWaiting i f.role).agrees := by
      unfold State.takeWaiting
      dsimp only
      split
      · exact State.hold_agrees _ _ htaken
      · exact htaken
    dsimp only
    refine State.settle_agrees i ?_
    split
    · exact State.judgeQuiet_agrees hheld
    · exact hheld

end Completion

/-! ## Deadlines and SET_PORT (R2 to R4, R6, R7) -/

section Ports

variable {s : State} {i : Fin 4}

theorem Port.holds_of_enabled {p q : Port} {r : Role} (hframe : q.frame = p.frame) (hrole : q.role = p.role)
    (henabled : p.state ≠ .disabled) (h : q.holds r = true) : p.holds r = true := by
  rw [Port.holds_iff] at h ⊢
  rw [hframe, hrole] at h
  exact h.imp_left fun hq => ⟨(Port.enabled_iff p).2 henabled, hq.2⟩

/-- A port that keeps its frame and serves its role no more is out of agreement in that role alone. -/
theorem State.agrees.stopServing (h : s.agrees) {p : Port} (hp : p.wellFormed) (hframe : p.frame = (s.port i).frame)
    (hrole : p.role = (s.port i).role) (henabled : (s.port i).state ≠ .disabled) :
    (s.setPort i p).agreesBut (· = (s.port i).role) :=
  (h.mono fun _ _ hf => hf.elim).setPort i hp hframe
    (Ports.exclusive_set h.exclusive fun _ hr => Port.holds_of_enabled hframe hrole henabled hr)
    fun _ hne hr => absurd hr.1.symm hne

theorem State.goLate_agrees (h : s.agrees) (hlive : (s.port i).state = .live) : (s.goLate i).agrees := by
  obtain ⟨-, -, -, hbody⟩ := h.ports i
  let p : Port := { s.port i with state := .late, deadline := some (s.deadlineFrom i) }
  have hset : (s.setPort i p).agrees :=
    h.setPort i ⟨fun _ => .inr (.inl rfl), ⟨fun _ => .inr rfl, fun _ => rfl⟩, fun hd => PortState.noConfusion hd, hbody⟩ rfl
      (Ports.exclusive_set h.exclusive fun _ hr =>
        Port.holds_of_enabled (p := s.port i) (q := p) rfl rfl (by rw [hlive]; decide) hr)
      fun _ _ hr => ⟨hr.1, .inr rfl⟩
  unfold State.goLate
  dsimp only
  split
  · exact hset
  · exact State.hold_agrees _ _ hset

theorem State.goDown_agrees (h : s.agrees) (hlate : (s.port i).state = .late) : (s.goDown i).agrees := by
  obtain ⟨-, -, -, hbody⟩ := h.ports i
  have hset : (s.setPort i { s.port i with state := .down, deadline := none }).agreesBut (· = (s.port i).role) :=
    h.stopServing ⟨fun _ => .inr (.inr rfl), by simp, fun hd => PortState.noConfusion hd, hbody⟩ rfl rfl
      (by rw [hlate]; decide)
  exact State.askTeardown_agrees (hset.congr rfl rfl rfl (fun r _ => by cases r <;> exact id) id)

theorem State.deadline_agrees (i : Fin 4) (h : s.agrees) : (s.deadline i).agrees := by
  unfold State.deadline
  dsimp only
  split
  · split
    next hs => exact State.goLate_agrees h hs
    next hs => exact State.goDown_agrees h hs
    next => exact h
    next => exact h
    next => exact h
  · exact h

theorem State.disablePort_agrees (h : s.agrees) (henabled : (s.port i).state ≠ .disabled) : (s.disablePort i).agrees :=
  State.askTeardown_agrees (h.stopServing ⟨fun hw => absurd hw (by simp), by simp, fun _ => rfl, fun _ _ hrx => Reception.noConfusion hrx⟩
    rfl rfl henabled)

theorem State.heldByAnother_iff (s : State) (i : Fin 4) (r : Role) :
    s.heldByAnother i r = true ↔ ∃ j, j ≠ i ∧ (s.port j).holds r = true := by
  unfold State.heldByAnother
  rw [List.any_eq_true]
  constructor
  · rintro ⟨j, -, hj⟩
    rw [Bool.and_eq_true, bne_iff_ne] at hj
    exact ⟨j, hj⟩
  · rintro ⟨j, hj⟩
    refine ⟨j, by fin_cases j <;> simp, ?_⟩
    rw [Bool.and_eq_true, bne_iff_ne]
    exact hj

theorem State.enablePort_agrees {r : Role} (h : s.agrees) (hdisabled : (s.port i).state = .disabled)
    (hfree : ¬(r ≠ .unused ∧ s.heldByAnother i r = true)) : (s.enablePort i r).agrees := by
  let p : Port := { s.port i with
    role := r, state := .waiting, deadline := none, lastStamp := none, waiting := none, lossMark := false, rx := .hunting }
  have hback (r' : Role) (hr' : p.holds r' = true) : r' = r ∨ (s.port i).holds r' = true := by
    rcases (Port.holds_iff _ _).1 hr' with ⟨-, hrole⟩ | hframe
    · exact .inl hrole.symm
    · exact .inr ((Port.holds_iff _ _).2 (.inr hframe))
  have hex : (s.ports.set i p).exclusive := by
    have hclash (j : Fin 4) (hij : j ≠ i) (r' : Role) (hr' : r' ∈ [Role.pad, Role.screen, Role.pen, Role.aux])
        (hp : p.holds r' = true) : (s.ports.get j).holds r' = false := by
      rcases hback r' hp with rfl | hheld
      · rw [Bool.eq_false_iff]
        exact fun hj => hfree ⟨by rintro rfl; simp at hr', (State.heldByAnother_iff s i r').2 ⟨j, hij, hj⟩⟩
      · exact h.exclusive i j (Ne.symm hij) r' hr' hheld
    intro j k hjk r' hr' hj
    rw [Ports.get_set] at hj ⊢
    split
    next hk =>
      subst hk
      rw [if_neg hjk] at hj
      rw [Bool.eq_false_iff]
      exact fun hp => absurd (hclash j hjk r' hr' hp) (by simp [hj])
    next hk =>
      split at hj
      next hji => exact hclash k hk r' hr' hj
      next => exact h.exclusive j k hjk r' hr' hj
  refine h.setPort i ⟨fun hw => absurd hw (by simp), by simp, fun _ => rfl, fun _ _ hrx => Reception.noConfusion hrx⟩ rfl hex
    fun _ _ hr' => ?_
  rcases hr'.2 with hs | hs <;> rw [hdisabled] at hs <;> cases hs

theorem State.setRole_agrees (r : Role) (h : s.agrees) (hdisabled : (s.port i).state = .disabled) :
    (s.setPort i { s.port i with role := r }).agrees := by
  refine h.setPort i (h.ports i) rfl (Ports.exclusive_set h.exclusive fun r' hr' => ?_) fun _ _ hr' => ?_
  · rcases (Port.holds_iff _ _).1 hr' with ⟨henabled, -⟩ | hframe
    · exact absurd hdisabled ((Port.enabled_iff _).1 henabled)
    · exact (Port.holds_iff _ _).2 (.inr hframe)
  · rcases hr'.2 with hs | hs <;> rw [hdisabled] at hs <;> cases hs

theorem setPortRow_agrees (r : Role) (enable : Bool) (h : s.agrees) : (setPortRow i r enable s).1.agrees := by
  unfold setPortRow
  dsimp only
  split
  next henabled =>
    split
    next => exact h
    next =>
      split
      next => exact h
      next => exact State.disablePort_agrees h ((Port.enabled_iff _).1 henabled)
  next hn =>
    have hdisabled : (s.port i).state = .disabled := by
      by_contra hne
      exact hn ((Port.enabled_iff _).2 hne)
    split
    next =>
      split
      next => exact h
      next hfree => exact State.enablePort_agrees h hdisabled hfree
    next => exact State.setRole_agrees r h hdisabled

end Ports

/-! ## Directives and clocks -/

section Directives

variable {s : State}

theorem takeSetPosture_agrees (code : Nat) (h : s.agrees) : (takeSetPosture code s).1.agrees := by
  unfold takeSetPosture postureReply
  dsimp only
  split
  · exact State.request_agrees _ (h.setControl rfl)
  · split
    · exact h
    · exact State.request_agrees _ (h.setControl rfl)

theorem takeCommit_agrees (set : Half) (h : s.agrees) : (takeCommit set s).1.agrees := by
  have hset : State.agrees { s with store := { s.store with pendingCommit := s.store.pendingCommit ||| set } } := h.same
  unfold takeCommit
  split
  · exact h
  · split
    · exact h
    · unfold State.commit
      dsimp only
      split
      · exact hset
      · exact State.swap_agrees hset

theorem takeDiscard_agrees (set : Half) (h : s.agrees) : (takeDiscard set s).1.agrees := by
  have hset : State.agrees { s with store := { s.store with
      shadow := copySet set s.store.active s.store.shadow, pendingCommit := s.store.pendingCommit &&& ~~~set } } := h.same
  unfold takeDiscard
  split
  · exact h
  · unfold State.discard
    dsimp only
    split
    · exact hset
    · exact State.beginAll_agrees hset

theorem takeSetPort_agrees (port role enable : Nat) (h : s.agrees) : (takeSetPort port role enable s).1.agrees := by
  unfold takeSetPort
  split
  · split
    · exact setPortRow_agrees _ _ h
    · split
      · exact setPortRow_agrees _ _ h
      · exact h
  · exact h

theorem takeFlush_agrees (code : Nat) (h : s.agrees) : (takeFlush code s).1.agrees := by
  have hmono {r : Role} : s.agreesBut (· = r) := h.mono fun _ _ hf => hf.elim
  unfold takeFlush
  split
  · exact h
  · exact State.askTeardown_agrees (r := .pad) hmono
  · exact State.askTeardown_agrees (r := .screen) hmono

theorem takeRestart_agrees (h : s.agrees) : (takeRestart s).1.agrees := by
  have hwaits : State.agrees { s with link := { s.link with restartWaiting := true } } := h.same
  unfold takeRestart
  dsimp only
  split
  next => exact hwaits
  next hidle => exact State.restartEffect_agrees hwaits (by simpa using hidle)

theorem takeWriteTable_agrees (n : Nat) (b : List Byte) (h : s.agrees) : (takeWriteTable n b s).1.agrees := by
  unfold takeWriteTable
  dsimp only
  split
  · exact h
  · split
    · exact h
    · unfold writeShadow
      split
      · exact h
      · exact h.same

theorem State.answer_agrees (d : Directive) {act : State → State × ReplyBody} (h : (act s).1.agrees) :
    (s.answer d act).agrees := h.same

theorem State.takeDirective_agrees (d : Directive) (n : Byte) (b : List Byte) (h : s.agrees) :
    (s.takeDirective d n b).agrees := by
  cases d with
  | poll => exact h
  | readStatus => exact State.answer_agrees _ h
  | clearCauses =>
    refine State.answer_agrees _ ?_
    unfold takeClearCauses
    split
    · exact h
    · exact h.same
  | setMask =>
    refine State.answer_agrees _ ?_
    unfold takeSetMask
    split
    · exact h
    · exact h.same
  | setCeiling =>
    refine State.answer_agrees _ ?_
    unfold takeSetCeiling
    split
    · exact h.same
    · exact h
  | writeTable => exact State.answer_agrees _ (takeWriteTable_agrees _ _ h)
  | readTable =>
    refine State.answer_agrees _ ?_
    unfold takeReadTable
    (repeat' split) <;> exact h
  | commitTables => exact State.answer_agrees _ (takeCommit_agrees _ h)
  | discardShadow => exact State.answer_agrees _ (takeDiscard_agrees _ h)
  | setPort => exact State.answer_agrees _ (takeSetPort_agrees _ _ _ h)
  | setPosture => exact State.answer_agrees _ (takeSetPosture_agrees _ h)
  | flushSurface => exact State.answer_agrees _ (takeFlush_agrees _ h)
  | restart => exact State.answer_agrees _ (takeRestart_agrees h)

theorem State.clockByte_agrees (b : Byte) (h : s.agrees) : (s.clockByte b).agrees := by
  unfold State.clockByte
  split
  · exact h
  · dsimp only
    split
    · exact h.same
    · split
      · unfold State.takeCell
        dsimp only
        split
        · exact h.same
        · split
          · exact State.takeDirective_agrees _ _ _ h.same
          · exact h.same
      · exact h.same

theorem State.clockBytes_agrees (bs : List Byte) (h : s.agrees) : (s.clockBytes bs).agrees :=
  List.foldlRecOn (motive := State.agrees) bs _ h fun _ hu b _ => State.clockByte_agrees b hu

theorem State.clockBits_agrees (bits : List Bool) (h : s.agrees) : (s.clockBits bits).agrees := by
  unfold State.clockBits State.clockPart
  split
  · exact State.clockBytes_agrees _ h
  · exact (State.clockBytes_agrees _ h).same

theorem State.assertSeln_agrees (h : s.agrees) : s.assertSeln.agrees := by
  unfold State.assertSeln
  dsimp only
  (repeat' split) <;> exact h.same

theorem State.releaseSeln_agrees (h : s.agrees) : s.releaseSeln.agrees := by
  unfold State.releaseSeln
  dsimp only
  (repeat' split) <;> exact h.same

end Directives

/-! ## Timers and clicks (R17, R89, R100) -/

section Timers

variable {s : State}

/-- The engine at work while the pad is live. -/
theorem State.pads_agrees_live (f : Work → Work) (hlive : padLive s.posture.actual = true) (h : s.agrees) :
    (s.pads f).agrees := by
  have hrole := h.role (r := .pad) (by decide)
  refine (h.mend (t := s.pads f) (r₀ := .pad) rfl rfl (fun r _ _ => ?_) (.inl rfl)
    ⟨hrole.used, hrole.busy, hrole.waits, fun _ _ => .inr hlive⟩).agrees fun _ _ hb => hb.1
  cases r <;> exact ⟨.rfl, id⟩

/-- Engine work that keeps IDLE. -/
theorem State.pads_agrees {f : Work → Work} (hf : s.engine.state = .idle → (f ⟨s.engine, s.motion, []⟩).e.state = .idle)
    (h : s.agrees) : (s.pads f).agrees :=
  h.congr rfl rfl rfl (fun r _ => by cases r <;> exact id) fun hne hidle => hne (hf hidle)

theorem clickRelease_idle {w : Work} (es : List Entry) (h : w.e.state = .idle) : (clickRelease es w).e.state = .idle := by
  unfold clickRelease
  rw [h]
  exact h

theorem tapGapExpired_idle {w : Work} (h : w.e.state = .idle) : (tapGapExpired w).e.state = .idle := by
  unfold tapGapExpired
  dsimp only
  split
  · rfl
  · exact h

theorem coastExpired_idle {w : Work} (t : Tables) (h : w.e.state = .idle) : (coastExpired t w).e.state = .idle := by
  unfold coastExpired
  dsimp only
  split
  · rfl
  · exact h

theorem State.debounced_agrees (h : s.agrees) : s.debounced.agrees := by
  unfold State.debounced
  dsimp only
  split
  · split
    · exact h.same
    · have hsampled : State.agrees (State.sampleClick { s with aux := { s.aux with debounce := none } }) := h.same
      split
      next hlive =>
        unfold State.click
        split
        · exact State.judgeQuiet_agrees (State.pads_agrees_live _ hlive hsampled)
        · exact State.judgeQuiet_agrees (State.pads_agrees (fun hidle => clickRelease_idle _ hidle) hsampled)
      next => exact hsampled
  · exact h

theorem State.tapGap_agrees (h : s.agrees) : s.tapGap.agrees := by
  unfold State.tapGap
  split
  · exact State.judgeQuiet_agrees (State.pads_agrees (fun hidle => tapGapExpired_idle hidle) h)
  · exact h

theorem State.coast_agrees (h : s.agrees) : s.coast.agrees := by
  unfold State.coast
  split
  · exact State.judgeQuiet_agrees (State.pads_agrees (fun hidle => coastExpired_idle _ hidle) h)
  · exact h

end Timers

/-! ## The resets and the state held in reset (R1, R164) -/

section Resets

variable {s t : State}

theorem initialPorts_wellFormed (i : Fin 4) : (initialPorts.get i).wellFormed := by
  fin_cases i <;> exact ⟨fun h => Bool.noConfusion h, by decide, fun _ => rfl, fun _ _ h => Reception.noConfusion h⟩

theorem initialPorts_idle (i : Fin 4) : (initialPorts.get i).state = .disabled ∧ (initialPorts.get i).frame = none ∧
    (initialPorts.get i).deadline = none := by
  fin_cases i <;> exact ⟨rfl, rfl, rfl⟩

/-- Every block at its reset value is in agreement. -/
theorem State.agrees_of_reset (hports : s.ports = initialPorts) (hcontacts : s.contacts = initialContacts)
    (hpen : s.pen = initialPen) (hengine : s.engine = initialEngine) (hwaits : s.waits = initialWaits) : s.agrees := by
  have hbusy (r : Role) : s.ports.frameOf r = false := by
    refine (Ports.frameOf_eq_false _ r).2 fun i f hf => ?_
    rw [hports, (initialPorts_idle i).2.1] at hf
    cases hf
  refine ⟨fun i => ?_, fun i j _ r _ hi => ?_, fun r hr hw => ?_, fun r hr _ => ?_⟩
  · rw [State.port, hports]
    exact initialPorts_wellFormed i
  · rw [hports] at hi
    obtain ⟨hstate, hframe, -⟩ := initialPorts_idle i
    rcases (Port.holds_iff _ _).1 hi with ⟨henabled, -⟩ | ⟨f, hf, -⟩
    · exact absurd hstate ((Port.enabled_iff _).1 henabled)
    · cases hframe.symm.trans hf
  · fin_cases hr <;> simp [State.awaits, hwaits, initialWaits] at hw
  · refine State.roleAgrees_of_empty (hbusy r) ?_ ?_ fun _ => by rw [hengine]; rfl
    · fin_cases hr <;> simp [State.occupied, hcontacts, hpen, initialContacts, initialPen]
    · fin_cases hr <;> simp [State.awaits, hwaits, initialWaits]

theorem State.heldInReset.agrees (h : s.heldInReset) : s.agrees := by
  obtain ⟨hports, -, hcontacts, -, hpen, hengine, -, -, hwaits, -, -⟩ := h
  exact State.agrees_of_reset hports hcontacts hpen hengine hwaits

/-- The blocks that a hard reset holds are the same in two states. -/
theorem State.heldInReset.same (h : s.heldInReset) (hports : t.ports = s.ports := by rfl)
    (hdebounce : t.aux.debounce = s.aux.debounce := by rfl) (hcontacts : t.contacts = s.contacts := by rfl)
    (hkeys : t.keyQuiet = s.keyQuiet := by rfl) (hpen : t.pen = s.pen := by rfl) (hengine : t.engine = s.engine := by rfl)
    (hmotion : t.motion = s.motion := by rfl) (hposture : t.posture = s.posture := by rfl)
    (hwaits : t.waits = s.waits := by rfl) (hcommit : t.store.pendingCommit = s.store.pendingCommit := by rfl)
    (hlink : t.link = s.link := by rfl) : t.heldInReset := by
  unfold State.heldInReset at h ⊢
  rwa [hports, hdebounce, hcontacts, hkeys, hpen, hengine, hmotion, hposture, hwaits, hcommit, hlink]

theorem State.heldInReset.exchange (h : s.heldInReset) : s.link.exchange = none := by
  obtain ⟨-, -, -, -, -, -, -, -, -, -, b, hlink⟩ := h
  rw [hlink]
  rfl

theorem State.heldInReset.clockBytes (h : s.heldInReset) (bs : List Byte) : s.clockBytes bs = s :=
  List.foldlRecOn (motive := (· = s)) bs _ rfl fun u hu b _ => by
    rw [hu, State.clockByte, h.exchange]

theorem State.heldInReset.clockBits (h : s.heldInReset) (bits : List Bool) : s.clockBits bits = s := by
  rw [State.clockBits, h.clockBytes, State.clockPart, h.exchange]

theorem State.heldInReset.port (h : s.heldInReset) (i : Fin 4) :
    (s.port i).state = .disabled ∧ (s.port i).frame = none ∧ (s.port i).deadline = none := by
  rw [State.port, h.1]
  exact initialPorts_idle i

theorem State.heldInReset.receiveLine (h : s.heldInReset) (i : Fin 4) (line : List Character) :
    s.receiveLine i line = s :=
  List.foldlRecOn (motive := (· = s)) line _ rfl fun u hu ch _ => by
    rw [hu, State.receive, if_neg fun he => (Port.enabled_iff _).1 he (h.port i).1]

theorem due_none (now : Stamp) : due none now = false := rfl

/-- While RESETn is low no command works on the blocks that the hard reset holds. -/
theorem exec_keeps_heldInReset (c : Instr) (h : s.heldInReset) (hlow : s.pins.resetnLow = true)
    (hexec : exec c s = .next t) (hstill : t.pins.resetnLow = true) : t.heldInReset := by
  have hτ (τ : Stamp) : (s.atTime τ).heldInReset := h.same
  have hcell (τ : Stamp) (bs : List Byte) : ((s.atTime τ).clockBytes bs).heldInReset := by
    rw [(hτ τ).clockBytes]
    exact hτ τ
  have hreleased {τ : Stamp} (bits : List Bool) : ((s.atTime τ).clockBits bits).releaseSeln.heldInReset := by
    rw [(hτ τ).clockBits]
    unfold State.releaseSeln
    dsimp only
    split
    · split
      next => exact h.same
      next hn => exact absurd hlow hn
    · exact h.same
  cases c
  case powerOnReset τ | hardReset τ => cases hexec; exact ⟨rfl, rfl, rfl, rfl, rfl, rfl, rfl, rfl, rfl, rfl, _, rfl⟩
  case resetnRelease τ =>
    cases hexec
    rw [State.releaseReset, State.atTime_pins, if_pos hlow] at hstill
    cases hstill
  case scanRecordArrival τ i line => cases hexec; rw [(hτ τ).receiveLine]; exact hτ τ
  case framingError τ i line => cases hexec; rw [(hτ τ).receiveLine]; exact hτ τ
  case interByteGap τ i line =>
    cases hexec
    rw [(hτ τ).receiveLine, State.gap, if_neg fun he => (Port.enabled_iff _).1 he ((hτ τ).port i).1]
    exact hτ τ
  case deadlineExpiry τ i =>
    cases hexec
    unfold State.deadline
    dsimp only
    rw [((hτ τ).port i).2.2, due_none]
    exact hτ τ
  case frameCompletion τ i =>
    cases hexec
    unfold State.complete
    rw [((hτ τ).port i).2.1]
    exact hτ τ
  case clicknEdge τ e =>
    cases hexec
    unfold State.clickEdge
    dsimp only
    rw [State.atTime_pins, if_pos hlow]
    exact h.same
  case clickDebounceExpiry τ =>
    cases hexec
    unfold State.debounced
    rw [(hτ τ).2.1, due_none]
    exact hτ τ
  case keystrokeQuietExpiry τ =>
    cases hexec
    obtain ⟨-, -, -, hkeys, -⟩ := hτ τ
    unfold State.keysQuiet
    rw [hkeys, due_none]
    exact hτ τ
  case tapGapExpiry τ =>
    cases hexec
    obtain ⟨-, -, -, -, -, hengine, -⟩ := hτ τ
    unfold State.tapGap
    rw [hengine]
    exact hτ τ
  case coastExpiry τ =>
    cases hexec
    obtain ⟨-, -, -, -, -, hengine, -⟩ := hτ τ
    unfold State.coast
    rw [hengine]
    exact hτ τ
  case shadowHoldExpiry τ =>
    cases hexec
    obtain ⟨-, -, -, -, hpen, -⟩ := hτ τ
    unfold State.shadowEnd
    rw [hpen]
    exact hτ τ
  case deferralExpiry τ =>
    cases hexec
    obtain ⟨-, -, -, -, -, -, -, hposture, -⟩ := hτ τ
    unfold State.deferralEnd
    rw [hposture]
    exact hτ τ
  case exchangeBegin τ =>
    cases hexec
    unfold State.assertSeln
    dsimp only
    rw [State.atTime_pins, hlow]
    split <;> exact h.same
  case exchangeTruncated τ bits => cases hexec; exact hreleased bits
  case selnRelease τ bits => cases hexec; exact hreleased bits
  case poll τ c | readStatus τ c | clearCauses τ c | setMask τ c | setCeiling τ c | writeTable τ c | readTable τ c
      | commitTables τ c | discardShadow τ c | setPort τ c | setPosture τ c | flushSurface τ c | restart τ c
      | unknown τ kind c =>
    cases hexec
    exact hcell τ _

/-- RESETn goes low by a hard reset alone. -/
theorem exec_resetnLow (c : Instr) (hhigh : s.pins.resetnLow = false) (hexec : exec c s = .next t)
    (hlow : t.pins.resetnLow = true) : t.heldInReset := by
  have hreleased (u : State) : u.releaseSeln.pins.resetnLow = u.pins.resetnLow := by
    unfold State.releaseSeln
    dsimp only
    (repeat' split) <;> rfl
  cases c
  case powerOnReset τ => cases hexec; exact absurd (hhigh.symm.trans hlow) (by decide)
  case hardReset τ => cases hexec; exact ⟨rfl, rfl, rfl, rfl, rfl, rfl, rfl, rfl, rfl, rfl, _, rfl⟩
  case resetnRelease τ =>
    cases hexec
    rw [State.releaseReset, State.atTime_pins, if_neg (by simp [hhigh])] at hlow
    exact absurd (hhigh.symm.trans hlow) (by decide)
  case clicknEdge τ e =>
    cases hexec
    rw [State.clickEdge] at hlow
    dsimp only at hlow
    split at hlow <;> exact absurd (hhigh.symm.trans hlow) (by decide)
  case exchangeBegin τ =>
    cases hexec
    rw [State.assertSeln] at hlow
    dsimp only at hlow
    (repeat' split at hlow) <;> exact absurd (hhigh.symm.trans hlow) (by decide)
  all_goals
    cases hexec
    simp [hreleased, hhigh] at hlow

end Resets

/-! ## The statement -/

section Step

variable {s t : State}

theorem exec_keeps_agrees (c : Instr) (h : s.agrees) (hreset : s.pins.resetnLow = true → s.heldInReset)
    (hexec : exec c s = .next t) : t.agrees := by
  have hτ (τ : Stamp) : (s.atTime τ).agrees := h.same
  have hcell (τ : Stamp) (bs : List Byte) : ((s.atTime τ).clockBytes bs).agrees := State.clockBytes_agrees _ (hτ τ)
  cases c
  case powerOnReset τ | hardReset τ => cases hexec; exact State.agrees_of_reset rfl rfl rfl rfl rfl
  case resetnRelease τ =>
    cases hexec
    unfold State.releaseReset
    split
    next hlow =>
      obtain ⟨-, -, hcontacts, -, hpen, hengine, -, -, hwaits, -, -⟩ := hreset hlow
      exact State.agrees_of_reset rfl hcontacts hpen hengine hwaits
    next => exact hτ τ
  case scanRecordArrival τ i line => cases hexec; exact State.receiveLine_agrees _ (hτ τ)
  case framingError τ i line => cases hexec; exact State.receiveLine_agrees _ (hτ τ)
  case interByteGap τ i line => cases hexec; exact State.gap_agrees (State.receiveLine_agrees _ (hτ τ))
  case deadlineExpiry τ i => cases hexec; exact State.deadline_agrees _ (hτ τ)
  case frameCompletion τ i => cases hexec; exact State.complete_agrees _ (hτ τ)
  case clicknEdge τ e =>
    cases hexec
    unfold State.clickEdge
    dsimp only
    split <;> exact h.same
  case clickDebounceExpiry τ => cases hexec; exact State.debounced_agrees (hτ τ)
  case keystrokeQuietExpiry τ =>
    cases hexec
    unfold State.keysQuiet
    split <;> exact h.same
  case tapGapExpiry τ => cases hexec; exact State.tapGap_agrees (hτ τ)
  case coastExpiry τ => cases hexec; exact State.coast_agrees (hτ τ)
  case shadowHoldExpiry τ =>
    cases hexec
    unfold State.shadowEnd
    split <;> exact h.same
  case deferralExpiry τ =>
    cases hexec
    unfold State.deferralEnd
    split
    · exact State.switch_agrees true (hτ τ)
    · exact hτ τ
  case exchangeBegin τ => cases hexec; exact State.assertSeln_agrees (hτ τ)
  case exchangeTruncated τ bits | selnRelease τ bits =>
    cases hexec
    exact State.releaseSeln_agrees (State.clockBits_agrees bits (hτ τ))
  case poll τ c | readStatus τ c | clearCauses τ c | setMask τ c | setCeiling τ c | writeTable τ c | readTable τ c
      | commitTables τ c | discardShadow τ c | setPort τ c | setPosture τ c | flushSurface τ c | restart τ c
      | unknown τ kind c =>
    cases hexec
    exact hcell τ _

theorem exec_keeps_feedSound (c : Instr) (h : s.feedSound) (hexec : exec c s = .next t) : t.feedSound := by
  obtain ⟨hagrees, hreset⟩ := (State.feedSound_iff s).1 h
  refine (State.feedSound_iff t).2 ⟨exec_keeps_agrees c hagrees hreset hexec, fun hlow => ?_⟩
  cases hs : s.pins.resetnLow with
  | true => exact exec_keeps_heldInReset c (hreset hs) hs hexec hlow
  | false => exact exec_resetnLow c hs hexec hlow

end Step

/-- Settles O58: a role leaves agreement only within an event, which then requests or takes its teardown, and while RESETn is low
no command works on a block. -/
theorem stepKeepsSurfacesFed : Obligations.StepKeepsSurfacesFed := by
  intro s t h hstep
  unfold step at hstep
  split at hstep
  next => cases hstep; exact h
  next rest _ => exact exec_keeps_feedSound (s := { s with pending := rest }) _ h hstep

end Sys2Proof.Machine
end

section
/-! The step and the resets (chapter 0, R1, R18, R134, R164): the front command, the moment and the queue of every command, and the
state after a reset. -/

namespace Sys2Proof.Machine

/-! ## The step -/

/-- Settles O1: the two equations of `step`. -/
theorem stepRunsFrontCommand : Obligations.StepRunsFrontCommand :=
  ⟨fun _ _ _ => rfl, fun s h => by unfold step; rw [h]⟩

theorem State.releaseReset_moment (s : State) :
    s.releaseReset.timebase = s.timebase ∧ s.releaseReset.pending = s.pending := by
  unfold State.releaseReset
  split <;> exact ⟨rfl, rfl⟩

theorem State.clickEdge_moment (s : State) (e : ClickEdge) :
    (s.clickEdge e).timebase = s.timebase ∧ (s.clickEdge e).pending = s.pending := by
  unfold State.clickEdge
  dsimp only
  split <;> exact ⟨rfl, rfl⟩

/-- Settles O2: no event changes the moment or the queue. -/
theorem everyCommandCompletes : Obligations.EveryCommandCompletes := by
  intro c s
  cases c
  case resetnRelease τ => exact ⟨_, rfl, State.releaseReset_moment _⟩
  case powerOnReset τ | hardReset τ => exact ⟨_, rfl, rfl, rfl⟩
  case clicknEdge τ e => exact ⟨_, rfl, State.clickEdge_moment _ e⟩
  all_goals
    refine ⟨_, rfl, ?_, ?_⟩
    · simp [stampOf]
    · simp

/-! ## The resets -/

/-- Settles O3: both sides are the same state, block by block. -/
theorem powerOnResetSetsEveryBlock : Obligations.PowerOnResetSetsEveryBlock := fun _ _ => rfl

/-- Settles O4: a hard reset is a power-on reset with the line low and the calibrations put back. -/
theorem hardResetKeepsCalibrationAlone : Obligations.HardResetKeepsCalibrationAlone := fun _ _ => ⟨_, rfl, rfl⟩

/-- Settles O5: the two levels of RESETn. -/
theorem resetReleaseSamplesLines : Obligations.ResetReleaseSamplesLines := by
  intro τ s
  refine ⟨fun hlow => ?_, fun hhigh => ?_⟩
  · refine congrArg Host.Outcome.next ?_
    rw [State.releaseReset, if_pos (show (s.atTime τ).pins.resetnLow = true from hlow)]
    rfl
  · refine congrArg Host.Outcome.next ?_
    rw [State.releaseReset, if_neg (show ¬(s.atTime τ).pins.resetnLow = true by simp [hhigh])]
    rfl

/-- Settles O60: the reset state is a power-on state with its lines high. -/
theorem resetIsSound : Obligations.ResetIsSound := by
  have hlink : State.reset.linkSound :=
    (State.linkSound_iff _).2 ⟨initialLink_queuesSound _ true, fun _ => rfl, fun _ => rfl⟩
  have hfeed : State.reset.feedSound :=
    (State.feedSound_iff _).2 ⟨State.agrees_of_reset rfl rfl rfl rfl rfl, fun hlow => Bool.noConfusion hlow⟩
  obtain ⟨hsettings, hcell⟩ := initialLink_sound true
  have hmotion : State.reset.motionSound :=
    ((State.valuesSound_iff _).1 ⟨initialMotion_inRange, fun _ hr => absurd hr List.not_mem_nil, hsettings, hcell⟩).1
  exact ⟨initialContacts_sound, initialStore_sound, hlink, initialEngine_sound, initialPosture_sound, hfeed, hmotion,
    hsettings, hcell, by decide, by decide⟩

end Sys2Proof.Machine
end

section
/-! The click line and the timers of no port (sections 1.6, 3.1, 4.5, 5.3, 5.5, 5.6, 7.4). -/

namespace Sys2Proof.Machine

/-! ## Quiet -/

theorem State.judgeQuiet_of_busy {u : State} (h : ¬u.isQuiet) : u.judgeQuiet = u := (State.judgeQuiet_spec u).2 (.inr h)

theorem State.judgeQuiet_of_quiet {u : State} (hpending : u.posture.pending = true) (h : u.isQuiet) :
    u.switchedTo false u.judgeQuiet := (State.judgeQuiet_spec u).1 hpending h

/-- An engine out of IDLE is not quiet. -/
theorem State.not_isQuiet_of_engine {u : State} (h : u.engine.state ≠ .idle) : ¬u.isQuiet := fun hq => h hq.2.1

theorem State.due_of {timer : Option Stamp} {now : Stamp} (h : hasExpired timer now) : due timer now = true :=
  (due_iff _ _).2 h

theorem State.not_due_of {timer : Option Stamp} {now : Stamp} (h : ¬hasExpired timer now) : ¬due timer now = true := by
  rw [due_iff]
  exact h

section Timers

variable {s : State}

/-! ## What an expiry leaves -/

theorem State.keysQuiet_due (h : hasExpired s.keyQuiet s.timebase) : s.keysQuiet = { s with keyQuiet := none } :=
  if_pos (State.due_of h)

theorem State.keysQuiet_not_due (h : ¬hasExpired s.keyQuiet s.timebase) : s.keysQuiet = s := if_neg (State.not_due_of h)

theorem State.shadowEnd_due (h : hasExpired s.pen.shadowTimer s.timebase) :
    s.shadowEnd = { s with pen := { s.pen with shadowLive := false, shadowTimer := none } } :=
  if_pos (State.due_of h)

theorem State.shadowEnd_not_due (h : ¬hasExpired s.pen.shadowTimer s.timebase) : s.shadowEnd = s :=
  if_neg (State.not_due_of h)

theorem State.tapGap_due (h : hasExpired s.engine.tapGapTimer s.timebase) :
    s.tapGap = (s.pads tapGapExpired).judgeQuiet := if_pos (State.due_of h)

theorem State.tapGap_not_due (h : ¬hasExpired s.engine.tapGapTimer s.timebase) : s.tapGap = s :=
  if_neg (State.not_due_of h)

theorem State.coast_due (h : hasExpired s.engine.coastTimer s.timebase) :
    s.coast = (s.pads (coastExpired s.store.active)).judgeQuiet := if_pos (State.due_of h)

theorem State.deferralEnd_due (h : hasExpired s.posture.deferral s.timebase) : s.deferralEnd = s.switch true :=
  if_pos (State.due_of h)

theorem State.deferralEnd_not_due (h : ¬hasExpired s.posture.deferral s.timebase) : s.deferralEnd = s :=
  if_neg (State.not_due_of h)

/-- TapGap in TAP_WAIT: the held PRIMARY is released (R89). -/
theorem State.pads_tapGapExpired (hstate : s.engine.state = .tapWait) (hbutton : s.engine.button = .primary) :
    s.pads tapGapExpired = { s with
      engine := { s.engine with state := .idle, button := .none, tapGapTimer := none }
      link := s.link.buttonChange .none } := by
  simp [State.pads, tapGapExpired, Work.onEngine, hstate, Work.setButton, hbutton, Work.goto, GestureState.moves,
    Link.takeAll, Link.take]

/-- A coast expiry in COASTING that leaves the velocity below CoastStop (R100, R120). -/
theorem State.pads_coastExpired_ends {t : Tables} (hstate : s.engine.state = .coasting)
    (h : velocitySize (decayed t s.engine.vcx) (decayed t s.engine.vcy) < t.coastStop) :
    s.pads (coastExpired t) = { s with
      engine := { s.engine with state := .idle, coastTimer := none, vcx := 0, vcy := 0 }
      link := (s.link.addMotion s.engine.button ⟨0, 0, s.engine.vcx, s.engine.vcy, 0⟩).appendGesture .scrollEnd } := by
  unfold State.pads coastExpired
  dsimp only [Work.addMotion]
  rw [if_pos h]
  simp [endCoast, Work.onEngine, Work.record, Work.goto, hstate, GestureState.moves, Link.takeAll, Link.take, zeroDelta]

/-- A coast expiry that does not (R100, R120). -/
theorem State.pads_coastExpired_runs {t : Tables}
    (h : ¬velocitySize (decayed t s.engine.vcx) (decayed t s.engine.vcy) < t.coastStop) :
    s.pads (coastExpired t) = { s with
      engine := { s.engine with
        coastTimer := s.engine.coastTimer.map fun e => e + 8000#32
        vcx := decayed t s.engine.vcx, vcy := decayed t s.engine.vcy }
      link := s.link.addMotion s.engine.button ⟨0, 0, s.engine.vcx, s.engine.vcy, 0⟩ } := by
  unfold State.pads coastExpired
  dsimp only [Work.addMotion]
  rw [if_neg h]
  rfl

/-- A component that is not 0 shrinks (R120). -/
theorem natAbs_decayed_lt {v : Int} {d : Nat} (hd : d ≤ 254) (hv : v ≠ 0) : (Int.tdiv (v * d) 256).natAbs < v.natAbs := by
  rw [Int.natAbs_tdiv, Int.natAbs_mul, Int.natAbs_natCast, show (256 : Int).natAbs = 256 from rfl]
  have hpos : 0 < v.natAbs := Int.natAbs_pos.2 hv
  have hmul : v.natAbs * d ≤ v.natAbs * 254 := Nat.mul_le_mul_left _ hd
  exact Nat.div_lt_of_lt_mul (by omega)

end Timers

/-- Settles O22: the edge of the line, and the timer that a low RESETn keeps stopped. -/
theorem clickEdgeStartsDebounce : Obligations.ClickEdgeStartsDebounce := by
  intro τ e s
  have hlevel : edgeLevel e = (match e with | .falling => .pressed | .rising => .released) := by cases e <;> rfl
  refine ⟨fun hhigh => ?_, fun hlow => ?_⟩
  · refine congrArg Host.Outcome.next ?_
    unfold State.clickEdge
    dsimp only
    rw [if_neg (show ¬(s.atTime τ).pins.resetnLow = true by simp [hhigh]), hlevel, afterMs_eq]
    rfl
  · refine congrArg Host.Outcome.next ?_
    unfold State.clickEdge
    dsimp only
    rw [if_pos (show (s.atTime τ).pins.resetnLow = true from hlow), hlevel]
    rfl

/-- Settles O24: the two timers that run out in one block alone. -/
theorem quietTimersExpire : Obligations.QuietTimersExpire := fun τ s =>
  ⟨fun h => congrArg Host.Outcome.next (State.keysQuiet_due (s := s.atTime τ) h),
    fun h => congrArg Host.Outcome.next (State.keysQuiet_not_due (s := s.atTime τ) h),
    fun h => congrArg Host.Outcome.next (State.shadowEnd_due (s := s.atTime τ) h),
    fun h => congrArg Host.Outcome.next (State.shadowEnd_not_due (s := s.atTime τ) h)⟩

/-- Settles O25: the release leaves the engine IDLE, and quiet is judged by the entries and the pen. -/
theorem tapGapExpiryReleasesPrimary : Obligations.TapGapExpiryReleasesPrimary := by
  intro τ s
  refine ⟨fun hdue hstate hbutton => ?_, fun h => congrArg Host.Outcome.next (State.tapGap_not_due (s := s.atTime τ) h)⟩
  intro u
  have hexec : exec (.tapGapExpiry τ) s = .next u.judgeQuiet := by
    refine congrArg Host.Outcome.next ?_
    rw [State.tapGap_due (s := s.atTime τ) hdue, State.pads_tapGapExpired (s := s.atTime τ) hstate hbutton]
    rfl
  rw [hexec]
  refine ⟨fun hnot => ?_, fun hpending hpad hpen => ?_, fun _ hbusy => ?_⟩
  · rw [State.judgeQuiet_of_not_pending u hnot]
  · exact ⟨_, rfl, State.judgeQuiet_of_quiet hpending ⟨hpad, rfl, hpen⟩⟩
  · refine congrArg Host.Outcome.next (State.judgeQuiet_of_busy ?_)
    rintro ⟨hpad, -, hpen⟩
    rcases hbusy with hne | hcontact
    · exact hne hpad
    · exact hpen hcontact

/-- Settles O26: the coast ends below CoastStop and goes on from there up. -/
theorem coastExpiryStepsAndEnds : Obligations.CoastExpiryStepsAndEnds := by
  intro τ s hdue hstate d vx vy l
  refine ⟨fun hends => ⟨_, congrArg Host.Outcome.next (State.coast_due (s := s.atTime τ) hdue), ?_⟩, fun hruns => ?_,
    fun hd => ⟨natAbs_decayed_lt hd, natAbs_decayed_lt hd⟩⟩
  · rw [State.atTime_store, State.pads_coastExpired_ends (s := s.atTime τ) hstate hends]
    exact State.judgeQuiet_spec _
  · refine congrArg Host.Outcome.next ?_
    rw [State.coast_due (s := s.atTime τ) hdue, State.atTime_store,
      State.pads_coastExpired_runs (s := s.atTime τ) (Nat.not_lt.2 hruns)]
    exact State.judgeQuiet_of_busy (State.not_isQuiet_of_engine (by simp [hstate]))

/-- Settles O27: a forced switch, as the posture switch has it. -/
theorem deferralExpiryForcesSwitch : Obligations.DeferralExpiryForcesSwitch := fun τ s =>
  ⟨fun h => ⟨_, congrArg Host.Outcome.next (State.deferralEnd_due (s := s.atTime τ) h), State.switch_spec _ true⟩,
    fun h => congrArg Host.Outcome.next (State.deferralEnd_not_due (s := s.atTime τ) h)⟩

/-! ## The debounced click line (R17, R18, R102 to R104) -/

section Click

variable {s : State}

/-- The state with the line level accepted and the debounce timer stopped. -/
def State.levelAccepted (s : State) : State := { s with aux := { s.aux with accepted := s.pins.click, debounce := none } }

theorem State.debounced_same (hdue : hasExpired s.aux.debounce s.timebase) (hsame : s.pins.click = s.aux.accepted) :
    s.debounced = s.levelAccepted := by
  unfold State.debounced State.levelAccepted
  rw [if_pos (State.due_of hdue)]
  dsimp only
  rw [if_pos hsame, hsame]

theorem State.debounced_changed (hdue : hasExpired s.aux.debounce s.timebase) (hne : s.pins.click ≠ s.aux.accepted) :
    s.debounced = if padLive s.posture.actual then s.levelAccepted.click s.pins.click else s.levelAccepted := by
  unfold State.debounced
  rw [if_pos (State.due_of hdue)]
  dsimp only
  rw [if_neg hne]
  rfl

theorem clickButton_ne (t : Tables) (now : Stamp) (es : List Entry) : clickButton t now es ≠ .none := by
  unfold clickButton
  (repeat' split) <;> decide

theorem fingerEntries_eq (es : List Entry) : fingerEntries es = es.filter fun e => decide (e.cls = .finger) :=
  List.filter_congr fun e _ => by rw [Bool.eq_iff_iff, beq_iff_eq, decide_eq_true_iff]

theorem decidingEntries_eq (es : List Entry) : (es.filter fun e => e.cls == .finger || e.cls == .resting) =
    es.filter fun e => decide (e.cls = .finger ∨ e.cls = .resting) :=
  List.filter_congr fun e _ => by
    rw [Bool.eq_iff_iff, Bool.or_eq_true, beq_iff_eq, beq_iff_eq, decide_eq_true_iff]

theorem Tables.zoneFunction_eq (t : Tables) (zone : Option Nat) :
    t.zoneFunction zone = (zone.bind fun z => (t.zones[z]?).map (·.function)).getD .pointer := by
  cases zone <;> rfl

section Button

variable {t : Tables} {now : Stamp} {es : List Entry}

theorem clickButton_two (h : 2 ≤ (fingerEntries es).length) : clickButton t now es = .secondary := if_pos h

theorem clickButton_none (h : (fingerEntries es).length ≤ 1)
    (hnone : (es.filter fun e => e.cls == .finger || e.cls == .resting) = []) : clickButton t now es = .primary := by
  unfold clickButton
  rw [if_neg (by omega), hnone]
  rfl

theorem clickButton_of_mostRecent {x : Entry} (h : (fingerEntries es).length ≤ 1)
    (hx : mostRecentlyLanded now (es.filter fun e => e.cls == .finger || e.cls == .resting) x) :
    clickButton t now es =
      (match (x.zone.bind fun z => (t.zones[z]?).map (·.function)).getD .pointer with
        | .secondary => .secondary
        | .middle => .middle
        | .pointer => .primary
        | .rest => .primary
        | .dead => .primary) := by
  unfold clickButton
  rw [if_neg (by omega), mostRecent_eq now _ x hx, ← Tables.zoneFunction_eq] <;> rfl

end Button

/-- Engine work that does nothing. -/
theorem State.pads_idle {f : Work → Work} (h : f ⟨s.engine, s.motion, []⟩ = ⟨s.engine, s.motion, []⟩) : s.pads f = s := by
  simp [State.pads, h, Link.takeAll]

end Click

/-- Settles O23: the level, the press by the engine's rules for a press, and the release. -/
theorem debouncedClickActs : Obligations.DebouncedClickActs := by
  intro τ s hdue isFinger fingers deciding u
  have hu : (s.atTime τ).levelAccepted = u := rfl
  have hfingers : fingerEntries s.contacts.pad = fingers := fingerEntries_eq _
  have hchanged (hne : s.pins.click ≠ s.aux.accepted) : exec (.clickDebounceExpiry τ) s =
      .next (if padLive s.posture.actual then u.click s.pins.click else u) :=
    congrArg Host.Outcome.next (State.debounced_changed (s := s.atTime τ) hdue hne)
  have hlive (hlaptop : s.posture.actual = .laptop) : padLive s.posture.actual = true := (padLive_iff _).2 hlaptop
  refine ⟨fun hsame => ?_, fun hne hdead => ?_, fun hpress hold hlaptop hsound hstate => ?_, fun hpress hold hstate => ?_,
    fun hrelease hold hlaptop hbutton hstate => ?_, fun hrelease hold hlaptop hstate => ?_⟩
  · exact congrArg Host.Outcome.next (State.debounced_same (s := s.atTime τ) hdue hsame)
  · rw [hchanged hne, if_neg fun hp => hdead ((padLive_iff _).1 hp)]
  · obtain ⟨hengine, hmotion, hlink⟩ := clickPress_spec s.store.active τ s.contacts.pad s.engine s.motion s.link hsound hstate
      _ rfl (clickButton_ne s.store.active τ s.contacts.pad) _ rfl
    refine ⟨clickButton s.store.active τ s.contacts.pad, (mostRecent τ (fingerEntries s.contacts.pad)).map (·.track),
      fun htwo => ?_, fun hone hnone => ?_, fun x hone hx => ?_, fun hnone => ?_, fun x hx => ?_, ?_⟩
    · exact clickButton_two (hfingers ▸ htwo)
    · exact clickButton_none (hfingers ▸ hone) ((decidingEntries_eq _).trans hnone)
    · exact clickButton_of_mostRecent (hfingers ▸ hone) ((decidingEntries_eq _).symm ▸ hx)
    · rw [hfingers, hnone]
      rfl
    · rw [hfingers, mostRecent_eq τ fingers x hx]
      rfl
    · rw [hchanged (by rw [hpress, hold]; decide), hpress, if_pos (hlive hlaptop)]
      refine congrArg Host.Outcome.next ?_
      have hpads : u.pads (clickPress s.store.active τ s.contacts.pad) = { u with
          engine := (clickPress s.store.active τ s.contacts.pad ⟨s.engine, s.motion, []⟩).e
          motion := (clickPress s.store.active τ s.contacts.pad ⟨s.engine, s.motion, []⟩).m
          link := s.link.takeAll (clickPress s.store.active τ s.contacts.pad ⟨s.engine, s.motion, []⟩).out } := rfl
      rw [hengine, hmotion, hlink] at hpads
      show (u.pads (clickPress s.store.active τ s.contacts.pad)).judgeQuiet = _
      rw [hpads]
      exact State.judgeQuiet_of_busy (State.not_isQuiet_of_engine (by simp))
  · rw [hchanged (by rw [hpress, hold]; decide), hpress]
    split
    · have hidle : u.pads (clickPress s.store.active τ s.contacts.pad) = u := State.pads_idle (if_pos hstate)
      refine congrArg Host.Outcome.next ?_
      show (u.pads (clickPress s.store.active τ s.contacts.pad)).judgeQuiet = u
      rw [hidle]
      exact State.judgeQuiet_of_busy (State.not_isQuiet_of_engine (show s.engine.state ≠ .idle by simp [hstate]))
    · rfl
  · rw [hchanged (by rw [hrelease, hold]; decide), hrelease, if_pos (hlive hlaptop)]
    refine ⟨_, rfl, ?_⟩
    show State.judged _ (u.pads (clickRelease s.contacts.pad)).judgeQuiet
    have hpads : u.pads (clickRelease s.contacts.pad) = { u with
        engine := { s.engine with state := if fingers = [] then .idle else .residual, button := .none, pointer := none }
        motion := { s.motion with pointerX := 0, pointerY := 0 }
        link := s.link.buttonChange .none } := by
      unfold State.pads
      rw [show u.engine = s.engine from rfl, show u.motion = s.motion from rfl,
        clickRelease_eq s.contacts.pad s.engine s.motion hbutton hstate, hfingers]
      rfl
    rw [hpads]
    exact State.judgeQuiet_spec _
  · rw [hchanged (by rw [hrelease, hold]; decide), hrelease, if_pos (hlive hlaptop)]
    refine ⟨_, rfl, ?_⟩
    show State.judged _ (u.pads (clickRelease s.contacts.pad)).judgeQuiet
    rw [State.pads_idle (s := u) (f := clickRelease s.contacts.pad) (if_neg hstate)]
    exact State.judgeQuiet_spec u

end Sys2Proof.Machine
end

section
/-! The two ends of an exchange (R146, R154, R164): the fill of a report cell, and the release of SELn after its 64th byte. -/

namespace Sys2Proof.Machine

/-! ## The fill of a cell (R154) -/

section Fill

variable (l : Link)

/-- The bytes that the reply leaves of the 60. -/
def Link.leftByReply : Nat := 60 - (match l.reply with | none => [] | some r => replyLayout r : List Byte).length

/-- How many records of each class a fill places. -/
def Link.pensPlaced : Nat := if 1 < l.ceiling then min l.pen.length (l.leftByReply / 12) else 0

def Link.screensPlaced : Nat :=
  if 2 < l.ceiling then min l.screen.length ((l.leftByReply - 12 * l.pensPlaced) / 8) else 0

def Link.pointersPlaced : Nat :=
  if 3 < l.ceiling then
    min (l.pointer.takeWhile PointerRecord.sendable).length
      ((l.leftByReply - 12 * l.pensPlaced - 8 * l.screensPlaced) / 8)
  else 0

def Link.gesturesPlaced : Nat :=
  if 4 < l.ceiling then
    min l.gesture.length
      ((l.leftByReply - 12 * l.pensPlaced - 8 * l.screensPlaced - 8 * l.pointersPlaced) / 4)
  else 0

/-- The link with what a fill places in flight. -/
def Link.filled : Link :=
  { l with
    reply := l.reply.map fun r => { r with inFlight := true }
    pen := onHead l.pensPlaced (fun r => { r with inFlight := true }) l.pen
    screen := onHead l.screensPlaced (fun r => { r with inFlight := true }) l.screen
    pointer := onHead l.pointersPlaced (fun r => { r with inFlight := true, isOpen := false }) l.pointer
    gesture := onHead l.gesturesPlaced (fun r => { r with inFlight := true }) l.gesture }

theorem fillAll_filled : (fillAll l).link = l.filled := by
  simp only [fillAll, fillGesture_eq, fillPointer_eq, fillScreen_eq, fillPen_eq, fillReply_eq, replyBytes_eq]
  rfl

theorem fillAll_bytes :
    (fillAll l).bytes =
      (match l.reply with | none => [] | some r => replyLayout r) ++ (l.pen.take l.pensPlaced).flatMap penLayout ++
        (l.screen.take l.screensPlaced).flatMap touchLayout ++ (l.pointer.take l.pointersPlaced).flatMap pointerLayout ++
        (l.gesture.take l.gesturesPlaced).flatMap fun r => gestureLayout r.gesture := by
  simp only [← funext penSampleBytes_eq, ← funext touchRecordBytes_eq, ← funext pointerRecordBytes_eq, ← gestureBytes_eq]
  simp only [fillAll, fillGesture_eq, fillPointer_eq, fillScreen_eq, fillPen_eq, fillReply_eq, replyBytes_eq]
  rfl

/-- With a ceiling of 1 no class takes part. -/
theorem fillAll_bytes_of_ceiling_one (h : l.ceiling = 1) :
    (fillAll l).bytes = (match l.reply with | none => [] | some r => replyLayout r) := by
  have hnone : l.pensPlaced = 0 ∧ l.screensPlaced = 0 ∧ l.pointersPlaced = 0 ∧ l.gesturesPlaced = 0 := by
    simp [Link.pensPlaced, Link.screensPlaced, Link.pointersPlaced, Link.gesturesPlaced, h]
  obtain ⟨hpen, hscreen, hpointer, hgesture⟩ := hnone
  rw [fillAll_bytes, hpen, hscreen, hpointer, hgesture]
  simp

theorem PointerRecord.sendable_iff (r : PointerRecord) :
    r.sendable = true ↔ r.isOpen = false ∨ r.change = true ∨ r.motion ≠ ⟨0, 0, 0, 0, 0⟩ := by
  simp [PointerRecord.sendable, zeroDelta, or_assoc]

theorem Link.waitingRecord_iff :
    l.waitingRecord = true ↔
      (1 < l.ceiling ∧ l.pen.any (fun r => !r.inFlight) = true) ∨
      (2 < l.ceiling ∧ l.screen.any (fun r => !r.inFlight) = true) ∨
      (3 < l.ceiling ∧ l.pointer.any (fun r => r.sendable && !r.inFlight) = true) ∨
      (4 < l.ceiling ∧ l.gesture.any (fun r => !r.inFlight) = true) := by
  simp only [Link.waitingRecord, Bool.or_eq_true, Bool.and_eq_true, decide_eq_true_eq, or_assoc]

/-- What still waits after a fill: the records behind the placed heads. -/
theorem Link.filled_waiting_iff (h : l.nothingInFlight) :
    l.filled.waitingRecord = true ↔
      (1 < l.ceiling ∧ l.pensPlaced < l.pen.length) ∨ (2 < l.ceiling ∧ l.screensPlaced < l.screen.length) ∨
      (3 < l.ceiling ∧
        ∃ r ∈ l.pointer.drop l.pointersPlaced, r.isOpen = false ∨ r.change = true ∨ r.motion ≠ ⟨0, 0, 0, 0, 0⟩) ∨
      (4 < l.ceiling ∧ l.gesturesPlaced < l.gesture.length) := by
  obtain ⟨hpen, hscreen, hpointer, hgesture, -⟩ := h
  rw [Link.waitingRecord_iff]
  dsimp only [Link.filled]
  rw [any_waiting_onHead_all _ l.pen _ (·.inFlight) (fun _ => rfl) hpen,
    any_waiting_onHead_all _ l.screen _ (·.inFlight) (fun _ => rfl) hscreen,
    any_waiting_onHead _ l.pointer _ (·.inFlight) (fun _ => rfl) hpointer,
    any_waiting_onHead_all _ l.gesture _ (·.inFlight) (fun _ => rfl) hgesture]
  simp only [decide_eq_true_eq, List.any_eq_true, PointerRecord.sendable_iff]

end Fill

/-- SELn asserted on a served link. -/
theorem State.assertSeln_served {s : State} (hseln : s.pins.selnLow = false) (hreset : s.pins.resetnLow = false)
    (hseen : s.link.selnSeenHigh = true) :
    s.assertSeln = State.fill { s with pins := { s.pins with selnLow := true } } := by
  simp [State.assertSeln, hseln, hreset, hseen]

theorem State.assertSeln_unserved {s : State} (hseln : s.pins.selnLow = false)
    (h : s.pins.resetnLow = true ∨ s.link.selnSeenHigh = false) :
    s.assertSeln = { s with pins := { s.pins with selnLow := true } } := by
  have hunserved : (s.pins.resetnLow || !s.link.selnSeenHigh) = true := by simpa using h
  rw [State.assertSeln, if_neg (by simp [hseln])]
  exact if_pos hunserved

theorem postureByte_toNat (p : Posture) : (postureByte p).toNat = postureCode p := by cases p <;> rfl

theorem cellBytes_eq (top : Nat) (more : Bool) (p : Posture) (records : List Byte) :
    cellBytes top more p records =
      [if records = [] then 0 else 1, BitVec.ofNat 8 records.length, BitVec.ofNat 8 top,
        BitVec.ofNat 8 (flagBit more 1 + 16 * (postureByte p).toNat)] ++ records ++
        List.replicate (60 - records.length) 0 := by
  rw [postureByte_toNat]
  cases records <;> rfl

theorem State.fill_eq (s : State) :
    s.fill = { s with link := { s.link.filled with
      exchange := some
        { count := 0, cell := cellBytes s.topCause s.link.filled.waitingRecord s.posture.actual (fillAll s.link).bytes
          received := [] }
      sdo := [] } } := by
  rw [State.fill, fillAll_filled]

/-- Settles O28: the counts of a fill are those of `Link.filled`, and its bytes those of the layouts. -/
theorem exchangeBeginFillsCell : Obligations.ExchangeBeginFillsCell := by
  intro τ s l reply left0 np left1 ns left2 sendable nq left3 ng bytes more hseln
  refine ⟨fun hreset hseen hnone => ?served, fun h => ?unserved⟩
  case unserved => exact congrArg Host.Outcome.next (State.assertSeln_unserved (s := s.atTime τ) hseln h)
  case served =>
    have hwaiting := Link.filled_waiting_iff s.link hnone
    refine ⟨flagBit s.link.filled.waitingRecord 1 + 16 * (postureByte s.posture.actual).toNat, fun hmore => ?_,
      fun hmore => ?_, ?_⟩
    · rw [hwaiting.2 hmore]; rfl
    · rw [Bool.eq_false_iff.2 (mt hwaiting.1 hmore)]; exact Nat.zero_add _
    · have hfill : exec (.exchangeBegin τ) s = .next (State.fill { s.atTime τ with pins := { s.pins with selnLow := true } }) :=
        congrArg Host.Outcome.next (State.assertSeln_served (s := s.atTime τ) hseln hreset hseen)
      rw [hfill, State.fill_eq, cellBytes_eq, fillAll_bytes]
      rfl

/-! ## The release of SELn after the 64th byte (R146) -/

/-- After the 64th byte SDO carries 0x00 for every bit clocked. -/
theorem State.clockBits_after {s : State} {e : Exchange} (bits : List Bool) (h : s.link.exchange = some e)
    (hcount : 64 ≤ e.count) :
    s.clockBits bits =
      { s with link := { s.link with sdo := s.link.sdo ++ List.replicate bits.length false } } := by
  have hout : (linkBits e.out).take (bits.length % 8) = List.replicate (bits.length % 8) false := by
    have hzero : linkBits e.out = List.replicate 8 false := by
      rw [Exchange.out, if_neg (by omega)]; decide
    rw [hzero, List.take_replicate, Nat.min_eq_left (Nat.mod_lt _ (by decide)).le]
  rw [State.clockBits, State.clockBytes_after s e _ h hcount, State.clockPart_of_exchange _ (by exact h), hout]
  simp only [State.shiftOut, linkBytes_length, List.append_assoc, List.replicate_append_replicate, Nat.div_add_mod]

theorem State.clockBits_idle {s : State} (bits : List Bool) (h : s.link.exchange = none) : s.clockBits bits = s := by
  rw [State.clockBits, State.clockBytes_idle s _ h, State.clockPart, h]

/-- SELn rises on an exchange that is over, or on none. -/
theorem State.releaseSeln_of_not_exchanging {s : State} (hseln : s.pins.selnLow = true)
    (hreset : s.pins.resetnLow = false) (h : s.exchanging = false) :
    s.releaseSeln =
      { s with
        pins := { s.pins with selnLow := false }
        link := { s.link with exchange := none, selnSeenHigh := true } } := by
  have hstill : State.exchanging { s with pins := { s.pins with selnLow := false } } = false := h
  rw [State.releaseSeln, if_pos hseln]
  dsimp only
  rw [if_neg (by simp [hreset]), if_neg (by simp [hstill])]

/-- Settles O30: the exchange is over, so that the release ends it without a truncation. -/
theorem selnReleaseEndsExchange : Obligations.SelnReleaseEndsExchange := by
  intro τ bits s
  have hexec : exec (.selnRelease τ bits) s = .next ((s.atTime τ).clockBits bits).releaseSeln := rfl
  refine ⟨fun hseln hreset e he hcount => ?completed, fun hnone => ?idle, rfl⟩
  case completed =>
    rw [hexec, State.clockBits_after bits (s := s.atTime τ) he hcount, State.releaseSeln_of_not_exchanging (by exact hseln) (by exact hreset)
      ((State.exchanging_of_exchange (by exact he)).trans (decide_eq_false (by omega)))]
    rfl
  case idle =>
    rw [hexec, State.clockBits_idle bits (s := s.atTime τ) hnone]
    refine ⟨fun hseln hreset => ?_, fun hseln hreset => ?_, fun hseln => ?_⟩
    · rw [State.releaseSeln_of_not_exchanging (s := s.atTime τ) hseln hreset (by rw [State.exchanging]; simp [hnone])]
      exact congrArg (fun x => Host.Outcome.next { s with
        timebase := τ, pins := { s.pins with selnLow := false }
        link := { s.link with exchange := x, selnSeenHigh := true } }) hnone.symm
    · refine congrArg Host.Outcome.next ?_
      rw [State.releaseSeln, if_pos (by exact hseln)]
      exact if_pos hreset
    · exact congrArg Host.Outcome.next (if_neg (by simp [hseln]))

end Sys2Proof.Machine
end

section
/-! The directives as commands (R147, R149, R150): each is taken on the state after its cell with the operands of its payload.
With it READ_STATUS, SET_MASK and SET_CEILING (R151, R153), and the causes (R161, R162). -/

namespace Sys2Proof.Machine

/-! ## The commands -/

section Commands

variable {s : State} (τ : Stamp) (c : DirectiveCell)

/-- A directive answered with a known outcome. -/
theorem State.answer_of {d : Directive} {act : State → State × ReplyBody} {t : State} {b : ReplyBody}
    (h : act s = (t, b)) : s.answer d act = t.answered (directiveCode d) b := by
  rw [State.answer, h]; rfl

theorem exec_readStatus (hopen : s.exchangeOpen) (hwf : c.wellFormed = true) (hlen : c.length = 0) :
    exec (.readStatus τ c) s = .next ((s.afterCell τ).answer .readStatus takeReadStatus) :=
  congrArg Host.Outcome.next (State.clockCell_taken s τ c .readStatus hopen hwf (by rw [hlen]; rfl))

theorem exec_setMask (hopen : s.exchangeOpen) (hwf : c.wellFormed = true) (hlen : c.length = 2) :
    exec (.setMask τ c) s = .next ((s.afterCell τ).answer .setMask (takeSetMask (operandSet c))) := by
  rw [← setAt_eq_operandSet]
  exact congrArg Host.Outcome.next (State.clockCell_taken s τ c .setMask hopen hwf (by rw [hlen]; rfl))

theorem exec_setCeiling (hopen : s.exchangeOpen) (hwf : c.wellFormed = true) (hlen : c.length = 1) :
    exec (.setCeiling τ c) s = .next ((s.afterCell τ).answer .setCeiling (takeSetCeiling (operandByte c 0))) :=
  congrArg Host.Outcome.next (State.clockCell_taken s τ c .setCeiling hopen hwf (by rw [hlen]; rfl))

theorem exec_writeTable (hopen : s.exchangeOpen) (hwf : c.wellFormed = true) :
    exec (.writeTable τ c) s =
      .next ((s.afterCell τ).answer .writeTable (takeWriteTable c.length.toNat c.payload)) :=
  congrArg Host.Outcome.next (State.clockCell_taken s τ c .writeTable hopen hwf rfl)

theorem exec_commitTables (hopen : s.exchangeOpen) (hwf : c.wellFormed = true) (hlen : c.length = 2) :
    exec (.commitTables τ c) s = .next ((s.afterCell τ).answer .commitTables (takeCommit (operandSet c))) := by
  rw [← setAt_eq_operandSet]
  exact congrArg Host.Outcome.next (State.clockCell_taken s τ c .commitTables hopen hwf (by rw [hlen]; rfl))

theorem exec_discardShadow (hopen : s.exchangeOpen) (hwf : c.wellFormed = true) (hlen : c.length = 2) :
    exec (.discardShadow τ c) s = .next ((s.afterCell τ).answer .discardShadow (takeDiscard (operandSet c))) := by
  rw [← setAt_eq_operandSet]
  exact congrArg Host.Outcome.next (State.clockCell_taken s τ c .discardShadow hopen hwf (by rw [hlen]; rfl))

theorem exec_setPort (hopen : s.exchangeOpen) (hwf : c.wellFormed = true) (hlen : c.length = 3) :
    exec (.setPort τ c) s = .next ((s.afterCell τ).answer .setPort
      (takeSetPort (operandByte c 0) (operandByte c 1) (operandByte c 2))) :=
  congrArg Host.Outcome.next (State.clockCell_taken s τ c .setPort hopen hwf (by rw [hlen]; rfl))

theorem exec_setPosture (hopen : s.exchangeOpen) (hwf : c.wellFormed = true) (hlen : c.length = 1) :
    exec (.setPosture τ c) s = .next ((s.afterCell τ).answer .setPosture (takeSetPosture (operandByte c 0))) :=
  congrArg Host.Outcome.next (State.clockCell_taken s τ c .setPosture hopen hwf (by rw [hlen]; rfl))

theorem exec_flushSurface (hopen : s.exchangeOpen) (hwf : c.wellFormed = true) (hlen : c.length = 1) :
    exec (.flushSurface τ c) s = .next ((s.afterCell τ).answer .flushSurface (takeFlush (operandByte c 0))) :=
  congrArg Host.Outcome.next (State.clockCell_taken s τ c .flushSurface hopen hwf (by rw [hlen]; rfl))

theorem exec_restart (hopen : s.exchangeOpen) (hwf : c.wellFormed = true) (hlen : c.length = 0) :
    exec (.restart τ c) s = .next ((s.afterCell τ).answer .restart takeRestart) :=
  congrArg Host.Outcome.next (State.clockCell_taken s τ c .restart hopen hwf (by rw [hlen]; rfl))

end Commands

/-! ## READ_STATUS (R151) -/

/-- The level causes stand in a report as the two conditions that hold. -/
theorem State.causes_eq (s : State) :
    s.causes = s.link.latched ||| (if ∃ i : Fin 4, (s.port i).state = .late then (4 : Half) else 0) |||
      (if s.posture.pending = true then (0x100 : Half) else 0) := by
  rw [State.causes, State.levelCauses_eq, BitVec.or_assoc]

/-- Settles O31: the report is taken from the state after the cell, whose values are those of `s`. -/
theorem readStatusReportsState : Obligations.ReadStatusReportsState := by
  intro τ c s hopen hwf hlen late waits r
  refine ⟨?_, rfl⟩
  have hcauses : (s.afterCell τ).causes = s.link.latched ||| late ||| waits := State.causes_eq (s.afterCell τ)
  have hreport : (s.afterCell τ).statusReport = r := by
    rw [State.statusReport, hcauses]
    rfl
  rw [exec_readStatus τ c hopen hwf hlen, State.answer, takeReadStatus, hreport]
  rfl

/-! ## The causes that are pending and unmasked (R161, R162) -/

section Causes

variable {x m : Half}

theorem unmasked_iff {n : Nat} (hn : n < 9) :
    (x &&& ~~~m).getLsbD n = true ↔ x.getLsbD n = true ∧ m.getLsbD n = false := by
  simp [show n < 16 by omega]

theorem masked_iff {n : Nat} (hn : n < 9) :
    (x &&& ~~~m).getLsbD n = false ↔ (x.getLsbD n = true → m.getLsbD n = true) := by
  rw [← Bool.not_eq_true, unmasked_iff hn]
  simp

/-- A lowest cause is found within the nine. -/
theorem lowestCause_le {n : Nat} (hn : n < 9) (hx : x.getLsbD n = true) : lowestCause x ≤ n := by
  by_contra hlt
  have hfalse := ((lowestCause_spec x).1 ⟨n, hn, hx⟩).2 n (by omega)
  simp [hx] at hfalse

theorem lowestCause_of_lowest {n : Nat} (hn : n < 9) (hx : x.getLsbD n = true)
    (hlow : ∀ k < n, x.getLsbD k = false) : lowestCause x = n := by
  have hle := lowestCause_le hn hx
  by_contra hne
  have hfalse := hlow (lowestCause x) (by omega)
  rw [((lowestCause_spec x).1 ⟨n, hn, hx⟩).1] at hfalse
  cases hfalse

theorem lowestCause_ne_iff : lowestCause x ≠ 15 ↔ ∃ n < 9, x.getLsbD n = true := by
  constructor
  · intro h
    by_contra hnone
    push Not at hnone
    exact h ((lowestCause_spec x).2 fun n hn => by simpa using hnone n hn)
  · rintro ⟨n, hn, hx⟩
    have := lowestCause_le hn hx
    omega

end Causes

section TopCause

variable (s : State)

theorem State.topCause_of_pending (h : ∃ n < 9, s.causes.getLsbD n = true ∧ s.link.masks.getLsbD n = false) :
    s.causes.getLsbD s.topCause = true ∧ s.link.masks.getLsbD s.topCause = false ∧
      ∀ n < s.topCause, s.causes.getLsbD n = true → s.link.masks.getLsbD n = true := by
  obtain ⟨n, hn, hx⟩ := h
  have hbit := (unmasked_iff hn).2 hx
  have hle : s.topCause ≤ n := lowestCause_le hn hbit
  obtain ⟨hthis, hbefore⟩ := (lowestCause_spec _).1 ⟨n, hn, hbit⟩
  obtain ⟨hpending, hunmasked⟩ := (unmasked_iff (hle.trans_lt hn)).1 hthis
  exact ⟨hpending, hunmasked, fun k hk => (masked_iff (hk.trans (hle.trans_lt hn))).1 (hbefore k hk)⟩

theorem State.topCause_of_lowest {n : Nat} (hn : n < 9) (hpending : s.causes.getLsbD n = true)
    (hunmasked : s.link.masks.getLsbD n = false)
    (hlow : ∀ k < n, s.causes.getLsbD k = true → s.link.masks.getLsbD k = true) : s.topCause = n :=
  lowestCause_of_lowest hn ((unmasked_iff hn).2 ⟨hpending, hunmasked⟩)
    fun k hk => (masked_iff (by omega)).2 (hlow k hk)

theorem State.topCause_of_none (h : ∀ n < 9, s.causes.getLsbD n = true → s.link.masks.getLsbD n = true) :
    s.topCause = 15 :=
  (lowestCause_spec _).2 fun n hn => (masked_iff hn).2 (h n hn)

theorem State.topCause_ne_iff :
    s.topCause ≠ 15 ↔ ∃ n < 9, s.causes.getLsbD n = true ∧ s.link.masks.getLsbD n = false := by
  rw [State.topCause, lowestCause_ne_iff]
  exact exists_congr fun n => and_congr_right fun hn => unmasked_iff hn

theorem Link.waitingReply_iff (l : Link) : l.waitingReply = true ↔ ∃ r ∈ l.reply, r.inFlight = false := by
  unfold Link.waitingReply
  cases l.reply <;> simp

theorem State.attention_iff :
    s.attention = true ↔
      (∃ r ∈ s.link.reply, r.inFlight = false) ∨ s.link.waitingRecord = true ∨
        ∃ n < 9, s.causes.getLsbD n = true ∧ s.link.masks.getLsbD n = false := by
  simp only [State.attention, Bool.or_eq_true, bne_iff_ne, Link.waitingReply_iff, State.topCause_ne_iff, or_assoc]

end TopCause

/-! ## SET_MASK and SET_CEILING (R153) -/

theorem takeSetMask_refused {set : Half} {s : State} (h : 512 ≤ set.toNat) :
    takeSetMask set s = (s, .refusedRange) := if_pos ((causesOutOfRange_iff set).2 h)

theorem takeSetMask_taken {set : Half} {s : State} (h : set.toNat < 512) :
    takeSetMask set s = ({ s with link := { s.link with masks := set } }, .done) := by
  rw [takeSetMask, causesOutOfRange_eq_false h]; rfl

/-- Settles O33: a set of causes and a ceiling are taken or refused by their ranges, and the top cause is the lowest bit. -/
theorem setMaskAndCeiling : Obligations.SetMaskAndCeiling := by
  refine ⟨fun τ c s hopen hwf => ⟨fun hlen hset => ?mask, fun hlen hset => ?maskRefused, fun hlen h1 h5 => ?ceiling,
    fun hlen hvalue => ?ceilingRefused, fillAll_bytes_of_ceiling_one⟩, fun v => ?attention⟩
  case mask =>
    intro v
    refine ⟨?_, rfl, fun h => State.topCause_of_pending v h, fun h => State.topCause_of_none v h⟩
    rw [exec_setMask τ c hopen hwf hlen, State.answer_of (takeSetMask_taken hset)]
    rfl
  case maskRefused =>
    rw [exec_setMask τ c hopen hwf hlen, State.answer_of (takeSetMask_refused hset)]
    rfl
  case ceiling =>
    rw [exec_setCeiling τ c hopen hwf hlen, State.answer_of (if_pos ⟨h1, h5⟩)]
    rfl
  case ceilingRefused =>
    rw [exec_setCeiling τ c hopen hwf hlen, State.answer_of (if_neg (by omega))]
    rfl
  case attention =>
    intro late waits pending
    have hcauses : v.causes = pending := State.causes_eq v
    rw [← hcauses]
    refine ⟨rfl, fun n => State.topCause_of_lowest v, State.topCause_of_none v, ?_⟩
    rw [State.attention_iff, Link.waitingRecord_iff]
    simp only [List.any_eq_true, Bool.and_eq_true, Bool.not_eq_true', PointerRecord.sendable_iff, or_assoc,
      and_comm (b := _ = false)]

end Sys2Proof.Machine
end

section
/-! The directives with an effect on the blocks: the tables committed and discarded (R140, R143, R145), the ports (R2 to R4), the
posture (R126) and a surface flushed (R33). -/

namespace Sys2Proof.Machine

/-! ## COMMIT_TABLES -/

section Commit

variable {set : Half} {s : State}

theorem takeCommit_refused (h : set = 0 ∨ 256 ≤ set.toNat) : takeCommit set s = (s, .refusedRange) :=
  if_pos (h.imp_right (setOutOfRange_iff set).2)

theorem set_taken (h0 : set ≠ 0) (h : set.toNat < 256) : ¬(set = 0 ∨ setOutOfRange set) := by
  rw [setOutOfRange_eq_false h]
  simpa using h0

theorem takeCommit_invalid {id : TableId} {index : Nat} {reason : Reason} (h0 : set ≠ 0) (h : set.toNat < 256)
    (hv : validateSet s.store.shadow set = some (id, index, reason)) :
    takeCommit set s = (s, .invalid (tableCode id) index reason) := by
  rw [takeCommit, if_neg (set_taken h0 h), hv]

theorem takeCommit_valid (h0 : set ≠ 0) (h : set.toNat < 256) (hv : validateSet s.store.shadow set = none) :
    takeCommit set s = (s.commit set, .pending) := by
  rw [takeCommit, if_neg (set_taken h0 h), hv]

/-- The tables join the set and wait for the frames in processing or the RESTART. -/
theorem State.commit_waits (h : (∃ j, (s.port j).frame ≠ none) ∨ s.link.restartWaiting = true) :
    s.commit set = { s with store := { s.store with pendingCommit := s.store.pendingCommit ||| set } } := by
  have hbusy : (s.ports.anyFrame || s.link.restartWaiting) = true := by
    rw [Bool.or_eq_true, Ports.anyFrame_iff]; exact h
  exact if_pos hbusy

theorem State.commit_swaps (hframe : ∀ j, (s.port j).frame = none) (hrestart : s.link.restartWaiting = false) :
    s.commit set =
      State.swap { s with store := { s.store with pendingCommit := s.store.pendingCommit ||| set } } := by
  have hfree : ¬(s.ports.anyFrame || s.link.restartWaiting) = true := by
    rw [(Ports.anyFrame_eq_false s.ports).2 hframe, hrestart]; decide
  exact if_neg hfree

/-- The pending tables active, the set empty and TABLE_SWAPPED latched (R143). -/
def State.swapped (s : State) : State :=
  { s with
    store := { s.store with
      active := copySet s.store.pendingCommit s.store.shadow s.store.active, pendingCommit := 0 }
    link := { s.link with latched := s.link.latched ||| 0x40 } }

theorem State.swap_eq (s : State) : s.swap = s.swapped.beginAll := rfl

end Commit

/-- Settles O37: the validation of the set decides, and then the frames in processing and the RESTART. -/
theorem commitTablesPendsOrSwaps : Obligations.CommitTablesPendsOrSwaps := by
  intro τ c s hopen hwf hlen u set
  rw [exec_commitTables τ c hopen hwf hlen]
  refine ⟨fun h => ?refused, fun h0 h => ⟨fun ⟨id, hid, hfails⟩ => ?invalid, fun hvalid => ?valid⟩⟩
  case refused => rw [State.answer_of (takeCommit_refused h)]; rfl
  case invalid =>
    obtain ⟨⟨id', index, reason⟩, hv⟩ : ∃ x, validateSet u.store.shadow set = some x :=
      Option.ne_none_iff_exists'.1 fun hnone => hfails ((validateSet_none _ _).1 hnone id hid)
    obtain ⟨hmem, hreason, hlowest⟩ := validateSet_some _ _ _ _ _ hv
    refine ⟨id', index, reason, hmem, hreason, hlowest, ?_⟩
    rw [State.answer_of (takeCommit_invalid h0 h hv)]
    rfl
  case valid =>
    rw [State.answer_of (takeCommit_valid (s := u) h0 h ((validateSet_none _ _).2 hvalid))]
    refine ⟨fun hbusy => ?_, fun hframe hrestart => ?_⟩
    · rw [State.commit_waits (s := u) hbusy]; rfl
    · rw [State.commit_swaps (s := u) hframe hrestart, State.swap_eq]
      refine ⟨copySet (s.store.pendingCommit ||| set) s.store.shadow s.store.active,
        fun id => (copySet_spec _ _ _ id).1, fun id => (copySet_spec _ _ _ id).2, fun hwaiting => ?_,
        _, rfl, State.beginAll_spec _⟩
      rw [State.beginAll_of_no_waiting _ (by exact hwaiting)]
      rfl

/-! ## DISCARD_SHADOW -/

section Discard

variable {set : Half} {s : State}

theorem takeDiscard_refused (h : set = 0 ∨ 256 ≤ set.toNat) : takeDiscard set s = (s, .refusedRange) :=
  if_pos (h.imp_right (setOutOfRange_iff set).2)

theorem takeDiscard_taken (h0 : set ≠ 0) (h : set.toNat < 256) : takeDiscard set s = (s.discard set, .done) :=
  if_neg (set_taken h0 h)

/-- The tables of a set back at their active banks, and their commits cancelled (R145). -/
def State.discarded (s : State) (set : Half) : State :=
  { s with store := { s.store with
    shadow := copySet set s.store.active s.store.shadow
    pendingCommit := s.store.pendingCommit &&& ~~~set } }

theorem State.discard_eq (s : State) (set : Half) :
    s.discard set = if (s.discarded set).heldBack then s.discarded set else (s.discarded set).beginAll := rfl

theorem State.heldBack_iff (s : State) :
    s.heldBack = true ↔ s.store.pendingCommit ≠ 0 ∨ s.link.restartWaiting = true := by
  simp [State.heldBack]

/-- Without a hold and with nothing waiting, and with a hold, no record begins. -/
theorem State.discard_of_none_begins
    (h : s.store.pendingCommit &&& ~~~set ≠ 0 ∨ s.link.restartWaiting = true ∨ ∀ j, (s.port j).waiting = none) :
    s.discard set = s.discarded set := by
  rw [State.discard_eq]
  split
  · rfl
  next hfree =>
    rw [State.heldBack_iff, not_or] at hfree
    refine State.beginAll_of_no_waiting _ (h.resolve_left hfree.1 |>.resolve_left hfree.2)

theorem State.discard_of_begins (hset : s.store.pendingCommit &&& ~~~set = 0) (hrestart : s.link.restartWaiting = false) :
    s.discard set = (s.discarded set).beginAll := by
  rw [State.discard_eq, if_neg]
  rw [State.heldBack_iff, not_or, not_not]
  exact ⟨hset, Bool.not_eq_true _ ▸ hrestart⟩

end Discard

/-- Settles O39: a set with a table is discarded, and what the hold lets begin begins. -/
theorem discardShadowCancels : Obligations.DiscardShadowCancels := by
  intro τ c s hopen hwf hlen u set
  rw [exec_discardShadow τ c hopen hwf hlen]
  refine ⟨fun h => ?refused, fun h0 h => ?taken⟩
  case refused => rw [State.answer_of (takeDiscard_refused h)]; rfl
  case taken =>
    rw [State.answer_of (takeDiscard_taken h0 h)]
    refine ⟨copySet set s.store.active s.store.shadow, fun id => (copySet_spec _ _ _ id).1,
      fun id => (copySet_spec _ _ _ id).2, fun hnone => ?_, fun hset hrestart => ?_⟩
    · rw [State.discard_of_none_begins (s := u) hnone]; rfl
    · exact ⟨_, by rw [State.discard_of_begins (s := u) hset hrestart]; rfl, State.beginAll_spec _⟩

/-! ## SET_PORT -/

section SetPort

variable {i : Fin 4} {r : Role} {s : State}

theorem portOfCode_val (i : Fin 4) : portOfCode i.val = some i := by revert i; decide

theorem portOfCode_of_lt {n : Nat} (h : 3 < n) : portOfCode n = none := by
  obtain ⟨k, rfl⟩ : ∃ k, n = k + 4 := ⟨n - 4, by omega⟩
  rfl

theorem roleOfCode_roleCode (r : Role) : roleOfCode (roleCode r) = some r := by cases r <;> rfl

theorem roleOfCode_of_lt {n : Nat} (h : 4 < n) : roleOfCode n = none := by
  obtain ⟨k, rfl⟩ : ∃ k, n = k + 5 := ⟨n - 5, by omega⟩
  rfl

theorem takeSetPort_refused {port role enable : Nat} (h : 3 < port ∨ 4 < role ∨ 1 < enable) :
    takeSetPort port role enable s = (s, .refusedRange) := by
  unfold takeSetPort
  rcases h with h | h | h
  · rw [portOfCode_of_lt h]
  · rw [roleOfCode_of_lt h]
    cases portOfCode port <;> rfl
  · cases portOfCode port <;> cases roleOfCode role
    case some.some => exact (if_neg (by omega)).trans (if_neg (by omega))
    all_goals rfl

theorem takeSetPort_row {port role enable : Nat} (hport : port = i.val) (hrole : role = roleCode r) {on : Bool}
    (henable : enable = on.toNat) : takeSetPort port role enable s = setPortRow i r on s := by
  subst hport hrole henable
  unfold takeSetPort
  rw [portOfCode_val, roleOfCode_roleCode]
  cases on <;> rfl

theorem setPortRow_otherRole {b : Bool} (he : (s.port i).enabled = true) (hr : (s.port i).role ≠ r) :
    setPortRow i r b s = (s, .refusedState) := by
  rw [setPortRow, if_pos he, if_pos hr]

theorem setPortRow_enabled (he : (s.port i).enabled = true) (hr : (s.port i).role = r) :
    setPortRow i r true s = (s, .done) := by
  rw [setPortRow, if_pos he, if_neg (not_not.2 hr)]; rfl

theorem setPortRow_disable (he : (s.port i).enabled = true) (hr : (s.port i).role = r) :
    setPortRow i r false s = (s.disablePort i, .done) := by
  rw [setPortRow, if_pos he, if_neg (not_not.2 hr)]; rfl

theorem setPortRow_role (he : (s.port i).enabled = false) :
    setPortRow i r false s = (s.setPort i { s.port i with role := r }, .done) := by
  rw [setPortRow, if_neg (by simp [he])]; rfl

theorem setPortRow_held (he : (s.port i).enabled = false) (hr : r ≠ .unused) (h : s.heldByAnother i r = true) :
    setPortRow i r true s = (s, .refusedState) := by
  rw [setPortRow, if_neg (by simp [he]), if_pos rfl, if_pos ⟨hr, h⟩]

theorem setPortRow_enable (he : (s.port i).enabled = false) (h : r = .unused ∨ s.heldByAnother i r = false) :
    setPortRow i r true s = (s.enablePort i r, .done) := by
  rw [setPortRow, if_neg (by simp [he]), if_pos rfl, if_neg]
  rintro ⟨hr, hheld⟩
  rcases h with h | h
  · exact hr h
  · simp [h] at hheld

end SetPort

/-- Settles O40: the operands pick the row of R2, and each row is one case of `setPortRow`. -/
theorem setPortTable : Obligations.SetPortTable := by
  intro τ c s hopen hwf hlen u answer
  simp only [answer]
  rw [exec_setPort τ c hopen hwf hlen]
  refine ⟨fun h => ?refused, fun i r hport hrole => ?row⟩
  case refused => rw [State.answer_of (takeSetPort_refused h)]; rfl
  case row =>
    have hrow {on : Bool} {t : State} {b : ReplyBody} (henable : operandByte c 2 = on.toNat)
        (h : setPortRow i r on u = (t, b)) :
        (s.afterCell τ).answer .setPort (takeSetPort (operandByte c 0) (operandByte c 1) (operandByte c 2)) =
          t.answered 0x20 b :=
      State.answer_of ((takeSetPort_row hport hrole henable).trans h)
    refine ⟨fun he henable hr => ?_, fun he hr hon => ?_, fun he hr hoff => ?_, fun he hoff => ?_,
      fun he hon hr hheld => ?_, fun he hon hfree => ?_⟩
    · obtain ⟨on, hon⟩ : ∃ on : Bool, operandByte c 2 = on.toNat :=
        ⟨operandByte c 2 == 1, by rcases Nat.le_one_iff_eq_zero_or_eq_one.1 henable with h | h <;> rw [h] <;> rfl⟩
      rw [hrow hon (setPortRow_otherRole he hr)]
    · rw [hrow (on := true) hon (setPortRow_enabled he hr)]
    · refine ⟨_, State.askTeardown_spec _ r, ?_⟩
      rw [hrow (on := false) hoff (setPortRow_disable he hr), ← hr]
      rfl
    · rw [hrow (on := false) hoff (setPortRow_role he)]
      rfl
    · obtain ⟨j, hj, hholds⟩ := hheld
      have hheld : u.heldByAnother i r = true :=
        (State.heldByAnother_iff u i r).2 ⟨j, hj, (Port.holds_iff _ _).2 hholds⟩
      rw [hrow (on := true) hon (setPortRow_held he hr hheld)]
    · have hfree : r = .unused ∨ u.heldByAnother i r = false := hfree.imp_right fun h => by
        rw [← Bool.not_eq_true, State.heldByAnother_iff]
        rintro ⟨j, hj, hholds⟩
        obtain ⟨he, hr⟩ | ⟨f, hf, hr⟩ := (Port.holds_iff _ _).1 hholds
        · exact (h j hj).1 he hr
        · exact (h j hj).2 f hf hr
      rw [hrow (on := true) hon (setPortRow_enable he hfree)]
      rfl

/-! ## SET_POSTURE -/

section SetPosture

variable {code : Nat} {p : Posture} {s : State}

theorem takeSetPosture_refused (h4 : 4 < code) (h255 : code ≠ 255) : takeSetPosture code s = (s, .refusedRange) := by
  obtain ⟨k, rfl⟩ : ∃ k, code = k + 5 := ⟨code - 5, by omega⟩
  rw [takeSetPosture, if_neg (by exact h255)]
  rfl

theorem takeSetPosture_override :
    takeSetPosture (postureCode p) s =
      postureReply (State.request { s with posture := { s.posture with override := some p } } p) := by
  rw [takeSetPosture, if_neg (by cases p <;> decide), postureOfCode_postureCode]

theorem takeSetPosture_clear (h : postureOfBand s.posture.band s.aux.deck p) :
    takeSetPosture 255 s =
      postureReply (State.request { s with posture := { s.posture with override := none } } p) := by
  rw [takeSetPosture, if_pos (show 255 = clearCode from rfl)]
  dsimp only
  rw [bandPosture_eq h]

end SetPosture

/-- Settles O41: an override and CLEAR both end in a request of the posture they name. -/
theorem setPostureRequests : Obligations.SetPostureRequests := by
  intro τ c s hopen hwf hlen u code
  rw [exec_setPosture τ c hopen hwf hlen]
  refine ⟨fun h4 h255 => ?refused, fun p hp => ?taken⟩
  case refused => rw [State.answer_of (takeSetPosture_refused h4 h255)]; rfl
  case taken =>
    intro ov
    refine ⟨_, State.request_spec _ p, ?_⟩
    have htaken : takeSetPosture code u =
        postureReply (State.request { u with posture := { s.posture with override := ov } } p) := by
      rcases hp with hp | ⟨hp, hband⟩
      · have hov : ov = some p := if_neg (by rw [hp]; cases p <;> decide)
        rw [hp, hov]
        exact takeSetPosture_override
      · have hov : ov = none := if_pos hp
        rw [hp, hov]
        exact takeSetPosture_clear hband
    rw [State.answer_of htaken]
    rfl

/-! ## FLUSH_SURFACE -/

theorem takeFlush_refused {code : Nat} {s : State} (h : 1 < code) : takeFlush code s = (s, .refusedRange) := by
  obtain ⟨k, rfl⟩ : ∃ k, code = k + 2 := ⟨code - 2, by omega⟩
  rfl

/-- Settles O42: the surface's owner is asked for a teardown. -/
theorem flushSurfaceTearsDown : Obligations.FlushSurfaceTearsDown := by
  intro τ c s hopen hwf hlen u
  rw [exec_flushSurface τ c hopen hwf hlen]
  refine ⟨fun h => ?refused, fun r hr => ⟨_, State.askTeardown_spec u r, State.askTeardown_ports u r, ?taken⟩⟩
  case refused => rw [State.answer_of (takeFlush_refused h)]; rfl
  case taken =>
    rcases hr with ⟨hcode, rfl⟩ | ⟨hcode, rfl⟩
    all_goals rw [hcode]; rfl

end Sys2Proof.Machine
end

section
/-! The decoding of a directive cell (R146, R149, R166), and the bytes after its payload (R165). -/

namespace Sys2Proof.Machine

/-! ## The cell of each command -/

/-- A command that clocks a directive cell under a kind byte. -/
def Clocks (τ : Stamp) (c : DirectiveCell) (kind : Byte) (x : Instr) : Prop :=
  ∀ s : State, exec x s = .next ((s.atTime τ).clockCell kind c)

section Decoding

variable {τ : Stamp} {c : DirectiveCell} {s : State}

theorem lengthFits_of_ne {d : Directive} {n : Nat} (hd : requiredLength d = some n) (h : c.length.toNat ≠ n) :
    lengthFits d c.length = false := by
  rw [lengthFits, hd]
  simpa using h

/-- A cell of another length than its kind requires (R149). -/
theorem Clocks.refused {d : Directive} {n : Nat} {x : Instr} (hx : Clocks τ c (directiveCode d) x) (hopen : s.exchangeOpen)
    (hwf : c.wellFormed = true) (hd : requiredLength d = some n) (h : c.length.toNat ≠ n) :
    exec x s = .next ((s.afterCell τ).answered (directiveCode d) .refusedRange) := by
  rw [hx s, State.clockCell_refused s τ c d hopen hwf (lengthFits_of_ne hd h)]

theorem Clocks.idle {kind : Byte} {x : Instr} (hx : Clocks τ c kind x) (h : s.link.exchange = none) :
    exec x s = .next { s with timebase := τ } := by
  rw [hx s, State.clockCell_idle (s.atTime τ) kind c h]
  rfl

/-- After the 64th byte the 64 bytes of the cell are ignored, and SDO carries 0x00 (R146). -/
theorem State.clockCell_after {kind : Byte} {e : Exchange} (hwf : c.wellFormed = true) (he : s.link.exchange = some e)
    (hcount : 64 ≤ e.count) :
    s.clockCell kind c = { s with link := { s.link with sdo := s.link.sdo ++ List.replicate 512 false } } := by
  have hlen : c.payload.length = 62 := by simpa [DirectiveCell.wellFormed] using hwf
  rw [State.clockCell, State.clockBytes_after s e _ he hcount, List.length_cons, List.length_cons, hlen]

theorem Clocks.after {kind : Byte} {x : Instr} {e : Exchange} (hx : Clocks τ c kind x) (hwf : c.wellFormed = true)
    (he : s.link.exchange = some e) (hcount : 64 ≤ e.count) :
    exec x s = .next
      { s with timebase := τ, link := { s.link with sdo := s.link.sdo ++ List.replicate 512 false } } := by
  rw [hx s, State.clockCell_after (s := s.atTime τ) hwf he hcount]
  rfl

theorem takeWriteTable_unknown {n : Nat} {b : List Byte} (h : tableOfCode (byteAt b 0) = none) :
    takeWriteTable n b s = (s, .refusedRange) := by
  rw [takeWriteTable, h]

theorem takeWriteTable_refused {n : Nat} {b : List Byte} {id : TableId} (hid : tableOfCode (byteAt b 0) = some id)
    (h : byteAt b 2 = 0 ∨ tableMax id < byteAt b 2 ∨ tableSize id < byteAt b 1 + byteAt b 2 ∨
      n ≠ 3 + byteAt b 2 * entrySize id) :
    takeWriteTable n b s = (s, .refusedRange) := by
  rw [takeWriteTable, hid]
  exact if_pos h

theorem takeWriteTable_taken {n : Nat} {b : List Byte} {id : TableId} (hid : tableOfCode (byteAt b 0) = some id)
    (h0 : 0 < byteAt b 2) (hmax : byteAt b 2 ≤ tableMax id) (hsize : byteAt b 1 + byteAt b 2 ≤ tableSize id)
    (hn : n = 3 + byteAt b 2 * entrySize id) :
    takeWriteTable n b s = writeShadow id (byteAt b 1) (byteAt b 2) b s := by
  rw [takeWriteTable, hid]
  exact if_neg (by omega)

/-- A length that no count of entries has is refused. -/
theorem takeWriteTable_long {n : Nat} {b : List Byte} (h : 62 < n) : takeWriteTable n b s = (s, .refusedRange) := by
  cases hid : tableOfCode (byteAt b 0) with
  | none => exact takeWriteTable_unknown hid
  | some id =>
    refine takeWriteTable_refused hid ?_
    by_contra hfits
    have hmul := Nat.mul_le_mul_right (entrySize id) (show byteAt b 2 ≤ tableMax id by omega)
    have := tableMax_mul_entrySize_le id
    omega

end Decoding

/-- Settles O43: every command clocks its cell under its kind byte, and the kind decodes it. -/
theorem directiveDecoding : Obligations.DirectiveDecoding := by
  intro τ c s hwf kinds
  have hkinds (x : Instr × Byte × Nat) (hx : x ∈ kinds) :
      ∃ d, x.2.1 = directiveCode d ∧ requiredLength d = some x.2.2 ∧ Clocks τ c (directiveCode d) x.1 := by
    simp only [kinds, List.mem_cons, List.not_mem_nil, or_false] at hx
    rcases hx with rfl | rfl | rfl | rfl | rfl | rfl | rfl | rfl | rfl | rfl | rfl | rfl
    exacts [⟨.poll, rfl, rfl, fun _ => rfl⟩, ⟨.readStatus, rfl, rfl, fun _ => rfl⟩, ⟨.clearCauses, rfl, rfl, fun _ => rfl⟩,
      ⟨.setMask, rfl, rfl, fun _ => rfl⟩, ⟨.setCeiling, rfl, rfl, fun _ => rfl⟩, ⟨.readTable, rfl, rfl, fun _ => rfl⟩,
      ⟨.commitTables, rfl, rfl, fun _ => rfl⟩, ⟨.discardShadow, rfl, rfl, fun _ => rfl⟩, ⟨.setPort, rfl, rfl, fun _ => rfl⟩,
      ⟨.setPosture, rfl, rfl, fun _ => rfl⟩, ⟨.flushSurface, rfl, rfl, fun _ => rfl⟩, ⟨.restart, rfl, rfl, fun _ => rfl⟩]
  have hunknown (kind : Byte) : Clocks τ c kind (.unknown τ kind c) := fun _ => rfl
  refine ⟨fun hopen => ⟨fun kind hkind => ?unknown, fun x hx => ?known, ⟨rfl, fun h => ?write⟩, fun hlen => ?poll⟩,
    fun kind x hx => ?unserved⟩
  case unknown =>
    rw [hunknown kind s, State.clockCell_open s τ kind c hopen hwf,
      State.takeCell_unknown _ _ _ _ ((directiveOfCode_none kind).2 hkind)]
  case known =>
    obtain ⟨d, hcode, hlength, hclocks⟩ := hkinds x hx
    rw [hcode]
    exact ⟨(hunknown _ s).trans (hclocks s).symm, hclocks.refused hopen hwf hlength⟩
  case write =>
    rw [exec_writeTable τ c hopen hwf]
    refine congrArg Host.Outcome.next (State.answer_of ?_)
    rcases h with hlong | ⟨id, hid, hne⟩
    · exact takeWriteTable_long hlong
    · exact takeWriteTable_refused hid (.inr (.inr (.inr hne)))
  case poll =>
    refine ⟨congrArg Host.Outcome.next (State.clockCell_taken s τ c .poll hopen hwf (by rw [hlen]; rfl)), fun hreply => ?_⟩
    show s.link.reply.filter (fun r => r.inFlight = false) = none
    rw [Option.filter_eq_none_iff]
    intro r hr
    simp [hreply r hr]
  case unserved =>
    obtain ⟨k, hk⟩ : ∃ k, Clocks τ c k x := by
      rcases List.mem_cons.1 hx with rfl | hx
      · exact ⟨kind, hunknown kind⟩
      rcases List.mem_cons.1 hx with rfl | hx
      · exact ⟨0x10, fun _ => rfl⟩
      obtain ⟨y, hy, rfl⟩ := List.mem_map.1 hx
      obtain ⟨d, -, -, hclocks⟩ := hkinds y hy
      exact ⟨_, hclocks⟩
    exact ⟨hk.idle, fun e => hk.after hwf⟩

/-! ## The bytes after the payload -/

section Payload

variable {s : State} {a b : List Byte}

/-- WRITE_TABLE reads within its length, and is refused without its three operand bytes. -/
theorem takeWriteTable_take {n : Nat} (h : a.take n = b.take n) : takeWriteTable n a s = takeWriteTable n b s := by
  by_cases hshort : n < 3
  · have hrefused (b : List Byte) : takeWriteTable n b s = (s, .refusedRange) := by
      cases hid : tableOfCode (byteAt b 0) with
      | none => exact takeWriteTable_unknown hid
      | some id => exact takeWriteTable_refused hid (by omega)
    rw [hrefused a, hrefused b]
  · unfold takeWriteTable
    rw [byteAt_of_take h (show 0 < n by omega), byteAt_of_take h (show 1 < n by omega), byteAt_of_take h (show 2 < n by omega)]
    cases tableOfCode (byteAt b 0) with
    | none => rfl
    | some id =>
      dsimp only
      split
      · rfl
      next hfits =>
        have hn : n = 3 + byteAt b 2 * entrySize id := by omega
        unfold writeShadow
        rw [writeEntries_take id a b _ _ _ _ (hn ▸ h)]

/-- A directive whose length fits reads the payload of that length alone. -/
theorem State.takeDirective_take {d : Directive} {n : Byte} (hfits : lengthFits d n = true)
    (h : a.take n.toNat = b.take n.toNat) : s.takeDirective d n a = s.takeDirective d n b := by
  have hbyte {m i : Nat} (hm : n.toNat = m) (hi : i < m) : byteAt a i = byteAt b i := byteAt_of_take h (hm ▸ hi)
  have hset (hm : n.toNat = 2) : setAt a 0 = setAt b 0 := by
    simp only [setAt, halfAt]
    rw [hbyte hm (show 0 < 2 by decide), hbyte hm (show 0 + 1 < 2 by decide)]
  have hlen {m : Nat} (hd : requiredLength d = some m) : n.toNat = m := by
    rw [lengthFits, hd] at hfits
    simpa using hfits
  unfold State.takeDirective
  cases d with
  | poll | readStatus | restart => rfl
  | clearCauses | setMask | commitTables | discardShadow =>
    dsimp only
    rw [hset (hlen rfl)]
  | setCeiling | setPosture | flushSurface =>
    dsimp only
    rw [hbyte (hlen rfl) (by decide)]
  | readTable =>
    have hn := hlen rfl
    dsimp only
    rw [hbyte hn (show 0 < 4 by decide), hbyte hn (show 1 < 4 by decide), hbyte hn (show 2 < 4 by decide),
      hbyte hn (show 3 < 4 by decide)]
  | setPort =>
    have hn := hlen rfl
    dsimp only
    rw [hbyte hn (show 0 < 3 by decide), hbyte hn (show 1 < 3 by decide), hbyte hn (show 2 < 3 by decide)]
  | writeTable =>
    simp only [State.answer, takeWriteTable_take h]

theorem State.takeCell_take {kind n : Byte} (h : a.take n.toNat = b.take n.toNat) :
    s.takeCell (kind :: n :: a) = s.takeCell (kind :: n :: b) := by
  show (match directiveOfCode kind with
      | none => s.reply kind .unknown
      | some d => if lengthFits d n then s.takeDirective d n a else s.reply kind .refusedRange) =
    (match directiveOfCode kind with
      | none => s.reply kind .unknown
      | some d => if lengthFits d n then s.takeDirective d n b else s.reply kind .refusedRange)
  cases directiveOfCode kind with
  | none => rfl
  | some d =>
    dsimp only
    split
    · next hfits => exact State.takeDirective_take hfits h
    · rfl

end Payload

/-- Settles O44: the cell is taken by its payload, ignored after the 64th byte, and not clocked without an exchange. -/
theorem bytesAfterPayloadIgnored : Obligations.BytesAfterPayloadIgnored := by
  intro τ c d s hc hd hexchange hlength hpayload kind f hf
  obtain ⟨k, hk⟩ : ∃ k, ∀ x : DirectiveCell, exec (f x) s = .next ((s.atTime τ).clockCell k x) := by
    simp only [List.mem_cons, List.not_mem_nil, or_false] at hf
    rcases hf with rfl | rfl | rfl | rfl | rfl | rfl | rfl | rfl | rfl | rfl | rfl | rfl | rfl | rfl
    all_goals exact ⟨_, fun _ => rfl⟩
  rw [hk c, hk d]
  refine congrArg Host.Outcome.next ?_
  cases he : s.link.exchange with
  | none => rw [State.clockCell_idle (s.atTime τ) k c he, State.clockCell_idle (s.atTime τ) k d he]
  | some e =>
    obtain ⟨hcount, hreceived⟩ | hcount := hexchange e he
    · have hopen : s.exchangeOpen := ⟨e.cell, by rw [he, ← hcount, ← hreceived]⟩
      rw [State.clockCell_open s τ k c hopen hc, State.clockCell_open s τ k d hopen hd, ← hlength,
        State.takeCell_take hpayload]
    · rw [State.clockCell_after (s := s.atTime τ) hc he hcount, State.clockCell_after (s := s.atTime τ) hd he hcount]

end Sys2Proof.Machine
end

section
/-! WRITE_TABLE (R137, R138, R169): the entry that a run of bytes writes, each field brought into its range. -/

namespace Sys2Proof.Machine

/-! ## Each field brought into its range -/

section Fields

theorem clampNat_eq (lo hi v : Nat) (h : lo ≤ hi) : (clampNat lo hi v).1 = max lo (min hi v) := by
  unfold clampNat
  split
  · rw [max_eq_left]
    exact min_le_of_right_le (Nat.le_of_lt ‹_›)
  · split <;> (dsimp only; omega)

theorem flagOf_code (v : Nat) : flagBit (flagOf v).1 1 = min 1 v := by
  cases v with
  | zero => rfl
  | succ n => simp [flagOf, flagBit]

theorem scopeOf_code : ∀ v : Nat, scopeCode (scopeOf v).1 = min 2 v
  | 0 | 1 | 2 => rfl
  | n + 3 => by rw [Nat.min_eq_left (by omega)]; rfl

theorem relationOf_code : ∀ v : Nat, relationCode (relationOf v).1 = min 4 v
  | 0 | 1 | 2 | 3 | 4 => rfl
  | n + 5 => by rw [Nat.min_eq_left (by omega)]; rfl

theorem verdictOf_code : ∀ v : Nat, verdictCode (verdictOf v).1 = min 4 v
  | 0 | 1 | 2 | 3 | 4 => rfl
  | n + 5 => by rw [Nat.min_eq_left (by omega)]; rfl

theorem zoneFunctionOf_code : ∀ v : Nat, zoneFunctionCode (zoneFunctionOf v).1 = min 4 v
  | 0 | 1 | 2 | 3 | 4 => rfl
  | n + 5 => by rw [Nat.min_eq_left (by omega)]; rfl

/-- The byte of a prerequisite. -/
def prereqByte : Option Nat → Byte
  | none => 0xFF
  | some p => byteOf p

theorem ruleBytes_prereqByte (r : Rule) :
    ruleBytes r =
      [byteOf (flagBit r.enabled 1), byteOf (scopeCode r.scope), byteOf r.count, prereqByte r.prereq,
        byteOf (verdictCode r.verdict)] ++ conditionBytes r.c1 ++ conditionBytes r.c2 ++ conditionBytes r.c3 := rfl

/-- The prerequisite byte: 0xFF stays, and any other is at most 31. -/
theorem prereqOf_code (a : Byte) :
    prereqByte (prereqOf a.toNat).1 = if a = 0xFF then 0xFF else BitVec.ofNat 8 (min 31 a.toNat) := by
  have ha : a = 0xFF ↔ a.toNat = 255 := by rw [← BitVec.toNat_inj]; rfl
  by_cases h255 : a.toNat = 255
  · rw [if_pos (ha.2 h255), prereqOf, if_pos h255]
    rfl
  · rw [if_neg (mt ha.1 h255), prereqOf, if_neg h255]
    split
    · next h => rw [Nat.min_eq_right h]; rfl
    · next h => rw [Nat.min_eq_left (by omega)]; rfl

theorem conditionOf_code (b : List Byte) (k : Nat) :
    conditionBytes (conditionOf b k).1 =
      [b.getD k 0, BitVec.ofNat 8 (min 4 (b.getD (k + 1) 0).toNat), b.getD (k + 2) 0, b.getD (k + 3) 0] := by
  simp only [conditionBytes, conditionOf, relationOf_code, halfAt, byteAt, halfBytes_of, byteOf_toNat]
  rfl

end Fields

/-! ## The entry that bytes write -/

/-- The bytes of the entry that a run of bytes writes. -/
theorem writeEntry_bytes {t : Tables} {id : TableId} {i : Nat} (b : List Byte) (h : i < (tableBytes t id).length) :
    (tableBytes (writeEntry t id i b).1 id)[i]? = some (clampedBytes id i b) := by
  have hset {α : Type} {xs : List α} {f : α → List Byte} {x : α} {e : List Byte} (hi : i < (xs.map f).length) (he : f x = e) :
      ((xs.set i x).map f)[i]? = some e := by
    rw [List.length_map] at hi
    rw [List.getElem?_map, List.getElem?_set_self hi, Option.map_some, he]
  have hhalf (k : Nat) : halfAt b k = (b.getD k 0).toNat + 256 * (b.getD (k + 1) 0).toNat := rfl
  have htwo (n : Nat) : halfBytes n = [BitVec.ofNat 8 n, BitVec.ofNat 8 (n / 256)] := rfl
  have hclamp (hi v : Nat) : (clampNat 0 hi v).1 = min hi v := by rw [clampNat_eq _ _ _ (Nat.zero_le _), Nat.zero_max]
  cases id
  case rules =>
    refine hset h ?_
    simp only [ruleBytes_prereqByte, ruleOf, flagOf_code, scopeOf_code, verdictOf_code, hclamp, conditionOf_code]
    rw [byteAt, byteAt, byteAt, byteAt, byteAt, prereqOf_code]
    rfl
  case zones =>
    refine hset h ?_
    simp only [zoneBytes, zoneOf, flagOf_code, zoneFunctionOf_code, hclamp, hhalf, htwo]
    rfl
  case pointerCurve | scrollCurve | pressureCurve =>
    refine hset h ?_
    simp only [knotBytes, knotOf, hclamp, hhalf, htwo]
    rfl
  case bands =>
    refine hset h ?_
    simp only [boundaryBytes, boundaryOf, hclamp, hhalf, htwo]
    rfl
  case params =>
    refine hset h ?_
    simp only [paramOf, clampedBytes, htwo]
    cases hr : paramSpecs[i]? with
    | none => rfl
    | some r =>
      dsimp only
      rw [clampNat_eq _ _ _ (paramSpecs_range r (List.mem_of_getElem? hr)).1]
      rfl
  case calibration =>
    refine hset h ?_
    have hinto (lo hi x : Int) (hle : lo ≤ hi) : clampInt lo hi x = intoRange lo hi x := by
      unfold clampInt intoRange
      split_ifs <;> omega
    simp only [calibrationOf, calibrationRange, clampedBytes, signedWordBytes, htwo, signedWordAt, hhalf]
    split <;> rw [hinto _ _ _ (by decide)]

/-- Only the bytes of one entry are read. -/
theorem clampedBytes_take (id : TableId) (i : Nat) (b : List Byte) :
    clampedBytes id i (b.take (entrySize id)) = clampedBytes id i b := by
  have hget {n k : Nat} (hk : k < n) : (b.take n).getD k 0 = b.getD k 0 :=
    getD_of_take (List.take_take.trans (by rw [Nat.min_self])) hk
  cases id
  all_goals
    simp only [clampedBytes, entrySize]
    simp (disch := decide) only [hget]

/-- Each entry of a run stands as it was sent, brought into its ranges. -/
theorem writeEntries_bytes {id : TableId} (b : List Byte) {n i off : Nat} {t : Tables} (ht : t.inRange)
    (hi : i + n ≤ tableSize id) (hb : off + n * entrySize id ≤ b.length) {k : Nat} (hk : k < n) :
    (tableBytes (writeEntries id b n i off t).1 id)[i + k]? =
      some (clampedBytes id (i + k) (b.drop (off + k * entrySize id))) := by
  induction n generalizing i off t k with
  | zero => omega
  | succ n ih =>
    rw [Nat.succ_mul] at hb
    have hlen : (tableBytes t id).length = tableSize id := ht.1 id (mem_allTables id)
    have hrange : (writeEntry t id i (b.drop off)).1.inRange :=
      (writeEntry_spec t id i (b.drop off) ht (by omega) (by rw [List.length_drop]; omega)).1
    rw [writeEntries]
    dsimp only
    cases k with
    | zero =>
      obtain ⟨-, -, hframe, -⟩ :=
        writeEntries_spec id b n (i + 1) (off + entrySize id) _ hrange (by omega) (by omega)
      rw [Nat.add_zero, Nat.zero_mul, Nat.add_zero]
      exact (hframe i (.inl (by omega))).trans (writeEntry_bytes _ (by omega))
    | succ k =>
      have hk' := ih (i := i + 1) (off := off + entrySize id) hrange (by omega) (by omega) (show k < n by omega)
      rw [show i + (k + 1) = i + 1 + k by omega, hk', Nat.succ_mul,
        show off + entrySize id + k * entrySize id = off + (k * entrySize id + entrySize id) by omega]

theorem writeShadow_busy {id : TableId} {first count : Nat} {b : List Byte} {s : State}
    (h : s.store.pendingCommit.getLsbD (tableCode id) = true) : writeShadow id first count b s = (s, .refusedBusy) :=
  if_pos h

/-- Settles O34: the operands pick the row of R137, and a run of entries is written as `writeEntries_bytes` has it. -/
theorem writeTableWritesShadow : Obligations.WriteTableWritesShadow := by
  intro τ c s hopen hwf hrange u first count
  rw [exec_writeTable τ c hopen hwf]
  have hanswer {t : State} {b : ReplyBody} (h : takeWriteTable c.length.toNat c.payload u = (t, b)) :
      Host.Outcome.next (u.answer .writeTable (takeWriteTable c.length.toNat c.payload)) =
        (.next (t.answered 0x10 b) : Host.Outcome State Fault Refusal) :=
    congrArg Host.Outcome.next (State.answer_of h)
  refine ⟨fun hid => hanswer (takeWriteTable_unknown hid), fun id hid => ?_⟩
  intro sent
  refine ⟨fun hrefused => hanswer (takeWriteTable_refused hid hrefused), fun h0 hmax hsize hlen => ?_⟩
  have htaken := takeWriteTable_taken (s := u) hid h0 hmax hsize hlen
  refine ⟨fun hbusy => hanswer (htaken.trans (writeShadow_busy hbusy)), fun hfree => ?_⟩
  have hpayload : 3 + count * entrySize id ≤ c.payload.length := by
    have hmul := Nat.mul_le_mul_right (entrySize id) hmax
    have := tableMax_mul_entrySize_le id
    have h62 : c.payload.length = 62 := by simpa [DirectiveCell.wellFormed] using hwf
    omega
  obtain ⟨hin, hother, hframe, hdone, hlowest⟩ :=
    writeEntries_spec id c.payload count first 3 s.store.shadow hrange hsize hpayload
  have hentry {k : Nat} (hk : k < count) :
      (tableBytes (writeEntries id c.payload count first 3 s.store.shadow).1 id)[first + k]? =
        some (clampedBytes id (first + k) (sent k)) := by
    rw [writeEntries_bytes c.payload hrange hsize hpayload hk, clampedBytes_take]
  have hsame {k : Nat} (hk : k < count) :
      (tableBytes (writeEntries id c.payload count first 3 s.store.shadow).1 id)[first + k]? = some (sent k) ↔
        clampedBytes id (first + k) (sent k) = sent k := by
    rw [hentry hk, Option.some_inj]
  refine ⟨(writeEntries id c.payload count first 3 s.store.shadow).1,
    (writeEntries id c.payload count first 3 s.store.shadow).2, hanswer (htaken.trans ?_), hin, hother, hframe,
    fun k hk => hentry hk, fun hnone k hk => (hsame hk).1 (hdone hnone k hk), fun i hi => ?_⟩
  · exact if_neg (by rw [inSet]; exact Bool.eq_false_iff.1 hfree)
  · obtain ⟨k, hk, rfl, hchanged, hbefore⟩ := hlowest i hi
    exact ⟨k, hk, rfl, fun h => hchanged ((hsame hk).2 h),
      fun j hj => (hsame (by omega)).1 (hbefore j hj)⟩

end Sys2Proof.Machine
end

section
/-! Table entries read back as they are written (section 10.5), and what the commit validation means (R140 to R142). -/

namespace Sys2Proof.Machine

/-! ## A whole table written from its bytes -/

section Entries

variable {α : Type}

/-- Entries written one after another into a list, as `writeEntries` writes them into a bank. -/
def putEntries (read : Nat → List Byte → α × Bool) (size : Nat) (b : List Byte) :
    Nat → Nat → Nat → List α → List α × Option Nat
  | 0, _, _, xs => (xs, none)
  | n + 1, i, off, xs =>
    let w := read i (b.drop off)
    let r := putEntries read size b n (i + 1) (off + size) (xs.set i w.1)
    (r.1, if w.2 then some i else r.2)

/-- Entries whose bytes read back are put in place of what stood there, and none is clamped. -/
theorem putEntries_back {read : Nat → List Byte → α × Bool} {bytes : α → List Byte} {size : Nat} {b : List Byte}
    (hsize : ∀ x, (bytes x).length = size) (new : List α) :
    ∀ (before old : List α) (off : Nat), b.drop off = (new.map bytes).flatten → old.length = new.length →
      (∀ i x, new[i]? = some x → ∀ r, read (before.length + i) (bytes x ++ r) = (x, false)) →
      putEntries read size b new.length before.length off (before ++ old) = (before ++ new, none) := by
  induction new with
  | nil =>
    intro before old off _ hlen _
    rw [List.length_eq_zero_iff.1 hlen]
    rfl
  | cons x new ih =>
    intro before old off hb hlen hread
    obtain ⟨y, old, rfl⟩ := List.exists_cons_of_length_eq_add_one hlen
    have hx : read before.length (b.drop off) = (x, false) := by
      rw [hb]
      exact hread 0 x rfl _
    have hrest : b.drop (off + size) = (new.map bytes).flatten := by
      rw [← List.drop_drop, hb, List.map_cons, List.flatten_cons, ← hsize x, List.drop_left]
    have hset : (before ++ y :: old).set before.length x = (before ++ [x]) ++ old := by simp
    have hnext := ih (before ++ [x]) old (off + size) hrest (by simpa using hlen) fun i z hz r => by
      rw [List.length_append, List.length_singleton, Nat.add_assoc, Nat.add_comm 1]
      exact hread (i + 1) z hz r
    rw [List.length_append, List.length_singleton] at hnext
    simp only [List.length_cons, putEntries, hx, hset, hnext]
    simp

end Entries

section Write

variable (b : List Byte) (t : Tables)

theorem writeEntries_rules (n i off : Nat) : writeEntries .rules b n i off t =
    ({ t with rules := (putEntries (fun _ => ruleOf) 17 b n i off t.rules).1 },
      (putEntries (fun _ => ruleOf) 17 b n i off t.rules).2) := by
  induction n generalizing i off t with
  | zero => rfl
  | succ n ih => simp only [writeEntries, putEntries, ih, writeEntry, entrySize]

theorem writeEntries_zones (n i off : Nat) : writeEntries .zones b n i off t =
    ({ t with zones := (putEntries (fun _ => zoneOf) 10 b n i off t.zones).1 },
      (putEntries (fun _ => zoneOf) 10 b n i off t.zones).2) := by
  induction n generalizing i off t with
  | zero => rfl
  | succ n ih => simp only [writeEntries, putEntries, ih, writeEntry, entrySize]

theorem writeEntries_pointerCurve (n i off : Nat) : writeEntries .pointerCurve b n i off t =
    ({ t with pointerCurve := (putEntries (fun _ => knotOf 2047) 4 b n i off t.pointerCurve).1 },
      (putEntries (fun _ => knotOf 2047) 4 b n i off t.pointerCurve).2) := by
  induction n generalizing i off t with
  | zero => rfl
  | succ n ih => simp only [writeEntries, putEntries, ih, writeEntry, entrySize]

theorem writeEntries_scrollCurve (n i off : Nat) : writeEntries .scrollCurve b n i off t =
    ({ t with scrollCurve := (putEntries (fun _ => knotOf 2047) 4 b n i off t.scrollCurve).1 },
      (putEntries (fun _ => knotOf 2047) 4 b n i off t.scrollCurve).2) := by
  induction n generalizing i off t with
  | zero => rfl
  | succ n ih => simp only [writeEntries, putEntries, ih, writeEntry, entrySize]

theorem writeEntries_pressureCurve (n i off : Nat) : writeEntries .pressureCurve b n i off t =
    ({ t with pressureCurve := (putEntries (fun _ => knotOf 4095) 4 b n i off t.pressureCurve).1 },
      (putEntries (fun _ => knotOf 4095) 4 b n i off t.pressureCurve).2) := by
  induction n generalizing i off t with
  | zero => rfl
  | succ n ih => simp only [writeEntries, putEntries, ih, writeEntry, entrySize]

theorem writeEntries_bands (n i off : Nat) : writeEntries .bands b n i off t =
    ({ t with bands := (putEntries (fun _ => boundaryOf) 4 b n i off t.bands).1 },
      (putEntries (fun _ => boundaryOf) 4 b n i off t.bands).2) := by
  induction n generalizing i off t with
  | zero => rfl
  | succ n ih => simp only [writeEntries, putEntries, ih, writeEntry, entrySize]

theorem writeEntries_params (n i off : Nat) : writeEntries .params b n i off t =
    ({ t with params := (putEntries paramOf 2 b n i off t.params).1 }, (putEntries paramOf 2 b n i off t.params).2) := by
  induction n generalizing i off t with
  | zero => rfl
  | succ n ih => simp only [writeEntries, putEntries, ih, writeEntry, entrySize]

theorem writeEntries_calibration (n i off : Nat) : writeEntries .calibration b n i off t =
    ({ t with calibration := (putEntries calibrationOf 4 b n i off t.calibration).1 },
      (putEntries calibrationOf 4 b n i off t.calibration).2) := by
  induction n generalizing i off t with
  | zero => rfl
  | succ n ih => simp only [writeEntries, putEntries, ih, writeEntry, entrySize]

end Write

/-- A table in range written from its own bytes (R137 to R139). -/
theorem writeEntries_back {t t' : Tables} (id : TableId) (ht : t.inRange) (ht' : t'.inRange) :
    writeEntries id (tableBytes t id).flatten (tableSize id) 0 0 t' = (copyTable t t' id, none) := by
  have hlen : (tableBytes t id).length = tableSize id := ht.1 id (mem_allTables id)
  have hlen' : (tableBytes t' id).length = tableSize id := ht'.1 id (mem_allTables id)
  obtain ⟨-, hrules, hzones, hpointer, hscroll, hpressure, hbands, hparams, hcalibration⟩ := ht
  have hback {α : Type} {read : Nat → List Byte → α × Bool} {bytes : α → List Byte} {size : Nat} {new old : List α}
      (hsize : ∀ x, (bytes x).length = size) (hnew : (new.map bytes).length = tableSize id)
      (hold : (old.map bytes).length = tableSize id)
      (hread : ∀ i x, new[i]? = some x → ∀ r, read i (bytes x ++ r) = (x, false)) :
      putEntries read size (new.map bytes).flatten (tableSize id) 0 0 old = (new, none) := by
    rw [List.length_map] at hnew hold
    have := putEntries_back hsize new [] old 0 rfl (hold.trans hnew.symm) (by simpa using hread)
    rw [hnew] at this
    exact this
  cases id
  case rules =>
    rw [writeEntries_rules, tableBytes, hback (read := fun _ => ruleOf) (bytes := ruleBytes) (fun _ => rfl) hlen hlen' fun i x hx =>
      ruleOf_ruleBytes x (hrules x (List.mem_of_getElem? hx))]
    rfl
  case zones =>
    rw [writeEntries_zones, tableBytes, hback (read := fun _ => zoneOf) (bytes := zoneBytes) (fun _ => rfl) hlen hlen' fun i x hx =>
      zoneOf_zoneBytes x (hzones x (List.mem_of_getElem? hx))]
    rfl
  case pointerCurve =>
    rw [writeEntries_pointerCurve, tableBytes, hback (read := fun _ => knotOf 2047) (bytes := knotBytes) (fun _ => rfl) hlen hlen' fun i x hx =>
      knotOf_knotBytes 2047 (by decide) x (hpointer x (List.mem_of_getElem? hx))]
    rfl
  case scrollCurve =>
    rw [writeEntries_scrollCurve, tableBytes, hback (read := fun _ => knotOf 2047) (bytes := knotBytes) (fun _ => rfl) hlen hlen' fun i x hx =>
      knotOf_knotBytes 2047 (by decide) x (hscroll x (List.mem_of_getElem? hx))]
    rfl
  case pressureCurve =>
    rw [writeEntries_pressureCurve, tableBytes, hback (read := fun _ => knotOf 4095) (bytes := knotBytes) (fun _ => rfl) hlen hlen' fun i x hx =>
      knotOf_knotBytes 4095 (by decide) x (hpressure x (List.mem_of_getElem? hx))]
    rfl
  case bands =>
    rw [writeEntries_bands, tableBytes, hback (read := fun _ => boundaryOf) (bytes := boundaryBytes) (fun _ => rfl) hlen hlen' fun i x hx =>
      boundaryOf_boundaryBytes x (hbands x (List.mem_of_getElem? hx))]
    rfl
  case params =>
    have hslots : t.params.length = 28 := by simpa [tableBytes, tableSize] using hlen
    rw [writeEntries_params, tableBytes, hback (read := paramOf) (bytes := halfBytes) (fun _ => rfl) hlen hlen' fun i x hx => by
      have hi : i < 28 := hslots ▸ (List.getElem?_eq_some_iff.1 hx).1
      exact paramOf_halfBytes i x hi (hparams i (List.mem_range.2 hi) x hx)]
    rfl
  case calibration =>
    have hvalues : t.calibration.length = 4 := by simpa [tableBytes, tableSize] using hlen
    rw [writeEntries_calibration, tableBytes, hback (read := calibrationOf) (bytes := signedWordBytes) (fun _ => rfl) hlen hlen' fun i x hx => by
      have hi : i < 4 := hvalues ▸ (List.getElem?_eq_some_iff.1 hx).1
      exact calibrationOf_signedWordBytes i x (hcalibration i (List.mem_range.2 hi) x hx)]
    rfl

theorem tableCode_eq_iff (id : TableId) (n : Nat) : tableCode id = n ↔ tableOfCode n = some id := by
  constructor
  · rintro rfl
    cases id <;> rfl
  · intro h
    have hn : n < 8 := (List.getElem?_eq_some_iff.1 h).1
    interval_cases n
    all_goals
      obtain rfl := Option.some_inj.1 h
      rfl

/-- Settles O36: the two forms of an entry agree, and the rest is read off the tables. -/
theorem tableEntriesReadBack : Obligations.TableEntriesReadBack := by
  refine ⟨fun t t' id => writeEntries_back id, fun n => rfl, tableCode_eq_iff, fun id => ?sizes, tableBytes_eq,
    fun slot v => ?params, fun i v => ?calibration, fun t => ⟨rfl, ?handed, rfl⟩⟩
  case sizes => cases id <;> rfl
  case params =>
    rw [show ([(40, 600), (100, 3000), (60, 500), (16, 640), (32, 1280), (32, 1280), (64, 2560), (0, 3), (1, 15),
        (256, 8191), (256, 16383), (1, 2047), (1, 2047), (128, 254), (1, 15), (0, 2000), (0, 1), (0, 16383), (0, 10239),
        (0, 4095), (0, 4095), (1, 4095), (0, 4095), (100, 5000), (4, 250), (4, 250), (4, 250), (4, 250)] :
        List (Nat × Nat)) = paramSpecs.map fun r => (r.lo, r.hi) from rfl, List.getElem?_map, paramInRange]
    cases paramSpecs[slot]? <;> simp
  case calibration =>
    unfold calibrationInRange calibrationRange
    split <;> (dsimp only; omega)
  case handed => exact beq_iff_eq

/-! ## The first failure of a check -/

/-- The first index at which something is wrong, and what (R140). -/
def firstBad (bad : Nat → Reason → Prop) (f : Option (Nat × Reason)) : Prop :=
  (f = none ↔ ∀ i r, ¬bad i r) ∧ ∀ i r, f = some (i, r) ↔ bad i r ∧ ∀ j < i, ∀ q, ¬bad j q

section FirstFailure

variable {α : Type}

theorem firstFailure_some {check : Nat → α → Option Reason} {l : List α} {k m : Nat} {r : Reason}
    (h : firstFailure check k l = some (m, r)) :
    ∃ i a, m = k + i ∧ l[i]? = some a ∧ check m a = some r ∧ ∀ j < i, ∀ b, l[j]? = some b → check (k + j) b = none := by
  induction l generalizing k with
  | nil => cases h
  | cons a l ih =>
    unfold firstFailure at h
    cases hc : check k a with
    | some q =>
      rw [hc] at h
      obtain ⟨rfl, rfl⟩ := Prod.mk.inj (Option.some_inj.1 h)
      exact ⟨0, a, rfl, rfl, hc, fun j hj => absurd hj (Nat.not_lt_zero j)⟩
    | none =>
      rw [hc] at h
      obtain ⟨i, b, rfl, hget, hcheck, hbefore⟩ := ih h
      refine ⟨i + 1, b, by omega, hget, hcheck, fun j hj c hj' => ?_⟩
      cases j with
      | zero => cases hj'; exact hc
      | succ j => rw [show k + (j + 1) = k + 1 + j by omega]; exact hbefore j (by omega) c hj'

/-- The check made entry by entry names the first entry that fails. -/
theorem firstBad_firstFailure (check : Nat → α → Option Reason) (k : Nat) (l : List α) :
    firstBad (fun m r => ∃ i a, m = k + i ∧ l[i]? = some a ∧ check m a = some r) (firstFailure check k l) := by
  cases hf : firstFailure check k l with
  | none =>
    have hnone := (firstFailure_none check k l).1 hf
    have hgood (m : Nat) (r : Reason) : ¬∃ i a, m = k + i ∧ l[i]? = some a ∧ check m a = some r := by
      rintro ⟨i, a, rfl, hget, hcheck⟩
      rw [hnone i a hget] at hcheck
      cases hcheck
    exact ⟨⟨fun _ => hgood, fun _ => rfl⟩, fun m r => ⟨nofun, fun h => absurd h.1 (hgood m r)⟩⟩
  | some x =>
    obtain ⟨m, r⟩ := x
    obtain ⟨i, a, rfl, hget, hcheck, hbefore⟩ := firstFailure_some hf
    have hbad : ∃ j b, k + i = k + j ∧ l[j]? = some b ∧ check (k + i) b = some r := ⟨i, a, rfl, hget, hcheck⟩
    have hgood (n : Nat) (hn : n < k + i) (q : Reason) : ¬∃ j b, n = k + j ∧ l[j]? = some b ∧ check n b = some q := by
      rintro ⟨j, b, rfl, hget, hcheck⟩
      rw [hbefore j (by omega) b hget] at hcheck
      cases hcheck
    refine ⟨⟨nofun, fun h => absurd hbad (h _ _)⟩, fun n q => ⟨fun h => ?_, fun ⟨h, hlow⟩ => ?_⟩⟩
    · obtain ⟨rfl, rfl⟩ := Prod.mk.inj (Option.some_inj.1 h)
      exact ⟨hbad, hgood⟩
    · obtain hlt | rfl | hgt := Nat.lt_trichotomy n (k + i)
      · exact absurd h (hgood n hlt q)
      · obtain ⟨j, b, hj, hget', hcheck'⟩ := h
        obtain rfl : i = j := by omega
        obtain rfl : a = b := Option.some_inj.1 (hget.symm.trans hget')
        rw [Option.some_inj.1 (hcheck.symm.trans hcheck')]
      · exact absurd hbad (hlow _ hgt r)

theorem firstBad_congr {bad bad' : Nat → Reason → Prop} {f : Option (Nat × Reason)} (h : firstBad bad f)
    (heq : ∀ i r, bad i r ↔ bad' i r) : firstBad bad' f := by
  rwa [show bad = bad' from funext₂ fun i r => propext (heq i r)] at h

end FirstFailure

/-! ## The checks of the tables (R141, R142) -/

section Checks

/-- A knot and the one after it out of order. -/
def checkKnotPair (p : Knot × Knot) : Option Reason := if p.1.input < p.2.input then none else some .knotOrder

/-- A boundary, and the one after it where there is one. -/
def checkBandPair (p : Boundary × Option Boundary) : Option Reason :=
  if p.1.fall ≤ p.1.rise ∧ ∀ b ∈ p.2, p.1.rise < b.fall then none else some .bandOrder

theorem checkKnots_eq (l : List Knot) (k : Nat) :
    checkKnots k l = firstFailure (fun _ => checkKnotPair) (k + 1) (l.zip l.tail) := by
  induction l generalizing k with
  | nil => rfl
  | cons a l ih =>
    cases l with
    | nil => rfl
    | cons b l =>
      rw [checkKnots, List.tail_cons, List.zip_cons_cons, firstFailure, checkKnotPair]
      split
      · exact ih (k + 1)
      · rfl

/-- Every boundary with the one after it. -/
def bandPairs (l : List Boundary) : List (Boundary × Option Boundary) := l.zip (l.tail.map some ++ [none])

theorem checkBands_eq (l : List Boundary) (k : Nat) :
    checkBands k l = firstFailure (fun _ => checkBandPair) k (bandPairs l) := by
  induction l generalizing k with
  | nil => rfl
  | cons a l ih =>
    cases l with
    | nil =>
      show checkBands k [a] = firstFailure (fun _ => checkBandPair) k [(a, none)]
      rw [checkBands, firstFailure, checkBandPair]
      by_cases h : a.fall ≤ a.rise <;> simp [h, firstFailure]
    | cons b l =>
      show checkBands k (a :: b :: l) = firstFailure (fun _ => checkBandPair) k ((a, some b) :: bandPairs (b :: l))
      rw [checkBands, firstFailure, checkBandPair, ih (k + 1)]
      by_cases h : a.fall ≤ a.rise ∧ a.rise < b.fall <;> simp [h]

theorem zip_tail_getElem? {α : Type} (l : List α) (i : Nat) (p : α × α) :
    (l.zip l.tail)[i]? = some p ↔ l[i]? = some p.1 ∧ l[i + 1]? = some p.2 := by
  rw [List.getElem?_zip_eq_some, List.getElem?_tail]

theorem bandPairs_getElem? (l : List Boundary) (i : Nat) (p : Boundary × Option Boundary) :
    (bandPairs l)[i]? = some p ↔ l[i]? = some p.1 ∧ l[i + 1]? = p.2 := by
  rw [bandPairs, List.getElem?_zip_eq_some]
  refine and_congr_right fun h => ?_
  have hi : i < l.length := (List.getElem?_eq_some_iff.1 h).1
  by_cases hlast : i + 1 < l.length
  · rw [List.getElem?_append_left (by simp; omega), List.getElem?_map, List.getElem?_tail, List.getElem?_eq_getElem hlast]
    simp
  · rw [List.getElem?_append_right (by simp; omega), List.length_map, List.length_tail,
      show i - (l.length - 1) = 0 by omega, List.getElem?_eq_none (show l.length ≤ i + 1 by omega)]
    simp

theorem firstBad_knots (ks : List Knot) :
    firstBad (fun i r => r = .knotOrder ∧
      ∃ j a b, i = j + 1 ∧ ks[j]? = some a ∧ ks[j + 1]? = some b ∧ b.input ≤ a.input) (checkKnots 0 ks) := by
  rw [checkKnots_eq]
  refine firstBad_congr (firstBad_firstFailure _ _ _) fun i r => ?_
  simp only [zip_tail_getElem?, checkKnotPair, Prod.exists]
  constructor
  · rintro ⟨j, a, b, rfl, ⟨ha, hb⟩, hcheck⟩
    split at hcheck
    · cases hcheck
    next hlt => exact ⟨(Option.some_inj.1 hcheck).symm, j, a, b, by omega, ha, hb, by omega⟩
  · rintro ⟨rfl, j, a, b, rfl, ha, hb, hle⟩
    exact ⟨j, a, b, by omega, ⟨ha, hb⟩, if_neg (by omega)⟩

theorem firstBad_bands (bs : List Boundary) :
    firstBad (fun i r => r = .bandOrder ∧ ∃ a, bs[i]? = some a ∧
      (a.rise < a.fall ∨ ∃ b, bs[i + 1]? = some b ∧ b.fall ≤ a.rise)) (checkBands 0 bs) := by
  rw [checkBands_eq]
  refine firstBad_congr (firstBad_firstFailure _ _ _) fun i r => ?_
  simp only [bandPairs_getElem?, checkBandPair, Prod.exists, Nat.zero_add]
  constructor
  · rintro ⟨j, a, o, rfl, ⟨ha, rfl⟩, hcheck⟩
    split at hcheck
    · cases hcheck
    next hbad =>
      refine ⟨(Option.some_inj.1 hcheck).symm, a, ha, ?_⟩
      by_contra hgood
      push Not at hgood
      exact hbad ⟨hgood.1, fun b hb => hgood.2 b hb⟩
  · rintro ⟨rfl, a, ha, hbad⟩
    refine ⟨i, a, _, rfl, ⟨ha, rfl⟩, if_neg ?_⟩
    rintro ⟨hle, hnext⟩
    rcases hbad with hlt | ⟨b, hb, hfall⟩
    · omega
    · have := hnext b hb
      omega

theorem firstBad_zones (zs : List Zone) :
    firstBad (fun i r => r = .zoneOrder ∧ ∃ z, zs[i]? = some z ∧ (z.x1 < z.x0 ∨ z.y1 < z.y0))
      (firstFailure (fun _ => checkZone) 0 zs) := by
  refine firstBad_congr (firstBad_firstFailure _ _ _) fun i r => ?_
  simp only [Nat.zero_add, checkZone, Bool.and_eq_true, decide_eq_true_eq]
  constructor
  · rintro ⟨j, z, rfl, hz, hcheck⟩
    split at hcheck
    · cases hcheck
    next hbad => exact ⟨(Option.some_inj.1 hcheck).symm, z, hz, by omega⟩
  · rintro ⟨rfl, z, hz, hbad⟩
    exact ⟨i, z, rfl, hz, if_neg (by omega)⟩

theorem firstBad_params (t : Tables) :
    firstBad (fun i r => (i = 12 ∧ r = .coastOrder ∧ t.params.getD 11 0 < t.params.getD 12 0) ∨
      (i = 22 ∧ r = .tipOrder ∧ t.params.getD 21 0 < t.params.getD 22 0)) (checkParams t) := by
  show firstBad (fun i r => (i = 12 ∧ r = .coastOrder ∧ t.coastStart < t.coastStop) ∨
      (i = 22 ∧ r = .tipOrder ∧ t.tipOn < t.tipOff)) (checkParams t)
  unfold checkParams firstBad
  by_cases hcoast : t.coastStart < t.coastStop
  · simp only [hcoast, if_true]
    refine ⟨⟨nofun, fun h => absurd (.inl ⟨rfl, rfl, trivial⟩) (h 12 .coastOrder)⟩, fun i r => ⟨?_, ?_⟩⟩
    · intro h
      obtain ⟨rfl, rfl⟩ := Prod.mk.inj (Option.some_inj.1 h)
      exact ⟨.inl ⟨rfl, rfl, trivial⟩, fun j hj q hq => by omega⟩
    · rintro ⟨⟨rfl, rfl, -⟩ | ⟨rfl, -, -⟩, hlow⟩
      · rfl
      · exact absurd (.inl ⟨rfl, rfl, trivial⟩) (hlow 12 (by decide) .coastOrder)
  · simp only [hcoast, if_false, and_false, false_or]
    by_cases htip : t.tipOn < t.tipOff
    · simp only [htip, if_true]
      refine ⟨⟨nofun, fun h => absurd ⟨rfl, rfl, trivial⟩ (h 22 .tipOrder)⟩, fun i r => ⟨?_, ?_⟩⟩
      · intro h
        obtain ⟨rfl, rfl⟩ := Prod.mk.inj (Option.some_inj.1 h)
        exact ⟨⟨rfl, rfl, trivial⟩, fun j hj q hq => by omega⟩
      · rintro ⟨⟨rfl, rfl, -⟩, -⟩
        rfl
    · simp [htip]

/-- A prerequisite that is not of lower index. -/
def prereqNotLower (index : Nat) : Option Nat → Bool
  | none => false
  | some p => index ≤ p

theorem checkRule_eq (i : Nat) (r : Rule) :
    checkRule i r =
      if r.used.any (fun c => 13 < c.feature) then some .featureUnknown
      else if r.used.any (fun c => c.relation == .anyOf && !enumFeature c.feature) then some .anyOfNumeric
      else if prereqNotLower i r.prereq then some .prereqOrder
      else if r.verdict == .resting && r.scope != .pad then some .restingScope
      else none := rfl

/-- The four checks of a rule, the first that fails naming the reason (R141). -/
theorem checkRule_some (i : Nat) (r : Rule) (reason : Reason) :
    let used := ([r.c1, r.c2, r.c3] : List Condition).take r.count
    let unknown := ∃ x ∈ used, 13 < x.feature
    let numeric := ∃ x ∈ used, x.relation = .anyOf ∧ (x.feature < 10 ∨ 13 < x.feature)
    let order := ∃ p, r.prereq = some p ∧ i ≤ p
    let scope := r.verdict = .resting ∧ r.scope ≠ .pad
    checkRule i r = some reason ↔
      (unknown ∧ reason = .featureUnknown) ∨ (¬unknown ∧ numeric ∧ reason = .anyOfNumeric) ∨
        (¬unknown ∧ ¬numeric ∧ order ∧ reason = .prereqOrder) ∨
        (¬unknown ∧ ¬numeric ∧ ¬order ∧ scope ∧ reason = .restingScope) := by
  intro used unknown numeric order scope
  have hunknown : (r.used.any fun c => 13 < c.feature) = true ↔ unknown := by
    simp only [List.any_eq_true, decide_eq_true_eq, Rule.used]
    rfl
  have hnumeric : (r.used.any fun c => c.relation == .anyOf && !enumFeature c.feature) = true ↔ numeric := by
    simp only [List.any_eq_true, Rule.used, enumFeature, Bool.and_eq_true, beq_iff_eq, Bool.not_eq_true',
      Bool.and_eq_false_iff, decide_eq_false_iff_not, Nat.not_le]
    rfl
  have horder : prereqNotLower i r.prereq = true ↔ order := by
    cases hp : r.prereq <;> simp [order, hp, prereqNotLower]
  have hscope : (r.verdict == .resting && r.scope != .pad) = true ↔ scope := by
    simp only [Bool.and_eq_true, beq_iff_eq, bne_iff_ne]
    rfl
  rw [checkRule_eq, apply_ite (· = some reason), apply_ite (· = some reason), apply_ite (· = some reason), apply_ite (· = some reason)]
  by_cases h1 : unknown
  · rw [if_pos (hunknown.2 h1)]
    simp [h1, eq_comm]
  rw [if_neg (mt hunknown.1 h1)]
  by_cases h2 : numeric
  · rw [if_pos (hnumeric.2 h2)]
    simp [h1, h2, eq_comm]
  rw [if_neg (mt hnumeric.1 h2)]
  by_cases h3 : order
  · rw [if_pos (horder.2 h3)]
    simp [h1, h2, h3, eq_comm]
  rw [if_neg (mt horder.1 h3)]
  by_cases h4 : scope
  · rw [if_pos (hscope.2 h4)]
    simp [h1, h2, h3, h4, eq_comm]
  · rw [if_neg (mt hscope.1 h4)]
    simp [h1, h2, h3, h4]

end Checks

/-- Settles O38: each table's check names the first failing entry, and the entry's check its reason. -/
theorem validationMeansOrder : Obligations.ValidationMeansOrder := by
  intro t first knots
  refine ⟨firstBad_knots _, firstBad_knots _, firstBad_knots _, firstBad_zones _, firstBad_bands _, firstBad_params t, ?_, rfl⟩
  refine firstBad_congr (firstBad_firstFailure checkRule 0 t.rules) fun i reason => ?_
  constructor
  · rintro ⟨j, r, rfl, hr, hcheck⟩
    rw [Nat.zero_add] at hcheck ⊢
    exact ⟨r, hr, (checkRule_some j r reason).1 hcheck⟩
  · rintro ⟨r, hr, hfault⟩
    exact ⟨i, r, (Nat.zero_add i).symm, hr, (checkRule_some i r reason).2 hfault⟩

end Sys2Proof.Machine
end

section
/-! The arithmetic of Motion Transfer (R110 to R119), the band index (R123) and the curves (R67, R111). -/

namespace Sys2Proof.Machine

/-! ## The residue of an axis (R112, R113) -/

section Residue

variable {limit : Int} {r : Nat}

theorem axisStep_above {d g : Int} (h : limit < (d * g + r) / 256) : axisStep limit d g r = (limit, 0) := if_pos h

theorem axisStep_below {d g : Int} (hlimit : 0 ≤ limit) (h : (d * g + r) / 256 < -limit) :
    axisStep limit d g r = (-limit, 0) :=
  (if_neg (by omega)).trans (if_pos h)

theorem axisStep_zero (g : Int) (hlimit : 0 ≤ limit) (hr : r ≤ 255) : axisStep limit 0 g r = (0, r) := by
  rw [axisStep_of_unclamped limit 0 g r (by rw [Int.zero_mul]; omega) (by rw [Int.zero_mul]; omega), Int.zero_mul]
  exact Prod.ext (by dsimp only; omega) (by dsimp only; omega)

/-- While no output is clamped, a run pays the whole sum of its products: nothing is lost between the steps (R112). -/
theorem axisRun_unclamped (run : List (Int × Int)) (hr : r ≤ 255)
    (h : ∀ k < run.length, ∃ x, run[k]? = some x ∧ -limit ≤ (x.1 * x.2 + (axisRun limit (run.take k) r).2) / 256 ∧
      (x.1 * x.2 + (axisRun limit (run.take k) r).2) / 256 ≤ limit) :
    (axisRun limit run r).1.sum = ((run.map fun x => x.1 * x.2).sum + r) / 256 ∧
      ((axisRun limit run r).2 : Int) = ((run.map fun x => x.1 * x.2).sum + r) % 256 := by
  induction run generalizing r with
  | nil => simp only [axisRun, List.sum_nil, List.map_nil]; omega
  | cons x run ih =>
    obtain ⟨d, g⟩ := x
    obtain ⟨_, hx, hlow, hhigh⟩ := h 0 (Nat.zero_lt_succ _)
    obtain rfl := Option.some_inj.1 hx
    have hstep := axisStep_of_unclamped limit d g r hlow hhigh
    obtain ⟨hsum, hres⟩ := ih (r := (axisStep limit d g r).2) (by rw [hstep]; dsimp only; omega)
      fun k hk => h (k + 1) (Nat.succ_lt_succ hk)
    simp only [axisRun, List.sum_cons, List.map_cons]
    rw [hsum, hres, hstep]
    dsimp only
    rw [Int.toNat_of_nonneg (Int.emod_nonneg _ (by decide))]
    omega

end Residue

/-- Settles O45: the clamped and unclamped cases of one axis, and a run of unclamped steps. -/
theorem residuePaysEveryStep : Obligations.ResiduePaysEveryStep := by
  refine ⟨fun limit r hr => ⟨fun d g hlow hhigh => ?unclamped, fun g hlimit => axisStep_zero g hlimit hr,
    fun d g hlimit => ⟨axisStep_above, axisStep_below hlimit⟩, fun run h => axisRun_unclamped run hr h⟩, by decide,
    fun t m dx dy dt => ⟨fun _ _ => rfl, rfl, rfl, rfl⟩⟩
  case unclamped =>
    rw [axisStep_of_unclamped limit d g r hlow hhigh]
    dsimp only
    omega

/-! ## The band index (R123) -/

section Bands

/-- No boundary below the band calls it down, and none above calls it up. -/
def heldUp (bands : List Boundary) (angle b : Nat) : Prop := ∀ k x, b = k + 1 → bands[k]? = some x → x.fall ≤ angle

def heldDown (bands : List Boundary) (angle b : Nat) : Prop := ∀ x, bands[b]? = some x → angle < x.rise

variable {bands : List Boundary} {angle b : Nat}

theorem bandStep_up {x : Boundary} (hb : b < 3) (hx : bands[b]? = some x) (h : x.rise ≤ angle) :
    bandStep bands angle b = b + 1 := by
  simp [bandStep, hb, hx, h]

theorem bandStep_down {x : Boundary} (hx : bands[b]? = some x) (h : angle < x.fall)
    (habove : heldDown bands angle (b + 1)) : bandStep bands angle (b + 1) = b := by
  have hstay : ¬(decide (b + 1 < 3) && (bands[b + 1]?).any fun y => decide (y.rise ≤ angle)) = true := by
    cases hy : bands[b + 1]? with
    | none => simp
    | some y => simp [Nat.not_le.2 (habove y hy)]
  rw [bandStep, if_neg hstay, if_pos (by simp [hx, h])]
  rfl

theorem bandStep_held (hup : heldUp bands angle b) (hdown : heldDown bands angle b) : bandStep bands angle b = b := by
  have hnotUp : ¬(decide (b < 3) && (bands[b]?).any fun y => decide (y.rise ≤ angle)) = true := by
    cases hy : bands[b]? with
    | none => simp
    | some y => simp [Nat.not_le.2 (hdown y hy)]
  have hnotDown : ¬(decide (0 < b) && (bands[b - 1]?).any fun y => decide (angle < y.fall)) = true := by
    cases b with
    | zero => simp
    | succ k =>
      cases hy : bands[k]? with
      | none => simp [hy]
      | some y => simp [hy, hup k y rfl hy]
  rw [bandStep, if_neg hnotUp, if_neg hnotDown]

/-- From a band that nothing calls down the index only climbs, past boundaries whose rise it has reached. -/
theorem bandStep_climbs (hlen : bands.length = 3) (hordered : ∀ x ∈ bands, x.fall ≤ x.rise) (start n : Nat) (hstart : start ≤ 3)
    (hup : heldUp bands angle start) :
    ∃ b, (bandStep bands angle)^[n] start = b ∧ start ≤ b ∧ b ≤ 3 ∧ heldUp bands angle b ∧
      (heldDown bands angle b ∨ b = start + n) ∧
      ∀ k x, start ≤ k → k < b → bands[k]? = some x → x.rise ≤ angle := by
  induction n with
  | zero => exact ⟨start, rfl, le_rfl, hstart, hup, .inr rfl, fun k x h1 h2 => by omega⟩
  | succ n ih =>
    obtain ⟨b, hb, hle, h3, hheld, hend, hpast⟩ := ih
    rw [Function.iterate_succ_apply', hb]
    by_cases hdown : heldDown bands angle b
    · exact ⟨b, bandStep_held hheld hdown, hle, h3, hheld, .inl hdown, hpast⟩
    · simp only [heldDown, not_forall, not_lt] at hdown
      obtain ⟨x, hx, hrise⟩ := hdown
      have hlt : b < 3 := hlen ▸ (List.getElem?_eq_some_iff.1 hx).1
      have hnot : ¬heldDown bands angle b := fun h => absurd (h x hx) (by omega)
      refine ⟨b + 1, bandStep_up hlt hx hrise, by omega, hlt, ?_, .inr (by have := hend.resolve_left hnot; omega), ?_⟩
      · intro k y hk hy
        obtain rfl : b = k := by omega
        obtain rfl : x = y := Option.some_inj.1 (hx.symm.trans hy)
        exact (hordered x (List.mem_of_getElem? hx)).trans hrise
      · intro k y hk hkb hy
        obtain h | rfl := Nat.lt_succ_iff_lt_or_eq.1 hkb
        · exact hpast k y hk h hy
        · obtain rfl : x = y := Option.some_inj.1 (hx.symm.trans hy)
          exact hrise

/-- From a band that nothing calls up the index only descends, past boundaries whose fall lies above the angle. -/
theorem bandStep_descends (hordered : ∀ x ∈ bands, x.fall ≤ x.rise) (start n : Nat) (hdown : heldDown bands angle start) :
    ∃ b, (bandStep bands angle)^[n] start = b ∧ b ≤ start ∧ heldDown bands angle b ∧
      (heldUp bands angle b ∨ start = b + n) ∧
      ∀ k x, b ≤ k → k < start → bands[k]? = some x → angle < x.fall := by
  induction n with
  | zero => exact ⟨start, rfl, le_rfl, hdown, .inr rfl, fun k x h1 h2 => by omega⟩
  | succ n ih =>
    obtain ⟨b, hb, hle, hheld, hend, hpast⟩ := ih
    rw [Function.iterate_succ_apply', hb]
    by_cases hup : heldUp bands angle b
    · exact ⟨b, bandStep_held hup hheld, hle, hheld, .inl hup, hpast⟩
    · have hend := hend.resolve_left hup
      simp only [heldUp, not_forall, not_le] at hup
      obtain ⟨k, x, rfl, hx, hfall⟩ := hup
      refine ⟨k, bandStep_down hx hfall hheld, by omega, ?_, .inr (by omega), ?_⟩
      · intro y hy
        obtain rfl : x = y := Option.some_inj.1 (hx.symm.trans hy)
        exact hfall.trans_le (hordered x (List.mem_of_getElem? hx))
      · intro j y hj hjs hy
        obtain rfl | h := hj.eq_or_lt
        · obtain rfl : x = y := Option.some_inj.1 (hx.symm.trans hy)
          exact hfall
        · exact hpast j y h hjs hy

end Bands

/-- Settles O47: the index climbs or descends, and three steps are enough. -/
theorem bandIndexSettles : Obligations.BandIndexSettles := by
  intro bands angle band hlen hchecked hband b
  obtain ⟨hordered, hgaps⟩ := (checkBands_none bands 0).1 hchecked
  by_cases hup : heldUp bands angle band
  · obtain ⟨c, hc, hle, h3, hheld, hend, hpast⟩ := bandStep_climbs hlen hordered band 3 hband hup
    obtain rfl : b = c := hc
    have hdown : heldDown bands angle b := hend.elim id fun heq x hx => by
      have := (List.getElem?_eq_some_iff.1 hx).1
      omega
    exact ⟨h3, hdown, hheld, hpast, fun k x h1 h2 => by omega⟩
  · have hdown : heldDown bands angle band := by
      simp only [heldUp, not_forall, not_le] at hup
      obtain ⟨k, x, rfl, hx, hfall⟩ := hup
      intro y hy
      have hxy := hgaps k x y hx hy
      have hxx := hordered x (List.mem_of_getElem? hx)
      have hyy := hordered y (List.mem_of_getElem? hy)
      omega
    obtain ⟨c, hc, hle, hheld, hend, hpast⟩ := bandStep_descends hordered band 3 hdown
    obtain rfl : b = c := hc
    have hup : heldUp bands angle b := hend.elim id fun heq k x hk => by omega
    exact ⟨by omega, hheld, hup, fun k x h1 h2 => by omega, hpast⟩

/-! ## The curves (R67, R111) -/

section Curves

variable {a b : Knot} {l : List Knot} {v : Nat}

theorem curveValue_head (h : v ≤ a.input) : curveValue (a :: l) v = a.output := by
  cases l with
  | nil => rfl
  | cons b l => exact if_pos h

theorem curveValue_tail (hab : a.input < b.input) (h : b.input ≤ v) :
    curveValue (a :: b :: l) v = curveValue (b :: l) v := by
  rw [curveValue, if_neg (by omega), if_neg (by omega)]

theorem curveValue_segment (ha : a.input ≤ v) (hb : v < b.input) : curveValue (a :: b :: l) v = segment a b v := by
  obtain heq | hlt := ha.eq_or_lt
  · rw [curveValue_head heq.ge, segment, heq]
    simp
  · rw [curveValue, if_neg (by omega), if_pos hb]

theorem sorted_head_lt {ks : List Knot} (hs : ((a :: ks).map (·.input)).Pairwise (· < ·)) {k : Knot} (hk : k ∈ ks) :
    a.input < k.input := (List.pairwise_cons.1 hs).1 _ (List.mem_map_of_mem hk)

/-- A valid curve gives each knot's output at the knot. -/
theorem curveValue_at_knot {ks : List Knot} (hs : (ks.map (·.input)).Pairwise (· < ·)) {k : Knot} (hk : k ∈ ks) :
    curveValue ks k.input = k.output := by
  induction ks with
  | nil => cases hk
  | cons a ks ih =>
    obtain rfl | hk := List.mem_cons.1 hk
    · exact curveValue_head le_rfl
    cases ks with
    | nil => cases hk
    | cons b ks =>
      have hb : b.input ≤ k.input := by
        obtain rfl | hk' := List.mem_cons.1 hk
        · exact le_rfl
        · exact (sorted_head_lt (List.pairwise_cons.1 hs).2 hk').le
      rw [curveValue_tail (sorted_head_lt hs (List.mem_cons_self ..)) hb]
      exact ih (List.pairwise_cons.1 hs).2 hk

theorem curveValue_last {ks : List Knot} (hs : (ks.map (·.input)).Pairwise (· < ·)) {k : Knot}
    (hk : ks.getLast? = some k) (h : k.input ≤ v) : curveValue ks v = k.output := by
  induction ks with
  | nil => cases hk
  | cons a ks ih =>
    cases ks with
    | nil =>
      obtain rfl := Option.some_inj.1 hk
      rfl
    | cons b ks =>
      rw [List.getLast?_cons_cons] at hk
      have hb : b.input ≤ k.input := by
        obtain rfl | hk' := List.mem_cons.1 (List.mem_of_getLast? hk)
        · exact le_rfl
        · exact (sorted_head_lt (List.pairwise_cons.1 hs).2 hk').le
      rw [curveValue_tail (sorted_head_lt hs (List.mem_cons_self ..)) (hb.trans h)]
      exact ih (List.pairwise_cons.1 hs).2 hk

theorem curveValue_between_knots {ks : List Knot} (hs : (ks.map (·.input)).Pairwise (· < ·)) {i : Nat}
    (hi : ks[i]? = some a) (hj : ks[i + 1]? = some b) (ha : a.input ≤ v) (hb : v < b.input) :
    curveValue ks v = segment a b v := by
  induction ks generalizing i with
  | nil => cases hi
  | cons c ks ih =>
    cases ks with
    | nil => cases hj
    | cons d ks =>
      cases i with
      | zero =>
        obtain rfl := Option.some_inj.1 hi
        obtain rfl := Option.some_inj.1 hj
        exact curveValue_segment ha hb
      | succ i =>
        have hd : d.input ≤ a.input := by
          obtain rfl | ha' := List.mem_cons.1 (List.mem_of_getElem? (show (d :: ks)[i]? = some a from hi))
          · exact le_rfl
          · exact (sorted_head_lt (List.pairwise_cons.1 hs).2 ha').le
        rw [curveValue_tail (sorted_head_lt hs (List.mem_cons_self ..)) (hd.trans ha)]
        exact ih (List.pairwise_cons.1 hs).2 hi hj

end Curves

/-- Settles O48: the knots of a valid curve ascend. -/
theorem curveStaysBetweenKnots : Obligations.CurveStaysBetweenKnots := by
  intro ks hne hchecked
  have hs := (checkKnots_none ks 0).1 hchecked
  refine ⟨fun k hk => curveValue_at_knot hs hk, fun k v hk hv => ?_, fun k v => curveValue_last hs,
    fun lo hi h v => curveValue_between ks hne lo hi h v, fun i a b v => curveValue_between_knots hs⟩
  obtain ⟨l, rfl⟩ : ∃ l, ks = k :: l := ⟨ks.tail, (List.cons_head?_tail hk).symm⟩
  exact curveValue_head hv

end Sys2Proof.Machine
end

section
/-! The overflow of the screen queue (R157) and the merging of the pointer queue (R158, R159). -/

namespace Sys2Proof.Machine

/-! ## The screen queue -/

section ScreenQueue

variable {l : Link} {x : TouchRecord}

/-- The place of an element that nothing before it shares a property with. -/
theorem findIdx?_of_split {α : Type} {p : α → Bool} {before after : List α} {a : α} (ha : p a = true)
    (hbefore : ∀ y ∈ before, p y = false) : (before ++ a :: after).findIdx? p = some before.length := by
  rw [List.findIdx?_append, List.findIdx?_eq_none_iff.2 fun y hy => hbefore y hy, List.findIdx?_cons, if_pos ha]
  simp

theorem eraseIdx_of_split {α : Type} (before after : List α) (a : α) :
    (before ++ a :: after).eraseIdx before.length = before ++ after := by
  rw [List.eraseIdx_append_of_length_le le_rfl, Nat.sub_self, List.eraseIdx_cons_zero]

theorem replaceMove_reverse_none
    (h : ∀ older newer m, l.screen = older ++ m :: newer → (∀ y ∈ newer, y.track ≠ x.track) → m.track = x.track →
      m.kind ≠ .move ∨ m.inFlight = true) : replaceMove x l.screen.reverse = none := by
  refine replaceMove_none x _ fun newer older m hq hnewer hm => ?_
  refine h older.reverse newer.reverse m ?_ (fun y hy => hnewer y (List.mem_reverse.1 hy)) hm
  rw [← List.reverse_reverse l.screen, hq]
  simp

/-- A record that replaces nothing is pushed. -/
theorem Link.appendScreen_pushes
    (h : x.kind = .move → ∀ older newer m, l.screen = older ++ m :: newer → (∀ y ∈ newer, y.track ≠ x.track) →
      m.track = x.track → m.kind ≠ .move ∨ m.inFlight = true) : l.appendScreen x = l.pushScreen x := by
  unfold Link.appendScreen
  split
  · next hmove => rw [replaceMove_reverse_none (h (by simpa using hmove))]
  · rfl

/-- A MOVE takes the place of its track's newest record. -/
theorem Link.appendScreen_replaces {older newer : List TouchRecord} {m : TouchRecord} (hx : x.kind = .move)
    (hq : l.screen = older ++ m :: newer) (hm : m.track = x.track) (hmove : m.kind = .move) (hfree : m.inFlight = false)
    (hnewer : ∀ y ∈ newer, y.track ≠ x.track) :
    l.appendScreen x =
      { l with screen := older ++ { m with pos := x.pos, major := x.major, minor := x.minor } :: newer } := by
  have hreverse : l.screen.reverse = newer.reverse ++ m :: older.reverse := by rw [hq]; simp
  rw [Link.appendScreen, if_pos (by rw [hx]; rfl), hreverse,
    replaceMove_some x _ _ m hm hmove hfree fun y hy => hnewer y (List.mem_reverse.1 hy)]
  simp

theorem Link.pushScreen_room (h : l.screen.length < 40) : l.pushScreen x = { l with screen := l.screen ++ [x] } :=
  if_pos h

theorem Link.pushScreen_full {q : List TouchRecord} (h : l.screen.length = 40) (hq : screenGiveUp l.screen = some q) :
    l.pushScreen x =
      { l with
        screen := q ++ [x]
        latched := l.latched ||| 8
        overrun := { l.overrun with screen := true } } := by
  rw [Link.pushScreen, if_neg (by rw [h]; decide), hq]
  rfl

theorem screenGiveUp_move {older newer : List TouchRecord} {m : TouchRecord} (hm : m.kind = .move)
    (hfree : m.inFlight = false) (holder : ∀ y ∈ older, y.kind ≠ .move ∨ y.inFlight = true) :
    screenGiveUp (older ++ m :: newer) = some (older ++ newer) := by
  have hfirst : (older ++ m :: newer).findIdx? (fun r => r.kind == .move && !r.inFlight) = some older.length :=
    findIdx?_of_split (by simp [hm, hfree]) fun y hy => by
      rcases holder y hy with h | h <;> simp [h]
  rw [screenGiveUp, hfirst]
  exact congrArg some (eraseIdx_of_split older newer m)

theorem screenGiveUp_pair {q : List TouchRecord} (h : ∀ y ∈ q, y.kind ≠ .move ∨ y.inFlight = true) :
    screenGiveUp q = removePair q := by
  have hnone : q.findIdx? (fun r => r.kind == .move && !r.inFlight) = none :=
    List.findIdx?_eq_none_iff.2 fun y hy => by rcases h y hy with h | h <;> simp [h]
  rw [screenGiveUp, hnone]

/-- A record without a pair of its own stays, and the pair is sought after it. -/
theorem removePair_skips {z : TouchRecord} {q : List TouchRecord}
    (h : z.kind = .down → z.inFlight = false → ∀ y ∈ q, y.track = z.track → y.kind ≠ .up ∧ y.kind ≠ .cancel) :
    removePair (z :: q) = (removePair q).map (z :: ·) := by
  rw [removePair]
  by_cases hz : z.kind = .down ∧ z.inFlight = false
  · have hnone : q.findIdx? (fun r => r.track == z.track && r.kind.closes) = none :=
      List.findIdx?_eq_none_iff.2 fun y hy => by
        by_cases ht : y.track = z.track
        · obtain ⟨hup, hcancel⟩ := h hz.1 hz.2 y hy ht
          simp [TouchKind.closes, hup, hcancel]
        · simp [ht]
    simp [hz, hnone]
  · have hno : (z.kind == .down && !z.inFlight) = false := by
      rw [Bool.and_eq_false_iff]
      by_cases hk : z.kind = .down
      · exact .inr (by simpa using fun hf => hz ⟨hk, hf⟩)
      · exact .inl (by simpa using hk)
    simp [hno]

/-- The oldest complete pair leaves, and what stands around it stays. -/
theorem removePair_of_pair {older mid newer : List TouchRecord} {down close : TouchRecord}
    (hdown : down.kind = .down) (hfree : down.inFlight = false) (hcloseFree : close.inFlight = false)
    (htrack : close.track = down.track) (hclose : close.kind = .up ∨ close.kind = .cancel)
    (hmid : ∀ y ∈ mid, y.track = down.track → y.kind ≠ .up ∧ y.kind ≠ .cancel)
    (holder : ∀ before z after, older = before ++ z :: after → z.kind = .down → z.inFlight = false →
      ∀ y ∈ after ++ down :: mid ++ close :: newer, y.track = z.track → y.kind ≠ .up ∧ y.kind ≠ .cancel) :
    removePair (older ++ down :: mid ++ close :: newer) = some (older ++ mid ++ newer) := by
  induction older with
  | nil =>
    have hfirst : (mid ++ close :: newer).findIdx? (fun r => r.track == down.track && r.kind.closes) = some mid.length :=
      findIdx?_of_split (by rcases hclose with h | h <;> simp [htrack, TouchKind.closes, h]) fun y hy => by
        by_cases ht : y.track = down.track
        · obtain ⟨hup, hcancel⟩ := hmid y hy ht
          simp [TouchKind.closes, hup, hcancel]
        · simp [ht]
    rw [List.nil_append, List.nil_append, List.cons_append, removePair]
    simp [hdown, hfree, hfirst, hcloseFree, List.eraseIdx_append_of_length_le]
  | cons z older ih =>
    have hrest := ih fun before w after hw => holder (z :: before) w after (by rw [hw]; rfl)
    rw [List.cons_append, List.cons_append, removePair_skips (holder [] z older rfl), hrest]
    rfl

end ScreenQueue

/-- Settles O50: a record replaces one or is pushed, and a full queue gives up a MOVE or a pair. -/
theorem screenQueueOverflow : Obligations.ScreenQueueOverflow := by
  intro l x
  refine ⟨fun older newer m hx hq hm hmove hfree hnewer => Link.appendScreen_replaces hx hq hm hmove hfree hnewer,
    fun hpush => ?_⟩
  rw [Link.appendScreen_pushes hpush]
  refine ⟨Link.pushScreen_room, fun older newer m hlen hq hm hfree holder => ?move,
    fun older down mid close newer hlen hnoMove hq hdown hfree hcloseFree htrack hclose hmid holder => ?pair⟩
  case move => rw [Link.pushScreen_full hlen (by rw [hq]; exact screenGiveUp_move hm hfree holder)]
  case pair =>
    rw [Link.pushScreen_full hlen (by
      rw [screenGiveUp_pair hnoMove, hq]
      exact removePair_of_pair hdown hfree hcloseFree htrack hclose hmid holder)]

/-! ## The pointer queue -/

section PointerQueue

variable {l : Link} {b : Button} {older : List PointerRecord} {r : PointerRecord}

/-- Sums that saturate field by field. -/
theorem addDelta_eq (d e : Delta) :
    addDelta d e =
      ⟨max (-127) (min 127 (d.dx + e.dx)), max (-127) (min 127 (d.dy + e.dy)), max (-2047) (min 2047 (d.h + e.h)),
        max (-2047) (min 2047 (d.v + e.v)), max (-2047) (min 2047 (d.zoom + e.zoom))⟩ := by
  simp only [addDelta, clampInt_eq_max_min _ _ (show (0 : Int) ≤ 127 by decide),
    clampInt_eq_max_min _ _ (show (0 : Int) ≤ 2047 by decide)]

/-- A merge at the front is one in a longer queue. -/
theorem mergeOldest_append (z : PointerRecord) :
    ∀ {q q' : List PointerRecord}, mergeOldest q = some q' → mergeOldest (q ++ [z]) = some (q' ++ [z])
  | [], _, h | [_], _, h => by cases h
  | a :: b :: rest, q', h => by
    rw [mergeOldest] at h
    rw [List.cons_append, List.cons_append, mergeOldest]
    split at h
    · next ha =>
      obtain ⟨q, hq, rfl⟩ := Option.map_eq_some_iff.1 h
      rw [if_pos ha, ← List.cons_append, mergeOldest_append z hq]
      rfl
    · next ha =>
      split at h
      · next hb =>
        obtain rfl := Option.some_inj.1 h
        rw [if_neg ha, if_pos hb]
        rfl
      · cases h

theorem headInFlight.sublist {n : Nat} {marks marks' : List Bool} (h : headInFlight n marks) (hsub : marks'.Sublist marks) :
    headInFlight n marks' :=
  ⟨h.1.sublist hsub, (hsub.count_le true).trans h.2⟩

theorem Link.openTail_room (mark : Bool) (h : l.pointer.length < 12) :
    l.openTail b mark = { l with pointer := l.pointer ++ [⟨b, ⟨0, 0, 0, 0, 0⟩, mark, true, false⟩] } := if_pos h

theorem Link.openTail_full {q : List PointerRecord} (mark : Bool) (h : l.pointer.length = 12)
    (hq : mergeOldest l.pointer = some q) :
    l.openTail b mark =
      { l with
        pointer := q ++ [⟨b, ⟨0, 0, 0, 0, 0⟩, mark, true, false⟩]
        latched := l.latched ||| 8
        overrun := { l.overrun with pointer := true } } := by
  rw [Link.openTail, hq]
  exact if_neg (by rw [h]; decide)

theorem Link.tail_of_open (hq : l.pointer = older ++ [r]) (hr : r.isOpen = true) : l.tail = some r := by
  rw [Link.tail_concat hq, if_pos hr]

theorem Link.tail_of_closed (h : ∀ y ∈ l.pointer.getLast?, y.isOpen = false) : l.tail = none := by
  unfold Link.tail
  cases hl : l.pointer.getLast? with
  | none => rfl
  | some y => simp [h y hl]

theorem changeTail_open (f : PointerRecord → PointerRecord) (hr : r.isOpen = true) :
    changeTail f (older ++ [r]) = older ++ [f r] := by
  rw [changeTail_concat, if_pos hr]

theorem Link.addMotion_open (d : Delta) (hq : l.pointer = older ++ [r]) (hr : r.isOpen = true) :
    l.addMotion b d = { l with pointer := older ++ [{ r with motion := addDelta r.motion d }] } := by
  rw [Link.addMotion, Link.tail_of_open hq hr]
  show { l with pointer := changeTail _ l.pointer } = _
  rw [hq, changeTail_open _ hr]

theorem Link.addMotion_closed (d : Delta) (h : ∀ y ∈ l.pointer.getLast?, y.isOpen = false)
    (hq : (l.openTail b false).pointer = older ++ [r]) (hr : r.isOpen = true) :
    l.addMotion b d =
      { l.openTail b false with pointer := older ++ [{ r with motion := addDelta r.motion d }] } := by
  rw [Link.addMotion, Link.tail_of_closed h]
  simp only [Option.isSome_none, Bool.false_eq_true, if_false]
  rw [hq, changeTail_open _ hr]

theorem Link.buttonChange_takesOver (hq : l.pointer = older ++ [r]) (hr : r.isOpen = true)
    (hmotion : r.motion = ⟨0, 0, 0, 0, 0⟩) (hchange : r.change = false) :
    l.buttonChange b = { l with pointer := older ++ [{ r with button := b, change := true }] } := by
  have hidle : (r.motion == zeroDelta && !r.change) = true := by simp [hmotion, hchange, zeroDelta]
  rw [Link.buttonChange, Link.tail_of_open hq hr]
  dsimp only
  rw [if_pos hidle, hq, changeTail_open _ hr]

theorem Link.buttonChange_opens (hq : l.pointer = older ++ [r]) (hr : r.isOpen = true)
    (h : r.motion ≠ ⟨0, 0, 0, 0, 0⟩ ∨ r.change = true) :
    l.buttonChange b = Link.openTail { l with pointer := older ++ [{ r with isOpen := false }] } b true := by
  have hbusy : ¬(r.motion == zeroDelta && !r.change) = true := by
    rcases h with h | h <;> simp [h, zeroDelta]
  rw [Link.buttonChange, Link.tail_of_open hq hr]
  dsimp only
  rw [if_neg hbusy, hq, changeTail_open _ hr]

theorem Link.buttonChange_closed (h : ∀ y ∈ l.pointer.getLast?, y.isOpen = false) : l.buttonChange b = l.openTail b true := by
  rw [Link.buttonChange, Link.tail_of_closed h]

/-- A full queue always has two closed records outside its head: eleven are closed, and at most seven are in flight. -/
theorem mergeOldest_full (hlen : l.pointer.length = 12) (hhead : headInFlight 7 (l.pointer.map (·.inFlight)))
    (hclosed : ∀ r ∈ l.pointer.dropLast, r.isOpen = false) :
    ∃ head x y rest, l.pointer = head ++ x :: y :: rest ∧ (∀ r ∈ head, r.inFlight = true) ∧ x.inFlight = false ∧
      mergeOldest l.pointer = some (head ++ mergePointer x y :: rest) := by
  obtain ⟨q, z, hq⟩ := (List.eq_nil_or_concat' l.pointer).resolve_left (by intro h; simp [h] at hlen)
  have hdrop : l.pointer.dropLast = q := by rw [hq, List.dropLast_concat]
  have hlen' : q.length = 11 := by simpa [hq] using hlen
  rw [hdrop] at hclosed
  obtain ⟨head, x, y, rest, hsplit, hflight, hx, hmerge⟩ := mergeOldest_spec 7 q
    (hhead.sublist (by rw [hq]; exact (List.sublist_append_left q [z]).map _)) (by omega) hclosed
  refine ⟨head, x, y, rest ++ [z], by rw [hq, hsplit]; simp, hflight, hx, ?_⟩
  rw [hq, mergeOldest_append z hmerge]
  simp

end PointerQueue

/-- Settles O51: the cases of the open tail and of the room, each a rule of the queue above. -/
theorem pointerQueueMerges : Obligations.PointerQueueMerges := by
  intro l b mark sat tail
  refine ⟨Link.openTail_room mark, fun hlen hhead hclosed => ?full, fun d older r => ?motion,
    fun older r hq hr => ⟨Link.buttonChange_takesOver hq hr, Link.buttonChange_opens hq hr⟩, Link.buttonChange_closed⟩
  case full =>
    obtain ⟨head, x, y, rest, hsplit, hflight, hx, hmerge⟩ := mergeOldest_full hlen hhead hclosed
    refine ⟨head, x, y, rest, hsplit, hflight, hx, ?_⟩
    rw [Link.openTail_full mark hlen hmerge, mergePointer, addDelta_eq]
  case motion =>
    intro added hr
    have hadded : added = { r with motion := addDelta r.motion d } := by rw [addDelta_eq]
    rw [hadded]
    exact ⟨fun hq => Link.addMotion_open d hq hr, fun h hq => Link.addMotion_closed d h hq hr⟩

end Sys2Proof.Machine
end

section
/-! The checks and the values of a scan record's body (R9 to R11, R168). -/

namespace Sys2Proof.Machine

section Bodies

variable {b : List Byte} {n : Nat}

/-- A byte of a body that is long enough. -/
theorem getElem?_eq_byte {k : Nat} {v : Byte} (hk : k < b.length) : b[k]? = some v ↔ byteAt b k = v.toNat := by
  rw [byteAt, List.getD_eq_getElem?_getD, List.getElem?_eq_getElem hk, Option.some_inj, Option.getD_some, BitVec.toNat_inj]

/-- The checks of a CONTACTS body: kind, count and length. -/
theorem contacts_checks :
    (byteAt b 0 = 1 ∧ byteAt b 1 = n ∧ n ≤ 10 ∧ b.length = 2 + 10 * n) ↔
      n ≤ 10 ∧ b.length = 2 + 10 * n ∧ b[0]? = some 1 ∧ b[1]? = some (BitVec.ofNat 8 n) := by
  by_cases hlen : b.length = 2 + 10 * n
  · by_cases hn : n ≤ 10
    · rw [getElem?_eq_byte (by omega), getElem?_eq_byte (by omega),
        show (BitVec.ofNat 8 n).toNat = n by rw [BitVec.toNat_ofNat]; omega]
      exact ⟨fun ⟨h0, h1, _⟩ => ⟨hn, hlen, h0, h1⟩, fun ⟨_, _, h0, h1⟩ => ⟨h0, h1, hn, hlen⟩⟩
    · exact ⟨fun h => absurd h.2.2.1 hn, fun h => absurd h.1 hn⟩
  · exact ⟨fun h => absurd h.2.2.2 hlen, fun h => absurd h.2.1 hlen⟩

/-- The role that takes the contacts of a surface. -/
def surfaceRole : Surface → Role
  | .pad => .pad
  | .screen => .screen

theorem parseBody_contacts (sf : Surface) (h : byteAt b 0 = 1 ∧ byteAt b 1 = n ∧ n ≤ 10 ∧ b.length = 2 + 10 * n) :
    parseBody (surfaceRole sf) b = some (.contacts (contactsOf (surfaceRange sf) b n)) := by
  obtain ⟨h0, rfl, hn, hlen⟩ := h
  cases sf <;> exact if_pos ⟨h0, hn, hlen⟩

theorem parseBody_contacts_some {sf : Surface} {r : ScanRecord} (h : parseBody (surfaceRole sf) b = some r) :
    byteAt b 0 = 1 ∧ byteAt b 1 ≤ 10 ∧ b.length = 2 + 10 * byteAt b 1 ∧
      r = .contacts (contactsOf (surfaceRange sf) b (byteAt b 1)) := by
  have hif : (if byteAt b 0 = 1 ∧ byteAt b 1 ≤ 10 ∧ b.length = 2 + 10 * byteAt b 1 then
      some (ScanRecord.contacts (contactsOf (surfaceRange sf) b (byteAt b 1))) else none) = some r := by
    cases sf <;> exact h
  split at hif
  · next hchecks =>
    obtain ⟨h0, hn, hlen⟩ := hchecks
    exact ⟨h0, hn, hlen, (Option.some_inj.1 hif).symm⟩
  · cases hif

/-! ## The entries that stand -/

theorem keepContacts_append (kept cs : List Contact) (c : Contact) :
    keepContacts kept (cs ++ [c]) =
      if 15 < c.slot || (keepContacts kept cs).any (·.slot == c.slot) then keepContacts kept cs
      else keepContacts kept cs ++ [c] := by
  induction cs generalizing kept with
  | nil => rfl
  | cons d cs ih =>
    rw [List.cons_append, keepContacts, keepContacts]
    split <;> exact ih _

/-- An entry stands whose slot is known and is no earlier entry's. -/
def stands (slot : Nat → Nat) (k : Nat) : Prop := slot k ≤ 15 ∧ ∀ j < k, slot j ≠ slot k

/-- Where an earlier entry has the slot, the first that has it stands. -/
theorem exists_stands {slot : Nat → Nat} {k : Nat} (hk : slot k ≤ 15) (h : ∃ j < k, slot j = slot k) :
    ∃ j < k, stands slot j ∧ slot j = slot k := by
  classical
  obtain ⟨hlt, hslot⟩ := Nat.find_spec h
  refine ⟨Nat.find h, hlt, ⟨hslot.le.trans hk, fun j hj heq => ?_⟩, hslot⟩
  exact Nat.find_min h hj ⟨hj.trans hlt, heq.trans hslot⟩

theorem keepContacts_range (value : Nat → Contact) (n : Nat) :
    keepContacts [] ((List.range n).map value) =
      ((List.range n).filter fun k =>
        (value k).slot ≤ 15 ∧ ∀ j < k, (value j).slot ≠ (value k).slot).map value := by
  induction n with
  | zero => rfl
  | succ n ih =>
    rw [List.range_succ, List.map_append, List.map_singleton, keepContacts_append, ih, List.filter_append, List.map_append]
    by_cases hstands : stands (fun k => (value k).slot) n
    · obtain ⟨hslot, hfirst⟩ := hstands
      rw [if_neg, List.filter_cons_of_pos (by simpa using ⟨hslot, hfirst⟩)]
      · rfl
      · simp only [Bool.or_eq_true, decide_eq_true_eq, List.any_eq_true, List.mem_map, List.mem_filter, List.mem_range,
          beq_iff_eq, not_or, not_lt]
        refine ⟨hslot, ?_⟩
        rintro ⟨c, ⟨j, ⟨hj, -⟩, rfl⟩, heq⟩
        exact hfirst j hj heq
    · rw [if_pos, List.filter_cons_of_neg (by simpa [stands] using hstands)]
      · simp
      · simp only [Bool.or_eq_true, decide_eq_true_eq, List.any_eq_true, List.mem_map, List.mem_filter, List.mem_range,
          beq_iff_eq]
        by_cases hslot : (value n).slot ≤ 15
        · simp only [stands, hslot, true_and, not_forall, not_not] at hstands
          obtain ⟨j, hj, heq⟩ := hstands
          obtain ⟨i, hi, hstands, hsame⟩ := exists_stands (slot := fun k => (value k).slot) hslot ⟨j, hj, heq⟩
          exact .inr ⟨value i, ⟨i, ⟨hi, hstands⟩, rfl⟩, hsame⟩
        · exact .inl (by omega)

/-- The entries of a CONTACTS body: at most its count, no slot twice, and each in its ranges. -/
theorem contactsOf_sound (sf : Surface) (b : List Byte) (n : Nat) :
    (contactsOf (surfaceRange sf) b n).length ≤ n ∧ ((contactsOf (surfaceRange sf) b n).map (·.slot)).Nodup ∧
      ∀ c ∈ contactsOf (surfaceRange sf) b n, c.slot ≤ 15 ∧ c.pos.x ≤ (surfaceRange sf).x ∧ c.pos.y ≤ (surfaceRange sf).y ∧
        c.major ≤ 255 ∧ c.minor ≤ 255 ∧ c.strength ≤ 1023 := by
  obtain ⟨hnodup, hslot, hlen, hmem⟩ :=
    keepContacts_spec ((List.range n).map fun k => contactAt (surfaceRange sf) b (2 + 10 * k)) [] (by simp)
  refine ⟨by simpa [contactsOf] using hlen, hnodup, fun c hc => ⟨hslot c hc, ?_⟩⟩
  obtain ⟨k, -, rfl⟩ := List.mem_map.1 ((hmem c hc).resolve_left List.not_mem_nil)
  exact contactAt_in_range sf b _

/-! ## PEN and AUX bodies -/

theorem pen_checks : (byteAt b 0 = 2 ∧ b.length = 12) ↔ b.length = 12 ∧ b[0]? = some 2 := by
  by_cases hlen : b.length = 12
  · rw [getElem?_eq_byte (by omega)]
    exact and_comm
  · exact ⟨fun h => absurd h.2 hlen, fun h => absurd h.1 hlen⟩

theorem aux_checks : (byteAt b 0 = 3 ∧ b.length = 5) ↔ b.length = 5 ∧ b[0]? = some 3 := by
  by_cases hlen : b.length = 5
  · rw [getElem?_eq_byte (by omega)]
    exact and_comm
  · exact ⟨fun h => absurd h.2 hlen, fun h => absurd h.1 hlen⟩

theorem deckOf_eq : ∀ n : Nat, deckOf n = if n = 0 then .up else if n = 1 then .down else .edge
  | 0 | 1 => rfl
  | _ + 2 => rfl

theorem penOf_eq (b : List Byte) :
    penOf b =
      { inRange := byteAt b 1 != 0
        pos := ⟨min 32767 (halfAt b 2), min 32767 (halfAt b 4)⟩
        raw := min 4095 (halfAt b 6)
        tiltX := max (-60) (min 60 (b.getD 8 0).toInt)
        tiltY := max (-60) (min 60 (b.getD 9 0).toInt)
        eraser := byteAt b 10 != 0
        barrel := byteAt b 11 != 0 } := by
  rw [penOf, clampInt_eq_max_min _ _ (by decide), clampInt_eq_max_min _ _ (by decide)]
  rfl

end Bodies

/-- Settles O6: the checks of each role, and the values of a body that passes them. -/
theorem recordChecks : Obligations.RecordChecks := by
  intro b byte half
  refine ⟨fun sf role hrole => ?contacts, ?penSome, fun hlen h0 => ?pen, ?auxSome, fun hlen h0 => ?aux, rfl⟩
  case contacts =>
    intro ends value
    have hsurface : role = surfaceRole sf := hrole
    have hends : ends = surfaceRange sf := by cases sf <;> rfl
    have hvalue : value = contactAt (surfaceRange sf) b := by rw [← hends]; rfl
    subst hsurface
    refine ⟨⟨fun h => ?_, fun ⟨n, h⟩ => ?_⟩, fun n hn hlen h0 h1 => ?_, fun r hr => ?_⟩
    · obtain ⟨r, hr⟩ := Option.isSome_iff_exists.1 h
      obtain ⟨h0, hn, hlen, -⟩ := parseBody_contacts_some hr
      exact ⟨byteAt b 1, contacts_checks.1 ⟨h0, rfl, hn, hlen⟩⟩
    · rw [parseBody_contacts sf (contacts_checks.2 h)]
      rfl
    · rw [parseBody_contacts sf (contacts_checks.2 ⟨hn, hlen, h0, h1⟩), contactsOf, keepContacts_range, hvalue]
      rfl
    · obtain ⟨-, hn, -, rfl⟩ := parseBody_contacts_some hr
      obtain ⟨hlen, hnodup, hrange⟩ := contactsOf_sound sf b (byteAt b 1)
      rw [hends]
      exact ⟨_, rfl, hlen.trans hn, hnodup, hrange⟩
  case penSome =>
    rw [← pen_checks, parseBody]
    by_cases h : byteAt b 0 = 2 ∧ b.length = 12 <;> simp [h]
  case pen =>
    rw [show parseBody .pen b = some (.pen (penOf b)) from if_pos (pen_checks.2 ⟨hlen, h0⟩), penOf_eq]
    rfl
  case auxSome =>
    rw [← aux_checks, parseBody]
    by_cases h : byteAt b 0 = 3 ∧ b.length = 5 <;> simp [h]
  case aux =>
    rw [show parseBody .aux b = some (.aux (auxOf b)) from if_pos (aux_checks.2 ⟨hlen, h0⟩), auxOf, deckOf_eq]
    rfl

end Sys2Proof.Machine
end

section
/-! The reception of a scan record, and the frame it begins (R5, R9, R12 to R19, R22, R123, R168). -/

namespace Sys2Proof.Machine

section Reception

variable {s : State} {i : Fin 4} {τ : Stamp}

/-! ## Characters and records -/

theorem exec_scanRecordArrival (line : List Character) :
    exec (.scanRecordArrival τ i line) s = .next ((s.atTime τ).receiveLine i line) := rfl

theorem exec_framingError (line : List Character) :
    exec (.framingError τ i line) s = .next ((s.atTime τ).receiveLine i line) := rfl

theorem exec_interByteGap (line : List Character) :
    exec (.interByteGap τ i line) s = .next (((s.atTime τ).receiveLine i line).gap i) := rfl

/-- A record discarded: the port hunts again, and FRAME_BAD is latched (R9). -/
def State.recordBad (s : State) (i : Fin 4) : State := (s.setRx i .hunting).latch .frameBad

/-- A framing error or a gap with a record under way discards it. -/
theorem State.breakRecord_underWay (h : (s.port i).rx ≠ .hunting) : s.breakRecord i = s.recordBad i := by
  unfold State.breakRecord
  split
  · next heq => exact absurd heq h
  · rfl
  · rfl

theorem State.breakRecord_hunting (h : (s.port i).rx = .hunting) : s.breakRecord i = s := by
  rw [State.breakRecord, h]

theorem State.receive_broken {ch : Character} (he : (s.port i).enabled = true) (hch : ch.stop = false) :
    s.receive i ch = s.breakRecord i := by
  rw [State.receive, if_pos he, if_neg (by simp [hch])]

theorem State.gap_enabled (he : (s.port i).enabled = true) : s.gap i = s.breakRecord i := if_pos he

/-- A whole body that fails its checks is discarded. -/
theorem State.receiveLine_bad {line : List Character} {body : List Byte} (he : (s.port i).enabled = true)
    (hb : bringsRecord (s.port i).rx line body) (hbad : parseBody (s.port i).role body = none) :
    s.receiveLine i line = s.recordBad i := by
  have hrole : parseBody ((s.setRx i .hunting).port i).role body = none := by rwa [State.port_setRx]
  rw [State.receiveLine_record s i line body he hb, State.arrival, hrole]
  rfl

/-- A whole body that passes its checks is accepted. -/
theorem State.receiveLine_accepted {line : List Character} {body : List Byte} {r : ScanRecord}
    (he : (s.port i).enabled = true) (hb : bringsRecord (s.port i).rx line body)
    (hr : parseBody (s.port i).role body = some r) : s.receiveLine i line = (s.setRx i .hunting).accept i r := by
  have hrole : parseBody ((s.setRx i .hunting).port i).role body = some r := by rwa [State.port_setRx]
  rw [State.receiveLine_record s i line body he hb, State.arrival, hrole]

section Hunting

variable {noise : List Byte} (he : (s.port i).enabled = true) (hr : (s.port i).rx = .hunting) (hn : 0xA5 ∉ noise)

include he hr hn

/-- A start byte begins a record. -/
theorem State.receiveLine_start : s.receiveLine i ((noise ++ [0xA5]).map onLine) = s.setRx i .length := by
  have hstart : s.receiveByte i 0xA5 = s.setRx i .length := by
    rw [State.receiveByte, hr]
    exact if_pos rfl
  rw [List.map_append, State.receiveLine_append, State.receiveLine_noise s i noise he hr hn, List.map_singleton,
    State.receiveLine_cons, State.receive_onLine _ _ _ he, hstart]
  rfl

/-- After the length byte the body is counted. -/
theorem State.receiveLine_counted {n : Byte} {got : List Byte} (hgot : got.length < n.toNat) :
    s.receiveLine i ((noise ++ 0xA5 :: n :: got).map onLine) = s.setRx i (.body n.toNat got) := by
  have hne : n ≠ 0 := by
    rintro rfl
    exact absurd hgot (Nat.not_lt_zero _)
  have hlength : (s.setRx i .length).receiveByte i n = s.setRx i (.body n.toNat []) := by
    rw [State.receiveByte, State.port_setRx]
    exact (if_neg hne).trans (State.setRx_setRx s i _ _)
  rw [show noise ++ 0xA5 :: n :: got = (noise ++ [0xA5]) ++ n :: got by simp, List.map_append, State.receiveLine_append,
    State.receiveLine_start he hr hn, List.map_cons, State.receiveLine_cons,
    State.receive_onLine _ _ _ (by rw [State.port_setRx]; exact he), hlength,
    State.receiveLine_body _ i n.toNat [] got (by rw [State.port_setRx]; exact he) (by rw [State.port_setRx]) (by simpa using hgot),
    State.setRx_setRx, List.nil_append]

end Hunting

end Reception

/-- Settles O7: the characters act in turn, and each kind of line is one rule of the reception. -/
theorem badRecordLatchesFrameBad : Obligations.BadRecordLatchesFrameBad := by
  intro τ i s bad part
  have hbad (u : State) : u.recordBad i = bad u := rfl
  refine ⟨fun line hoff => ?disabled, fun line body he hb hparse => ?badBody, fun noise he hr hn => ?hunting,
    fun line => ⟨(s.atTime τ).receiveLine i line, rfl, fun more => ?turn, fun ch hch he => ?broken⟩⟩
  case disabled =>
    have hline : (s.atTime τ).receiveLine i line = s.atTime τ := State.receiveLine_disabled _ i line hoff
    rw [exec_scanRecordArrival, exec_framingError, exec_interByteGap, hline,
      show (s.atTime τ).gap i = s.atTime τ from if_neg (by simp [hoff])]
    exact ⟨rfl, rfl, rfl⟩
  case badBody => rw [exec_scanRecordArrival, State.receiveLine_bad (s := s.atTime τ) he hb hparse, hbad]; rfl
  case hunting =>
    refine ⟨?_, ?_, fun n got hgot => ?_⟩
    · rw [exec_scanRecordArrival, State.receiveLine_noise (s.atTime τ) i noise he hr hn]; rfl
    · rw [exec_scanRecordArrival, State.receiveLine_start (s := s.atTime τ) he hr hn]; rfl
    · rw [exec_scanRecordArrival, State.receiveLine_counted (s := s.atTime τ) he hr hn hgot]; rfl
  case turn =>
    have htime : ((s.atTime τ).receiveLine i line).atTime τ = (s.atTime τ).receiveLine i line := by
      have h := State.receiveLine_timebase (s.atTime τ) i line
      rw [State.atTime]
      exact congrArg (fun x => { (s.atTime τ).receiveLine i line with timebase := x }) h.symm
    rw [exec_scanRecordArrival, exec_scanRecordArrival, State.receiveLine_append, htime]
  case broken =>
    rw [exec_framingError, exec_interByteGap, State.receiveLine_append, State.receiveLine_cons, State.receive_broken he hch,
      State.gap_enabled he]
    refine ⟨fun hrx => ?_, fun hrx => ?_⟩
    · rw [State.breakRecord_underWay hrx, hbad]
      exact ⟨rfl, rfl⟩
    · rw [State.breakRecord_hunting hrx]
      exact ⟨rfl, rfl⟩

/-! ## The revival of a port (R5) -/

section Arrival

variable {s : State} {i : Fin 4} {τ : Stamp}

/-- The state in which the accepted record has revived its port. -/
def State.woken (s : State) (i : Fin 4) (τ : Stamp) : State :=
  { s.released i with timebase := τ, ports := s.ports.set i (s.revived i τ) }

theorem State.released_frame (s : State) (i : Fin 4) :
    s.released i = { s with contacts := (s.released i).contacts, pen := (s.released i).pen } := by
  unfold State.released
  split
  · cases (s.port i).role <;> rfl
  · rfl

theorem State.woken_eq (s : State) (i : Fin 4) (τ : Stamp) :
    s.woken i τ =
      { s with
        timebase := τ, ports := s.ports.set i (s.revived i τ), contacts := (s.released i).contacts
        pen := (s.released i).pen } := by
  unfold State.woken
  rw [State.released_frame s i]

theorem State.port_woken : (s.woken i τ).port i = s.revived i τ := Ports.get_set_same _ _ _

theorem State.revive_eq (s : State) (i : Fin 4) (τ : Stamp) : ((s.atTime τ).setRx i .hunting).revive i = s.woken i τ := by
  have hport : ((s.atTime τ).setRx i .hunting).port i = { s.port i with rx := .hunting } := State.port_setRx _ _ _
  have hset : ((s.atTime τ).setRx i .hunting).setPort i (s.revived i τ) =
      { s with timebase := τ, ports := s.ports.set i (s.revived i τ) } := State.setPort_setPort (s.atTime τ) i _ _
  have hrevived : ({ s.port i with rx := .hunting, state := .live, deadline := some (State.deadlineFrom ((s.atTime τ).setRx i .hunting) i) } : Port) =
      s.revived i τ := by
    rw [State.deadlineFrom_eq]
    rfl
  unfold State.revive State.woken State.released
  dsimp only
  rw [hport, hrevived, hset]
  split
  · rw [State.hold_eq_withHeld]
    cases (s.port i).role <;> rfl
  · rfl

/-- An accepted record whose surface or pen is not live. -/
theorem State.accept_notLive {r : ScanRecord} (h : roleLive s.posture.actual (s.port i).role = false) :
    ((s.atTime τ).setRx i .hunting).accept i r = s.woken i τ := by
  unfold State.accept
  dsimp only
  rw [State.revive_eq, if_pos]
  rw [State.woken_eq, State.port_setRx, Bool.not_eq_true']
  exact h

theorem State.accept_live {r : ScanRecord} (h : roleLive s.posture.actual (s.port i).role = true) :
    ((s.atTime τ).setRx i .hunting).accept i r =
      if (s.port i).frame.isNone && !s.heldBack then (s.woken i τ).beginFrame i ⟨r, τ⟩
      else (s.woken i τ).buffer i ⟨r, τ⟩ := by
  have hheld : (s.woken i τ).heldBack = s.heldBack := by rw [State.woken_eq]; rfl
  unfold State.accept
  dsimp only
  rw [State.revive_eq, State.port_woken, hheld, State.port_setRx, if_neg]
  · rfl
  · rw [State.woken_eq, Bool.not_eq_true', Bool.not_eq_false]
    exact h

/-- A record that a ready port accepts begins its frame at once. -/
theorem State.accept_ready {r : ScanRecord} (h : s.ready i) :
    ((s.atTime τ).setRx i .hunting).accept i r = (s.woken i τ).beginFrame i ⟨r, τ⟩ := by
  obtain ⟨-, hframe, hcommit, hrestart, hlive⟩ := h
  rw [State.accept_live hlive, if_pos]
  simp [hframe, State.heldBack, hcommit, hrestart]

/-- What the frame of an accepted record leaves, in the words of Safety.lean. -/
theorem State.worked_ready {r : ScanRecord} {role : Role} (hrole : (s.port i).role = role) :
    State.worked { s.released i with timebase := τ, ports := s.ports.set i (s.begun i τ r) }
      { role := role, record := r, stamp := τ
        dt := match (s.port i).lastStamp with
          | none => 32000
          | some l => max 2000 (min 32000 (τ - l).toNat) }
      (s.port i).lossMark ((s.woken i τ).beginFrame i ⟨r, τ⟩) := by
  subst hrole
  have h := State.beginFrame_spec (s.woken i τ) i ⟨r, τ⟩
  unfold State.begins at h
  rw [State.port_woken, show (s.woken i τ).ports = s.ports.set i (s.revived i τ) from rfl] at h
  simp only [Ports.set_set] at h
  exact h

/-- The line of a record that a ready port accepts. -/
theorem exec_arrival_ready {line : List Character} {body : List Byte} {r : ScanRecord} (h : s.ready i)
    (hb : bringsRecord (s.port i).rx line body) (hr : parseBody (s.port i).role body = some r) :
    exec (.scanRecordArrival τ i line) s = .next ((s.woken i τ).beginFrame i ⟨r, τ⟩) := by
  rw [exec_scanRecordArrival, State.receiveLine_accepted (s := s.atTime τ) h.1 hb hr, State.accept_ready h]

/-! ## What a release of the hold changes, role by role (R5) -/

theorem State.released_pad (h : (s.port i).role = .pad) :
    ∃ es, s.released i = { s with contacts := { s.contacts with pad := es } } := by
  rw [State.released, h]
  split
  · exact ⟨_, rfl⟩
  · exact ⟨s.contacts.pad, rfl⟩

theorem State.released_screen (h : (s.port i).role = .screen) :
    ∃ es, s.released i = { s with contacts := { s.contacts with screen := es } } := by
  rw [State.released, h]
  split
  · exact ⟨_, rfl⟩
  · exact ⟨s.contacts.screen, rfl⟩

theorem State.released_pen (h : (s.port i).role = .pen) : ∃ p, s.released i = { s with pen := p } := by
  rw [State.released, h]
  split
  · exact ⟨_, rfl⟩
  · exact ⟨s.pen, rfl⟩

theorem State.released_aux (h : (s.port i).role = .aux) : s.released i = s := by
  rw [State.released, h]
  split <;> rfl

end Arrival

/-- Settles O8: the accepted record revives its port, and without a frame it goes no further than the buffer. -/
theorem arrivalWithoutFrame : Obligations.ArrivalWithoutFrame := by
  refine ⟨fun p => by cases p <;> decide, fun τ i line body r s he hb hr => ⟨fun hoff => ?notLive, fun hlive hwaits => ?waits⟩⟩
  case notLive =>
    rw [exec_scanRecordArrival, State.receiveLine_accepted (s := s.atTime τ) he hb hr, State.accept_notLive hoff]
    rfl
  case waits =>
    have hnot : ¬((s.port i).frame.isNone && !s.heldBack) = true := by
      rw [Bool.and_eq_true, Bool.not_eq_true', ← Bool.not_eq_true, State.heldBack_iff, Option.isNone_iff_eq_none]
      tauto
    rw [exec_scanRecordArrival, State.receiveLine_accepted (s := s.atTime τ) he hb hr, State.accept_live hlive, if_neg hnot,
      State.buffer, State.port_woken]
    refine congrArg Host.Outcome.next ?_
    rw [State.setPort, show (s.woken i τ).ports = s.ports.set i (s.revived i τ) from rfl, Ports.set_set]
    rfl

/-- Settles O9: the frame of a pen record is the Pen Unit's, at the mapped position. -/
theorem penArrivalBeginsFrame : Obligations.PenArrivalBeginsFrame := by
  intro τ i line body r s hready hrole hb hr k mapped w
  have hwork := State.worked_ready (s := s) (τ := τ) (r := .pen r) hrole
  rw [exec_arrival_ready hready hb (by rwa [hrole])]
  obtain ⟨p, hp⟩ := State.released_pen hrole
  rw [hp] at hwork
  have hw : w = penFrame s.store.active τ (s.port i).lossMark p { r with pos := mapped } := by
    rw [show p = (s.released i).pen by rw [hp]]
  rw [hw]
  exact congrArg Host.Outcome.next hwork

/-- Settles O10: the frame of a contact record is that of its surface's blocks in turn. -/
theorem contactArrivalBeginsFrame : Obligations.ContactArrivalBeginsFrame := by
  refine ⟨fun l out => ?takeAll, fun τ i line body cs s hready hb => ?frames⟩
  case takeAll =>
    refine List.foldl_ext _ _ l fun m o _ => ?_
    cases o <;> rfl
  case frames =>
    intro t sn
    refine ⟨fun hrole hr => ?pad, fun hrole hr => ?screen⟩
    case pad =>
      intro p h ks dt w
      have hwork := State.worked_ready (s := s) (τ := τ) (r := .contacts cs) hrole
      rw [exec_arrival_ready hready hb (by rwa [hrole])]
      obtain ⟨es, hes⟩ := State.released_pad hrole
      rw [hes] at hwork
      have hh : h = trackFrame t.liftGrace t.padJump (landingZone t.zones) (s.contacts.screen.map (·.track))
          s.contacts.nextId cs τ es := by
        simp only [h, hes]
        rfl
      simp only [w, ks, hh]
      exact congrArg Host.Outcome.next hwork
    case screen =>
      intro p h ks
      have hwork := State.worked_ready (s := s) (τ := τ) (r := .contacts cs) hrole
      rw [exec_arrival_ready hready hb (by rwa [hrole])]
      obtain ⟨es, hes⟩ := State.released_screen hrole
      rw [hes] at hwork
      have hh : h = trackFrame t.liftGrace t.screenJump (fun _ => none) (s.contacts.pad.map (·.track))
          s.contacts.nextId cs τ es := by
        simp only [h, hes]
        rfl
      simp only [ks, hh]
      exact congrArg Host.Outcome.next hwork

/-- Settles O11: the frame of an aux record stores its values and requests the posture of the band. -/
theorem auxArrivalBeginsFrame : Obligations.AuxArrivalBeginsFrame := by
  intro τ i line body r s hready hrole hb hr band u
  have hwork := State.worked_ready (s := s) (τ := τ) (r := .aux r) hrole
  rw [exec_arrival_ready hready hb (by rwa [hrole])]
  rw [State.released_aux hrole] at hwork
  obtain ⟨hoverride, hrequest⟩ := hwork
  exact ⟨fun h => congrArg Host.Outcome.next (hoverride h), fun h p hp => ⟨_, rfl, hrequest h p hp⟩⟩

end Sys2Proof.Machine
end

section
/-! The deadline of a port (R6, R7), the completion of a frame (R13, R15, R143) and the warm restart (R163). -/

namespace Sys2Proof.Machine

section Deadline

variable {s : State} {i : Fin 4} {τ : Stamp}

theorem State.deadline_live (h : hasExpired (s.port i).deadline s.timebase) (hlive : (s.port i).state = .live) :
    s.deadline i = s.goLate i := by
  unfold State.deadline
  dsimp only
  rw [if_pos ((due_iff _ _).2 h), hlive]

theorem State.deadline_late (h : hasExpired (s.port i).deadline s.timebase) (hlate : (s.port i).state = .late) :
    s.deadline i = s.goDown i := by
  unfold State.deadline
  dsimp only
  rw [if_pos ((due_iff _ _).2 h), hlate]

theorem State.deadline_other
    (h : ¬hasExpired (s.port i).deadline s.timebase ∨ ((s.port i).state ≠ .live ∧ (s.port i).state ≠ .late)) :
    s.deadline i = s := by
  unfold State.deadline
  dsimp only
  split
  next hdue =>
    obtain ⟨hlive, hlate⟩ := h.resolve_left (not_not.2 ((due_iff _ _).1 hdue))
    cases hstate : (s.port i).state with
    | live => exact absurd hstate hlive
    | late => exact absurd hstate hlate
    | disabled | waiting | down => rfl
  next => rfl

/-- A port that goes LATE: its deadline runs a second period. -/
def State.latePort (s : State) (i : Fin 4) : Port :=
  { s.port i with
    state := .late
    deadline := some (s.timebase + BitVec.ofNat 32 (1000 * s.store.active.params.getD (24 + i.val) 0)) }

theorem State.goLate_eq (s : State) (i : Fin 4) :
    s.goLate i =
      if s.ports.frameOf (s.port i).role = true then s.setPort i (s.latePort i)
      else (s.setPort i (s.latePort i)).withHeld true (s.port i).role := by
  have hport : ({ s.port i with state := .late, deadline := some (s.deadlineFrom i) } : Port) = s.latePort i := by
    rw [State.deadlineFrom_eq]
    rfl
  have hframe : (s.setPort i (s.latePort i)).ports.frameOf (s.port i).role = s.ports.frameOf (s.port i).role :=
    Ports.frameOf_set s.ports i (s.latePort i) rfl _
  unfold State.goLate
  dsimp only
  rw [hport, hframe, State.hold_eq_withHeld]

end Deadline

/-- Settles O17: an expiry that is due makes a LIVE port LATE. -/
theorem deadlineMakesPortLate : Obligations.DeadlineMakesPortLate := by
  intro τ i s
  refine ⟨fun hdue hlive => congrArg Host.Outcome.next ?late,
    fun h => congrArg Host.Outcome.next (State.deadline_other (s := s.atTime τ) h)⟩
  case late =>
    rw [State.deadline_live (s := s.atTime τ) hdue hlive, State.goLate_eq]
    by_cases h : s.ports.frameOf (s.port i).role = true
    · rw [if_pos h, if_pos (by exact h)]
      rfl
    · rw [if_neg h, if_neg (by exact h), State.port_atTime]
      cases (s.port i).role <;> rfl

/-- Settles O18: a due expiry in LATE makes the port DOWN and asks for the teardown of its role. -/
theorem deadlineMakesPortDown : Obligations.DeadlineMakesPortDown := by
  intro τ i s hdue hlate u
  have hdown : exec (.deadlineExpiry τ i) s = .next (u.askTeardown (s.port i).role) :=
    congrArg Host.Outcome.next (State.deadline_late (s := s.atTime τ) hdue hlate)
  exact ⟨_, hdown, State.askTeardown_spec u _⟩

/-! ## The completion of a frame -/

section Completion

variable {s c : State} {i : Fin 4} {τ : Stamp} {f : Frame}

theorem State.complete_none (h : (s.port i).frame = none) : s.complete i = s := by
  rw [State.complete, h]

/-- With nothing that holds frames back the port looks at its buffer. -/
theorem State.settle_begins (hcommit : s.store.pendingCommit = 0) (hrestart : s.link.restartWaiting = false) :
    s.settle i = s.beginWaiting i := by
  rw [State.settle, if_neg (by simp [hrestart]), if_neg (by simp [hcommit])]

theorem State.settle_waits (h : s.store.pendingCommit ≠ 0 ∨ s.link.restartWaiting = true) (hframe : s.ports.anyFrame = true) :
    s.settle i = s := by
  rw [State.settle, if_pos hframe, if_pos hframe]
  by_cases hrestart : s.link.restartWaiting = true
  · exact if_pos hrestart
  · have hcommit := h.resolve_right hrestart
    rw [if_neg hrestart, if_pos (by simpa using hcommit)]

theorem State.settle_swaps (hcommit : s.store.pendingCommit ≠ 0) (hrestart : s.link.restartWaiting = false)
    (hframe : s.ports.anyFrame = false) : s.settle i = s.swap := by
  rw [State.settle, if_neg (by simp [hrestart]), if_pos (by simpa using hcommit), if_neg (by simp [hframe])]

theorem State.restartEffect_eq (s : State) : s.restartEffect = s.warmRestarted := rfl

theorem State.settle_restarts (hrestart : s.link.restartWaiting = true) (hframe : s.ports.anyFrame = false) :
    s.settle i = s.warmRestarted := by
  rw [State.settle, if_pos hrestart, if_neg (by simp [hframe]), State.restartEffect_eq]

/-- Another frame is in processing, or none, when the port's own has left. -/
theorem Ports.anyFrame_without (ps : Ports) (i : Fin 4) :
    (ps.set i { ps.get i with frame := none }).anyFrame = true ↔ ∃ j, j ≠ i ∧ (ps.get j).frame ≠ none := by
  rw [Ports.anyFrame_iff]
  refine exists_congr fun j => ?_
  by_cases h : j = i
  · subst h
    simp
  · rw [Ports.get_set_other ps h]
    simp [h]

theorem Ports.anyFrame_last (ps : Ports) (i : Fin 4) (h : ∀ j, j ≠ i → (ps.get j).frame = none) :
    (ps.set i { ps.get i with frame := none }).anyFrame = false := by
  rw [← Bool.not_eq_true, Ports.anyFrame_without]
  exact fun ⟨j, hj, hframe⟩ => hframe (h j hj)

/-- The completion as a command: what the frame's end leaves, and then the port settles. -/
theorem exec_frameCompletion (h : (s.port i).frame = some f) :
    ∃ c, State.frameEnded { s with timebase := τ } i f.role c ∧
      c.ports = s.ports.set i { s.port i with frame := none } ∧ c.store = s.store ∧
      c.link.restartWaiting = s.link.restartWaiting ∧ exec (.frameCompletion τ i) s = .next (c.settle i) := by
  obtain ⟨c, hended, hports, hstore, hrestart, hcomplete⟩ := State.complete_spec (s.atTime τ) i f h
  exact ⟨c, hended, hports, hstore, hrestart, congrArg Host.Outcome.next hcomplete⟩

end Completion

/-- Settles O19: the frame's end, and then the three ways to settle that do not end a hold. -/
theorem frameCompletionFreesPort : Obligations.FrameCompletionFreesPort := by
  intro τ i s
  refine ⟨fun hnone => congrArg Host.Outcome.next (State.complete_none (s := s.atTime τ) hnone), fun f hf => ?_⟩
  obtain ⟨c, hended, hports, hstore, hrestart, hexec⟩ := exec_frameCompletion (τ := τ) hf
  refine ⟨c, hended, fun h0 hr => ⟨_, hexec, ?begins⟩, fun hheld hother => ?waits⟩
  case begins =>
    rw [State.settle_begins (by rw [hstore]; exact h0) (by rw [hrestart]; exact hr)]
    exact State.beginWaiting_spec c i
  case waits =>
    rw [hexec, State.settle_waits (by rw [hstore, hrestart]; exact hheld)]
    rw [hports]
    exact (Ports.anyFrame_without s.ports i).2 hother

/-- Settles O20: with no other frame and no RESTART the swap follows. -/
theorem lastCompletionSwapsTables : Obligations.LastCompletionSwapsTables := by
  intro τ i f s hf hlast hcommit hr
  obtain ⟨c, hended, hports, hstore, hrestart, hexec⟩ := exec_frameCompletion (τ := τ) hf
  have hsettle : c.settle i = c.swapped.beginAll := by
    rw [State.settle_swaps (by rw [hstore]; exact hcommit) (by rw [hrestart]; exact hr)
      (by rw [hports]; exact Ports.anyFrame_last s.ports i hlast), State.swap_eq]
  refine ⟨c, copySet s.store.pendingCommit s.store.shadow s.store.active, hended, fun id => (copySet_spec _ _ _ id).1,
    fun id => (copySet_spec _ _ _ id).2, ?_⟩
  intro u
  have hu : c.swapped = u := by rw [State.swapped, hstore]
  rw [hexec, hsettle, hu]
  refine ⟨fun hwaiting => ?_, _, rfl, State.beginAll_spec u⟩
  refine congrArg Host.Outcome.next (State.beginAll_of_no_waiting u fun j => ?_)
  show (c.ports.get j).waiting = none
  rw [hports, Ports.get_set]
  split
  · exact hwaiting i
  · exact hwaiting j

/-- Settles O21: RESTART at once, RESTART waiting, and the completion that ends its wait. -/
theorem restartTakesEffect : Obligations.RestartTakesEffect := by
  intro τ c s
  refine ⟨fun hopen hwf hlen hframe => ?atOnce, fun hopen hwf hlen hframe => ?waiting, fun i f hf hlast hr => ?completion⟩
  case atOnce =>
    have hnone : ¬(s.afterCell τ).ports.anyFrame = true := by
      rw [Bool.not_eq_true]
      exact (Ports.anyFrame_eq_false s.ports).2 hframe
    rw [exec_restart τ c hopen hwf hlen, State.answer_of (show takeRestart (s.afterCell τ) = ((s.afterCell τ).warmRestarted, .done) from
      congrArg (·, ReplyBody.done) (if_neg hnone))]
    rfl
  case waiting =>
    have hsome : (s.afterCell τ).ports.anyFrame = true := (Ports.anyFrame_iff s.ports).2 hframe
    rw [exec_restart τ c hopen hwf hlen, State.answer_of (congrArg (·, ReplyBody.done) (if_pos hsome))]
    rfl
  case completion =>
    obtain ⟨t, hended, hports, -, hrestart, hexec⟩ := exec_frameCompletion (τ := τ) hf
    refine ⟨t, hended, ?_⟩
    rw [hexec, State.settle_restarts (by rw [hrestart]; exact hr) (by rw [hports]; exact Ports.anyFrame_last s.ports i hlast)]

end Sys2Proof.Machine
end

section
/-! The Pen Unit's rule for a frame (R62 to R69, R71). -/

namespace Sys2Proof.Machine

section PenRules

variable (t : Tables) (now : Stamp) (loss : Bool) {p : Pen} {r : PenRecord}

/-- The pen with the loss mark of its frame added (R62). -/
def Pen.withLoss (p : Pen) (loss : Bool) : Pen := { p with lossMark := p.lossMark || loss }

theorem penFrame_outOfRange (hp : p.state = .out) (hr : r.inRange = false) :
    penFrame t now loss p r = ⟨p.withLoss loss, []⟩ := by
  unfold penFrame
  dsimp only
  rw [if_pos hp, if_neg (by simp [hr])]
  rfl

theorem penFrame_entry (hp : p.state = .out) (hr : r.inRange = true) :
    penFrame t now loss p r = penEntry (p.withLoss loss) r := by
  unfold penFrame
  dsimp only
  rw [if_pos hp, if_pos hr]
  rfl

theorem penFrame_leave (hp : p.state ≠ .out) (hr : r.inRange = false) :
    penFrame t now loss p r = penLeave t now (p.withLoss loss) r := by
  unfold penFrame
  dsimp only
  rw [if_neg hp, if_neg (by simp [hr])]
  rfl

theorem penFrame_tip (hp : p.state ≠ .out) (hr : r.inRange = true) (htip : tipOf r.eraser = p.tip) :
    penFrame t now loss p r = penTip t (p.withLoss loss) r := by
  unfold penFrame
  dsimp only
  rw [if_neg hp, if_pos hr, if_pos htip]
  rfl

theorem penFrame_endChange (hp : p.state ≠ .out) (hr : r.inRange = true) (htip : tipOf r.eraser ≠ p.tip) :
    penFrame t now loss p r = penEndChange (p.withLoss loss) r := by
  unfold penFrame
  dsimp only
  rw [if_neg hp, if_pos hr, if_neg htip]
  rfl

theorem Pen.startHold_eq (p : Pen) (hold : Nat) :
    p.startHold hold now =
      { p with
        shadowLive := p.shadowLive && hold != 0
        shadowTimer := if hold = 0 then none else some (now + BitVec.ofNat 32 (1000 * hold)) } := by
  unfold Pen.startHold
  by_cases h : hold = 0
  · simp [h]
  · simp [h, afterMs_eq]

/-- The tip hysteresis (R65). -/
theorem tipTest_contact_iff {st : PenState} {raw : Nat} (h : st ≠ .out) :
    (tipTest t st raw = .contact ↔ (st = .hover ∧ t.tipOn ≤ raw) ∨ (st = .contact ∧ t.tipOff ≤ raw)) ∧
      (tipTest t st raw ≠ .contact → tipTest t st raw = .hover) := by
  cases st with
  | out => exact absurd rfl h
  | hover => unfold tipTest; by_cases hraw : t.tipOn ≤ raw <;> simp [hraw]
  | contact => unfold tipTest; by_cases hraw : t.tipOff ≤ raw <;> simp [hraw]

end PenRules

/-- Settles O12: the row of R62 that the frame meets, and the samples that its rule makes. -/
theorem penFrameByTable : Obligations.PenFrameByTable := by
  intro t now loss p r w gap tip sample
  refine ⟨fun hp hr => ?outOfRange, fun hp hr => ?entry, fun hp hr => ?leave, fun hp hr htip => ?tip,
    fun hp hr htip => ?endChange⟩
  case outOfRange =>
    have hw := penFrame_outOfRange t now loss hp hr
    exact ⟨congrArg PenWork.out hw, congrArg PenWork.pen hw⟩
  case entry =>
    simp only [w, penFrame_entry t now loss hp hr, bne_comm (a := p.prevState), bne_comm (a := p.prevTip)]
    exact ⟨rfl, rfl⟩
  case leave =>
    simp only [w, penFrame_leave t now loss hp hr, bne_comm (a := p.prevState), bne_comm (a := p.prevTip)]
    refine ⟨rfl, ?_⟩
    rw [penLeave, Pen.startHold_eq]
    rfl
  case tip =>
    obtain ⟨hcontact, hhover⟩ := tipTest_contact_iff t (raw := r.raw) hp
    refine ⟨tipTest t p.state r.raw, hcontact, hhover, ?_⟩
    have htip' : tipOf r.eraser = p.tip := htip
    simp only [w, penFrame_tip t now loss hp hr htip', bne_comm (a := p.prevState), bne_comm (a := p.prevTip), htip]
    exact ⟨rfl, rfl⟩
  case endChange =>
    have htip' : tipOf r.eraser ≠ p.tip := htip
    simp only [w, penFrame_endChange t now loss hp hr htip', bne_comm (a := p.prevState), bne_comm (a := p.prevTip)]
    exact ⟨rfl, rfl⟩

end Sys2Proof.Machine
end

section
/-! The Classifier (R38 to R51, R53, R72) and the screen records (R54 to R59). -/

namespace Sys2Proof.Machine

/-! ## The rules in ascending index (R44 to R47) -/

section Rules

variable {sf : Surface} {f : Nat → Nat} {rules : List Rule} {M : Nat → Prop}

theorem Rule.applies_iff (r : Rule) (sf : Surface) :
    r.applies sf = true ↔
      r.enabled = true ∧ (r.scope = .both ∨ (r.scope = .pad ∧ sf = .pad) ∨ (r.scope = .screen ∧ sf = .screen)) := by
  unfold Rule.applies
  rw [Bool.and_eq_true]
  refine and_congr_right fun _ => ?_
  cases r.scope <;> cases sf <;> simp

/-- The rules that match an entry: enabled in a scope that covers the surface, their conditions holding, and with a prerequisite of
lower index that matches. -/
def matchesBy (sf : Surface) (f : Nat → Nat) (rules : List Rule) (M : Nat → Prop) : Prop :=
  ∀ i, M i ↔ ∃ r, rules[i]? = some r ∧ r.enabled = true ∧
    (r.scope = .both ∨ (r.scope = .pad ∧ sf = .pad) ∨ (r.scope = .screen ∧ sf = .screen)) ∧
    (∀ x ∈ ([r.c1, r.c2, r.c3] : List Condition).take r.count, x.holds f = true) ∧
    ∀ p, r.prereq = some p → p < i ∧ M p

/-- A rule matches, the rules before it that match being known. -/
theorem matchesEntry_iff (hM : matchesBy sf f rules M) {i : Nat} {r : Rule} {matched : List Nat} (hr : rules[i]? = some r)
    (hmatched : ∀ j, j ∈ matched ↔ j < i ∧ M j) : r.matchesEntry sf f matched = true ↔ M i := by
  have hprereq : (match r.prereq with | none => true | some p => matched.contains p) = true ↔
      ∀ p, r.prereq = some p → p < i ∧ M p := by
    cases hp : r.prereq with
    | none => simp
    | some p => simp [hmatched]
  unfold Rule.matchesEntry
  rw [hM i, Bool.and_eq_true, Bool.and_eq_true, Rule.applies_iff, List.all_eq_true]
  constructor
  · rintro ⟨⟨⟨he, hscope⟩, hconds⟩, hp⟩
    exact ⟨r, hr, he, hscope, hconds, hprereq.1 hp⟩
  · rintro ⟨q, hq, he, hscope, hconds, hp⟩
    obtain rfl : r = q := Option.some_inj.1 (hr.symm.trans hq)
    exact ⟨⟨⟨he, hscope⟩, hconds⟩, hprereq.2 hp⟩

/-- From an index on the lowest match that is not MARK gives the verdict, and without one there is none. -/
theorem evalRules_spec (hM : matchesBy sf f rules M) :
    ∀ (rs : List Rule) (i : Nat) (matched : List Nat), rules.drop i = rs → (∀ j, j ∈ matched ↔ j < i ∧ M j) →
      (∀ k r, i ≤ k → rules[k]? = some r → M k → r.verdict ≠ .mark →
        (∀ j, i ≤ j → j < k → ∀ q, rules[j]? = some q → M j → q.verdict = .mark) →
        evalRules sf f rs i matched = some r.verdict) ∧
      ((∀ k r, i ≤ k → rules[k]? = some r → M k → r.verdict = .mark) → evalRules sf f rs i matched = none) := by
  intro rs
  induction rs with
  | nil =>
    intro i matched hdrop _
    refine ⟨fun k r hk hr => ?_, fun _ => rfl⟩
    have hlen := List.drop_eq_nil_iff.1 hdrop
    have := (List.getElem?_eq_some_iff.1 hr).1
    omega
  | cons q rs ih =>
    intro i matched hdrop hmatched
    have hq : rules[i]? = some q := by
      have := congrArg (·[0]?) hdrop
      simpa using this
    have hrest : rules.drop (i + 1) = rs := by rw [← List.tail_drop, hdrop]; rfl
    have hthis := matchesEntry_iff hM hq hmatched
    have hat {k : Nat} {r : Rule} (hr : rules[k]? = some r) (hk : k = i) : r = q := by
      subst hk
      exact Option.some_inj.1 (hr.symm.trans hq)
    rw [evalRules]
    by_cases hmatch : M i
    · rw [if_pos (hthis.2 hmatch)]
      by_cases hmark : q.verdict = .mark
      · rw [if_pos hmark]
        obtain ⟨hsome, hnone⟩ := ih (i + 1) (i :: matched) hrest fun j => by
          rw [List.mem_cons, hmatched j]
          constructor
          · rintro (rfl | ⟨hj, hMj⟩)
            · exact ⟨Nat.lt_succ_self _, hmatch⟩
            · exact ⟨by omega, hMj⟩
          · rintro ⟨hj, hMj⟩
            by_cases h : j = i
            · exact .inl h
            · exact .inr ⟨by omega, hMj⟩
        refine ⟨fun k r hk hr hMk hne hlow => ?_, fun h => hnone fun k r hk => h k r (by omega)⟩
        have hki : k ≠ i := fun h => hne (hat hr h ▸ hmark)
        exact hsome k r (by omega) hr hMk hne fun j hj => hlow j (by omega)
      · rw [if_neg hmark]
        refine ⟨fun k r hk hr hMk hne hlow => ?_, fun h => absurd (h i q le_rfl hq hmatch) hmark⟩
        by_cases hki : k = i
        · rw [hat hr hki]
        · exact absurd (hlow i le_rfl (by omega) q hq hmatch) hmark
    · rw [if_neg (mt hthis.1 hmatch)]
      obtain ⟨hsome, hnone⟩ := ih (i + 1) matched hrest fun j => by
        rw [hmatched j]
        constructor
        · exact fun ⟨hj, hMj⟩ => ⟨by omega, hMj⟩
        · rintro ⟨hj, hMj⟩
          have hji : j ≠ i := fun h => hmatch (h ▸ hMj)
          exact ⟨by omega, hMj⟩
      refine ⟨fun k r hk hr hMk hne hlow => ?_, fun h => hnone fun k r hk => h k r (by omega)⟩
      have hki : k ≠ i := fun h => hmatch (h ▸ hMk)
      exact hsome k r (by omega) hr hMk hne fun j hj => hlow j (by omega)

end Rules

/-! ## The verdict and the class (R47 to R51) -/

section Classify

variable {t : Tables} {sf : Surface} {count : Nat} {sn : Snapshot} {k : Tracked} {e : Entry}

theorem verdictOn_dead (h : entryZoneFunction t sf e = .dead) : verdictOn t sf count sn e = .ignore := if_pos h

theorem verdictOn_rule {v : Verdict} (h : entryZoneFunction t sf e ≠ .dead)
    (hv : evalRules sf (feature sf count sn e) t.rules 0 [] = some v) : verdictOn t sf count sn e = v := by
  rw [verdictOn, if_neg h, hv]

theorem verdictOn_default (h : entryZoneFunction t sf e ≠ .dead)
    (hv : evalRules sf (feature sf count sn e) t.rules 0 [] = none) :
    verdictOn t sf count sn e = if entryZoneFunction t sf e = .rest then .resting else .finger := by
  rw [verdictOn, if_neg h, hv]

theorem classify_unjudged (h : k.entry.presence = .lifting ∨ k.entry.cls = .rejected) :
    classify t sf count sn k = ⟨k.entry, k.prev, k.isNew, k.entry.cls, false⟩ :=
  if_neg (by rcases h with h | h <;> simp [Entry.judged, h])

theorem classify_judged (hpresent : k.entry.presence = .present) (hcls : k.entry.cls ≠ .rejected) :
    classify t sf count sn k =
      ⟨applyVerdict t.persistPalm k.entry (verdictOn t sf count sn k.entry), k.prev, k.isNew, k.entry.cls, true⟩ :=
  if_pos (by simp [Entry.judged, hpresent, hcls])

/-- The pen shadow stands at the pen's last position, its two sides by the hand (R72). -/
theorem Pen.shadow_eq (t : Tables) (p : Pen) :
    p.shadow t = if p.shadowLive = true then p.lastPos.map fun q =>
        (q,
          { x0 := q.x - ((if t.params.getD 16 0 = 1 then t.params.getD 17 0 else t.params.getD 19 0 : Nat) : Int)
            x1 := q.x + ((if t.params.getD 16 0 = 1 then t.params.getD 19 0 else t.params.getD 17 0 : Nat) : Int)
            y0 := q.y - ((t.params.getD 20 0 : Nat) : Int)
            y1 := q.y + ((t.params.getD 18 0 : Nat) : Int) })
      else none := by
  have hrect (q : Point) : shadowRect t q =
      { x0 := q.x - ((if t.params.getD 16 0 = 1 then t.params.getD 17 0 else t.params.getD 19 0 : Nat) : Int)
        x1 := q.x + ((if t.params.getD 16 0 = 1 then t.params.getD 19 0 else t.params.getD 17 0 : Nat) : Int)
        y0 := q.y - ((t.params.getD 20 0 : Nat) : Int)
        y1 := q.y + ((t.params.getD 18 0 : Nat) : Int) } := by
    unfold shadowRect
    by_cases h : t.params.getD 16 0 = 1
    · rw [if_pos (show t.leftHanded = true from beq_iff_eq.2 h), if_pos h, if_pos h]
      rfl
    · rw [if_neg (show ¬t.leftHanded = true from fun hl => h (beq_iff_eq.1 hl)), if_neg h, if_neg h]
      rfl
  unfold Pen.shadow
  simp only [hrect]

end Classify

/-- Settles O14: the verdict by the zone, the rules or the default, the class by the verdict, and the features one by one. -/
theorem classesFollowVerdicts : Obligations.ClassesFollowVerdicts := by
  refine ⟨fun t sf count sn k => ?entry, fun _ _ _ _ => rfl, Pen.shadow_eq⟩
  intro c e v f ends function
  have hfunction : entryZoneFunction t sf e = function := by
    cases sf with
    | pad =>
      show t.zoneFunction e.zone = _
      cases hz : e.zone <;> simp only [function, hz, Tables.zoneFunction]
    | screen => rfl
  refine ⟨classify_handed t sf count sn k, fun h => ?unjudged, fun hpresent hcls => ?judged, fun h => ?dead,
    fun h M hM => ?rules, rfl, rfl, rfl, ?edge, rfl, rfl, rfl, rfl, ?penDist, ?shadow, ?zone, ?penState, ?posture, ?surface⟩
  case unjudged =>
    have hc := classify_unjudged (t := t) (sf := sf) (count := count) (sn := sn) h
    exact ⟨congrArg (·.entry) hc, congrArg (·.judged) hc⟩
  case judged =>
    simp only [c, classify_judged (t := t) (sf := sf) (count := count) (sn := sn) hpresent hcls]
    refine ⟨verdictOn_ne_mark _ _ _ _ _, trivial, fun h => ?_, fun h => ?_, fun h => ?_, fun h => ?_⟩
    all_goals
      rw [show verdictOn t sf count sn k.entry = _ from h]
      rfl
  case dead => exact verdictOn_dead (hfunction.trans h)
  case rules =>
    have hne : entryZoneFunction t sf e ≠ .dead := fun hdead => h (hfunction.symm.trans hdead)
    obtain ⟨hsome, hnone⟩ := evalRules_spec hM t.rules 0 [] rfl (by simp)
    refine ⟨fun i r hr hMi hmark hlow => ?_, fun hall => ?_⟩
    · exact verdictOn_rule hne (hsome i r (Nat.zero_le i) hr hMi hmark fun j _ hj => hlow j hj)
    · rw [← hfunction]
      exact verdictOn_default hne (hnone fun i r _ => hall i r)
  case edge => cases sf <;> rfl
  case penDist =>
    show penDistOf sf sn e = _
    unfold penDistOf
    cases sf <;> cases sn.shadow <;> rfl
  case shadow =>
    show shadowOf sf sn e = _
    unfold shadowOf
    cases sf with
    | pad => rfl
    | screen =>
      cases sn.shadow with
      | none => rfl
      | some a => simp only [Rect.contains, Bool.and_eq_true, decide_eq_true_eq, and_assoc]
  case zone =>
    show zoneOfEntry sf e = _
    unfold zoneOfEntry
    cases sf <;> cases e.zone <;> rfl
  case penState =>
    show penStateCode sn.penState = _
    cases sn.penState <;> rfl
  case posture =>
    show postureCode sn.posture = _
    cases sn.posture <;> rfl
  case surface =>
    show surfaceCode sf = _
    cases sf <;> rfl

/-! ## The screen records (R54 to R57, R59) -/

section Reporting

variable {c : Classified}

theorem reportEntry_unjudged (h : c.judged = false) : reportEntry c = (none, c.entry.reported) :=
  if_neg (by simp [h])

theorem Classified.restored_finger (h : c.entry.cls = .finger) : c.restored = true ↔ c.before = .suspect := by
  simp [Classified.restored, h]

/-- An OPEN entry that stays a finger moves, or comes back from suspicion, or is not reported. -/
theorem reportEntry_opened_finger (hjudged : c.judged = true) (hr : c.entry.reported = .opened) (hcls : c.entry.cls = .finger) :
    reportEntry c = (if c.entry.pos ≠ c.prev ∨ c.before = .suspect then some .move else none, .opened) := by
  rw [reportEntry, if_pos hjudged, hr, hcls]
  dsimp only
  simp only [Classified.restored_finger hcls]
  split <;> rfl

/-- Every other entry that is judged is reported by its state and its class. -/
theorem reportEntry_judged (hjudged : c.judged = true) (h : ¬(c.entry.reported = .opened ∧ c.entry.cls = .finger)) :
    reportEntry c =
      (if c.entry.reported = .none ∧ c.entry.cls = .finger then (some .down, .opened)
      else if c.entry.reported = .opened ∧ c.entry.cls = .rejected then (some .cancel, .closed)
      else (none, c.entry.reported)) := by
  rw [reportEntry, if_pos hjudged]
  cases hr : c.entry.reported <;> cases hcls : c.entry.cls <;> simp_all

theorem reportEntry_closed (h : c.entry.reported = .closed) : reportEntry c = (none, .closed) := by
  cases hjudged : c.judged with
  | false => rw [reportEntry_unjudged hjudged, h]
  | true => rw [reportEntry_judged hjudged (by simp [h])]; simp [h]

theorem screenRecords_eq (lifted : List Entry) (cs : List Classified) :
    screenRecords lifted cs =
      ((lifted.filter fun e => e.reported = .opened).map fun e =>
        (⟨.up, e.track, e.pos, e.major, e.minor, false⟩ : TouchRecord)) ++
      cs.flatMap fun c => ((reportEntry c).1.map fun kind => touchOf kind c.entry).toList := by
  unfold screenRecords
  rw [List.filterMap_eq_flatMap_toList]
  simp only [beq_eq_decide]
  rfl

end Reporting

/-- Settles O15: the row of the reporting table, and the order of the records. -/
theorem screenReportingTable : Obligations.ScreenReportingTable := by
  refine ⟨fun c => ⟨reportEntry_unjudged, fun hj hr hcls => ?down, fun hj hr hcls => ?unreported, reportEntry_opened_finger,
    fun hj hr hcls => ?suspect, fun hj hr hcls => ?cancel, reportEntry_closed, rfl⟩, fun lifted cs => ?records⟩
  case down => rw [reportEntry_judged hj (by simp [hr])]; simp [hr, hcls]
  case unreported =>
    rw [reportEntry_judged hj (by simp [hr])]
    rcases hcls with h | h <;> simp [hr, h]
  case suspect => rw [reportEntry_judged hj (by simp [hcls])]; simp [hr, hcls]
  case cancel => rw [reportEntry_judged hj (by simp [hcls])]; simp [hr, hcls]
  case records =>
    rw [screenRecords_eq]
    refine congrArg _ (List.flatMap_congr fun c _ => ?_)
    cases (reportEntry c).1 <;> rfl

end Sys2Proof.Machine
end

section
/-! The Tracker on a sound surface, entry by entry and slot by slot (R20, R22 to R30). -/

namespace Sys2Proof.Machine

section Review

variable {grace jump : Nat} {cs : List Contact} {stamp : Stamp} {es : List Entry} {e : Entry} {c : Contact}

/-! ## The four outcomes of a review (R23 to R25) -/

theorem reviewEntry_near (hc : contactWithSlot cs e.slot = some c) (h : chebyshev e.pos c.pos ≤ jump) :
    reviewEntry grace jump cs stamp e = .kept ⟨updateEntry stamp e c, e.pos, false⟩ := by
  unfold reviewEntry
  rw [hc]
  exact if_neg (by omega)

theorem reviewEntry_far (hc : contactWithSlot cs e.slot = some c) (h : jump < chebyshev e.pos c.pos) :
    reviewEntry grace jump cs stamp e = .split e := by
  unfold reviewEntry
  rw [hc]
  exact if_pos h

theorem reviewEntry_missing (hc : contactWithSlot cs e.slot = none) (h : e.liftFrames + 1 ≤ grace) :
    reviewEntry grace jump cs stamp e =
      .kept ⟨{ e with presence := .lifting, liftFrames := e.liftFrames + 1 }, e.pos, false⟩ := by
  unfold reviewEntry
  rw [hc]
  exact if_pos h

theorem reviewEntry_gone (hc : contactWithSlot cs e.slot = none) (h : grace < e.liftFrames + 1) :
    reviewEntry grace jump cs stamp e = .lifted e := by
  unfold reviewEntry
  rw [hc]
  exact if_neg (by omega)

/-- The outcome keeps the entry in the table. -/
def Reviewed.stays : Reviewed → Bool
  | .kept _ => true
  | .lifted _ => false
  | .split _ => false

/-- The entries that the review removes are those of the surface that do not stay. -/
theorem mem_lifted_iff :
    e ∈ liftedOf (es.map (reviewEntry grace jump cs stamp)) ↔
      e ∈ es ∧ (reviewEntry grace jump cs stamp e).stays = false := by
  rw [mem_liftedOf, List.mem_map, List.mem_map]
  constructor
  · rintro (⟨x, hx, hr⟩ | ⟨x, hx, hr⟩)
    · obtain rfl : e = x := by
        obtain ⟨c, -, -, hcase⟩ | ⟨c, -, -, hcase⟩ | ⟨-, -, hcase⟩ | ⟨-, -, hcase⟩ :=
          reviewEntry_cases grace jump cs stamp x <;> cases hcase.symm.trans hr
        rfl
      exact ⟨hx, by rw [hr]; rfl⟩
    · obtain rfl := reviewEntry_split hr
      exact ⟨hx, by rw [hr]; rfl⟩
  · rintro ⟨he, hstays⟩
    obtain ⟨c, -, -, hcase⟩ | ⟨c, -, -, hcase⟩ | ⟨-, -, hcase⟩ | ⟨-, -, hcase⟩ :=
      reviewEntry_cases grace jump cs stamp e
    · exact .inr ⟨e, he, hcase⟩
    · rw [hcase] at hstays; cases hstays
    · rw [hcase] at hstays; cases hstays
    · exact .inl ⟨e, he, hcase⟩

theorem not_mem_lifted {k : Tracked} (h : reviewEntry grace jump cs stamp e = .kept k) :
    e ∉ liftedOf (es.map (reviewEntry grace jump cs stamp)) := by
  rw [mem_lifted_iff, h]
  exact fun hmem => Bool.noConfusion hmem.2

/-- The entries kept are those that stay, in their order and with their track ids. -/
theorem reviewKept_tracks :
    (reviewKept grace jump cs stamp es).map (·.entry.track) =
      (es.filter fun e => e ∉ liftedOf (es.map (reviewEntry grace jump cs stamp))).map (·.track) := by
  have hstay : (es.filter fun e => e ∉ liftedOf (es.map (reviewEntry grace jump cs stamp))) =
      es.filter fun e => (reviewEntry grace jump cs stamp e).stays :=
    List.filter_congr fun e he => by
      rw [Bool.eq_iff_iff, decide_eq_true_iff, mem_lifted_iff]
      simp [he]
  rw [hstay]
  clear hstay
  induction es with
  | nil => rfl
  | cons e es ih =>
    unfold reviewKept keptOf at ih ⊢
    cases hr : reviewEntry grace jump cs stamp e with
    | kept k =>
      rw [List.map_cons, List.filterMap_cons_some (b := k) (by rw [hr]), List.map_cons, ih,
        List.filter_cons_of_pos (by rw [hr]; rfl), List.map_cons, (reviewEntry_kept hr).track]
    | lifted x | split x =>
      rw [List.map_cons, List.filterMap_cons_none (by rw [hr]), ih, List.filter_cons_of_neg (by rw [hr]; exact Bool.false_ne_true)]

theorem reviewKept_length :
    (reviewKept grace jump cs stamp es).length =
      (es.filter fun e => e ∉ liftedOf (es.map (reviewEntry grace jump cs stamp))).length := by
  have h := congrArg List.length (reviewKept_tracks (grace := grace) (jump := jump) (cs := cs) (stamp := stamp) (es := es))
  rwa [List.length_map, List.length_map] at h

/-! ## The slots that are admitted, in their order (R26) -/

/-- The contacts of the slots marked for re-admission come first. -/
theorem mem_admissible_of_split (hslot : e.slot ≤ 15) (he : e ∈ es) (hc : contactWithSlot cs e.slot = some c)
    (h : jump < chebyshev e.pos c.pos) (hlen : es.length ≤ 10) :
    c ∈ (admissible grace jump cs stamp es).take (10 - (reviewKept grace jump cs stamp es).length) := by
  have hsplit : e.slot ∈ reviewSplits grace jump cs stamp es := mem_reviewSplits.2 ⟨e, he, reviewEntry_far hc h, rfl⟩
  have hcs : c.slot = e.slot := contactWithSlot_slot cs e.slot c hc
  have hfirst : c ∈ (bySlot cs).filter fun c => (reviewSplits grace jump cs stamp es).contains c.slot := by
    rw [List.mem_filter, mem_bySlot, hcs]
    exact ⟨⟨by omega, hc⟩, by simpa using hsplit⟩
  have hroom : ((bySlot cs).filter fun c => (reviewSplits grace jump cs stamp es).contains c.slot).length ≤
      10 - (reviewKept grace jump cs stamp es).length := by
    have hcount : (reviewKept grace jump cs stamp es).length + (reviewSplits grace jump cs stamp es).length ≤ es.length :=
      keptOf_splitSlots_length grace jump cs stamp es
    have hslots := bySlot_filter_slots cs fun n => (reviewSplits grace jump cs stamp es).contains n
    have hsub : ((List.range 16).filter fun n =>
        (contactWithSlot cs n).isSome && (reviewSplits grace jump cs stamp es).contains n) ⊆
        reviewSplits grace jump cs stamp es := fun n hn => by
      simpa using (Bool.and_eq_true _ _ ▸ (List.mem_filter.1 hn).2 :
        (contactWithSlot cs n).isSome = true ∧ (reviewSplits grace jump cs stamp es).contains n = true).2
    have hle := ((List.nodup_range.filter _).subperm hsub).length_le
    rw [← hslots, List.length_map] at hle
    omega
  rw [admissible, admissionOrder, List.take_append, List.mem_append]
  exact .inl (by rwa [List.take_of_length_le hroom])

/-- The slots admitted: first those lifted for a jump, then every other slot without an entry. -/
theorem admissible_slots (hcs : (cs.map (·.slot)).Nodup) :
    (admissible grace jump cs stamp es).map (·.slot) =
      ((List.range 16).filter fun s => ∃ e ∈ es, e.slot = s ∧ ∃ c ∈ cs, c.slot = s ∧ jump < chebyshev e.pos c.pos) ++
      (List.range 16).filter fun s => (∃ c ∈ cs, c.slot = s) ∧ ∀ e ∈ es, e.slot ≠ s := by
  have hfind {c : Contact} {n : Nat} : contactWithSlot cs n = some c ↔ c ∈ cs ∧ c.slot = n := by
    refine ⟨fun h => ⟨List.mem_of_find?_eq_some h, contactWithSlot_slot cs n c h⟩, fun ⟨hc, hn⟩ => ?_⟩
    obtain ⟨d, hd⟩ := Option.isSome_iff_exists.1 ((contactWithSlot_isSome cs n).2 ⟨c, hc, hn⟩)
    have hdn := contactWithSlot_slot cs n d hd
    rw [hd, List.inj_on_of_nodup_map hcs (List.mem_of_find?_eq_some hd) hc (hdn.trans hn.symm)]
  rw [admissible, admissionOrder_slots]
  congr 1
  · refine List.filter_congr fun n _ => ?_
    rw [Bool.eq_iff_iff, Bool.and_eq_true, contactWithSlot_isSome, decide_eq_true_iff, List.contains_iff_mem, mem_reviewSplits]
    constructor
    · rintro ⟨⟨c, hc, hcn⟩, e, he, hr, hen⟩
      refine ⟨e, he, hen, c, hc, hcn, ?_⟩
      by_contra hnear
      cases (reviewEntry_near (hfind.2 ⟨hc, hcn.trans hen.symm⟩) (by omega)).symm.trans hr
    · rintro ⟨e, he, hen, c, hc, hcn, hfar⟩
      exact ⟨⟨c, hc, hcn⟩, e, he, reviewEntry_far (hfind.2 ⟨hc, hcn.trans hen.symm⟩) hfar, hen⟩
  · refine List.filter_congr fun n _ => ?_
    rw [Bool.eq_iff_iff, Bool.and_eq_true, Bool.and_eq_true, contactWithSlot_isSome, decide_eq_true_iff, Bool.not_eq_true',
      Bool.not_eq_true', ← Bool.not_eq_true, ← Bool.not_eq_true, List.contains_iff_mem, mem_reviewSplits, List.any_eq_true]
    refine and_congr_right fun ⟨c, hc, hcn⟩ => ⟨fun ⟨hsplit, hkept⟩ e he hen => ?_, fun hnone => ⟨?_, ?_⟩⟩
    · have hfound := hfind.2 ⟨hc, hcn.trans hen.symm⟩
      by_cases hfar : jump < chebyshev e.pos c.pos
      · exact hsplit ⟨e, he, reviewEntry_far hfound hfar, hen⟩
      · exact hkept ⟨_, mem_reviewKept.2 ⟨e, he, reviewEntry_near hfound (by omega)⟩, by simpa [updateEntry] using hen⟩
    · rintro ⟨e, he, -, hen⟩
      exact hnone e he hen
    · rintro ⟨k, hk, hkn⟩
      obtain ⟨e, he, hr⟩ := mem_reviewKept.1 hk
      exact hnone e he ((reviewEntry_kept hr).slot.symm.trans (by simpa using hkn))

end Review

/-! ## The landing zone (R29) -/

section Zones

variable {zones : List Zone} {p : Point}

theorem Zone.contains_iff (z : Zone) (p : Point) :
    z.contains p = true ↔ z.enabled = true ∧ z.x0 ≤ p.x ∧ p.x ≤ z.x1 ∧ z.y0 ≤ p.y ∧ p.y ≤ z.y1 := by
  simp [Zone.contains, and_assoc]

theorem landingZone_some (i : Nat) :
    landingZone zones p = some i ↔
      (∃ z, zones[i]? = some z ∧ z.contains p = true) ∧ ∀ j < i, ∀ z, zones[j]? = some z → ¬z.contains p = true := by
  rw [landingZone, List.findIdx?_eq_some_iff_getElem]
  constructor
  · rintro ⟨hi, hz, hlow⟩
    refine ⟨⟨_, List.getElem?_eq_getElem hi, hz⟩, fun j hj z hjz => ?_⟩
    obtain ⟨hjlen, rfl⟩ := List.getElem?_eq_some_iff.1 hjz
    exact hlow j hj
  · rintro ⟨⟨z, hiz, hz⟩, hlow⟩
    obtain ⟨hi, rfl⟩ := List.getElem?_eq_some_iff.1 hiz
    exact ⟨hi, hz, fun j hj => hlow j hj _ (List.getElem?_eq_getElem (hj.trans hi))⟩

theorem landingZone_none : landingZone zones p = none ↔ ∀ z ∈ zones, ¬z.contains p = true := by
  rw [landingZone, List.findIdx?_eq_none_iff]
  simp

end Zones

/-- Settles O13: the outcome of each review, and the contacts admitted in the room that is left. -/
theorem trackerReviewsEveryEntry : Obligations.TrackerReviewsEveryEntry := by
  intro grace jump zoneOf others nextId cs stamp es hsound h far
  obtain ⟨hlen, hsorted, hentries⟩ := hsound
  obtain ⟨hslots, -, ids, hids, hmem, htakes⟩ := trackFrame_spec (grace := grace) (jump := jump) (zoneOf := zoneOf)
    (others := others) (nextId := nextId) (cs := cs) (stamp := stamp) hsorted hlen
  have hkept {e : Entry} {k : Tracked} (he : e ∈ es) (hr : reviewEntry grace jump cs stamp e = .kept k) :
      e ∉ h.lifted ∧ k ∈ h.entries :=
    ⟨not_mem_lifted hr, (hmem k).2 (.inl (mem_reviewKept.2 ⟨e, he, hr⟩))⟩
  refine ⟨trackFrame_length_le hsorted hlen, hslots, liftedOf_sublist grace jump cs stamp es, fun e he c hc hnear => ?near,
    fun e he c hc hfar => ?far, fun e he hc => ⟨fun hgrace => ?missing, fun hgrace => ?gone⟩, fun k hk hnew => ?old,
    fun hslot hnodup hothers hlow hhigh => ?admitted, fun zones p => ?zone⟩
  case near =>
    obtain ⟨hstay, hin⟩ := hkept he (reviewEntry_near hc hnear)
    exact ⟨hstay, _, hin, rfl, rfl, rfl⟩
  case far =>
    refine ⟨mem_lifted_iff.2 ⟨he, by rw [reviewEntry_far hc hfar]; rfl⟩, ?_⟩
    have htaken := mem_admissible_of_split (grace := grace) (stamp := stamp) (hentries e he).1 he hc hfar hlen
    obtain ⟨n, hn, hget⟩ := List.mem_iff_getElem.1 htaken
    have hzip : (c, ids[n]'(hids ▸ hn)) ∈
        ((admissible grace jump cs stamp es).take (10 - (reviewKept grace jump cs stamp es).length)).zip ids := by
      rw [← hget, ← List.getElem_zip (h := by simp only [List.length_zip, hids, Nat.min_self]; exact hn)]
      exact List.getElem_mem _
    exact ⟨_, (hmem _).2 (.inr ⟨_, hzip, rfl⟩), rfl, contactWithSlot_slot cs e.slot c hc, rfl, rfl, rfl, rfl, rfl⟩
  case missing =>
    obtain ⟨hstay, hin⟩ := hkept he (reviewEntry_missing hc hgrace)
    exact ⟨hstay, _, hin, rfl, rfl, rfl⟩
  case gone => exact mem_lifted_iff.2 ⟨he, by rw [reviewEntry_gone hc hgrace]; rfl⟩
  case old =>
    obtain ⟨e, he, hold⟩ | ⟨c, -, id, rfl⟩ := trackFrame_entry hsorted hlen hk
    · exact ⟨e, he, hold.track.symm, hold.slot.symm⟩
    · cases hnew
  case admitted =>
    intro first second stay taken
    have htaken : taken = ((admissible grace jump cs stamp es).take
        (10 - (reviewKept grace jump cs stamp es).length)).map (·.slot) := by
      rw [List.map_take, admissible_slots hnodup, reviewKept_length]
      rfl
    refine ⟨ids, ?_, ?_, fun x hx => ?_, fun k hk hnew => ?_⟩
    · rw [htaken, List.length_map]
      exact hids
    · rw [reviewKept_tracks] at htakes
      exact htakes hothers hlow hhigh
    · rw [htaken, List.zip_map_left] at hx
      obtain ⟨⟨c, id⟩, hy, rfl⟩ := List.mem_map.1 hx
      have hc : c ∈ bySlot cs := by
        have := List.mem_of_mem_take (List.of_mem_zip hy).1
        rw [admissible, admissionOrder, List.mem_append, List.mem_filter, List.mem_filter] at this
        exact this.elim And.left And.left
      exact ⟨c, List.mem_of_find?_eq_some ((mem_bySlot cs c).1 hc).2, rfl, _, (hmem _).2 (.inr ⟨_, hy, rfl⟩), rfl, rfl, rfl⟩
    · rcases (hmem k).1 hk with hold | ⟨y, hy, rfl⟩
      · obtain ⟨e, -, hr⟩ := mem_reviewKept.1 hold
        exact absurd ((reviewEntry_kept hr).isNew.symm.trans hnew) Bool.false_ne_true
      · rw [htaken]
        exact List.mem_map_of_mem (List.of_mem_zip hy).1
  case zone =>
    intro holds
    have hholds (z : Zone) : z.contains p = true ↔ holds z := Zone.contains_iff z p
    refine ⟨fun i => ?_, ?_⟩
    · rw [landingZone_some]
      simp only [hholds]
    · rw [landingZone_none]
      simp only [hholds]

end Sys2Proof.Machine
end

section
/-! The departures of a pad frame that lands nothing, gesture state by gesture state (R81, R86 to R90, R92, R95 to R99, R104). -/

namespace Sys2Proof.Machine

/-! ## The operations of the engine, as equations -/

section Operations

variable {e : Engine} {m : Motion} {out : List Out} {b : Button} {p : Option Nat} {st : GestureState}

theorem Work.setButton_of_ne (h : e.button ≠ b) :
    Work.setButton ⟨e, m, out⟩ b = ⟨{ e with button := b }, m, out ++ [.button b]⟩ := if_neg h

theorem Work.setPointer_of_ne (h : e.pointer ≠ p) :
    Work.setPointer ⟨e, m, out⟩ p = ⟨{ e with pointer := p }, pointerCleared m, out⟩ := if_neg h

theorem Work.setPointer_of_eq (w : Work) (h : w.e.pointer = p) : w.setPointer p = w := if_pos h

/-- With the pointer residues cleared, a change of state outside SCROLLING leaves the residues (R83). -/
theorem Work.goto_cleared (h : st ≠ .scrolling) :
    Work.goto ⟨e, pointerCleared m, out⟩ st = ⟨{ e with state := st }, pointerCleared m, out⟩ := by
  unfold Work.goto
  rw [if_neg h]
  split <;> rfl

/-- Between states that do not move the pointer, outside SCROLLING, the residues stay (R83). -/
theorem Work.goto_of_still (h : e.state.moves = false) (hst : st.moves = false) (hs : st ≠ .scrolling) :
    Work.goto ⟨e, m, out⟩ st = ⟨{ e with state := st }, m, out⟩ := by
  simp [Work.goto, h, hst, hs]

/-- On leaving or entering a state that moves the pointer, its residues are cleared (R83). -/
theorem Work.goto_of_moves (h : e.state.moves = true ∨ st.moves = true) (hne : e.state ≠ st) (hs : st ≠ .scrolling) :
    Work.goto ⟨e, m, out⟩ st = ⟨{ e with state := st }, pointerCleared m, out⟩ := by
  simp only [Work.goto, if_neg hs, Bool.or_eq_true, h, and_true, ne_eq, hne, not_false_eq_true, if_true]
  rfl

theorem restState_still (n : Nat) : (restState n).moves = false ∧ restState n ≠ .scrolling ∧ restState n ≠ .multi ∧
    restState n ≠ .touch := by
  unfold restState
  split <;> decide

end Operations

section Departures

variable {t : Tables} {now : Stamp} {dt : Nat} {v : PadView} {e : Engine} {m : Motion} {out : List Out} {l : Entry}

/-! ## Stage 1, state by state (R81) -/

section Stage1

variable {w : Work}

theorem stage1_of_touch (h : w.e.state = .touch) : stage1 t now v w = departTouch t now v w := by
  simp only [stage1, h]

theorem stage1_of_pointing (h : w.e.state = .pointing) : stage1 t now v w = departPointing v w := by
  simp only [stage1, h]

theorem stage1_of_holdDrag (h : w.e.state = .holdDrag) : stage1 t now v w = departHoldDrag v w := by
  simp only [stage1, h]

theorem stage1_of_tapDrag (h : w.e.state = .tapDrag) : stage1 t now v w = departTapDrag t v w := by
  simp only [stage1, h]

theorem stage1_of_multi (h : w.e.state = .multi) : stage1 t now v w = departMulti t v w := by
  simp only [stage1, h]

theorem stage1_of_scrolling (h : w.e.state = .scrolling) : stage1 t now v w = departScrolling t now v w := by
  simp only [stage1, h]

theorem stage1_of_pinching (h : w.e.state = .pinching) : stage1 t now v w = departPinching v w := by
  simp only [stage1, h]

theorem stage1_of_swiping (h : w.e.state = .swiping) : stage1 t now v w = departSwiping v w := by
  simp only [stage1, h]

theorem stage1_of_clicked (h : w.e.state = .clicked) : stage1 t now v w = departClicked now v w := by
  simp only [stage1, h]

theorem stage1_of_residual (h : w.e.state = .residual) : stage1 t now v w = departResidual v w := by
  simp only [stage1, h]

/-- In IDLE, TAP_WAIT and COASTING no finger can depart. -/
theorem stage1_of_fingerless (h : w.e.state = .idle ∨ w.e.state = .tapWait ∨ w.e.state = .coasting) : stage1 t now v w = w := by
  rcases h with h | h | h <;> simp only [stage1, h]

end Stage1

/-! ## The departure rules, as equations -/

/-- The pointer contact gone, its residues cleared, and the state left (R83). -/
theorem leave_pointer (hp : e.pointer ≠ none) {st : GestureState} (hst : st ≠ .scrolling) :
    (Work.setPointer ⟨e, m, out⟩ none).goto st =
      ⟨{ e with state := st, pointer := none }, pointerCleared m, out⟩ := by
  rw [Work.setPointer_of_ne hp, Work.goto_cleared hst]

theorem departTouch_of_tap (hb : e.button = .none) (h : liftOfPointer v e = some l) (hp : e.pointer ≠ none)
    (hw : withinTap t l) :
    departTouch t now v ⟨e, m, out⟩ = ⟨{ e with
      state := .tapWait, button := .primary, pointer := none
      tapGapTimer := some (now + BitVec.ofNat 32 (1000 * t.tapGap)) }, pointerCleared m, out ++ [.button .primary]⟩ := by
  have hne : e.button ≠ .primary := by rw [hb]; decide
  simp only [departTouch, h, (tapLimits_iff t l).2 hw, if_true, Work.setButton_of_ne hne, Work.onEngine]
  rw [leave_pointer (e := { e with button := .primary, tapGapTimer := some (afterMs now t.tapGap) }) hp (by decide),
    afterMs, Nat.mul_comm]

theorem departTouch_of_lift (h : liftOfPointer v e = some l) (hp : e.pointer ≠ none) (hw : ¬withinTap t l) :
    departTouch t now v ⟨e, m, out⟩ = ⟨{ e with state := .idle, pointer := none }, pointerCleared m, out⟩ := by
  have hlim : ¬tapLimits t l = true := fun h => hw ((tapLimits_iff t l).1 h)
  simp only [departTouch, h, if_neg hlim]
  exact leave_pointer hp (by decide)

theorem departTouch_of_withdrawal (h : liftOfPointer v e = none) (hwd : pointerWithdrawn v e = true) (hp : e.pointer ≠ none) :
    departTouch t now v ⟨e, m, out⟩ = ⟨{ e with state := .idle, pointer := none }, pointerCleared m, out⟩ := by
  simp only [departTouch, h, hwd, if_true]
  exact leave_pointer hp (by decide)

theorem pointerGone.pointer_ne (h : pointerGone v e) : e.pointer ≠ none := by
  obtain ⟨p, hp, -⟩ := h
  rw [hp]
  exact Option.some_ne_none p

theorem departPointing_of_gone (h : pointerGone v e) :
    departPointing v ⟨e, m, out⟩ = ⟨{ e with state := .idle, pointer := none }, pointerCleared m, out⟩ := by
  simp only [departPointing, (pointerGone_iff v e).2 h, if_true]
  exact leave_pointer h.pointer_ne (by decide)

/-- The end of a drag: the button is released and the pointer contact is gone (R88, R90). -/
theorem release_and_leave (hb : e.button = .primary) (hp : e.pointer ≠ none) {st : GestureState} (hst : st ≠ .scrolling) :
    ((Work.setButton ⟨e, m, out⟩ .none).setPointer none).goto st =
      ⟨{ e with state := st, button := .none, pointer := none }, pointerCleared m, out ++ [.button .none]⟩ := by
  rw [Work.setButton_of_ne (e := e) (by rw [hb]; decide)]
  exact leave_pointer (e := { e with button := .none }) hp hst

theorem departHoldDrag_of_gone (hb : e.button = .primary) (h : pointerGone v e) :
    departHoldDrag v ⟨e, m, out⟩ =
      ⟨{ e with state := restState v.staying.length, button := .none, pointer := none }, pointerCleared m,
        out ++ [.button .none]⟩ := by
  simp only [departHoldDrag, (pointerGone_iff v e).2 h, if_true]
  exact release_and_leave hb h.pointer_ne (restState_still _).2.1

/-- A double tap: three changes (R90). -/
theorem departTapDrag_of_tap (hb : e.button = .primary) (h : liftOfPointer v e = some l) (hp : e.pointer ≠ none)
    (hw : withinTap t l) :
    departTapDrag t v ⟨e, m, out⟩ =
      ⟨{ e with state := restState v.staying.length, button := .none, pointer := none }, pointerCleared m,
        out ++ [.button .none, .button .primary, .button .none]⟩ := by
  have hne : e.button ≠ .none := by rw [hb]; decide
  simp only [departTapDrag, h, (tapLimits_iff t l).2 hw, if_true, Work.setButton_of_ne hne]
  rw [Work.setButton_of_ne Button.noConfusion, Work.setButton_of_ne Button.noConfusion]
  simp only [List.append_assoc, List.cons_append, List.nil_append]
  exact leave_pointer (e := { e with button := .none }) hp (restState_still _).2.1

theorem departTapDrag_of_gone (hb : e.button = .primary) (h : pointerGone v e)
    (hw : ∀ l ∈ v.lifted, l.cls = .finger → e.pointer = some l.track → ¬withinTap t l) :
    departTapDrag t v ⟨e, m, out⟩ =
      ⟨{ e with state := restState v.staying.length, button := .none, pointer := none }, pointerCleared m,
        out ++ [.button .none]⟩ := by
  have hgone := (pointerGone_iff v e).2 h
  have hleave := release_and_leave (m := m) (out := out) hb h.pointer_ne (restState_still v.staying.length).2.1
  unfold departTapDrag
  cases hlift : liftOfPointer v e with
  | some l =>
    have hmem := (PadView.mem_lifts v l).1 (List.mem_of_find?_eq_some hlift)
    have htrack : e.pointer = some l.track := by simpa using List.find?_some hlift
    have hlim : ¬tapLimits t l = true := fun hl => hw l hmem.1 hmem.2 htrack ((tapLimits_iff t l).1 hl)
    simp only [if_neg hlim]
    exact hleave
  | none =>
    rw [hlift] at hgone
    simp only [show pointerWithdrawn v e = true by simpa using hgone, if_true]
    exact hleave

/-- The candidate after the departures of a MULTI frame: every lift within the limits, and no withdrawal (R92). -/
def keepsCandidate (t : Tables) (v : PadView) (e : Engine) : Prop :=
  e.tapCandidate = true ∧ (∀ l ∈ v.lifted, l.cls = .finger → withinTap t l) ∧ ∀ p, ¬withdraws v p

/-- The candidate as stage 1 leaves it in MULTI (R92). -/
theorem spoiled_iff : (v.lifts.any (fun l => !tapLimits t l) || !v.withdrawals.isEmpty) = false ↔
    (∀ l ∈ v.lifted, l.cls = .finger → withinTap t l) ∧ ∀ p, ¬withdraws v p := by
  rw [Bool.or_eq_false_iff, Bool.not_eq_false', PadView.withdrawals_isEmpty, List.any_eq_false]
  simp only [PadView.mem_lifts, Bool.not_eq_true', Bool.not_eq_false, tapLimits_iff, and_imp]

/-- The tap candidate judged on the departures of a frame (R92). -/
theorem departMulti_eq {kept : Bool} (hk : kept = true ↔ keepsCandidate t v e) :
    departMulti t v ⟨e, m, out⟩ =
      if v.staying.isEmpty then
        ((if kept then multiTap e.peakCount ⟨{ e with tapCandidate := kept }, m, out⟩
          else ⟨{ e with tapCandidate := kept }, m, out⟩).onEngine Engine.clearLanding).goto .idle
      else ⟨{ e with tapCandidate := kept }, m, out⟩ := by
  have hcand : (if (v.lifts.any (fun l => !tapLimits t l) || !v.withdrawals.isEmpty) = true then
      Work.onEngine ⟨e, m, out⟩ fun e => { e with tapCandidate := false } else ⟨e, m, out⟩) =
      (⟨{ e with tapCandidate := kept }, m, out⟩ : Work) := by
    split
    next h =>
      have : kept = false := Bool.eq_false_iff.2 fun hkept =>
        Bool.eq_false_iff.1 (spoiled_iff.2 (hk.1 hkept).2) h
      rw [this]
      rfl
    next h =>
      have hclean := spoiled_iff.1 (Bool.eq_false_iff.2 h)
      have : kept = e.tapCandidate := Bool.eq_iff_iff.2 (hk.trans ⟨fun h => h.1, fun h => ⟨h, hclean⟩⟩)
      rw [this]
  unfold departMulti
  dsimp only
  rw [hcand]

theorem multiTap_secondary (hb : e.button = .none) :
    multiTap 2 ⟨e, m, out⟩ = ⟨e, m, out ++ [.button .secondary, .button .none]⟩ := by
  rw [multiTap, if_pos rfl, Work.setButton_of_ne (e := e) (by rw [hb]; decide), Work.setButton_of_ne Button.noConfusion]
  simp [← hb]

theorem multiTap_middle (hb : e.button = .none) :
    multiTap 3 ⟨e, m, out⟩ = ⟨e, m, out ++ [.button .middle, .button .none]⟩ := by
  rw [multiTap, if_neg (by decide), if_pos rfl, Work.setButton_of_ne (e := e) (by rw [hb]; decide), Work.setButton_of_ne Button.noConfusion]
  simp [← hb]

theorem multiTap_other {n : Nat} (h2 : n ≠ 2) (h3 : n ≠ 3) (w : Work) : multiTap n w = w := by
  rw [multiTap, if_neg h2, if_neg h3]

/-- The end of a MULTI episode leaves the landing fields cleared and the engine IDLE (R92). -/
theorem endMulti_eq (hs : e.state = .multi) (b : Bool) :
    (Work.onEngine ⟨{ e with tapCandidate := b }, m, out⟩ Engine.clearLanding).goto .idle =
      ⟨{ landingCleared e with state := .idle }, m, out⟩ :=
  Work.goto_of_still (by rw [Engine.clearLanding, hs]; rfl) rfl (by decide)

theorem departMulti_of_tap (hk : keepsCandidate t v e) (hs : e.state = .multi) (hstay : v.staying = []) {out' : List Out}
    (htap : multiTap e.peakCount ⟨e, m, out⟩ = ⟨e, m, out'⟩) :
    departMulti t v ⟨e, m, out⟩ = ⟨{ landingCleared e with state := .idle }, m, out'⟩ := by
  have he : { e with tapCandidate := true } = e := by rw [← hk.1]
  rw [departMulti_eq (kept := true) (iff_of_true rfl hk), hstay]
  simp only [List.isEmpty_nil, if_true, he, htap]
  exact endMulti_eq hs e.tapCandidate

theorem departMulti_of_spoiled (hk : ¬keepsCandidate t v e) (hs : e.state = .multi) (hstay : v.staying = []) :
    departMulti t v ⟨e, m, out⟩ = ⟨{ landingCleared e with state := .idle }, m, out⟩ := by
  rw [departMulti_eq (kept := false) (iff_of_false Bool.false_ne_true hk), hstay]
  exact endMulti_eq hs false

/-- A contact of the pair has departed: none of the fingers that stay has its track (R96, R97). -/
theorem pairDeparted_of_staying : pairDeparted v e = true ↔ ∃ id ∈ e.landingSet, ∀ c ∈ stayingOf v, c.entry.track ≠ id := by
  unfold pairDeparted tracks
  rw [PadView.staying_eq]
  simp only [List.any_eq_true, Bool.not_eq_true', List.contains_eq_mem, List.mem_map, decide_eq_false_iff_not,
    not_exists, not_and]

/-- The end of a scroll that leaves fingers (R96). -/
theorem departScrolling_residual (hs : e.state = .scrolling) (h : pairDeparted v e = true) (hstay : v.staying ≠ []) :
    departScrolling t now v ⟨e, m, out⟩ =
      ⟨{ landingCleared e with state := .residual, lastCentroid := none }, m, out ++ [.gesture .scrollEnd]⟩ := by
  unfold departScrolling
  rw [if_pos h]
  dsimp only
  rw [if_neg (by simpa using hstay)]
  exact Work.goto_of_still (e := { landingCleared e with lastCentroid := none }) (by rw [landingCleared, hs]; rfl) rfl
    (by decide)

/-- Coasting begins with the velocity of the last outputs (R99, R119). -/
theorem endScroll_coast (hs : e.state.moves = false)
    (hv : t.coastStart ≤ velocitySize (coastVelocity m.lastOutX m.lastInterval) (coastVelocity m.lastOutY m.lastInterval)) :
    endScroll t now ⟨e, m, out⟩ =
      ⟨{ e with
        state := .coasting, vcx := coastVelocity m.lastOutX m.lastInterval
        vcy := coastVelocity m.lastOutY m.lastInterval, coastTimer := some (afterMs now 8) }, m, out⟩ :=
  (if_pos hv).trans (Work.goto_of_still (e := { e with
    vcx := coastVelocity m.lastOutX m.lastInterval, vcy := coastVelocity m.lastOutY m.lastInterval
    coastTimer := some (afterMs now 8) }) hs rfl (by decide))

/-- A scroll too slow to coast ends (R99, R119). -/
theorem endScroll_idle (hs : e.state.moves = false)
    (hv : velocitySize (coastVelocity m.lastOutX m.lastInterval) (coastVelocity m.lastOutY m.lastInterval) < t.coastStart) :
    endScroll t now ⟨e, m, out⟩ =
      ⟨{ e with state := .idle, vcx := 0, vcy := 0 }, m, out ++ [.gesture .scrollEnd]⟩ :=
  (if_neg (Nat.not_le.2 hv)).trans (Work.goto_of_still (e := { e with vcx := 0, vcy := 0 }) hs rfl (by decide))

theorem departScrolling_of_none (h : pairDeparted v e = true) (hstay : v.staying = []) :
    departScrolling t now v ⟨e, m, out⟩ = endScroll t now ⟨{ landingCleared e with lastCentroid := none }, m, out⟩ :=
  (if_pos h).trans (if_pos (by rw [hstay]; rfl))

theorem departPinching_of_departed (hs : e.state = .pinching) (h : pairDeparted v e = true) :
    departPinching v ⟨e, m, out⟩ =
      ⟨{ landingCleared e with state := restState v.staying.length, lastSeparation := none }, m,
        out ++ [.gesture .pinchEnd]⟩ := by
  unfold departPinching
  rw [if_pos h]
  exact Work.goto_of_still (e := { landingCleared e with lastSeparation := none }) (by rw [landingCleared, hs]; rfl)
    (restState_still _).1 (restState_still _).2.1

theorem departSwiping_of_fewer {d : Direction} {n : Nat} (hs : e.state = .swiping) (hd : e.swipeDirection = some d)
    (hn : e.swipeCount = some n) (h : v.staying.length < n) :
    departSwiping v ⟨e, m, out⟩ =
      ⟨{ e with state := restState v.staying.length, swipeDirection := none, swipeCount := none }, m,
        out ++ [.gesture (.swipeEnd d n)]⟩ := by
  simp only [departSwiping, hn, Option.getD_some, h, if_true, endSwipe, Work.record, Work.onEngine, Engine.direction, hd]
  exact Work.goto_of_still (e := { e with swipeDirection := none, swipeCount := none }) (by rw [hs]; rfl)
    (restState_still _).1 (restState_still _).2.1

theorem departResidual_of_none (hs : e.state = .residual) (h : v.staying = []) :
    departResidual v ⟨e, m, out⟩ = ⟨{ e with state := .idle }, m, out⟩ := by
  rw [departResidual, if_pos (by simp [h])]
  exact Work.goto_of_still (by rw [hs]; rfl) rfl (by decide)

theorem departClicked_of_gone (h : pointerGone v e) :
    departClicked now v ⟨e, m, out⟩ =
      Work.setPointer ⟨e, m, out⟩ ((mostRecent now (v.staying.map (·.entry))).map (·.track)) :=
  if_pos ((pointerGone_iff v e).2 h)

/-! ## The frames -/

/-- Stage 3 judges TOUCH and MULTI alone (R81). -/
theorem stage3_of_decided {w : Work} (ht : w.e.state ≠ .touch) (hm : w.e.state ≠ .multi) : stage3 t v w = w := by
  unfold stage3
  split <;> simp_all

/-- Stage 4 hands no motion over in a frame that changed the gesture state (R83). -/
theorem stage4_of_changed {w : Work} {before : Engine} (h : w.e.state ≠ before.state) : stage4 t dt v before w = w := if_pos h

/-- Stage 4 hands no motion over in a state that moves the pointer when the frame changed the pointer contact (R83). -/
theorem stage4_of_pointer {w : Work} {before : Engine} (hm : w.e.state.moves = true) (h : w.e.pointer ≠ before.pointer) :
    stage4 t dt v before w = w := by
  unfold stage4
  rw [if_pos hm, if_pos h, ite_self]

/-- Stage 4 hands no motion over in a state that has no motion (R83). -/
theorem stage4_of_still {w : Work} {before : Engine} (hm : w.e.state.moves = false) (hs : w.e.state ≠ .scrolling)
    (hp : w.e.state ≠ .pinching) : stage4 t dt v before w = w := by
  unfold stage4
  rw [if_neg (Bool.eq_false_iff.1 hm), if_neg hs, if_neg hp, ite_self]

/-- A departure that ends in IDLE or RESIDUAL, from a state that is neither (R81). -/
theorem padFrame_of_rest {w : Work} (hl : landedOf v = []) (hs : e.state ≠ .idle ∧ e.state ≠ .residual)
    (h : stage1 t now v ⟨e, m, []⟩ = w) (hw : w.e.state = restState v.staying.length) : padFrame t now dt v e m = w := by
  refine padFrame_of_departure t now dt v e m w hl h ?_ (hw ▸ (restState_still _).2.2.1) (hw ▸ (restState_still _).2.2.2)
  rw [hw, restState]
  split
  · exact Ne.symm hs.1
  · exact Ne.symm hs.2

/-- In CLICKED a frame that changes the pointer contact and lands nothing does that alone (R83, R104). -/
theorem padFrame_of_handover {p : Option Nat} (hl : landedOf v = []) (hs : e.state = .clicked) (h : pointerGone v e)
    (hp : (mostRecent now ((fingersOf v).map (·.entry))).map (·.track) = p) (hne : e.pointer ≠ p) :
    padFrame t now dt v e m = ⟨{ e with pointer := p }, pointerCleared m, []⟩ := by
  have h1 : stage1 t now v ⟨e, m, []⟩ = ⟨{ e with pointer := p }, pointerCleared m, []⟩ := by
    rw [stage1_of_clicked hs, departClicked_of_gone h, PadView.staying_eq, stayingOf_of_landedOf_nil v hl, hp, Work.setPointer_of_ne hne]
  unfold padFrame
  rw [h1, stage2_of_no_landing now v _ hl (by simp [hs]), stage3_of_decided (by simp [hs]) (by simp [hs]),
    stage4_of_pointer (by rw [hs]; rfl) (Ne.symm hne)]

/-- The engine and Motion Transfer after a MULTI frame that no finger stays in (R92). -/
theorem padFrame_of_endMulti {out : List Out} (hl : landedOf v = []) (hs : e.state = .multi)
    (h : departMulti t v ⟨e, m, []⟩ = ⟨{ landingCleared e with state := .idle }, m, out⟩) :
    padFrame t now dt v e m = ⟨{ landingCleared e with state := .idle }, m, out⟩ :=
  padFrame_of_departure t now dt v e m _ hl ((stage1_of_multi hs).trans h) (by simp [hs]) (by simp) (by simp)

/-- A frame that departs from its gesture state and lands nothing. -/
theorem padDepartures_hold (t : Tables) (now : Stamp) (dt : Nat) (v : PadView) (e : Engine) (m : Motion) :
    padDepartures t now dt v e m := by
  intro hl
  have hstay : v.staying = fingersOf v := by rw [PadView.staying_eq, stayingOf_of_landedOf_nil v hl]
  have hrest := restState_eq v hl
  have hleave := padFrame_of_departure t now dt v e m
  have hrests {w : Work} := padFrame_of_rest (t := t) (now := now) (dt := dt) (v := v) (e := e) (m := m) (w := w)
  refine ⟨fun hs hb l hlift hp => ⟨fun hw => ?tap, fun hw => ?lift⟩, fun hs p hp hwd hno => ?withdrawn,
    fun hs h => ?pointing, fun hs hb h => ?holdDrag, fun hs hb h => ⟨fun l hlift hp hw => ?doubleTap, fun hw => ?dragEnd⟩,
    ?multi, ?scrolling, fun hs h => ?pinching, fun hs d n hd hn hlen => ?swiping, fun hs h => ?residual,
    fun hs h => ⟨fun hnone => ?handNone, fun x hx hne => ?handOver⟩⟩
  case tap =>
    refine hleave _ hl ((stage1_of_touch hs).trans ?_) (by simp [hs]) (by simp) (by simp)
    exact departTouch_of_tap hb (liftOfPointer_some v e l hlift hp) (by simp [hp]) hw
  case lift =>
    refine hleave _ hl ((stage1_of_touch hs).trans ?_) (by simp [hs]) (by simp) (by simp)
    exact departTouch_of_lift (liftOfPointer_some v e l hlift hp) (by simp [hp]) hw
  case withdrawn =>
    have hnone : liftOfPointer v e = none := liftOfPointer_none v e fun l hmem hcls htrack =>
      hno l hmem hcls (Option.some.inj (htrack.symm.trans hp))
    refine hleave _ hl ((stage1_of_touch hs).trans ?_) (by simp [hs]) (by simp) (by simp)
    exact departTouch_of_withdrawal hnone ((pointerWithdrawn_iff v e).2 ⟨p, hp, hwd⟩) (by simp [hp])
  case pointing =>
    exact hleave _ hl ((stage1_of_pointing hs).trans (departPointing_of_gone h)) (by simp [hs]) (by simp) (by simp)
  case holdDrag =>
    rw [← hrest]
    exact hrests hl (by rw [hs]; decide) ((stage1_of_holdDrag hs).trans (departHoldDrag_of_gone hb h)) rfl
  case doubleTap =>
    rw [← hrest]
    exact hrests hl (by rw [hs]; decide) ((stage1_of_tapDrag hs).trans
      (departTapDrag_of_tap hb (liftOfPointer_some v e l hlift hp) h.pointer_ne hw)) rfl
  case dragEnd =>
    rw [← hrest]
    exact hrests hl (by rw [hs]; decide) ((stage1_of_tapDrag hs).trans (departTapDrag_of_gone hb h hw)) rfl
  case multi =>
    intro hs hb hnone kept ended
    have hempty : v.staying = [] := hstay.trans hnone
    have hend {out : List Out} := padFrame_of_endMulti (t := t) (now := now) (dt := dt) (m := m) (out := out) hl hs
    refine ⟨fun hk h2 => hend (departMulti_of_tap hk hs hempty ?_), fun hk h3 => hend (departMulti_of_tap hk hs hempty ?_),
      fun hk h2 h3 => hend (departMulti_of_tap hk hs hempty (multiTap_other h2 h3 _)),
      fun hk => hend (departMulti_of_spoiled hk hs hempty)⟩
    · rw [h2]
      exact multiTap_secondary hb
    · rw [h3]
      exact multiTap_middle hb
  case scrolling =>
    intro hs hgone ended vx vy
    have hpair := (pairDeparted_iff v e hl).2 hgone
    refine ⟨fun h => ?_, fun h hv => ?_, fun h hv => ?_⟩
    · exact hleave _ hl ((stage1_of_scrolling hs).trans (departScrolling_residual hs hpair (by rwa [hstay])))
        (by simp [hs]) (by simp) (by simp)
    · exact hleave _ hl ((stage1_of_scrolling hs).trans ((departScrolling_of_none hpair (hstay.trans h)).trans
        (endScroll_coast (by rw [landingCleared, hs]; rfl) hv))) (by simp [hs]) (by simp) (by simp)
    · exact hleave _ hl ((stage1_of_scrolling hs).trans ((departScrolling_of_none hpair (hstay.trans h)).trans
        (endScroll_idle (by rw [landingCleared, hs]; rfl) hv))) (by simp [hs]) (by simp) (by simp)
  case pinching =>
    rw [← hrest]
    exact hrests hl (by rw [hs]; decide) ((stage1_of_pinching hs).trans
      (departPinching_of_departed hs ((pairDeparted_iff v e hl).2 h))) rfl
  case swiping =>
    rw [← hrest]
    exact hrests hl (by rw [hs]; decide) ((stage1_of_swiping hs).trans
      (departSwiping_of_fewer hs hd hn (by rwa [hstay]))) rfl
  case residual =>
    exact hleave _ hl ((stage1_of_residual hs).trans (departResidual_of_none hs (hstay.trans h))) (by simp [hs]) (by simp)
      (by simp)
  case handNone =>
    exact padFrame_of_handover hl hs h (by rw [hnone]; rfl) h.pointer_ne
  case handOver =>
    exact padFrame_of_handover hl hs h (by rw [mostRecent_eq now _ x hx]; rfl) hne

end Departures

end Sys2Proof.Machine
end

section
/-! The stages of a pad frame after its departures, as equations: landings, thresholds and motion (R81 to R85, R91 to R95). -/

namespace Sys2Proof.Machine

section Stages

variable {t : Tables} {now : Stamp} {dt : Nat} {v : PadView} {e : Engine} {m : Motion} {out : List Out} {w : Work}
  {c : Classified} {x : Entry}

/-- A pad frame, stage by stage (R81). -/
theorem padFrame_eq {w₁ w₂ w₃ w₄ : Work} (h₁ : stage1 t now v ⟨e, m, []⟩ = w₁) (h₂ : stage2 now v w₁ = w₂)
    (h₃ : stage3 t v w₂ = w₃) (h₄ : stage4 t dt v e w₃ = w₄) : padFrame t now dt v e m = w₄ := by
  rw [padFrame, h₁, h₂, h₃, h₄]

/-! ## Frames that do not depart -/

theorem stage1_of_not_gone (h : ¬pointerGone v w.e)
    (hs : w.e.state = .touch ∨ w.e.state = .pointing ∨ w.e.state = .holdDrag ∨ w.e.state = .tapDrag ∨ w.e.state = .clicked) :
    stage1 t now v w = w := by
  have hno : ¬((liftOfPointer v w.e).isSome || pointerWithdrawn v w.e) = true := fun hg => h ((pointerGone_iff v w.e).1 hg)
  obtain ⟨hlift, hwd⟩ : liftOfPointer v w.e = none ∧ ¬pointerWithdrawn v w.e = true := by simpa using hno
  rcases hs with hs | hs | hs | hs | hs
  · rw [stage1_of_touch hs]
    unfold departTouch
    rw [hlift]
    exact if_neg hwd
  · exact (stage1_of_pointing hs).trans (if_neg hno)
  · exact (stage1_of_holdDrag hs).trans (if_neg hno)
  · rw [stage1_of_tapDrag hs]
    unfold departTapDrag
    rw [hlift]
    exact if_neg hwd
  · exact (stage1_of_clicked hs).trans (if_neg hno)

theorem nothingDeparts.not_gone (h : nothingDeparts v) : ¬pointerGone v e := by
  obtain ⟨hlift, hstay⟩ := h
  rintro ⟨p, -, ⟨l, hl, hcls, -⟩ | ⟨c, hc, hbefore, hcls, -⟩⟩
  · exact hlift l hl hcls
  · exact hcls (hstay c hc hbefore)

theorem stage1_of_residual_stays (hs : w.e.state = .residual) (h : stayingOf v ≠ []) : stage1 t now v w = w :=
  (stage1_of_residual hs).trans (if_neg (by simpa [PadView.staying_eq] using h))

theorem stage1_of_swiping_stays (hs : w.e.state = .swiping) (h : ∀ n ∈ w.e.swipeCount, n ≤ (stayingOf v).length) :
    stage1 t now v w = w := by
  refine (stage1_of_swiping hs).trans (if_neg (Nat.not_lt.2 ?_))
  rw [PadView.staying_eq]
  cases hn : w.e.swipeCount with
  | none => exact Nat.zero_le _
  | some n => exact h n hn

theorem stage1_of_pair_stays (hs : w.e.state = .scrolling ∨ w.e.state = .pinching)
    (h : ∀ id ∈ w.e.landingSet, ∃ c ∈ stayingOf v, c.entry.track = id) : stage1 t now v w = w := by
  have hno : ¬pairDeparted v w.e = true := fun hd => by
    obtain ⟨id, hid, hgone⟩ := pairDeparted_of_staying.1 hd
    obtain ⟨c, hc, htrack⟩ := h id hid
    exact hgone c hc htrack
  rcases hs with hs | hs
  · exact (stage1_of_scrolling hs).trans (if_neg hno)
  · exact (stage1_of_pinching hs).trans (if_neg hno)

/-! ## Stage 2 -/

theorem stage2_of_landing (h : landedOf v ≠ []) : stage2 now v w = retake v (landings now v w) := by
  unfold stage2
  rw [if_neg (by simpa [PadView.landings_eq] using h)]

theorem retake_of_settled (h : w.e.state ≠ .multi) : retake v w = w := if_neg fun hr => h hr.1

/-- In a state whose landing rule does nothing, stage 2 leaves everything. -/
theorem stage2_of_ignored (hs : w.e.state = .holdDrag ∨ w.e.state = .tapDrag ∨ w.e.state = .scrolling ∨
    w.e.state = .pinching ∨ w.e.state = .swiping ∨ w.e.state = .residual) : stage2 now v w = w := by
  have hland : landings now v w = w := by
    rcases hs with hs | hs | hs | hs | hs | hs <;> simp only [landings, hs]
  unfold stage2
  rw [hland, ite_self]
  exact retake_of_settled (by rcases hs with hs | hs | hs | hs | hs | hs <;> simp [hs])

theorem mostRecentlyLanded.map_track {es : List Entry} (h : mostRecentlyLanded now es x) :
    (mostRecent now es).map (·.track) = some x.track := by rw [mostRecent_eq now es x h]; rfl

theorem landings_tapWait (hs : w.e.state = .tapWait) (hx : mostRecentlyLanded now ((landedOf v).map (·.entry)) x) :
    landings now v w =
      ((w.onEngine fun e => { e with tapGapTimer := none }).setPointer (some x.track)).goto .tapDrag := by
  simp only [landings, hs, landTapWait, PadView.landings_eq, hx.map_track]

theorem landings_clicked (hs : w.e.state = .clicked) (hx : mostRecentlyLanded now ((fingersOf v).map (·.entry)) x) :
    landings now v w = w.setPointer (some x.track) := by
  simp only [landings, hs, landClicked, PadView.fingers_eq, hx.map_track]

theorem landIdle_one (h : landedOf v = [c]) : landIdle v w = (w.setPointer (some c.entry.track)).goto .touch := by
  unfold landIdle
  rw [PadView.landings_eq, h]

theorem landIdle_many (h : 2 ≤ (landedOf v).length) : landIdle v w = enterMulti true w := by
  unfold landIdle
  rw [PadView.landings_eq]
  match landedOf v, h with
  | _ :: _ :: _, _ => rfl

theorem enterMulti_e (yes : Bool) (w : Work) :
    (enterMulti yes w).e = { landingCleared w.e with state := .multi, pointer := none, tapCandidate := yes } := by
  simp [enterMulti, Engine.clearLanding, landingCleared]

theorem enterMulti_of_pointer (yes : Bool) (h : e.pointer ≠ none ∨ e.state.moves = true) :
    enterMulti yes ⟨e, m, out⟩ =
      ⟨{ landingCleared e with state := .multi, pointer := none, tapCandidate := yes }, pointerCleared m, out⟩ := by
  by_cases hp : e.pointer = none
  · have hm := h.resolve_left (not_not_intro hp)
    unfold enterMulti
    rw [Work.setPointer_of_eq _ hp]
    refine (Work.goto_of_moves (e := { landingCleared e with tapCandidate := yes }) (.inl hm) (fun hs => ?_) (by decide)).trans
      (by simp [landingCleared, hp, Work.onEngine])
    rw [show e.state = .multi from hs] at hm
    cases hm
  · unfold enterMulti
    rw [Work.setPointer_of_ne hp]
    exact Work.goto_cleared (e := { landingCleared e with pointer := none, tapCandidate := yes }) (by decide)

theorem enterMulti_of_idle (yes : Bool) (hp : e.pointer = none) (hs : e.state = .idle) :
    enterMulti yes ⟨e, m, out⟩ =
      ⟨{ landingCleared e with state := .multi, pointer := none, tapCandidate := yes }, m, out⟩ := by
  unfold enterMulti
  rw [Work.setPointer_of_eq _ hp]
  exact (Work.goto_of_still (e := { landingCleared e with tapCandidate := yes }) (by rw [landingCleared, hs]; rfl) rfl
    (by decide)).trans (by simp [landingCleared, hp, Work.onEngine])

/-! ## The values of a finger set -/

theorem centroid_positions (cs : List Classified) : centroid (positions cs) = centroidOf cs := by
  simp only [centroid, positions, centroidOf, List.map_map, List.length_map, Function.comp_def]

theorem separation_positions (cs : List Classified) : separation (positions cs) = separationOf cs := by
  match cs with
  | [] => rfl
  | [_] => rfl
  | _ :: _ :: _ => rfl

/-- The landing values taken afresh (R91). -/
theorem retake_eq (hs : w.e.state = .multi) : retake v w =
    if (fingersOf v).map (·.entry.track) ≠ w.e.landingSet ∧ 2 ≤ (fingersOf v).length ∧ (fingersOf v).length ≤ 4
    then ⟨landingTaken (fingersOf v) w.e, w.m, w.out⟩ else w := by
  simp only [retake, hs, true_and, PadView.fingers_eq, centroid_positions, separation_positions, tracks]
  rfl

theorem retake_of_fresh (hs : w.e.state = .multi) (hset : w.e.landingSet = []) (h2 : 2 ≤ (fingersOf v).length)
    (h4 : (fingersOf v).length ≤ 4) : retake v w = ⟨landingTaken (fingersOf v) w.e, w.m, w.out⟩ := by
  have hne : (fingersOf v).map (·.entry.track) ≠ w.e.landingSet := fun h => by
    rw [← List.length_map (f := (·.entry.track)), h, hset] at h2
    exact absurd h2 (by decide)
  rw [retake_eq hs, if_pos ⟨hne, h2, h4⟩]

theorem retake_of_many (h5 : 5 ≤ (fingersOf v).length) : retake v w = w := by
  refine if_neg fun h => ?_
  have hlen := h.2.2.2
  rw [PadView.fingers_eq] at hlen
  omega

/-! ## Stage 3 -/

theorem stage3_of_touch (hs : w.e.state = .touch) : stage3 t v w = evalTouch t v w := by simp only [stage3, hs]

theorem stage3_of_multi (hs : w.e.state = .multi) : stage3 t v w = evalMulti t v w := by simp only [stage3, hs]

theorem pointerEntry_eq (hnodup : (v.entries.map (·.entry.track)).Nodup) (hc : c ∈ v.entries)
    (hp : e.pointer = some c.entry.track) : pointerEntry v e = some c := by
  have hsome : (pointerEntry v e).isSome = true := List.find?_isSome.2 ⟨c, hc, by simp [hp]⟩
  obtain ⟨d, hd⟩ := Option.isSome_iff_exists.1 hsome
  have htrack : c.entry.track = d.entry.track := by simpa [hp] using List.find?_some hd
  rw [hd, List.inj_on_of_nodup_map hnodup hc (List.mem_of_find?_eq_some hd) htrack]

theorem evalTouch_of_travel (h : pointerEntry v w.e = some c) (ht : t.tapSlop < c.entry.travel) :
    evalTouch t v w = w.goto .pointing := by
  simp only [evalTouch, h, if_pos ht]

theorem evalTouch_of_age (h : pointerEntry v w.e = some c) (ht : c.entry.travel ≤ t.tapSlop) (ha : t.holdMin ≤ c.entry.age) :
    evalTouch t v w = (w.setButton .primary).goto .holdDrag := by
  simp only [evalTouch, h, if_neg (Nat.not_lt.2 ht), if_pos ha]

theorem evalTouch_of_young (h : pointerEntry v w.e = some c) (ht : c.entry.travel ≤ t.tapSlop) (ha : c.entry.age < t.holdMin) :
    evalTouch t v w = w := by
  simp only [evalTouch, h, if_neg (Nat.not_lt.2 ht), if_neg (Nat.not_le.2 ha)]

/-- The candidate cleared by a finger outside the limits (R92). -/
theorem spoilCandidate_eq {yes : Bool} (h : yes = true ↔ e.tapCandidate = true ∧ ∀ c ∈ fingersOf v, withinTap t c.entry) :
    spoilCandidate t v ⟨e, m, out⟩ = ⟨{ e with tapCandidate := yes }, m, out⟩ := by
  have hany : (v.fingers.any fun c => !tapLimits t c.entry) = true ↔ ¬∀ c ∈ fingersOf v, withinTap t c.entry := by
    simp [PadView.fingers_eq, ← tapLimits_iff]
  unfold spoilCandidate
  split
  next hs =>
    have : yes = false := Bool.eq_false_iff.2 fun hy => hany.1 hs (h.1 hy).2
    rw [this]
    rfl
  next hs =>
    have hall := not_not.1 (mt hany.2 hs)
    have : yes = e.tapCandidate := Bool.eq_iff_iff.2 (h.trans ⟨fun h => h.1, fun h => ⟨h, hall⟩⟩)
    rw [this]

theorem spoilCandidate_state (t : Tables) (v : PadView) (w : Work) : (spoilCandidate t v w).e.state = w.e.state := by
  unfold spoilCandidate
  split <;> rfl

theorem chebyshev_self (p : Point) : chebyshev p p = 0 := by simp [chebyshev]

/-- In the frame that takes the landing values a pair has neither moved nor changed its separation (R94). -/
theorem evalTwo_of_fresh (hc : w.e.landingCentroid = some (centroidOf (fingersOf v)))
    (hd : w.e.landingSeparation = some (separationOf (fingersOf v))) (hscroll : 0 < t.scrollStart) :
    evalTwo t v w = spoilCandidate t v w := by
  have htravel : centroidTravel v w.e = 0 := by
    simp only [centroidTravel, hc, PadView.fingers_eq, centroid_positions, chebyshev_self]
  have hchange : separationChange v w.e = 0 := by
    simp only [separationChange, hd, PadView.fingers_eq, separation_positions, sub_self, Int.natAbs_zero]
  unfold evalTwo
  rw [htravel, hchange]
  exact (if_neg fun h => absurd h.2 (lt_irrefl 0)).trans (if_neg (Nat.not_le.2 hscroll))

theorem evalSwipe_of_fresh (hc : w.e.landingCentroid = some (centroidOf (fingersOf v))) (hswipe : 0 < t.swipeStart) :
    evalSwipe t v w = spoilCandidate t v w := by
  have htravel : centroidTravel v w.e = 0 := by
    simp only [centroidTravel, hc, PadView.fingers_eq, centroid_positions, chebyshev_self]
  unfold evalSwipe
  rw [htravel]
  exact if_neg (Nat.not_le.2 hswipe)

theorem evalMulti_of_many (h : 5 ≤ (fingersOf v).length) : evalMulti t v w = abandonMulti w := by
  unfold evalMulti
  rw [PadView.fingers_eq]
  exact if_pos h

theorem evalMulti_of_one (h : (fingersOf v).length = 1) :
    evalMulti t v w = if w.e.tapCandidate then spoilCandidate t v w else abandonMulti w := by
  simp [evalMulti, PadView.fingers_eq, h]

theorem evalMulti_of_two (h : (fingersOf v).length = 2) : evalMulti t v w = evalTwo t v w := by
  simp [evalMulti, PadView.fingers_eq, h]

theorem evalMulti_of_swipe (h : (fingersOf v).length = 3 ∨ (fingersOf v).length = 4) : evalMulti t v w = evalSwipe t v w := by
  rcases h with h | h <;> simp [evalMulti, PadView.fingers_eq, h]

theorem abandonMulti_eq (hs : e.state = .multi) :
    abandonMulti ⟨e, m, out⟩ = ⟨{ landingCleared e with state := .residual }, m, out⟩ :=
  Work.goto_of_still (e := landingCleared e) (by rw [landingCleared, hs]; rfl) rfl (by decide)

/-! ## Stage 4 -/

theorem stage4_of_moves {before : Engine} (hs : w.e.state = before.state) (hm : w.e.state.moves = true)
    (hp : w.e.pointer = before.pointer) : stage4 t dt v before w = movePointer t dt v w := by
  unfold stage4
  rw [if_neg (not_not_intro hs), if_pos hm, if_neg (not_not_intro hp)]

theorem movePointer_of_present (h : pointerEntry v w.e = some c) (hnew : c.isNew = false) (hbefore : c.before ≠ .suspect)
    (hpres : c.entry.presence = .present) :
    movePointer t dt v w =
      Work.addMotion
        { w with m := (pointerInput t w.m ((c.entry.pos.x : Int) - c.prev.x) ((c.entry.pos.y : Int) - c.prev.y) dt).1 }
        (pointerInput t w.m ((c.entry.pos.x : Int) - c.prev.x) ((c.entry.pos.y : Int) - c.prev.y) dt).2 := by
  simp [movePointer, h, hnew, Classified.restored, hbefore, hpres]

theorem movePointer_of_unmoved (h : pointerEntry v w.e = some c)
    (hc : c.isNew = true ∨ (c.before = .suspect ∧ c.entry.cls = .finger) ∨ c.entry.presence = .lifting) :
    movePointer t dt v w = w := by
  unfold movePointer
  rw [h]
  refine if_pos ?_
  rcases hc with hc | ⟨hc, hcls⟩ | hc
  · simp [hc]
  · simp [Classified.restored, hc, hcls]
  · simp [hc]

end Stages

end Sys2Proof.Machine
end

section
/-! The landings of a pad frame that departs from nothing, gesture state by gesture state (R84, R85, R87, R89, R91, R92, R95, R98,
R101, R104). -/

namespace Sys2Proof.Machine

section Landings

variable {t : Tables} {now : Stamp} {dt : Nat} {v : PadView} {e : Engine} {m : Motion} {out : List Out} {w : Work}
  {c : Classified}

/-- The pointer contact of a state that moves the pointer: its residues begin at 0, whether it is new or not (R83). -/
theorem point_and_goto {p : Option Nat} {st : GestureState} (hm : st.moves = true) (hne : e.state ≠ st) :
    (Work.setPointer ⟨e, m, out⟩ p).goto st = ⟨{ e with state := st, pointer := p }, pointerCleared m, out⟩ := by
  have hs : st ≠ .scrolling := fun hs => by rw [hs] at hm; cases hm
  by_cases hp : e.pointer = p
  · rw [Work.setPointer_of_eq _ hp, Work.goto_of_moves (.inr hm) hne hs, ← hp]
  · rw [Work.setPointer_of_ne hp, Work.goto_cleared hs]

theorem landings_of_idle (hs : w.e.state = .idle) : landings now v w = landIdle v w := by simp only [landings, hs]

theorem landings_of_touch (hs : w.e.state = .touch) : landings now v w = enterMulti true w := by simp only [landings, hs]

theorem landings_of_pointing (hs : w.e.state = .pointing) : landings now v w = enterMulti false w := by
  simp only [landings, hs]

theorem landings_of_coasting (hs : w.e.state = .coasting) : landings now v w = landIdle v (endCoast w) := by
  simp only [landings, hs]

theorem mem_entries_of_landed (h : c ∈ landedOf v) : c ∈ v.entries := (List.mem_filter.1 (List.mem_filter.1 h).1).1

/-! ## A landing in IDLE -/

theorem stage2_of_one (hs : e.state = .idle) (hp : e.pointer = none) (hl : landedOf v = [c]) :
    stage2 now v ⟨e, m, out⟩ = ⟨{ e with state := .touch, pointer := some c.entry.track }, pointerCleared m, out⟩ := by
  rw [stage2_of_landing (by simp [hl]), landings_of_idle hs, landIdle_one hl,
    Work.setPointer_of_ne (by rw [hp]; exact (Option.some_ne_none _).symm), Work.goto_cleared (by decide)]
  exact retake_of_settled GestureState.noConfusion

/-! ## The entry to MULTI -/

/-- The engine as it enters MULTI in a frame: the landing values are taken at once (R91, R92). -/
theorem stage3_of_entry {yes candidate : Bool} (hs : e.state = .multi) (hset : e.landingSet = [])
    (hcand : e.tapCandidate = candidate) (hscroll : 0 < t.scrollStart) (hswipe : 0 < t.swipeStart)
    (hyes : yes = true ↔ candidate = true ∧ ∀ c ∈ fingersOf v, withinTap t c.entry)
    (h2 : 2 ≤ (fingersOf v).length) (h4 : (fingersOf v).length ≤ 4) :
    stage3 t v (retake v ⟨e, m, out⟩) = ⟨{ landingTaken (fingersOf v) e with tapCandidate := yes }, m, out⟩ := by
  rw [retake_of_fresh hs hset h2 h4, stage3_of_multi hs]
  have hspoil : spoilCandidate t v ⟨landingTaken (fingersOf v) e, m, out⟩ =
      ⟨{ landingTaken (fingersOf v) e with tapCandidate := yes }, m, out⟩ := spoilCandidate_eq (hcand ▸ hyes)
  by_cases hn : (fingersOf v).length = 2
  · rw [evalMulti_of_two hn]
    exact (evalTwo_of_fresh rfl (if_pos hn) hscroll).trans hspoil
  · rw [evalMulti_of_swipe (by omega)]
    exact (evalSwipe_of_fresh rfl hswipe).trans hspoil

theorem stage3_of_crowd (hs : e.state = .multi) (h5 : 5 ≤ (fingersOf v).length) :
    stage3 t v (retake v ⟨e, m, out⟩) = ⟨{ landingCleared e with state := .residual }, m, out⟩ := by
  rw [retake_of_many h5, stage3_of_multi hs, evalMulti_of_many h5, abandonMulti_eq hs]

/-- The ways into MULTI: two landings in IDLE, or a landing in TOUCH or POINTING (R84, R85, R87). -/
theorem landings_multi (hs : (e.state = .idle ∧ e.pointer = none ∧ 2 ≤ (landedOf v).length) ∨
      (e.state = .touch ∧ e.pointer ≠ none) ∨ e.state = .pointing) {candidate : Bool}
    (hc : candidate = true ↔ e.state ≠ .pointing) :
    landings now v ⟨e, m, out⟩ =
      ⟨{ landingCleared e with state := .multi, pointer := none, tapCandidate := candidate },
        if e.state = .idle then m else pointerCleared m, out⟩ := by
  rcases hs with ⟨hs, hp, h2⟩ | ⟨hs, hp⟩ | hs
  · have : candidate = true := hc.2 (by simp [hs])
    rw [landings_of_idle hs, landIdle_many h2, enterMulti_of_idle true hp hs, if_pos hs, this]
  · have : candidate = true := hc.2 (by simp [hs])
    rw [landings_of_touch hs, enterMulti_of_pointer true (.inl hp), if_neg (by simp [hs]), this]
  · have : candidate = false := Bool.eq_false_iff.2 fun h => hc.1 h hs
    rw [landings_of_pointing hs, enterMulti_of_pointer false (.inr (by rw [hs]; rfl)), if_neg (by simp [hs]), this]

/-! ## What has been handed over stays in front -/

/-- A work with something handed over before it. -/
def Work.after (pre : List Out) (w : Work) : Work := { w with out := pre ++ w.out }

section After

variable (pre : List Out)

@[simp] theorem Work.after_e : (w.after pre).e = w.e := rfl
@[simp] theorem Work.onEngine_after (f : Engine → Engine) : (w.after pre).onEngine f = (w.onEngine f).after pre := rfl
@[simp] theorem Work.goto_after (st : GestureState) : (w.after pre).goto st = (w.goto st).after pre := rfl

@[simp] theorem Work.record_after (g : Gesture) : (w.after pre).record g = (w.record g).after pre := by
  simp [Work.record, Work.after]

@[simp] theorem Work.setPointer_after (p : Option Nat) : (w.after pre).setPointer p = (w.setPointer p).after pre := by
  unfold Work.setPointer
  split
  next h => rw [if_pos (show w.e.pointer = p from h)]
  next h => rw [if_neg (show ¬w.e.pointer = p from h)]; rfl

@[simp] theorem Work.setButton_after (b : Button) : (w.after pre).setButton b = (w.setButton b).after pre := by
  unfold Work.setButton
  split
  next h => rw [if_pos (show w.e.button = b from h)]
  next h =>
    rw [if_neg (show ¬w.e.button = b from h)]
    simp [Work.after]

@[simp] theorem enterMulti_after (b : Bool) : enterMulti b (w.after pre) = (enterMulti b w).after pre := by
  simp only [enterMulti, Work.setPointer_after, Work.onEngine_after, Work.goto_after]

@[simp] theorem landIdle_after : landIdle v (w.after pre) = (landIdle v w).after pre := by
  unfold landIdle
  split <;> simp only [Work.setPointer_after, Work.goto_after, enterMulti_after]

@[simp] theorem endCoast_after : endCoast (w.after pre) = (endCoast w).after pre := by
  simp only [endCoast, Work.onEngine_after, Work.record_after, Work.goto_after]

@[simp] theorem landings_after : landings now v (w.after pre) = (landings now v w).after pre := by
  unfold landings landTapWait landClicked
  rw [Work.after_e]
  split <;> simp only [landIdle_after, enterMulti_after, Work.onEngine_after, Work.setPointer_after, Work.goto_after,
    endCoast_after]

@[simp] theorem retake_after : retake v (w.after pre) = (retake v w).after pre := by
  unfold retake
  rw [Work.after_e]
  dsimp only
  split <;> rfl

theorem stage2_after : stage2 now v (w.after pre) = (stage2 now v w).after pre := by
  unfold stage2
  split <;> simp only [landings_after, retake_after]

@[simp] theorem evalTouch_after : evalTouch t v (w.after pre) = (evalTouch t v w).after pre := by
  unfold evalTouch
  rw [Work.after_e]
  split
  · rfl
  · split
    · rfl
    · split <;> simp only [Work.setButton_after, Work.goto_after]

@[simp] theorem spoilCandidate_after : spoilCandidate t v (w.after pre) = (spoilCandidate t v w).after pre := by
  unfold spoilCandidate
  split <;> rfl

@[simp] theorem evalTwo_after : evalTwo t v (w.after pre) = (evalTwo t v w).after pre := by
  unfold evalTwo
  rw [Work.after_e]
  dsimp only
  split
  · rfl
  · split
    · rfl
    · exact spoilCandidate_after pre

@[simp] theorem evalSwipe_after : evalSwipe t v (w.after pre) = (evalSwipe t v w).after pre := by
  unfold evalSwipe
  rw [Work.after_e]
  split <;> simp only [spoilCandidate_after, Work.onEngine_after, Work.record_after, Work.goto_after]

theorem stage3_after : stage3 t v (w.after pre) = (stage3 t v w).after pre := by
  have hmulti : evalMulti t v (w.after pre) = (evalMulti t v w).after pre := by
    unfold evalMulti abandonMulti
    rw [Work.after_e]
    dsimp only
    split
    · rfl
    · split
      · split <;> simp only [spoilCandidate_after, Work.onEngine_after, Work.goto_after]
      · split
        · exact evalTwo_after pre
        · split <;> simp only [evalSwipe_after]
  unfold stage3
  rw [Work.after_e]
  split <;> simp only [evalTouch_after, hmulti]

end After

/-! ## Landings on an engine at rest -/

/-- The engine is in a state that fingers land in with nothing to depart from. -/
def atRest (v : PadView) (e : Engine) : Prop :=
  (e.state = .idle ∨ e.state = .tapWait ∨ e.state = .coasting) ∨ (e.state = .residual ∧ stayingOf v ≠ [])

theorem atRest.still (h : atRest v e) : e.state.moves = false := by
  rcases h with (h | h | h) | ⟨h, -⟩ <;> rw [h] <;> rfl

theorem atRest.stage1 (h : atRest v w.e) : stage1 t now v w = w := by
  rcases h with h | ⟨h, hstay⟩
  · exact stage1_of_fingerless h
  · exact stage1_of_residual_stays h hstay

/-- Where landings leave an engine at rest: in a state without motion, or with a pointer contact that landed in the frame. -/
def landsStill (v : PadView) (e : Engine) : Prop :=
  (e.state.moves = false ∧ e.state ≠ .scrolling ∧ e.state ≠ .pinching) ∨
    (e.state.moves = true ∧ ∃ c ∈ landedOf v, e.pointer = some c.entry.track)

theorem landsStill.stage4 {before : Engine} (h : landsStill v w.e) (hb : before.state.moves = false) :
    stage4 t dt v before w = w := by
  rcases h with ⟨hm, hs, hp⟩ | ⟨hm, -⟩
  · exact stage4_of_still hm hs hp
  · exact stage4_of_changed fun hs => Bool.noConfusion (hm.symm.trans ((congrArg GestureState.moves hs).trans hb))

theorem mostRecent_mem {es : List Entry} {x : Entry} (h : mostRecent now es = some x) : x ∈ es := by
  cases es with
  | nil => cases h
  | cons e es => exact Option.some.inj h ▸ foldl_laterLanded_mem now es e

/-- Fewer than two landings in IDLE touch, and TOUCH may go on to POINTING or HOLD_DRAG in the frame (R84, R85). -/
theorem evalTouch_landsStill (hs : w.e.state = .touch) (hc : c ∈ landedOf v) (hp : w.e.pointer = some c.entry.track) :
    landsStill v (evalTouch t v w).e := by
  have htouch : landsStill v w.e := .inl (by simp [hs, GestureState.moves])
  unfold evalTouch
  split
  · exact htouch
  · split
    · exact .inr ⟨rfl, c, hc, hp⟩
    · split
      · exact .inr ⟨rfl, c, hc, by simpa using hp⟩
      · exact htouch

/-- An episode that begins in the frame does not scroll or pinch in it (R91, R94). -/
theorem stage3_retake_landsStill (hs : w.e.state = .multi) (hset : w.e.landingSet = []) (hscroll : 0 < t.scrollStart) :
    landsStill v (stage3 t v (retake v w)).e := by
  have hmulti {u : Work} (hu : u.e.state = .multi) : landsStill v (spoilCandidate t v u).e :=
    .inl (by rw [spoilCandidate_state, hu]; decide)
  have hretake : (retake v w).e.state = .multi := by
    rw [retake_eq hs]
    split <;> exact hs
  rw [stage3_of_multi hretake]
  unfold evalMulti
  dsimp only
  split
  · exact .inl (by simp [abandonMulti, GestureState.moves])
  · split
    · split
      · exact hmulti hretake
      · exact .inl (by simp [abandonMulti, GestureState.moves])
    · split
      next htwo =>
        rw [PadView.fingers_eq] at htwo
        rw [retake_of_fresh hs hset htwo.ge (by omega), evalTwo_of_fresh rfl (if_pos htwo) hscroll]
        exact hmulti hs
      next =>
        split
        · exact .inl (by rw [hretake]; decide)
        · unfold evalSwipe
          split
          · exact .inl (by simp [GestureState.moves])
          · exact hmulti hretake

theorem landIdle_landsStill (hl : landedOf v ≠ []) (hscroll : 0 < t.scrollStart) :
    landsStill v (stage3 t v (retake v (landIdle v w))).e := by
  cases hland : landedOf v with
  | nil => exact absurd hland hl
  | cons c cs =>
    cases cs with
    | nil =>
      rw [landIdle_one hland, retake_of_settled GestureState.noConfusion, stage3_of_touch rfl]
      exact evalTouch_landsStill rfl (c := c) (by simp [hland]) (by simp)
    | cons d ds =>
      rw [landIdle_many (by simp [hland])]
      exact stage3_retake_landsStill (by rw [enterMulti_e]) (by rw [enterMulti_e]; rfl) hscroll

theorem stage3_landsStill (hr : atRest v w.e) (hl : landedOf v ≠ []) (hscroll : 0 < t.scrollStart) :
    landsStill v (stage3 t v (stage2 now v w)).e := by
  rcases hr with (hs | hs | hs) | ⟨hs, -⟩
  · rw [stage2_of_landing hl, landings_of_idle hs]
    exact landIdle_landsStill hl hscroll
  · rw [stage2_of_landing hl]
    obtain ⟨x, hx⟩ := Option.isSome_iff_exists.1
      (mostRecent_isSome now (es := v.landings.map (·.entry)) (by simpa [PadView.landings_eq] using hl))
    have hland : landings now v w = landTapWait now v w := by simp only [landings, hs]
    have hstate : (landTapWait now v w).e.state = .tapDrag := rfl
    rw [hland, retake_of_settled (by simp [hstate]), stage3_of_decided (by simp [hstate]) (by simp [hstate])]
    obtain ⟨c, hc, rfl⟩ := List.mem_map.1 (mostRecent_mem hx)
    exact .inr ⟨rfl, c, by rwa [← PadView.landings_eq], by simp [landTapWait, hx]⟩
  · rw [stage2_of_landing hl, landings_of_coasting hs]
    exact landIdle_landsStill hl hscroll
  · rw [stage2_of_ignored (by simp [hs]), stage3_of_decided (by simp [hs]) (by simp [hs])]
    exact .inl (by rw [hs]; decide)

/-- A frame that lands fingers on an engine at rest hands over no motion (R83). -/
theorem padFrame_of_rest_landing (hr : atRest v e) (hl : landedOf v ≠ []) (hscroll : 0 < t.scrollStart) :
    padFrame t now dt v e m = stage3 t v (stage2 now v ⟨e, m, []⟩) :=
  padFrame_eq hr.stage1 rfl rfl ((stage3_landsStill (w := ⟨e, m, []⟩) hr hl hscroll).stage4 hr.still)

/-- A coast that a landing ends, with what is handed over first (R101). -/
theorem stage2_of_coasting (hs : e.state = .coasting) (hl : landedOf v ≠ []) :
    stage2 now v ⟨e, m, out⟩ =
      stage2 now v (Work.after (out ++ [.gesture .scrollEnd])
        ⟨{ e with state := .idle, coastTimer := none, vcx := 0, vcy := 0 }, m, []⟩) := by
  have hend : endCoast ⟨e, m, out⟩ = Work.after (out ++ [.gesture .scrollEnd])
      ⟨{ e with state := .idle, coastTimer := none, vcx := 0, vcy := 0 }, m, []⟩ := by
    unfold endCoast Work.after
    rw [List.append_nil]
    exact Work.goto_of_still (e := { e with coastTimer := none, vcx := 0, vcy := 0 }) (by rw [hs]; rfl) rfl (by decide)
  rw [stage2_of_landing hl, stage2_of_landing hl, landings_of_coasting hs, hend, landings_of_idle rfl]

/-! ## The frames -/

/-- A frame that lands fingers and departs from nothing. -/
theorem padLandings_hold (t : Tables) (now : Stamp) (dt : Nat) (v : PadView) (e : Engine) (m : Motion) :
    padLandings t now dt v e m := by
  intro hno hl hnodup hscroll hswipe
  refine ⟨fun hs hp hb c hc => ?idle, fun hs => ?multi, fun hs => ?coasting, fun hs x hx => ?tapWait,
    fun hs x hx hne => ?clicked, fun hs hstay => ?residual, fun hs hstay => ?swiping⟩
  case idle =>
    have h1 : stage1 t now v ⟨e, m, []⟩ = ⟨e, m, []⟩ := stage1_of_fingerless (.inl hs)
    have h2 := stage2_of_one (now := now) (m := m) (out := []) hs hp hc
    have hentry : pointerEntry v { e with state := .touch, pointer := some c.entry.track } = some c :=
      pointerEntry_eq hnodup (mem_entries_of_landed (by simp [hc])) rfl
    refine ⟨fun ht => ?_, fun ht ha => ?_, fun ht ha => ?_⟩
    · refine padFrame_eq h1 h2 ((stage3_of_touch rfl).trans ((evalTouch_of_travel hentry ht).trans ?_))
        (stage4_of_changed (by simp [hs]))
      exact Work.goto_cleared (by decide)
    · refine padFrame_eq h1 h2 ((stage3_of_touch rfl).trans ((evalTouch_of_age hentry ht ha).trans ?_))
        (stage4_of_changed (by simp [hs]))
      rw [Work.setButton_of_ne (by rw [hb]; exact Button.noConfusion)]
      exact Work.goto_cleared (by decide)
    · exact padFrame_eq h1 h2 ((stage3_of_touch rfl).trans (evalTouch_of_young hentry ht ha))
        (stage4_of_changed (by simp [hs]))
  case multi =>
    have h1 : stage1 t now v ⟨e, m, []⟩ = ⟨e, m, []⟩ := by
      rcases hs with ⟨hs, -⟩ | ⟨hs, -⟩ | hs
      · exact stage1_of_fingerless (.inl hs)
      · exact stage1_of_not_gone hno.not_gone (by simp [hs])
      · exact stage1_of_not_gone hno.not_gone (by simp [hs])
    have hmulti : e.state ≠ .multi ∧ e.state ≠ .residual := by
      rcases hs with ⟨hs, -⟩ | ⟨hs, -⟩ | hs <;> rw [hs] <;> decide
    have hland := landings_multi (m := m) (out := []) (now := now) (candidate := decide (e.state ≠ .pointing)) hs
      decide_eq_true_iff
    have h2 := (stage2_of_landing (now := now) hl).trans (congrArg (retake v) hland)
    refine ⟨fun yes hyes h2n h4n => ?_, fun h5n => ?_⟩
    · exact padFrame_eq h1 h2 (stage3_of_entry rfl rfl rfl hscroll hswipe (by simpa using hyes) h2n h4n)
        (stage4_of_changed (Ne.symm hmulti.1))
    · exact padFrame_eq h1 h2 (stage3_of_crowd rfl h5n) (stage4_of_changed (Ne.symm hmulti.2))
  case coasting =>
    intro w'
    have hw' : w' = _ := padFrame_of_rest_landing (.inl (.inl rfl)) hl hscroll
    rw [hw', padFrame_of_rest_landing (.inl (.inr (.inr hs))) hl hscroll, stage2_of_coasting hs hl, stage2_after, stage3_after]
    rfl
  case tapWait =>
    have h2 : stage2 now v ⟨e, m, []⟩ =
        ⟨{ e with state := .tapDrag, pointer := some x.track, tapGapTimer := none }, pointerCleared m, []⟩ := by
      rw [stage2_of_landing hl, landings_tapWait hs hx]
      refine (retake_of_settled GestureState.noConfusion).trans ?_
      exact point_and_goto (e := { e with tapGapTimer := none }) rfl (by simp [hs])
    exact padFrame_eq (stage1_of_fingerless (.inr (.inl hs))) h2
      (stage3_of_decided GestureState.noConfusion GestureState.noConfusion) (stage4_of_changed (by simp [hs]))
  case clicked =>
    have h2 : stage2 now v ⟨e, m, []⟩ = ⟨{ e with pointer := some x.track }, pointerCleared m, []⟩ := by
      rw [stage2_of_landing hl, landings_clicked hs hx, Work.setPointer_of_ne hne]
      exact retake_of_settled (by simp [hs])
    exact padFrame_eq (stage1_of_not_gone hno.not_gone (by simp [hs])) h2
      (stage3_of_decided (by simp [hs]) (by simp [hs])) (stage4_of_pointer (by rw [hs]; rfl) (Ne.symm hne))
  case residual =>
    exact padFrame_eq (stage1_of_residual_stays hs hstay) (stage2_of_ignored (by simp [hs]))
      (stage3_of_decided (by simp [hs]) (by simp [hs])) (stage4_of_still (by rw [hs]; rfl) (by simp [hs]) (by simp [hs]))
  case swiping =>
    exact padFrame_eq (stage1_of_swiping_stays hs hstay) (stage2_of_ignored (by simp [hs]))
      (stage3_of_decided (by simp [hs]) (by simp [hs])) (stage4_of_still (by rw [hs]; rfl) (by simp [hs]) (by simp [hs]))

end Landings

end Sys2Proof.Machine
end

section
/-! The thresholds of TOUCH and of MULTI, and the motion of a pad frame that keeps its state (R83, R85, R91 to R97). -/

namespace Sys2Proof.Machine

section Thresholds

variable {t : Tables} {now : Stamp} {dt : Nat} {v : PadView} {e : Engine} {m : Motion} {out : List Out} {w : Work}
  {c : Classified}

/-! ## MULTI while fingers stay -/

theorem centroidTravel_eq {l : Point} (h : e.landingCentroid = some l) :
    centroidTravel v e = chebyshev l (centroidOf (fingersOf v)) := by
  simp only [centroidTravel, h, PadView.fingers_eq, centroid_positions]

theorem separationChange_eq {d : Nat} (h : e.landingSeparation = some d) :
    separationChange v e = ((separationOf (fingersOf v) : Int) - d).natAbs := by
  simp only [separationChange, h, PadView.fingers_eq, separation_positions]

theorem evalTwo_pinch (hs : e.state = .multi) (h : t.pinchStart ≤ separationChange v e)
    (htc : centroidTravel v e < separationChange v e) :
    evalTwo t v ⟨e, m, out⟩ =
      ⟨{ landingCleared e with
        state := .pinching, landingSet := e.landingSet, lastSeparation := some (max 1 (separationOf (fingersOf v))) }, m,
        out⟩ := by
  refine (if_pos ⟨h, htc⟩).trans ?_
  rw [PadView.fingers_eq, separation_positions]
  exact Work.goto_of_still (e := { landingCleared e with
    landingSet := e.landingSet, lastSeparation := some (max 1 (separationOf (fingersOf v))) })
    (by rw [landingCleared, hs]; rfl) rfl (by decide)

theorem evalTwo_scroll (hs : e.state = .multi)
    (h : separationChange v e < t.pinchStart ∨ separationChange v e ≤ centroidTravel v e)
    (htc : t.scrollStart ≤ centroidTravel v e) :
    evalTwo t v ⟨e, m, out⟩ =
      ⟨{ landingCleared e with
        state := .scrolling, landingSet := e.landingSet, lastCentroid := some (centroidOf (fingersOf v)) }, m.clearScroll,
        out⟩ := by
  have hno : ¬(t.pinchStart ≤ separationChange v e ∧ centroidTravel v e < separationChange v e) := by omega
  refine (if_neg hno).trans ((if_pos htc).trans ?_)
  simp [PadView.fingers_eq, centroid_positions, Work.goto, Work.onEngine, keepPair, Engine.clearLanding, landingCleared, hs,
    GestureState.moves]

theorem evalTwo_undecided (h : separationChange v w.e < t.pinchStart ∨ separationChange v w.e ≤ centroidTravel v w.e)
    (htc : centroidTravel v w.e < t.scrollStart) : evalTwo t v w = spoilCandidate t v w :=
  (if_neg (by omega)).trans (if_neg (Nat.not_le.2 htc))

theorem swipeDirectionOf_eq {dx dy : Int} {d : Direction}
    (h : (dy.natAbs ≤ dx.natAbs ∧ 0 < dx ∧ d = .right) ∨ (dy.natAbs ≤ dx.natAbs ∧ dx < 0 ∧ d = .left) ∨
      (dx.natAbs < dy.natAbs ∧ 0 < dy ∧ d = .down) ∨ (dx.natAbs < dy.natAbs ∧ dy < 0 ∧ d = .up)) :
    swipeDirectionOf dx dy = d := by
  unfold swipeDirectionOf
  rcases h with ⟨hle, hd, rfl⟩ | ⟨hle, hd, rfl⟩ | ⟨hlt, hd, rfl⟩ | ⟨hlt, hd, rfl⟩
  · rw [if_pos hle, if_pos hd]
  · rw [if_pos hle, if_neg (by omega)]
  · rw [if_neg (by omega), if_pos hd]
  · rw [if_neg (by omega), if_neg (by omega)]

theorem evalSwipe_begin {l : Point} {d : Direction} (hs : e.state = .multi) (hl : e.landingCentroid = some l)
    (htc : t.swipeStart ≤ centroidTravel v e)
    (hd : swipeDirectionOf (((centroidOf (fingersOf v)).x : Int) - l.x) (((centroidOf (fingersOf v)).y : Int) - l.y) = d) :
    evalSwipe t v ⟨e, m, out⟩ =
      ⟨{ landingCleared e with
        state := .swiping, swipeDirection := some d, swipeCount := some (fingersOf v).length }, m,
        out ++ [.gesture (.swipeBegin d (fingersOf v).length)]⟩ := by
  have hdisp : displacement v e =
      (((centroidOf (fingersOf v)).x : Int) - l.x, ((centroidOf (fingersOf v)).y : Int) - l.y) := by
    simp only [displacement, hl, Option.getD_some, PadView.fingers_eq, centroid_positions]
  refine (if_pos htc).trans ?_
  simp only [hdisp, hd, PadView.fingers_eq]
  exact Work.goto_of_still (e := { landingCleared e with swipeDirection := some d, swipeCount := some (fingersOf v).length })
    (by rw [landingCleared, hs]; rfl) rfl (by decide)

theorem evalSwipe_undecided (htc : centroidTravel v w.e < t.swipeStart) : evalSwipe t v w = spoilCandidate t v w :=
  if_neg (Nat.not_le.2 htc)

/-- The engine of a MULTI frame after its landings: the candidate judged on the departures, and the landing values taken afresh when
the finger set has changed (R91, R92). -/
def multiHeld (v : PadView) (e : Engine) (kept : Bool) : Engine :=
  if (fingersOf v).map (·.entry.track) ≠ e.landingSet ∧ 2 ≤ (fingersOf v).length ∧ (fingersOf v).length ≤ 4
  then { landingTaken (fingersOf v) e with tapCandidate := kept } else { e with tapCandidate := kept }

theorem multiHeld_state (v : PadView) (e : Engine) (kept : Bool) : (multiHeld v e kept).state = e.state := by
  unfold multiHeld
  split <;> rfl

theorem multiHeld_tapCandidate (v : PadView) (e : Engine) (kept : Bool) : (multiHeld v e kept).tapCandidate = kept := by
  unfold multiHeld
  split <;> rfl

theorem stage1_of_multi_stays {kept : Bool} (hs : e.state = .multi) (hstay : stayingOf v ≠ [])
    (hk : kept = true ↔ keepsCandidate t v e) :
    stage1 t now v ⟨e, m, out⟩ = ⟨{ e with tapCandidate := kept }, m, out⟩ := by
  rw [stage1_of_multi hs, departMulti_eq hk]
  exact if_neg (by simpa [PadView.staying_eq] using hstay)

theorem stage2_of_multi (hs : e.state = .multi) (kept : Bool) :
    stage2 now v ⟨{ e with tapCandidate := kept }, m, out⟩ = ⟨multiHeld v e kept, m, out⟩ := by
  have hland : landings now v ⟨{ e with tapCandidate := kept }, m, out⟩ = ⟨{ e with tapCandidate := kept }, m, out⟩ := by
    simp only [landings, hs]
  unfold stage2
  rw [hland, ite_self, retake_eq hs]
  unfold multiHeld
  split <;> rfl

/-- A frame in MULTI with fingers that stay is judged by stage 3 alone (R81, R91). -/
theorem padFrame_of_multi {kept : Bool} {w₃ : Work} (hs : e.state = .multi) (hstay : stayingOf v ≠ [])
    (hk : kept = true ↔ keepsCandidate t v e) (h₃ : evalMulti t v ⟨multiHeld v e kept, m, []⟩ = w₃)
    (hw : w₃.e.state ≠ .multi ∨ w₃.e.state = .multi) : padFrame t now dt v e m = w₃ := by
  refine padFrame_eq (stage1_of_multi_stays hs hstay hk) (stage2_of_multi hs kept)
    ((stage3_of_multi ((multiHeld_state v e kept).trans hs)).trans h₃) ?_
  rcases hw with hw | hw
  · exact stage4_of_changed (by rwa [hs])
  · exact stage4_of_still (by rw [hw]; rfl) (by simp [hw]) (by simp [hw])

/-- The thresholds of TOUCH and of MULTI. -/
theorem padThresholds_hold (t : Tables) (now : Stamp) (dt : Nat) (v : PadView) (e : Engine) (m : Motion) :
    padThresholds t now dt v e m := by
  refine ⟨fun hs hb hno hl hnodup c hc hp => ?touch, ?multi⟩
  case touch =>
    have h1 : stage1 t now v ⟨e, m, []⟩ = ⟨e, m, []⟩ := stage1_of_not_gone hno.not_gone (.inl hs)
    have h2 : stage2 now v ⟨e, m, []⟩ = ⟨e, m, []⟩ := stage2_of_no_landing now v _ hl (by simp [hs])
    have hentry : pointerEntry v e = some c := pointerEntry_eq hnodup hc hp
    refine ⟨fun ht => ?_, fun ht ha => ?_, fun ht ha => ?_⟩
    · refine padFrame_eq h1 h2 ((stage3_of_touch hs).trans ((evalTouch_of_travel hentry ht).trans ?_))
        (stage4_of_changed (by simp [hs]))
      exact Work.goto_of_moves (.inr rfl) (by simp [hs]) (by decide)
    · refine padFrame_eq h1 h2 ((stage3_of_touch hs).trans ((evalTouch_of_age hentry ht ha).trans ?_))
        (stage4_of_changed (by simp [hs]))
      rw [Work.setButton_of_ne (by rw [hb]; exact Button.noConfusion)]
      exact Work.goto_of_moves (.inr rfl) (by simp [hs]) (by decide)
    · exact padFrame_eq h1 h2 ((stage3_of_touch hs).trans (evalTouch_of_young hentry ht ha))
        (stage4_of_still (by rw [hs]; rfl) (by simp [hs]) (by simp [hs]))
  case multi =>
    intro hs hstay kept yes hk hyes
    have hframe {w₃ : Work} (h₃ : evalMulti t v ⟨multiHeld v e kept, m, []⟩ = w₃) : padFrame t now dt v e m = w₃ :=
      padFrame_of_multi hs hstay hk h₃ (ne_or_eq _ _)
    have hheld : (multiHeld v e kept).state = .multi := (multiHeld_state v e kept).trans hs
    have hcand : (multiHeld v e kept).tapCandidate = kept := multiHeld_tapCandidate v e kept
    have hspoil : spoilCandidate t v ⟨multiHeld v e kept, m, []⟩ =
        ⟨{ multiHeld v e kept with tapCandidate := yes }, m, []⟩ := spoilCandidate_eq (by rwa [hcand])
    have habandon : abandonMulti ⟨multiHeld v e kept, m, []⟩ =
        ⟨{ landingCleared (multiHeld v e kept) with state := .residual }, m, []⟩ := abandonMulti_eq hheld
    refine ⟨fun h5 => hframe ((evalMulti_of_many h5).trans habandon), fun h1 hkept => hframe ?single,
      fun h1 hkept => hframe ?candidate, fun l hl => ⟨?two, ?swipe⟩⟩
    case single =>
      exact (evalMulti_of_one h1).trans ((if_neg (Bool.eq_false_iff.1 (hcand.trans hkept))).trans habandon)
    case candidate =>
      exact (evalMulti_of_one h1).trans ((if_pos (hcand.trans hkept)).trans hspoil)
    case two =>
      intro h2 d hd
      have htc := centroidTravel_eq (v := v) (e := multiHeld v e kept) hl
      have hds := separationChange_eq (v := v) (e := multiHeld v e kept) hd
      refine ⟨fun hpinch hlt => ?_, fun hpinch hle => ?_, fun hpinch hlt => ?_⟩
      · exact hframe ((evalMulti_of_two h2).trans
          (evalTwo_pinch hheld (by rw [hds]; exact hpinch) (by rw [htc, hds]; exact hlt)))
      · exact hframe ((evalMulti_of_two h2).trans
          (evalTwo_scroll hheld (by rw [htc, hds]; exact hpinch) (by rw [htc]; exact hle)))
      · exact hframe ((evalMulti_of_two h2).trans
          ((evalTwo_undecided (by rw [htc, hds]; exact hpinch) (by rw [htc]; exact hlt)).trans hspoil))
    case swipe =>
      intro h3
      have htc := centroidTravel_eq (v := v) (e := multiHeld v e kept) hl
      refine ⟨fun d hle hdir => ?_, fun hlt => ?_⟩
      · exact hframe ((evalMulti_of_swipe h3).trans
          (evalSwipe_begin hheld hl (by rw [htc]; exact hle) (swipeDirectionOf_eq hdir)))
      · exact hframe ((evalMulti_of_swipe h3).trans ((evalSwipe_undecided (by rw [htc]; exact hlt)).trans hspoil))

end Thresholds

end Sys2Proof.Machine
end

section
/-! The motion of a pad frame that keeps its gesture state (R83, R115, R116, R118). -/

namespace Sys2Proof.Machine

section Moving

variable {t : Tables} {now : Stamp} {dt : Nat} {v : PadView} {e : Engine} {m : Motion} {out : List Out} {w : Work}
  {c : Classified}

/-! ## The pair of a scroll or pinch -/

/-- The fingers of the pair (R94). -/
def pairOf (v : PadView) (e : Engine) : List Classified := (fingersOf v).filter fun c => c.entry.track ∈ e.landingSet

theorem ofTracks_eq (v : PadView) (e : Engine) : ofTracks e.landingSet v.fingers = pairOf v e := by
  unfold ofTracks pairOf
  rw [PadView.fingers_eq]
  exact List.filter_congr fun c _ => by rw [List.contains_eq_mem]

theorem someLifting_iff (cs : List Classified) : someLifting cs = true ↔ ∃ c ∈ cs, c.entry.presence = .lifting := by
  simp [someLifting]

theorem moveScroll_of_present {l : Point} (hl : e.lastCentroid = some l)
    (h : ¬∃ c ∈ pairOf v e, c.entry.presence = .lifting) :
    moveScroll t dt v ⟨e, m, out⟩ =
      let c := centroidOf (pairOf v e)
      let r := scrollInput t m ((c.x : Int) - l.x) ((c.y : Int) - l.y) dt
      ⟨{ e with lastCentroid := some c }, r.1, out ++ [.motion e.button r.2]⟩ := by
  unfold moveScroll
  dsimp only
  rw [ofTracks_eq, centroid_positions, if_neg (mt (someLifting_iff _).1 h), hl]
  rfl

theorem moveScroll_of_lifting (h : ∃ c ∈ pairOf v e, c.entry.presence = .lifting) :
    moveScroll t dt v ⟨e, m, out⟩ = ⟨{ e with lastCentroid := some (centroidOf (pairOf v e)) }, m, out⟩ := by
  unfold moveScroll
  dsimp only
  rw [ofTracks_eq, centroid_positions, if_pos ((someLifting_iff _).2 h)]
  rfl

theorem movePinch_of_present {d : Nat} (hd : e.lastSeparation = some d)
    (h : ¬∃ c ∈ pairOf v e, c.entry.presence = .lifting) :
    movePinch v ⟨e, m, out⟩ =
      let c := max 1 (separationOf (pairOf v e))
      ⟨{ e with lastSeparation := some c }, m,
        out ++ [.motion e.button ⟨0, 0, 0, 0, Int.tdiv (((c : Int) - d) * 1024) d⟩]⟩ := by
  unfold movePinch
  dsimp only
  rw [ofTracks_eq, separation_positions, if_neg (mt (someLifting_iff _).1 h), hd]
  rfl

theorem movePinch_of_lifting (h : ∃ c ∈ pairOf v e, c.entry.presence = .lifting) :
    movePinch v ⟨e, m, out⟩ = ⟨{ e with lastSeparation := some (max 1 (separationOf (pairOf v e))) }, m, out⟩ := by
  unfold movePinch
  dsimp only
  rw [ofTracks_eq, separation_positions, if_pos ((someLifting_iff _).2 h)]
  rfl

/-! ## Frames that keep the state -/

theorem padFrame_of_scroll (hs : e.state = .scrolling)
    (hstay : ∀ id ∈ e.landingSet, ∃ c ∈ stayingOf v, c.entry.track = id) :
    padFrame t now dt v e m = moveScroll t dt v ⟨e, m, []⟩ := by
  refine padFrame_eq (stage1_of_pair_stays (.inl hs) hstay) (stage2_of_ignored (by simp [hs]))
    (stage3_of_decided (by simp [hs]) (by simp [hs])) ?_
  simp [stage4, hs, GestureState.moves]

theorem padFrame_of_pinch (hs : e.state = .pinching)
    (hstay : ∀ id ∈ e.landingSet, ∃ c ∈ stayingOf v, c.entry.track = id) :
    padFrame t now dt v e m = movePinch v ⟨e, m, []⟩ := by
  refine padFrame_eq (stage1_of_pair_stays (.inr hs) hstay) (stage2_of_ignored (by simp [hs]))
    (stage3_of_decided (by simp [hs]) (by simp [hs])) ?_
  simp [stage4, hs, GestureState.moves]

/-- A landing in CLICKED keeps the pointer contact that is still the most recently landed finger (R104). -/
theorem stage2_of_kept {x : Entry} (hs : e.state = .clicked) (hx : mostRecentlyLanded now ((fingersOf v).map (·.entry)) x)
    (hp : e.pointer = some x.track) : stage2 now v ⟨e, m, out⟩ = ⟨e, m, out⟩ := by
  by_cases hl : landedOf v = []
  · exact stage2_of_no_landing now v _ hl (by simp [hs])
  · rw [stage2_of_landing hl, landings_clicked hs hx, Work.setPointer_of_eq _ hp]
    exact retake_of_settled (by simp [hs])

/-- The states and landings under which a frame keeps its pointer contact (R83, R87, R88, R90, R104). -/
def keepsPointer (now : Stamp) (v : PadView) (e : Engine) : Prop :=
  ((e.state = .pointing ∨ e.state = .clicked) ∧ landedOf v = []) ∨
    (e.state = .clicked ∧ ∃ x, mostRecentlyLanded now ((fingersOf v).map (·.entry)) x ∧ e.pointer = some x.track) ∨
    e.state = .holdDrag ∨ e.state = .tapDrag

theorem keepsPointer.state (h : keepsPointer now v e) :
    e.state = .pointing ∨ e.state = .holdDrag ∨ e.state = .tapDrag ∨ e.state = .clicked := by
  rcases h with ⟨h | h, -⟩ | ⟨h, -⟩ | h | h <;> simp [h]

theorem keepsPointer.stage2 (h : keepsPointer now v e) : stage2 now v ⟨e, m, out⟩ = ⟨e, m, out⟩ := by
  rcases h with ⟨h, hl⟩ | ⟨hs, x, hx, hp⟩ | h
  · exact stage2_of_no_landing now v _ hl (by rcases h with h | h <;> simp [h])
  · exact stage2_of_kept hs hx hp
  · exact stage2_of_ignored (by rcases h with h | h <;> simp [h])

theorem padFrame_of_keepsPointer (h : keepsPointer now v e) (hno : ¬pointerGone v e) :
    padFrame t now dt v e m = movePointer t dt v ⟨e, m, []⟩ := by
  have hs := h.state
  refine padFrame_eq (stage1_of_not_gone hno (.inr hs)) h.stage2 (stage3_of_decided ?_ ?_) (stage4_of_moves rfl ?_ rfl)
  · rcases hs with hs | hs | hs | hs <;> simp [hs]
  · rcases hs with hs | hs | hs | hs <;> simp [hs]
  · rcases hs with hs | hs | hs | hs <;> rw [hs] <;> rfl

/-- A frame that keeps its gesture state and its pointer contact or pair. -/
theorem padMotion_hold (t : Tables) (now : Stamp) (dt : Nat) (v : PadView) (e : Engine) (m : Motion) :
    padMotion t now dt v e m := by
  have hstill {e : Engine} (hs : e.state.moves = false) (hsc : e.state ≠ .scrolling) (hpi : e.state ≠ .pinching)
      (ht : e.state ≠ .touch) (hm : e.state ≠ .multi) (h1 : stage1 t now v ⟨e, m, []⟩ = ⟨e, m, []⟩)
      (h2 : stage2 now v ⟨e, m, []⟩ = ⟨e, m, []⟩) : padFrame t now dt v e m = ⟨e, m, []⟩ :=
    padFrame_eq h1 h2 (stage3_of_decided ht hm) (stage4_of_still hs hsc hpi)
  refine ⟨fun hkeep hno hnodup c hc hp => ⟨fun hnew hbefore hpres => ?moved, fun hun => ?unmoved⟩,
    fun hs hstay l hl => ⟨fun h => ?scrolled, fun h => ?scrollLifting⟩,
    fun hs hstay d hd => ⟨fun h => ?pinched, fun h => ?pinchLifting⟩, fun hs hl => ?fingerless, fun hs h => ?residual,
    fun hs h => ?swiping⟩
  case moved =>
    exact (padFrame_of_keepsPointer hkeep hno).trans
      (movePointer_of_present (pointerEntry_eq hnodup hc hp) hnew hbefore hpres)
  case unmoved =>
    exact (padFrame_of_keepsPointer hkeep hno).trans (movePointer_of_unmoved (pointerEntry_eq hnodup hc hp) hun)
  case scrolled => exact (padFrame_of_scroll hs hstay).trans (moveScroll_of_present hl h)
  case scrollLifting => exact (padFrame_of_scroll hs hstay).trans (moveScroll_of_lifting h)
  case pinched => exact (padFrame_of_pinch hs hstay).trans (movePinch_of_present hd h)
  case pinchLifting => exact (padFrame_of_pinch hs hstay).trans (movePinch_of_lifting h)
  case fingerless =>
    have hst : e.state.moves = false ∧ e.state ≠ .scrolling ∧ e.state ≠ .pinching ∧ e.state ≠ .touch ∧ e.state ≠ .multi := by
      rcases hs with hs | hs | hs <;> rw [hs] <;> decide
    obtain ⟨hm, hsc, hpi, ht, hmu⟩ := hst
    exact hstill hm hsc hpi ht hmu (stage1_of_fingerless hs) (stage2_of_no_landing now v _ hl hmu)
  case residual =>
    exact hstill (by rw [hs]; rfl) (by simp [hs]) (by simp [hs]) (by simp [hs]) (by simp [hs])
      (stage1_of_residual_stays hs h) (stage2_of_ignored (by simp [hs]))
  case swiping =>
    exact hstill (by rw [hs]; rfl) (by simp [hs]) (by simp [hs]) (by simp [hs]) (by simp [hs])
      (stage1_of_swiping_stays hs h) (stage2_of_ignored (by simp [hs]))

end Moving

end Sys2Proof.Machine
end

section
/-! Pad frames that both depart from their gesture state and land fingers: the departures act alone first, and the landings then act
alone on what they leave (R81); and what every pad frame does in its gesture state. -/

namespace Sys2Proof.Machine

section Turnovers

variable {t : Tables} {now : Stamp} {dt : Nat} {v : PadView} {e : Engine} {m : Motion} {out : List Out} {w : Work}
  {c : Classified}

/-! ## The two halves of a frame -/

theorem fingersOf_withoutLandings (v : PadView) : fingersOf (withoutLandings v) = stayingOf v := by
  unfold stayingOf fingersOf withoutLandings
  rw [List.filter_filter, List.filter_filter]
  refine List.filter_congr fun c _ => ?_
  by_cases hc : c.entry.cls = .finger <;> simp [hc]

theorem landedOf_withoutLandings (v : PadView) : landedOf (withoutLandings v) = [] := by
  unfold landedOf
  rw [fingersOf_withoutLandings, List.filter_eq_nil_iff]
  intro c hc
  simpa using (List.mem_filter.1 hc).2

theorem staying_withoutLandings (v : PadView) : (withoutLandings v).staying = v.staying := by
  rw [PadView.staying_eq, PadView.staying_eq, stayingOf_of_landedOf_nil _ (landedOf_withoutLandings v),
    fingersOf_withoutLandings]

theorem withdrawals_withoutLandings (v : PadView) : (withoutLandings v).withdrawals = v.withdrawals := by
  unfold PadView.withdrawals withoutLandings
  rw [List.filter_filter]
  refine List.filter_congr fun c _ => ?_
  by_cases hc : c.entry.cls = .finger <;> simp [hc]

/-- Stage 1 does not see the landings of a frame (R81). -/
theorem stage1_withoutLandings (w : Work) : stage1 t now (withoutLandings v) w = stage1 t now v w := by
  have hlift (e : Engine) : liftOfPointer (withoutLandings v) e = liftOfPointer v e := rfl
  have hlifts : (withoutLandings v).lifts = v.lifts := rfl
  have hwd (e : Engine) : pointerWithdrawn (withoutLandings v) e = pointerWithdrawn v e := by
    unfold pointerWithdrawn
    rw [withdrawals_withoutLandings]
  have hpair (e : Engine) : pairDeparted (withoutLandings v) e = pairDeparted v e := by
    unfold pairDeparted
    rw [staying_withoutLandings]
  simp only [stage1, departTouch, departPointing, departHoldDrag, departTapDrag, departMulti, departScrolling, departPinching,
    departSwiping, departClicked, departResidual, hlift, hlifts, hwd, hpair, staying_withoutLandings,
    withdrawals_withoutLandings]

theorem fingersOf_withoutDepartures (v : PadView) : fingersOf (withoutDepartures v) = fingersOf v := by
  unfold fingersOf withoutDepartures
  rw [List.filter_filter]
  refine List.filter_congr fun c _ => ?_
  by_cases hc : c.entry.cls = .finger <;> simp [hc]

theorem landedOf_withoutDepartures (v : PadView) : landedOf (withoutDepartures v) = landedOf v := by
  unfold landedOf
  rw [fingersOf_withoutDepartures]

theorem stayingOf_withoutDepartures (v : PadView) : stayingOf (withoutDepartures v) = stayingOf v := by
  unfold stayingOf
  rw [fingersOf_withoutDepartures]

/-- Stage 2 does not see the departures of a frame (R81). -/
theorem stage2_withoutDepartures (w : Work) : stage2 now (withoutDepartures v) w = stage2 now v w := by
  have hf : (withoutDepartures v).fingers = v.fingers := by
    rw [PadView.fingers_eq, PadView.fingers_eq, fingersOf_withoutDepartures]
  have hl : (withoutDepartures v).landings = v.landings := by
    rw [PadView.landings_eq, PadView.landings_eq, landedOf_withoutDepartures]
  unfold stage2 retake landings landIdle landTapWait landClicked
  rw [hf, hl]

theorem nodup_withoutDepartures (h : (v.entries.map (·.entry.track)).Nodup) :
    ((withoutDepartures v).entries.map (·.entry.track)).Nodup :=
  h.sublist (List.Sublist.map _ List.filter_sublist)

/-- Stage 3 does not see the departures either, once the pointer contact of a TOUCH is a finger that landed (R81, R85). -/
theorem stage3_withoutDepartures (hnodup : (v.entries.map (·.entry.track)).Nodup)
    (h : w.e.state = .touch → ∃ c ∈ landedOf v, w.e.pointer = some c.entry.track) :
    stage3 t (withoutDepartures v) w = stage3 t v w := by
  have hf : (withoutDepartures v).fingers = v.fingers := by
    rw [PadView.fingers_eq, PadView.fingers_eq, fingersOf_withoutDepartures]
  by_cases hs : w.e.state = .touch
  · obtain ⟨c, hc, hp⟩ := h hs
    have hc' : c ∈ (withoutDepartures v).entries := mem_entries_of_landed (by rwa [landedOf_withoutDepartures])
    rw [stage3_of_touch hs, stage3_of_touch hs, evalTouch, evalTouch, pointerEntry_eq hnodup (mem_entries_of_landed hc) hp,
      pointerEntry_eq (nodup_withoutDepartures hnodup) hc' hp]
  · by_cases hm : w.e.state = .multi
    · rw [stage3_of_multi hm, stage3_of_multi hm]
      unfold evalMulti evalTwo evalSwipe spoilCandidate centroidTravel separationChange displacement
      rw [hf]
    · rw [stage3_of_decided hs hm, stage3_of_decided hs hm]

/-- A TOUCH that begins in the frame has a finger that landed as its pointer contact (R84). -/
theorem stage2_touch_pointer (hr : atRest v w.e) (hl : landedOf v ≠ []) (hs : (stage2 now v w).e.state = .touch) :
    ∃ c ∈ landedOf v, (stage2 now v w).e.pointer = some c.entry.track := by
  have hidle {u : Work} (hu : (retake v (landIdle v u)).e.state = .touch) :
      ∃ c ∈ landedOf v, (retake v (landIdle v u)).e.pointer = some c.entry.track := by
    cases hland : landedOf v with
    | nil => exact absurd hland hl
    | cons c cs =>
      cases cs with
      | nil =>
        rw [landIdle_one hland, retake_of_settled GestureState.noConfusion]
        exact ⟨c, by simp, by simp⟩
      | cons d ds =>
        rw [landIdle_many (by simp [hland]), retake_eq (by rw [enterMulti_e])] at hu
        split at hu <;> simp [landingTaken, enterMulti_e] at hu
  rw [stage2_of_landing hl] at hs ⊢
  rcases hr with (h | h | h) | ⟨h, -⟩
  · rw [landings_of_idle h] at hs ⊢
    exact hidle hs
  · have hland : landings now v w = landTapWait now v w := by simp only [landings, h]
    rw [hland, retake_of_settled GestureState.noConfusion] at hs
    cases hs
  · rw [landings_of_coasting h] at hs ⊢
    exact hidle hs
  · have hland : landings now v w = w := by simp only [landings, h]
    rw [hland, retake_of_settled (by simp [h]), h] at hs
    cases hs

/-! ## Departures -/

/-- The frame departs from its gesture state (R81). -/
def departs (v : PadView) (e : Engine) : Prop :=
  ((e.state = .touch ∨ e.state = .pointing ∨ e.state = .holdDrag ∨ e.state = .tapDrag) ∧ pointerGone v e) ∨
    (e.state = .multi ∧ stayingOf v = []) ∨
    ((e.state = .scrolling ∨ e.state = .pinching) ∧ ∃ id ∈ e.landingSet, ∀ c ∈ stayingOf v, c.entry.track ≠ id) ∨
    (e.state = .swiping ∧ ∃ n ∈ e.swipeCount, (stayingOf v).length < n) ∨ (e.state = .residual ∧ stayingOf v = [])

theorem atRest_of_restState (h : e.state = restState v.staying.length) : atRest v e := by
  rw [PadView.staying_eq] at h
  unfold restState at h
  split at h
  next => exact .inl (.inl h)
  next hlen => exact .inr ⟨h, fun hs => hlen (by rw [hs]; rfl)⟩

theorem departTouch_atRest (h : pointerGone v w.e) : atRest v (departTouch t now v w).e := by
  have hgone := (pointerGone_iff v w.e).2 h
  unfold departTouch
  cases hlift : liftOfPointer v w.e with
  | some l =>
    dsimp only
    split
    · exact .inl (.inr (.inl rfl))
    · exact .inl (.inl rfl)
  | none =>
    rw [hlift] at hgone
    exact .inl (.inl (by rw [if_pos (by simpa using hgone)]; rfl))

theorem departTapDrag_atRest (h : pointerGone v w.e) : atRest v (departTapDrag t v w).e := by
  have hgone := (pointerGone_iff v w.e).2 h
  unfold departTapDrag
  cases hlift : liftOfPointer v w.e with
  | some l => exact atRest_of_restState rfl
  | none =>
    rw [hlift] at hgone
    exact atRest_of_restState (by rw [if_pos (by simpa using hgone)]; rfl)

theorem departScrolling_atRest (h : pairDeparted v w.e = true) : atRest v (departScrolling t now v w).e := by
  unfold departScrolling
  rw [if_pos h]
  dsimp only
  split
  · unfold endScroll
    dsimp only
    split
    · exact .inl (.inr (.inr rfl))
    · exact .inl (.inl rfl)
  next hstay => exact .inr ⟨rfl, by simpa [PadView.staying_eq] using hstay⟩

/-- A departure leaves the engine in a state that fingers land in with nothing to depart from (R86 to R99). -/
theorem departs.stage1_atRest (h : departs v e) : atRest v (stage1 t now v ⟨e, m, out⟩).e := by
  rcases h with ⟨hs | hs | hs | hs, hg⟩ | ⟨hs, hstay⟩ | ⟨hs | hs, hpair⟩ | ⟨hs, n, hn, hlen⟩ | ⟨hs, hstay⟩
  · rw [stage1_of_touch hs]
    exact departTouch_atRest hg
  · rw [stage1_of_pointing hs, departPointing_of_gone hg]
    exact .inl (.inl rfl)
  · rw [stage1_of_holdDrag hs, departHoldDrag, if_pos ((pointerGone_iff v e).2 hg)]
    exact atRest_of_restState rfl
  · rw [stage1_of_tapDrag hs]
    exact departTapDrag_atRest hg
  · rw [stage1_of_multi hs]
    unfold departMulti
    dsimp only
    rw [if_pos (by simp [PadView.staying_eq, hstay])]
    exact .inl (.inl rfl)
  · rw [stage1_of_scrolling hs]
    exact departScrolling_atRest (pairDeparted_of_staying.2 hpair)
  · rw [stage1_of_pinching hs, departPinching_of_departed hs (pairDeparted_of_staying.2 hpair)]
    exact atRest_of_restState rfl
  · rw [stage1_of_swiping hs, departSwiping, if_pos (by rw [PadView.staying_eq, Option.mem_def.1 hn]; exact hlen)]
    exact atRest_of_restState rfl
  · rw [stage1_of_residual hs, departResidual_of_none hs (by rw [PadView.staying_eq, hstay])]
    exact .inl (.inl rfl)

theorem departs.stage1_changes (h : departs v e) : (stage1 t now v ⟨e, m, out⟩).e.state ≠ e.state := by
  have hrest : atRest v (stage1 t now v ⟨e, m, out⟩).e := h.stage1_atRest
  have hne : e.state ≠ .idle ∧ e.state ≠ .tapWait ∧ e.state ≠ .coasting := by
    rcases h with ⟨hs | hs | hs | hs, -⟩ | ⟨hs, -⟩ | ⟨hs | hs, -⟩ | ⟨hs, -⟩ | ⟨hs, -⟩ <;> rw [hs] <;> decide
  obtain ⟨hi, ht, hc⟩ := hne
  rcases hrest with (hw | hw | hw) | ⟨hw, hstay⟩
  · rw [hw]; exact hi.symm
  · rw [hw]; exact ht.symm
  · rw [hw]; exact hc.symm
  · rw [hw]
    rintro hs
    rcases h with ⟨hs' | hs' | hs' | hs', -⟩ | ⟨hs', -⟩ | ⟨hs' | hs', -⟩ | ⟨hs', -⟩ | ⟨-, hempty⟩
    case inr.inr.inr.inr => exact hstay hempty
    all_goals rw [hs'] at hs; cases hs

/-- The departures of a frame alone (R81). -/
theorem padFrame_withoutLandings (h : departs v e) :
    padFrame t now dt (withoutLandings v) e m = stage1 t now v ⟨e, m, []⟩ := by
  have hrest : atRest v (stage1 t now v ⟨e, m, []⟩).e := h.stage1_atRest
  have hstate : (stage1 t now v ⟨e, m, []⟩).e.state ≠ .multi ∧ (stage1 t now v ⟨e, m, []⟩).e.state ≠ .touch := by
    rcases hrest with (hw | hw | hw) | ⟨hw, -⟩ <;> rw [hw] <;> decide
  exact padFrame_of_departure t now dt _ e m _ (landedOf_withoutLandings v) (stage1_withoutLandings _) h.stage1_changes
    hstate.1 hstate.2

/-! ## The whole frame -/

/-- A track that departs stands in the frame as a finger only when it is that of an entry admitted in it. -/
theorem readmitted_of_gone (hnodup : (v.entries.map (·.entry.track)).Nodup)
    (hlift : ∀ l ∈ v.lifted, ∀ c ∈ v.entries, c.entry.track = l.track → c.isNew = true ∧ c.before ≠ .finger)
    (hg : pointerGone v e) (hc : c ∈ fingersOf v) (hp : e.pointer = some c.entry.track) :
    c.isNew = true ∧ c.before ≠ .finger := by
  obtain ⟨hmem, hcls⟩ := List.mem_filter.1 hc
  obtain ⟨p, hp', ⟨l, hl, -, htrack⟩ | ⟨d, hd, -, hnot, htrack⟩⟩ := hg
  · exact hlift l hl c hmem (by rw [htrack]; exact Option.some.inj (hp.symm.trans hp'))
  · have : c.entry.track = d.entry.track := (Option.some.inj (hp.symm.trans hp')).trans htrack.symm
    rw [List.inj_on_of_nodup_map hnodup hmem hd this] at hcls
    exact absurd (by simpa using hcls) hnot

/-- No motion follows when the frame's departure and landing leave a state without motion or a contact that landed (R83). -/
theorem departs.stage4 (h : departs v e) (hnodup : (v.entries.map (·.entry.track)).Nodup)
    (hlift : ∀ l ∈ v.lifted, ∀ c ∈ v.entries, c.entry.track = l.track → c.isNew = true ∧ c.before ≠ .finger)
    (hw : landsStill v w.e) : stage4 t dt v e w = w := by
  rcases hw with ⟨hm, hs, hp⟩ | ⟨hm, c, hc, hp⟩
  · exact stage4_of_still hm hs hp
  · by_cases hstate : w.e.state = e.state
    · by_cases hpointer : w.e.pointer = e.pointer
      · rw [stage4_of_moves hstate hm hpointer]
        have hg : pointerGone v e := by
          rw [hstate] at hm
          rcases h with ⟨-, hg⟩ | ⟨hs, -⟩ | ⟨hs | hs, -⟩ | ⟨hs, -⟩ | ⟨hs, -⟩
          case inl => exact hg
          all_goals rw [hs] at hm; cases hm
        have hnew := (readmitted_of_gone hnodup hlift hg (List.mem_filter.1 hc).1 (hpointer ▸ hp)).1
        exact movePointer_of_unmoved (pointerEntry_eq hnodup (mem_entries_of_landed hc) hp) (.inl hnew)
      · exact stage4_of_pointer hm hpointer
    · exact stage4_of_changed hstate

/-- A frame that departs and lands: its landings act on what its departures leave, and what is handed over stands in this order
(R81, R107). -/
theorem padFrame_of_turnover (h : departs v e) (hl : landedOf v ≠ []) (hnodup : (v.entries.map (·.entry.track)).Nodup)
    (hscroll : 0 < t.scrollStart)
    (hlift : ∀ l ∈ v.lifted, ∀ c ∈ v.entries, c.entry.track = l.track → c.isNew = true ∧ c.before ≠ .finger) :
    let gone := stage1 t now v ⟨e, m, []⟩
    let came := padFrame t now dt (withoutDepartures v) gone.e gone.m
    padFrame t now dt v e m = ⟨came.e, came.m, gone.out ++ came.out⟩ := by
  intro gone came
  have hrest : atRest v gone.e := h.stage1_atRest
  have hcame : came = stage3 t v (stage2 now v ⟨gone.e, gone.m, []⟩) := by
    have hrest' : atRest (withoutDepartures v) gone.e := by unfold atRest; rwa [stayingOf_withoutDepartures]
    rw [← stage3_withoutDepartures hnodup (stage2_touch_pointer (w := ⟨gone.e, gone.m, []⟩) hrest hl), ← stage2_withoutDepartures]
    exact padFrame_of_rest_landing hrest' (by rwa [landedOf_withoutDepartures]) hscroll
  have hgone : gone = Work.after gone.out ⟨gone.e, gone.m, []⟩ := by rw [Work.after, List.append_nil]
  have hframe : stage3 t v (stage2 now v gone) = came.after gone.out := by
    rw [hcame, ← stage3_after, ← stage2_after, ← hgone]
  refine padFrame_eq rfl rfl hframe (h.stage4 hnodup hlift ?_)
  rw [Work.after_e, hcame]
  exact stage3_landsStill hrest hl hscroll

/-! ## CLICKED -/

theorem stage1_of_clicked_state (hs : w.e.state = .clicked) : (stage1 t now v w).e.state = .clicked := by
  rw [stage1_of_clicked hs]
  unfold departClicked
  split
  · simpa using hs
  · exact hs

/-- In CLICKED a departed pointer contact passes on twice when fingers land; the residues are cleared at the first (R104). -/
theorem stage1_then_point {p : Option Nat} (hs : e.state = .clicked) (hnodup : (v.entries.map (·.entry.track)).Nodup)
    (hlift : ∀ l ∈ v.lifted, ∀ c ∈ v.entries, c.entry.track = l.track → c.isNew = true ∧ c.before ≠ .finger)
    (h : pointerGone v e ∨ e.pointer ≠ p) :
    (stage1 t now v ⟨e, m, out⟩).setPointer p = ⟨{ e with pointer := p }, pointerCleared m, out⟩ := by
  by_cases hg : pointerGone v e
  · have hne : e.pointer ≠ (mostRecent now (v.staying.map (·.entry))).map (·.track) := fun hp => by
      cases hx : mostRecent now (v.staying.map (·.entry)) with
      | none => exact hg.pointer_ne (by rw [hp, hx]; rfl)
      | some x =>
        obtain ⟨c, hc, rfl⟩ := List.mem_map.1 (mostRecent_mem hx)
        rw [PadView.staying_eq] at hc
        obtain ⟨hfinger, hbefore⟩ := List.mem_filter.1 hc
        exact (readmitted_of_gone hnodup hlift hg hfinger (by rw [hp, hx]; rfl)).2 (by simpa using hbefore)
    rw [stage1_of_clicked hs, departClicked_of_gone hg, Work.setPointer_of_ne hne]
    by_cases hp : (mostRecent now (v.staying.map (·.entry))).map (·.track) = p
    · rw [Work.setPointer_of_eq _ hp, ← hp]
    · rw [Work.setPointer_of_ne hp]
      rfl
  · rw [stage1_of_not_gone hg (by simp [hs]), Work.setPointer_of_ne (h.resolve_left hg)]

/-- A frame that departs from its gesture state and also lands fingers. -/
theorem padTurnovers_hold (t : Tables) (now : Stamp) (dt : Nat) (v : PadView) (e : Engine) (m : Motion) :
    padTurnovers t now dt v e m := by
  intro hl hnodup hscroll hlift
  refine ⟨fun h => ?turnover, fun hs x hx hmoved => ?clicked⟩
  case turnover =>
    have hdep : departs v e := h
    rw [padFrame_withoutLandings hdep]
    exact padFrame_of_turnover hdep hl hnodup hscroll hlift
  case clicked =>
    have h2 : stage2 now v (stage1 t now v ⟨e, m, []⟩) = ⟨{ e with pointer := some x.track }, pointerCleared m, []⟩ := by
      rw [stage2_of_landing hl, landings_clicked (stage1_of_clicked_state hs) hx]
      rw [stage1_then_point hs hnodup hlift hmoved]
      exact retake_of_settled (by simp [hs])
    refine padFrame_eq rfl h2 (stage3_of_decided (by simp [hs]) (by simp [hs])) ?_
    by_cases hp : e.pointer = some x.track
    · obtain ⟨c, hc, rfl⟩ := List.mem_map.1 hx.1
      have hnew := (readmitted_of_gone hnodup hlift (hmoved.resolve_right (not_not_intro hp)) hc hp).1
      refine (stage4_of_moves (before := e) rfl (show e.state.moves = true by rw [hs]; rfl) hp.symm).trans ?_
      exact movePointer_of_unmoved (pointerEntry_eq hnodup (List.mem_filter.1 hc).1 rfl) (.inl hnew)
    · exact stage4_of_pointer (by rw [hs]; rfl) (Ne.symm hp)

/-! ## The obligation -/

/-- Settles O16: each part of the statement is the frame's four stages followed through the states it names. -/
theorem liftInTouchTaps : Obligations.LiftInTouchTaps := fun t now dt v e m =>
  ⟨padDepartures_hold t now dt v e m, padLandings_hold t now dt v e m, padThresholds_hold t now dt v e m,
    padMotion_hold t now dt v e m, padTurnovers_hold t now dt v e m⟩

end Turnovers

end Sys2Proof.Machine
end
